-- ==== Sys2Proof/Word.lean ====
section
/-! DEFINITION. The word types of the QRD core: bytes, 32-bit registers, binary64 encodings and binary64 values. -/

namespace Sys2Proof

/-- A byte of a memory window; also an element of GF(2^8) (R100). -/
abbrev Byte := BitVec 8

/-- A 32-bit register, a bus word, a command word (R8, R76). -/
abbrev Word := BitVec 32

/-- The encoding of a binary64 value, as an `F` register holds it (R40). -/
abbrev Bits64 := BitVec 64

/-- An IEEE 754 binary64 value (R7). `fin neg mant exp` is `(-1)^neg * mant * 2^exp`, kept in the one form
`mant < 2^53`, `-1074 <= exp <= 971`, and `2^52 <= mant` unless `exp = -1074`. All NaNs are one value: no
rule tells them apart (the encoding of a NaN result is a free value, log 8). -/
inductive F64 where
  | nan
  | inf (neg : Bool)
  | fin (neg : Bool) (mant : Nat) (exp : Int)
  deriving DecidableEq, Repr

/-- The low `n` bits of a natural number as a 32-bit word: a result written to a 32-bit register. -/
abbrev Word.ofNat (n : Nat) : Word := BitVec.ofNat 32 n

end Sys2Proof
end

