-- ==== Sys2Proof/Config.lean ====
section
/-! DEFINITION. What an implementation fixes (the parameters of R6) and the free values: what the spec leaves open. -/

namespace Sys2Proof

/-- Rounding of the run walker's initial error (R6, R182). -/
inductive BresenhamDiv where
  | trunc
  | floor
  deriving DecidableEq, Repr

/-- The parameters of R6 that are not fixed numbers. A machine's parameters never change; they stand in
`State.params`, so that a statement about every state is a statement about every machine (log 5). -/
structure Params where
  /-- `QRD_BASE` counted in blocks of 2 MiB (R6: any multiple of 2 MiB). -/
  baseBlock : Nat
  maxImgW : Nat
  maxImgH : Nat
  maxFinderCand : Nat
  maxAlignCand : Nat
  bresenham : BresenhamDiv
  deriving DecidableEq, Repr

/-- The defaults of R6 (revision QRD1). `QRD_BASE` is OPEN there: 0 is a DESIGN CHOICE (log 5). -/
def Params.qrd1 : Params where
  baseBlock := 0
  maxImgW := 2048
  maxImgH := 2048
  maxFinderCand := 64
  maxAlignCand := 64
  bresenham := .trunc

/-- The legal ranges of R6. -/
abbrev Params.legal (p : Params) : Prop :=
  1 ≤ p.maxImgW ∧ p.maxImgW ≤ 2048 ∧ 1 ≤ p.maxImgH ∧ p.maxImgH ≤ 2048 ∧
    3 ≤ p.maxFinderCand ∧ 1 ≤ p.maxAlignCand

/-- `MAX_GRID` (R6: fixed). -/
abbrev maxGrid : Nat := 177

/-- `POLY_MAX_LEN` (R6: fixed). -/
abbrev polyMaxLen : Nat := 512

/-- Free value: the byte at `addr` that reset number `draw` left unspecified (R51, R360; log 6). -/
opaque Config.resetByte (draw addr : Nat) : Byte

/-- Free value: what a host read of offset `off` returns while a command runs (R372; log 7). -/
opaque Config.busyRead (draw off : Nat) : Word

/-- Free value: the bits of a NaN result that IEEE 754 leaves open (log 8). -/
opaque Config.nanBits (draw : Nat) : Bits64

/-- Free value: module `(x, y)` of the function pattern of `version`, outside that pattern's square, which
only a stale version cache makes a command read (R287, R376; log 10). -/
opaque Config.fnpatOutside (version x y : Nat) : Bool

end Sys2Proof
end

