-- ==== Sys2Proof/Syntax.lean ====
section
/-! DEFINITION. The commands of the core: one constructor per row of the opcode map (R79). -/

namespace Sys2Proof

/-- A decoded command. Its only immediate is `SEL` (R76, R77), of the format C1 commands. -/
inductive Instr where
  -- Control commands
  /-- `NOP` (OP 0x00, R91). -/
  | nop
  /-- `CLEAR` (OP 0x01, R92). -/
  | clear
  -- GF(256) commands
  /-- `GF_ADD` (OP 0x10, R110). -/
  | gfAdd
  /-- `GF_MUL` (OP 0x11, R111). -/
  | gfMul
  /-- `GF_INV` (OP 0x12, R112). -/
  | gfInv
  /-- `GF_EXP` (OP 0x13, R113). -/
  | gfExp
  /-- `GF_LOG` (OP 0x14, R114). -/
  | gfLog
  -- Polynomial commands (`sel` names a polynomial register)
  /-- `P_ADD` (OP 0x18, R120). `sel`: the destination polynomial register. -/
  | pAdd (sel : Nat)
  /-- `P_MUL` (OP 0x19, R121). `sel`: the destination polynomial register. -/
  | pMul (sel : Nat)
  /-- `P_SCALE` (OP 0x1A, R122). `sel`: the destination polynomial register. -/
  | pScale (sel : Nat)
  /-- `P_MULMONO` (OP 0x1B, R123). `sel`: the destination polynomial register. -/
  | pMulmono (sel : Nat)
  /-- `P_MONO` (OP 0x1C, R124). `sel`: the destination polynomial register. -/
  | pMono (sel : Nat)
  /-- `P_EVAL` (OP 0x1D, R125). `sel`: the source polynomial register. -/
  | pEval (sel : Nat)
  -- Reed-Solomon commands
  /-- `RS_SYND` (OP 0x20, R150). -/
  | rsSynd
  /-- `RS_EUCLID` (OP 0x21, R151). -/
  | rsEuclid
  /-- `RS_CHIEN` (OP 0x22, R152). -/
  | rsChien
  /-- `RS_FORNEY` (OP 0x23, R153). -/
  | rsForney
  /-- `RS_CORRECT` (OP 0x24, R154). -/
  | rsCorrect
  /-- `RS_DECODE` (OP 0x25, R155). -/
  | rsDecode
  -- Geometry commands
  /-- `PT_SQ2Q` (OP 0x30, R190). -/
  | ptSq2q
  /-- `PT_Q2SQ` (OP 0x31, R191). -/
  | ptQ2sq
  /-- `PT_Q2Q` (OP 0x32, R192). -/
  | ptQ2q
  /-- `PT_ADJ` (OP 0x33, R193). -/
  | ptAdj
  /-- `PT_TIMES` (OP 0x34, R194). -/
  | ptTimes
  /-- `PT_XFORM` (OP 0x35, R195). `sel`: the number of point pairs. -/
  | ptXform (sel : Nat)
  /-- `PT_COPY` (OP 0x36, R196). `sel`: the copy direction. -/
  | ptCopy (sel : Nat)
  /-- `GRID_SAMPLE` (OP 0x37, R197). -/
  | gridSample
  /-- `MODULE_SIZE` (OP 0x38, R198). -/
  | moduleSize
  /-- `DIMENSION` (OP 0x39, R199). -/
  | dimension
  /-- `CREATE_XFORM` (OP 0x3A, R200). -/
  | createXform
  /-- `DETECT` (OP 0x3F, R201). -/
  | detect
  -- Pattern commands
  /-- `FIND_FINDER` (OP 0x40, R255). -/
  | findFinder
  /-- `FIND_ALIGN` (OP 0x41, R266). -/
  | findAlign
  /-- `ORDER3` (OP 0x42, R256). -/
  | order3
  -- Parser commands
  /-- `PARSER_INIT` (OP 0x50, R290). -/
  | parserInit
  /-- `READ_FORMAT` (OP 0x51, R291). -/
  | readFormat
  /-- `READ_VERSION` (OP 0x52, R292). -/
  | readVersion
  /-- `UNMASK` (OP 0x53, R293). `sel`: the data-mask id. -/
  | unmask (sel : Nat)
  /-- `BUILD_FNPAT` (OP 0x54, R294). -/
  | buildFnpat
  /-- `READ_CODEWORDS` (OP 0x55, R295). -/
  | readCodewords
  /-- `BLOCK_DECODE` (OP 0x56, R296). -/
  | blockDecode
  /-- `MIRROR` (OP 0x57, R297). -/
  | mirror
  /-- `SET_MIRROR` (OP 0x58, R298). `sel`: the mirror value. -/
  | setMirror (sel : Nat)
  /-- `REMASK` (OP 0x59, R299). -/
  | remask
  /-- `DECODE` (OP 0x5E, R301). -/
  | decode
  /-- `SCAN` (OP 0x5F, R302). -/
  | scan
  deriving DecidableEq, Repr

/-- The two formats of a command word (R76). -/
inductive Format where
  | c0
  | c1
  deriving DecidableEq, Repr

end Sys2Proof
end

