-- ==== Sys2Proof/WellFormed.lean ====
section
/-! DEFINITION. Which commands a command word can hold. -/

namespace Sys2Proof

/-- The selector of a command: present exactly in the format C1 commands (R76, R79). -/
def Instr.sel? : Instr → Option Nat
  | .nop => none
  | .clear => none
  | .gfAdd => none
  | .gfMul => none
  | .gfInv => none
  | .gfExp => none
  | .gfLog => none
  | .pAdd sel => some sel
  | .pMul sel => some sel
  | .pScale sel => some sel
  | .pMulmono sel => some sel
  | .pMono sel => some sel
  | .pEval sel => some sel
  | .rsSynd => none
  | .rsEuclid => none
  | .rsChien => none
  | .rsForney => none
  | .rsCorrect => none
  | .rsDecode => none
  | .ptSq2q => none
  | .ptQ2sq => none
  | .ptQ2q => none
  | .ptAdj => none
  | .ptTimes => none
  | .ptXform sel => some sel
  | .ptCopy sel => some sel
  | .gridSample => none
  | .moduleSize => none
  | .dimension => none
  | .createXform => none
  | .detect => none
  | .findFinder => none
  | .findAlign => none
  | .order3 => none
  | .parserInit => none
  | .readFormat => none
  | .readVersion => none
  | .unmask sel => some sel
  | .buildFnpat => none
  | .readCodewords => none
  | .blockDecode => none
  | .mirror => none
  | .setMirror sel => some sel
  | .remask => none
  | .decode => none
  | .scan => none

/-- The format of a command's word (R76, R79). -/
def Instr.format (i : Instr) : Format :=
  match i.sel? with
  | none => .c0
  | some _ => .c1

/-- `SEL` is a 4-bit field (R77). A selector of 4 bits outside the range of its command is well formed: the command
raises `ARG_RANGE(SEL)`. -/
def Instr.wellFormed (i : Instr) : Bool :=
  match i.sel? with
  | none => true
  | some sel => decide (sel < 16)

end Sys2Proof
end

