-- ==== Sys2Proof/Decode.lean ====
section
/-! DEFINITION. Decoding a command word (R76, R80), total, and encoding a command. -/

namespace Sys2Proof

/-- Why a command word is no command: the details of `ILLEGAL_CMD` (R80, R332). -/
inductive IllegalWord where
  | undefOp
  | rsvdBits
  deriving DecidableEq, Repr

/-- A row of the opcode map before its selector is known. -/
inductive OpRow where
  | c0 (i : Instr)
  | c1 (mk : Nat → Instr)

/-- The opcode map (R79). Every opcode not listed is undefined (R81). -/
def opcodeRow : Nat → Option OpRow
  | 0x00 => some (.c0 .nop)
  | 0x01 => some (.c0 .clear)
  | 0x10 => some (.c0 .gfAdd)
  | 0x11 => some (.c0 .gfMul)
  | 0x12 => some (.c0 .gfInv)
  | 0x13 => some (.c0 .gfExp)
  | 0x14 => some (.c0 .gfLog)
  | 0x18 => some (.c1 .pAdd)
  | 0x19 => some (.c1 .pMul)
  | 0x1A => some (.c1 .pScale)
  | 0x1B => some (.c1 .pMulmono)
  | 0x1C => some (.c1 .pMono)
  | 0x1D => some (.c1 .pEval)
  | 0x20 => some (.c0 .rsSynd)
  | 0x21 => some (.c0 .rsEuclid)
  | 0x22 => some (.c0 .rsChien)
  | 0x23 => some (.c0 .rsForney)
  | 0x24 => some (.c0 .rsCorrect)
  | 0x25 => some (.c0 .rsDecode)
  | 0x30 => some (.c0 .ptSq2q)
  | 0x31 => some (.c0 .ptQ2sq)
  | 0x32 => some (.c0 .ptQ2q)
  | 0x33 => some (.c0 .ptAdj)
  | 0x34 => some (.c0 .ptTimes)
  | 0x35 => some (.c1 .ptXform)
  | 0x36 => some (.c1 .ptCopy)
  | 0x37 => some (.c0 .gridSample)
  | 0x38 => some (.c0 .moduleSize)
  | 0x39 => some (.c0 .dimension)
  | 0x3A => some (.c0 .createXform)
  | 0x3F => some (.c0 .detect)
  | 0x40 => some (.c0 .findFinder)
  | 0x41 => some (.c0 .findAlign)
  | 0x42 => some (.c0 .order3)
  | 0x50 => some (.c0 .parserInit)
  | 0x51 => some (.c0 .readFormat)
  | 0x52 => some (.c0 .readVersion)
  | 0x53 => some (.c1 .unmask)
  | 0x54 => some (.c0 .buildFnpat)
  | 0x55 => some (.c0 .readCodewords)
  | 0x56 => some (.c0 .blockDecode)
  | 0x57 => some (.c0 .mirror)
  | 0x58 => some (.c1 .setMirror)
  | 0x59 => some (.c0 .remask)
  | 0x5E => some (.c0 .decode)
  | 0x5F => some (.c0 .scan)
  | _ => none

/-- R80, in its order: the opcode, then the reserved bits, then `SEL` of a format C0 command. -/
def decode (w : Word) : Except IllegalWord Instr :=
  let op := (w.extractLsb' 0 8).toNat
  let sel := (w.extractLsb' 8 4).toNat
  let rsvd := (w.extractLsb' 12 20).toNat
  match opcodeRow op with
  | none => .error .undefOp
  | some row =>
    if rsvd ≠ 0 then .error .rsvdBits
    else match row with
      | .c0 i => if sel ≠ 0 then .error .rsvdBits else .ok i
      | .c1 mk => .ok (mk sel)

/-- The opcode of a command (R79). -/
def Instr.opcode : Instr → Nat
  | .nop => 0x00
  | .clear => 0x01
  | .gfAdd => 0x10
  | .gfMul => 0x11
  | .gfInv => 0x12
  | .gfExp => 0x13
  | .gfLog => 0x14
  | .pAdd _ => 0x18
  | .pMul _ => 0x19
  | .pScale _ => 0x1A
  | .pMulmono _ => 0x1B
  | .pMono _ => 0x1C
  | .pEval _ => 0x1D
  | .rsSynd => 0x20
  | .rsEuclid => 0x21
  | .rsChien => 0x22
  | .rsForney => 0x23
  | .rsCorrect => 0x24
  | .rsDecode => 0x25
  | .ptSq2q => 0x30
  | .ptQ2sq => 0x31
  | .ptQ2q => 0x32
  | .ptAdj => 0x33
  | .ptTimes => 0x34
  | .ptXform _ => 0x35
  | .ptCopy _ => 0x36
  | .gridSample => 0x37
  | .moduleSize => 0x38
  | .dimension => 0x39
  | .createXform => 0x3A
  | .detect => 0x3F
  | .findFinder => 0x40
  | .findAlign => 0x41
  | .order3 => 0x42
  | .parserInit => 0x50
  | .readFormat => 0x51
  | .readVersion => 0x52
  | .unmask _ => 0x53
  | .buildFnpat => 0x54
  | .readCodewords => 0x55
  | .blockDecode => 0x56
  | .mirror => 0x57
  | .setMirror _ => 0x58
  | .remask => 0x59
  | .decode => 0x5E
  | .scan => 0x5F

/-- The command word of a command: `OP` in bits 7:0, `SEL` in bits 11:8, bits 31:12 zero (R76, R82). -/
def encode (i : Instr) : Word :=
  BitVec.ofNat 32 (((i.sel?.getD 0) % 16) * 256 + i.opcode)

/-- A command word is one 32-bit word written to `CMD` (R76): the table's bits 31:0 are its bits 31:0. -/
def decodeTableWord (nbits w : Nat) : Option Instr :=
  if nbits ≤ 32 then (decode (BitVec.ofNat 32 (w % 2 ^ nbits))).toOption else none

end Sys2Proof
end

