-- ==== Sys2Proof/Machine/State.lean ====
section
/-! DEFINITION. The state of the core, the events of its host, the errors a command can raise, and reset. -/

namespace Sys2Proof.Machine

/-- Details of `NOT_FOUND` (R332). -/
inductive NotFound where
  | finderFew | moduleSize | dimMod4 | alignRegion | alignNone | sampleOob | divZero | floatRange
  deriving DecidableEq, Repr

/-- Details of `FORMAT` (R332). -/
inductive FormatErr where
  | dimInvalid | versionRange | formatInfo | versionInfo | cwCount
  deriving DecidableEq, Repr

/-- Details of `RS_INTERNAL`, and of the `CHECKSUM` it becomes at the decoder's boundary (R332, R335). -/
inductive RsErr where
  | euclidRlastZero | euclidNotReduced | sigma0Zero | rootCount | badLocation | invZero | logZero
  deriving DecidableEq, Repr

/-- Details of `ARG_RANGE` (R332). -/
inductive ArgErr where
  | arg | float | dims | polyLen | state | sel
  deriving DecidableEq, Repr

/-- Details of `CAPACITY` (R332). -/
inductive CapacityErr where
  | finderFull | alignFull | polyLen
  deriving DecidableEq, Repr

/-- An error a command raises: its kind (R330) and its detail (R332). -/
inductive Raise where
  | notFound (d : NotFound)
  | format (d : FormatErr)
  | checksum (d : RsErr)
  | rsInternal (d : RsErr)
  | illegalCmd (d : IllegalWord)
  | argRange (d : ArgErr)
  | capacity (d : CapacityErr)
  deriving DecidableEq, Repr

/-- `CTRL` (R22); its other bits are reserved. -/
structure Ctrl where
  ie : Bool
  tryHarder : Bool
  deriving DecidableEq, Repr

/-- `STATUS` (R23); its other bits are reserved. -/
structure Status where
  busy : Bool
  done : Bool
  err : Bool
  ovr : Bool
  deriving DecidableEq, Repr

/-- `PSTATE` (R33); its other bits are reserved. -/
structure PState where
  mirror : Bool
  mirrored : Bool
  pinit : Bool
  deriving DecidableEq, Repr

/-- A finder candidate (R44, R220). -/
structure FinderCand where
  x : F64
  y : F64
  ms : F64
  count : Nat
  deriving DecidableEq, Repr

/-- An alignment candidate (R44). -/
structure AlignCand where
  x : F64
  y : F64
  ms : F64
  deriving DecidableEq, Repr

/-- What happens next outside the core (log 1). Addresses are physical; `width` counts bits. -/
inductive HostEvent where
  /-- The host reads. -/
  | read (addr width : Nat)
  /-- The host writes. -/
  | write (addr width : Nat) (value : Word)
  /-- No access comes before the running command's latency has passed: the core's turn (log 2). -/
  | coreTurn
  /-- The platform pulses the reset input (R360). -/
  | reset
  deriving DecidableEq, Repr

/-- What the last host access was answered (log 3). -/
inductive BusResp where
  | none
  | written
  | data (value : Word)
  /-- The bus error response to an access of another width or alignment (R63). -/
  | busError
  deriving DecidableEq, Repr

/-- The state of the machine: everything the spec gives the core, and the model's own fields (INVENTORY.md). -/
structure State where
  /-- The implementation parameters (R6): no step changes them (log 5). -/
  params : Params
  /-- The model's own: the host events still to come (log 1). -/
  host : List HostEvent
  /-- The model's own: the answer to the last host access (log 3). -/
  resp : BusResp
  /-- The model's own: how many free values have been drawn (log 7). -/
  draws : Nat
  /-- The model's own: the draw in force for the bytes not written since reset (R51; log 6). -/
  epoch : Nat
  /-- The command in progress: its command word (R53, R90). -/
  running : Option Word
  /-- `CTRL` (R22). -/
  ctrl : Ctrl
  /-- `STATUS` (R23). -/
  status : Status
  /-- `ERRCODE` (R25). -/
  errcode : BitVec 4
  /-- `ERRDETAIL` (R25). -/
  errdetail : BitVec 8
  /-- `ARG0..ARG3` (R26). -/
  arg : Vector Word 4
  /-- `RES0` (R27). -/
  res0 : Word
  /-- `RES1` (R27). -/
  res1 : Word
  /-- `IMG_W` (R28). -/
  imgW : Word
  /-- `IMG_H` (R28). -/
  imgH : Word
  /-- `GRID_W` (R29). -/
  gridW : Word
  /-- `GRID_H` (R29). -/
  gridH : Word
  /-- `VERSION` (R30): `NUM` when `VALID` (log 17). -/
  version : Option (BitVec 6)
  /-- `FMT` (R31): `INFO` when `VALID` (log 17). -/
  fmt : Option (BitVec 5)
  /-- `PVER` (R32). -/
  pver : BitVec 6
  /-- `PSTATE` (R33). -/
  pstate : PState
  /-- `NUM_CW` (R34). -/
  numCw : Word
  /-- `NUM_DATA` (R34). -/
  numData : Word
  /-- `ERRS_CORR` (R34). -/
  errsCorr : Word
  /-- `RS_N` (R35). -/
  rsN : Word
  /-- `RS_TWOS` (R35). -/
  rsTwos : Word
  /-- `RS_NERR` (R35). -/
  rsNerr : Word
  /-- `PLEN0..PLEN7` (R36). -/
  plen : Vector Word 8
  /-- `DIM` (R37). -/
  dim : Word
  /-- `FPC_BL` (R38). -/
  fpcBl : Word
  /-- `FPC_TL` (R38). -/
  fpcTl : Word
  /-- `FPC_TR` (R38). -/
  fpcTr : Word
  /-- `AP_VALID` (R39). -/
  apValid : Bool
  /-- `FIND_NCAND` (R39). -/
  findNcand : Word
  /-- `FNDIM` (R39). -/
  fndim : Word
  /-- `F0..F47` (R40). -/
  f : Vector Bits64 48
  /-- `FCAND` (R44). -/
  fcand : List FinderCand
  /-- `hasSkipped` (R44). -/
  hasSkipped : Bool
  /-- `ACAND` (R44). -/
  acand : List AlignCand
  /-- The bytes of the memory windows (R45 to R50) written since reset, by offset from `QRD_BASE`, in rising order.
  A byte that is not listed has no value of its own: it holds a free value (R51; log 6). -/
  mem : List Host.Cell
  deriving DecidableEq, Repr

/-- Why the machine stops. -/
inductive Fault where
  /-- Raised by a host access at an address outside the core's 2 MiB block (R60): it is no access to the core, and
  what answers it is not this machine's. Safe: nothing can be proved of what follows (log 4). -/
  | outsideBlock (addr : Nat)
  deriving DecidableEq, Repr

/-- Why an instruction has no meaning. -/
inductive Refusal where
  /-- Raised by an arm of `exec` whose command has no meaning yet. Safe: nothing can be proved of what follows. -/
  | notModelled (mnemonic : String)
  deriving DecidableEq, Repr

/-- The machine right after reset: every item of R53. The model's own fields are DESIGN CHOICES (log 1, 3, 6, 7), the
parameters the defaults of R6 (log 5). -/
def State.reset : State where
  params := Params.qrd1
  host := []
  resp := .none
  draws := 1
  epoch := 0
  running := none
  ctrl := { ie := false, tryHarder := false }
  status := { busy := false, done := false, err := false, ovr := false }
  errcode := 0
  errdetail := 0
  arg := Vector.replicate 4 0
  res0 := 0
  res1 := 0
  imgW := 0
  imgH := 0
  gridW := 0
  gridH := 0
  version := none
  fmt := none
  pver := 0
  pstate := { mirror := false, mirrored := false, pinit := false }
  numCw := 0
  numData := 0
  errsCorr := 0
  rsN := 0
  rsTwos := 0
  rsNerr := 0
  plen := Vector.replicate 8 0
  dim := 0
  fpcBl := 0
  fpcTl := 0
  fpcTr := 0
  apValid := false
  findNcand := 0
  fndim := 0
  f := Vector.replicate 48 0
  fcand := []
  hasSkipped := false
  acand := []
  mem := []

end Sys2Proof.Machine
end

