-- ==== Sys2Proof/Machine/Flags.lean ====
section
/-! DEFINITION. The words of the control and status registers, the flags a command's start and end write, the error
and detail codes, and the interrupt output. -/

namespace Sys2Proof.Machine

/-- A bit as a number. -/
def bitNat (b : Bool) : Nat := if b then 1 else 0

/-- `ID` reads this constant, ASCII "QRD1" (R21). -/
def idWord : Word := 0x51524431

/-- `CTRL` as the host reads it (R22). -/
def Ctrl.word (c : Ctrl) : Word := Word.ofNat (bitNat c.ie + 2 * bitNat c.tryHarder)

/-- `CTRL` after the host writes `v`: the reserved bits ignore the write (R22). -/
def Ctrl.ofWord (v : Word) : Ctrl := { ie := v.getLsbD 0, tryHarder := v.getLsbD 1 }

/-- `STATUS` as the host reads it (R23). -/
def Status.word (t : Status) : Word :=
  Word.ofNat (bitNat t.busy + 2 * bitNat t.done + 4 * bitNat t.err + 8 * bitNat t.ovr)

/-- `STATUS` after the host writes `v`: `DONE` and `OVR` are write-1-to-clear, the rest ignores the write (R23). -/
def Status.w1c (t : Status) (v : Word) : Status :=
  { t with done := t.done && !v.getLsbD 1, ovr := t.ovr && !v.getLsbD 3 }

/-- `STATUS` at the start of a command (R90). -/
def Status.start (t : Status) : Status := { t with busy := true, done := false, err := false }

/-- `STATUS` at the end of a command (R90). -/
def Status.finish (t : Status) (err : Bool) : Status := { t with busy := false, done := true, err := err }

/-- `STATUS` after a write that came while a command ran (R373). -/
def Status.overrun (t : Status) : Status := { t with ovr := true }

/-- `VERSION` as the host reads it (R30): `NUM` in bits 5:0, `VALID` in bit 8. -/
def versionWord : Option (BitVec 6) → Word
  | none => 0
  | some num => Word.ofNat (256 + num.toNat)

/-- `FMT` as the host reads it (R31): `INFO` in bits 4:0, `VALID` in bit 8. -/
def fmtWord : Option (BitVec 5) → Word
  | none => 0
  | some info => Word.ofNat (256 + info.toNat)

/-- `PSTATE` as the host reads it (R33). -/
def PState.word (p : PState) : Word :=
  Word.ofNat (bitNat p.mirror + 2 * bitNat p.mirrored + 4 * bitNat p.pinit)

def NotFound.code : NotFound → Nat
  | .finderFew => 1
  | .moduleSize => 2
  | .dimMod4 => 3
  | .alignRegion => 4
  | .alignNone => 5
  | .sampleOob => 6
  | .divZero => 7
  | .floatRange => 8

def FormatErr.code : FormatErr → Nat
  | .dimInvalid => 1
  | .versionRange => 2
  | .formatInfo => 3
  | .versionInfo => 4
  | .cwCount => 5

def RsErr.code : RsErr → Nat
  | .euclidRlastZero => 1
  | .euclidNotReduced => 2
  | .sigma0Zero => 3
  | .rootCount => 4
  | .badLocation => 5
  | .invZero => 6
  | .logZero => 7

def illegalCode : IllegalWord → Nat
  | .undefOp => 1
  | .rsvdBits => 2

def ArgErr.code : ArgErr → Nat
  | .arg => 1
  | .float => 2
  | .dims => 3
  | .polyLen => 4
  | .state => 5
  | .sel => 6

def CapacityErr.code : CapacityErr → Nat
  | .finderFull => 1
  | .alignFull => 2
  | .polyLen => 3

/-- The error code of a raise (R330). -/
def Raise.code : Raise → BitVec 4
  | .notFound _ => 1
  | .format _ => 2
  | .checksum _ => 3
  | .rsInternal _ => 4
  | .illegalCmd _ => 5
  | .argRange _ => 6
  | .capacity _ => 7

/-- The detail code of a raise (R332). -/
def Raise.detail : Raise → BitVec 8
  | .notFound d => BitVec.ofNat 8 d.code
  | .format d => BitVec.ofNat 8 d.code
  | .checksum d => BitVec.ofNat 8 d.code
  | .rsInternal d => BitVec.ofNat 8 d.code
  | .illegalCmd d => BitVec.ofNat 8 (illegalCode d)
  | .argRange d => BitVec.ofNat 8 d.code
  | .capacity d => BitVec.ofNat 8 d.code

/-- The level of the interrupt output (R340). -/
def State.irq (s : State) : Bool := s.status.done && s.ctrl.ie

end Sys2Proof.Machine
end

