-- ==== Sys2Proof/Machine/Float.lean ====
section
/-! DEFINITION. IEEE 754 binary64 arithmetic, rounded to nearest, ties to even (R7, R10, R170): every operation is
computed exactly and rounded once. -/

namespace Sys2Proof

/-- Signed zero. -/
def F64.zero (neg : Bool) : F64 := .fin neg 0 (-1074)

/-- A rounded significand at its exponent, or infinity past the largest exponent. -/
def F64.pack (neg : Bool) (mant : Nat) (exp : Int) : F64 :=
  if 971 < exp then .inf neg else .fin neg mant exp

/-- `m / 2^sh` rounded to an integer, to nearest, ties to even (`1 <= sh`). -/
def roundShift (m sh : Nat) : Nat :=
  let q := m >>> sh
  let r := m % 2 ^ sh
  let half := 2 ^ (sh - 1)
  if half < r ∨ (r = half ∧ q % 2 = 1) then q + 1 else q

/-- The binary64 value of `(-1)^neg * m * 2^e`, rounded to nearest, ties to even (R7, R170). -/
def F64.round (neg : Bool) (m : Nat) (e : Int) : F64 :=
  if m = 0 then F64.zero neg
  else
    let e' := max (e + (Nat.log2 m : Int) - 52) (-1074)
    if e' ≤ e then F64.pack neg (m <<< (e - e').toNat) e'
    else
      let q := roundShift m (e' - e).toNat
      if q = 2 ^ 53 then F64.pack neg (2 ^ 52) (e' + 1) else F64.pack neg q e'

/-- An integer as a binary64 value (exact for every integer of this spec, R10, R170). -/
def F64.ofInt (n : Int) : F64 := F64.round (decide (n < 0)) n.natAbs 0

def F64.ofNat (n : Nat) : F64 := F64.ofInt n

/-- The signed integer `m * 2^(e - g)` for `g <= e`: a value counted in units of `2^g`. -/
def F64.units (neg : Bool) (m : Nat) (e g : Int) : Int :=
  let u : Int := (m <<< (e - g).toNat : Nat)
  if neg then -u else u

def F64.neg : F64 → F64
  | .nan => .nan
  | .inf s => .inf (!s)
  | .fin s m e => .fin (!s) m e

/-- The exact absolute value (R10). -/
def F64.abs : F64 → F64
  | .nan => .nan
  | .inf _ => .inf false
  | .fin _ m e => .fin false m e

/-- Rounded addition. An exact sum of zero is `-0` only when both operands are negative. -/
def F64.add (a b : F64) : F64 :=
  match a, b with
  | .nan, _ => .nan
  | .inf _, .nan => .nan
  | .fin _ _ _, .nan => .nan
  | .inf s, .inf t => if s = t then .inf s else .nan
  | .inf s, .fin _ _ _ => .inf s
  | .fin _ _ _, .inf t => .inf t
  | .fin s m e, .fin t n f =>
    let g := min e f
    let z := F64.units s m e g + F64.units t n f g
    if z = 0 then F64.zero (s && t) else F64.round (decide (z < 0)) z.natAbs g

/-- Rounded subtraction. -/
def F64.sub (a b : F64) : F64 := F64.add a (F64.neg b)

/-- Rounded multiplication. -/
def F64.mul (a b : F64) : F64 :=
  match a, b with
  | .nan, _ => .nan
  | .inf _, .nan => .nan
  | .fin _ _ _, .nan => .nan
  | .inf s, .inf t => .inf (s ^^ t)
  | .inf s, .fin t n _ => if n = 0 then .nan else .inf (s ^^ t)
  | .fin s m _, .inf t => if m = 0 then .nan else .inf (s ^^ t)
  | .fin s m e, .fin t n f => F64.round (s ^^ t) (m * n) (e + f)

/-- A quotient or root `q` with a sticky last bit: set when the exact result is above `q`. Rounding the doubled
number rounds the exact result, since `q` has more bits than a significand. -/
def withSticky (q : Nat) (inexact : Bool) : Nat := 2 * q + (if inexact then 1 else 0)

/-- Rounded division. The spec's division never meets a zero divisor (R10, R171): see `fdiv`. -/
def F64.div (a b : F64) : F64 :=
  match a, b with
  | .nan, _ => .nan
  | .inf _, .nan => .nan
  | .fin _ _ _, .nan => .nan
  | .inf _, .inf _ => .nan
  | .inf s, .fin t _ _ => .inf (s ^^ t)
  | .fin s _ _, .inf t => F64.zero (s ^^ t)
  | .fin s m e, .fin t n f =>
    if n = 0 then (if m = 0 then .nan else .inf (s ^^ t))
    else
      let num := m <<< 110
      F64.round (s ^^ t) (withSticky (num / n) (num % n != 0)) (e - f - 111)

/-- Bit by bit from bit `k - 1` down: the largest `r` with `r * r <= n`, given its bits from `k` up in `r`. -/
def sqrtBits (n : Nat) : Nat → Nat → Nat
  | 0, r => r
  | k + 1, r => sqrtBits n k (if (r + 2 ^ k) * (r + 2 ^ k) ≤ n then r + 2 ^ k else r)

/-- The correctly rounded square root (R7). -/
def F64.sqrt : F64 → F64
  | .nan => .nan
  | .inf s => if s then .nan else .inf false
  | .fin s m e =>
    if m = 0 then .fin s m e
    else if s then .nan
    else
      let k : Nat := if e % 2 = 0 then 120 else 121
      let n := m <<< k
      let r := sqrtBits n 88 0
      F64.round false (withSticky r (r * r != n)) ((e - k) / 2 - 1)

/-- IEEE `<`: false if either is NaN (R170). -/
def F64.lt (a b : F64) : Bool :=
  match a, b with
  | .nan, _ => false
  | .inf _, .nan => false
  | .fin _ _ _, .nan => false
  | .inf s, .inf t => s && !t
  | .inf s, .fin _ _ _ => s
  | .fin _ _ _, .inf t => !t
  | .fin s m e, .fin t n f =>
    let g := min e f
    decide (F64.units s m e g < F64.units t n f g)

/-- IEEE `=`: false if either is NaN; the two zeros are equal (R170, R171). -/
def F64.eq (a b : F64) : Bool :=
  match a, b with
  | .nan, _ => false
  | .inf _, .nan => false
  | .fin _ _ _, .nan => false
  | .inf s, .inf t => s == t
  | .inf _, .fin _ _ _ => false
  | .fin _ _ _, .inf _ => false
  | .fin s m e, .fin t n f =>
    let g := min e f
    decide (F64.units s m e g = F64.units t n f g)

/-- IEEE `<=` (R170). -/
def F64.le (a b : F64) : Bool := F64.lt a b || F64.eq a b

def F64.isNaN : F64 → Bool
  | .nan => true
  | .inf _ => false
  | .fin _ _ _ => false

def F64.isFinite : F64 → Bool
  | .nan => false
  | .inf _ => false
  | .fin _ _ _ => true

/-- The value truncated toward zero; none for NaN and infinities. -/
def F64.trunc : F64 → Option Int
  | .nan => none
  | .inf _ => none
  | .fin s m e =>
    let n : Int := (if 0 ≤ e then m <<< e.toNat else m >>> (-e).toNat : Nat)
    some (if s then -n else n)

/-- The value a binary64 encoding stands for (R40). -/
def F64.decode (b : Bits64) : F64 :=
  let neg := b.getLsbD 63
  let ex := (b.extractLsb' 52 11).toNat
  let fr := (b.extractLsb' 0 52).toNat
  if ex = 2047 then (if fr = 0 then .inf neg else .nan)
  else if ex = 0 then .fin neg fr (-1074)
  else .fin neg (2 ^ 52 + fr) ((ex : Int) - 1075)

/-- The three fields of a binary64 encoding, put together. -/
def bits64 (neg : Bool) (ex fr : Nat) : Bits64 :=
  BitVec.ofNat 64 ((if neg then 2 ^ 63 else 0) + ex * 2 ^ 52 + fr)

/-- The encoding of a value; `nanBits` is the encoding of a NaN. -/
def F64.encode (nanBits : Bits64) : F64 → Bits64
  | .nan => nanBits
  | .inf neg => bits64 neg 2047 0
  | .fin neg m e =>
    if m < 2 ^ 52 then bits64 neg 0 m else bits64 neg (e + 1075).toNat (m - 2 ^ 52)

/-- A NaN result is a quiet NaN whose sign and payload IEEE 754 leaves open (log 8). -/
def quietNaN (free : Bits64) : Bits64 := free ||| 0x7FF8000000000000#64

/-- The decimal constants of the rules: the binary64 value nearest to `p / q` (log 9). -/
def F64.ofRatio (p q : Nat) : F64 := F64.div (F64.ofNat p) (F64.ofNat q)

end Sys2Proof
end

