-- ==== Sys2Proof/Machine/Ops.lean ====
section
/-! DEFINITION. The named operations over memory and registers, and the end of a command, with or without an error. -/

namespace Sys2Proof.Machine

/-! ### Memory: the bytes written since reset, by offset, in rising order -/

/-- The canonical form of a memory: offsets strictly rising. A memory lists a byte exactly when it was written since
reset, so no listed byte equals what an unlisted one has (no value). -/
abbrev Memory.wf (m : List Host.Cell) : Prop := m.Pairwise (fun a b => a.1 < b.1)

/-- The byte a memory lists at an offset. -/
def memGet (m : List Host.Cell) (a : Nat) : Option Byte := m.lookup a

/-- Bytes as cells at consecutive offsets. -/
def cellsFrom : Nat → List Byte → List Host.Cell
  | _, [] => []
  | a, b :: bs => (a, b) :: cellsFrom (a + 1) bs

/-- Writes bytes at consecutive offsets from `base`. -/
def memPut (m : List Host.Cell) (base : Nat) (bs : List Byte) : List Host.Cell :=
  m.filter (fun c => c.1 < base) ++ cellsFrom base bs ++ m.filter (fun c => base + bs.length ≤ c.1)

/-- The windows of the address map (R61). -/
inductive Window where
  | rsbuf | loc | mag | pram | cw | data | grid | fnpat | img
  deriving DecidableEq, Repr

/-- The first offset of a window (R61). -/
def Window.base : Window → Nat
  | .rsbuf => 0x1000
  | .loc => 0x1100
  | .mag => 0x1200
  | .pram => 0x2000
  | .cw => 0x4000
  | .data => 0x5000
  | .grid => 0x8000
  | .fnpat => 0x9000
  | .img => 0x100000

/-- The size of a window in bytes (R61). -/
def Window.size : Window → Nat
  | .rsbuf => 256
  | .loc => 256
  | .mag => 256
  | .pram => 4096
  | .cw => 4096
  | .data => 4096
  | .grid => 4096
  | .fnpat => 4096
  | .img => 524288

/-- Whether the host may write a window (R61). -/
def Window.hostWritable : Window → Bool
  | .rsbuf => true
  | .loc => false
  | .mag => false
  | .pram => true
  | .cw => true
  | .data => false
  | .grid => true
  | .fnpat => false
  | .img => true

def Window.all : List Window := [.rsbuf, .loc, .mag, .pram, .cw, .data, .grid, .fnpat, .img]

def Window.contains (w : Window) (off : Nat) : Bool := w.base ≤ off && off < w.base + w.size

/-- The window an offset lies in (R61). -/
def windowAt (off : Nat) : Option Window := Window.all.find? (fun w => w.contains off)

/-- The byte at an offset: the one written last since reset, else the free value reset left there (R51, R360; log 6). -/
def State.byte (s : State) (a : Nat) : Byte := (memGet s.mem a).getD (Config.resetByte s.epoch a)

/-- `n` bytes from an offset on. -/
def State.bytes (s : State) (base n : Nat) : List Byte := (List.range n).map (fun i => s.byte (base + i))

/-- Writes bytes from an offset on. -/
def State.putBytes (s : State) (base : Nat) (bs : List Byte) : State := { s with mem := memPut s.mem base bs }

/-- Bit `n` of a bit memory: bit `n mod 8` of byte `n div 8` (R45, R46, R50, R62). -/
def State.bit (s : State) (base n : Nat) : Bool := (s.byte (base + n / 8)).getLsbD (n % 8)

/-- The byte whose bit `k` is `g k`. -/
def packByte (g : Nat → Bool) : Byte :=
  BitVec.ofNat 8 ((List.range 8).foldl (fun acc k => acc + bitNat (g k) * 2 ^ k) 0)

/-- Writes the first `count` bits of a bit memory; the other bits of its last byte stay (I14). -/
def State.putBits (s : State) (base count : Nat) (g : Nat → Bool) : State :=
  s.putBytes base ((List.range ((count + 7) / 8)).map (fun k =>
    packByte (fun b => if 8 * k + b < count then g (8 * k + b) else (s.byte (base + k)).getLsbD b)))

/-- The little-endian word at an offset (R64). -/
def State.word (s : State) (a : Nat) : Word :=
  Word.ofNat ((s.byte a).toNat + 2 ^ 8 * (s.byte (a + 1)).toNat + 2 ^ 16 * (s.byte (a + 2)).toNat
    + 2 ^ 24 * (s.byte (a + 3)).toNat)

/-- The four bytes of a word, lowest first (R64). -/
def wordBytes (v : Word) : List Byte :=
  [v.extractLsb' 0 8, v.extractLsb' 8 8, v.extractLsb' 16 8, v.extractLsb' 24 8]

/-! ### The bit memories by coordinates -/

/-- A bit matrix as a command reads it: its width and height, and its bits (R12). A command's own copy: never part of
`State`. -/
structure BitMatrix where
  w : Nat
  h : Nat
  bit : Nat → Nat → Bool

/-- `IMG` with the geometry in force (R45, R62). -/
def State.image (s : State) : BitMatrix where
  w := s.imgW.toNat
  h := s.imgH.toNat
  bit x y := s.bit Window.img.base (y * s.imgW.toNat + x)

/-- `GRID` with the geometry in force (R46, R62). -/
def State.grid (s : State) : BitMatrix where
  w := s.gridW.toNat
  h := s.gridH.toNat
  bit x y := s.bit Window.grid.base (y * s.gridW.toNat + x)

/-- A bit at integer coordinates; false outside the matrix, where no rule of the pattern engine reads (R72; log 15). -/
def BitMatrix.px (m : BitMatrix) (x y : Int) : Bool :=
  decide (0 ≤ x) && decide (x < m.w) && decide (0 ≤ y) && decide (y < m.h) && m.bit x.toNat y.toNat

/-- Writes a `w` by `h` matrix into a bit memory, row-major, no padding (R46, R50, R62). -/
def State.putMatrix (s : State) (base w h : Nat) (g : Nat → Nat → Bool) : State :=
  s.putBits base (w * h) (fun n => g (n % w) (n / w))

/-! ### Binary64 registers -/

/-- Where each group of `F` registers begins (R41). -/
abbrev fTA : Nat := 0
abbrev fTB : Nat := 9
abbrev fQ : Nat := 18
abbrev fBL : Nat := 34
abbrev fTL : Nat := 37
abbrev fTR : Nat := 40
abbrev fAP : Nat := 43
abbrev fMS : Nat := 46

/-- The encoding held by `Fk`. -/
def State.fbits (s : State) (k : Nat) : Bits64 := s.f.toList.getD k 0

/-- The value of `Fk` (R40). -/
def State.fval (s : State) (k : Nat) : F64 := F64.decode (s.fbits k)

/-- The values of `n` registers from `Fk` on. -/
def State.fvals (s : State) (k n : Nat) : List F64 := (List.range n).map (fun i => s.fval (k + i))

/-- Writes the encoding of `Fk`. -/
def State.setFbits (s : State) (k : Nat) (b : Bits64) : State := { s with f := s.f.setIfInBounds k b }

/-- Writes a value into `Fk`. The encoding of a NaN is a free value, drawn anew (log 8). -/
def State.setF (s : State) (k : Nat) (v : F64) : State :=
  if v.isNaN then
    { s with f := s.f.setIfInBounds k (quietNaN (Config.nanBits s.draws)), draws := s.draws + 1 }
  else s.setFbits k (v.encode 0)

/-- Writes values into consecutive registers from `Fk` on. -/
def State.setFs (s : State) (k : Nat) : List F64 → State
  | [] => s
  | v :: vs => State.setFs (s.setF k v) (k + 1) vs

/-! ### Polynomial registers -/

/-- Removes leading zero coefficients while more than one remains (R103). -/
def trim : List Byte → List Byte
  | [] => [0]
  | [c] => [c]
  | c :: d :: cs => if c = 0 then trim (d :: cs) else c :: d :: cs

/-- The length register of `Pk`. -/
def State.plenOf (s : State) (k : Nat) : Nat := (s.plen.toList.getD k 0).toNat

/-- The first offset of `Pk` (R47). -/
def polyBase (k : Nat) : Nat := Window.pram.base + 512 * k

/-- `POLY(k)` (R103): the canonical polynomial of `Pk`. -/
def State.poly (s : State) (k : Nat) : Except Raise (List Byte) :=
  if s.plenOf k < 1 ∨ polyMaxLen < s.plenOf k then .error (.argRange .polyLen)
  else .ok (trim (s.bytes (polyBase k) (s.plenOf k)))

/-- What `SETPOLY(k, p)` writes when `p` fits: its coefficients and its length; the bytes after them stay (R103). -/
def State.putPoly (s : State) (k : Nat) (p : List Byte) : State :=
  { s.putBytes (polyBase k) p with plen := s.plen.setIfInBounds k (Word.ofNat p.length) }

/-- `SETPOLY(k, p)` (R103). -/
def State.setPoly (s : State) (k : Nat) (p : List Byte) : Except Raise State :=
  if polyMaxLen < p.length then .error (.capacity .polyLen) else .ok (s.putPoly k p)

/-! ### The end of a command -/

/-- What a command's rule came to: the state with the writes made, and the error raised, if any (R331). -/
abbrev Ended := State × Option Raise

/-- A single-step command: all its writes, or an error and none (R331). -/
def single (s : State) : Except Raise State → Ended
  | .ok t => (t, none)
  | .error e => (s, some e)

/-- The next step of a composite command: it runs unless an earlier step raised; earlier writes stay (R331). -/
def Ended.andThen (r : Ended) (k : State → Ended) : Ended :=
  match r with
  | (t, none) => k t
  | (t, some e) => (t, some e)

/-- A step of a composite command that computes a value or raises, and writes nothing. -/
def computing {α : Type} (s : State) (v : Except Raise α) (k : α → Ended) : Ended :=
  match v with
  | .ok a => k a
  | .error e => (s, some e)

/-- R90, R331: the one way a command ends, and all there is of an exception (R342): the error and its detail are
recorded (0 and 0 without one), `STATUS` says that the command ended and how, no command runs any more. There is no
return from it: the host resumes with its next command (R343). -/
def endCommand (r : Ended) : Host.Outcome State Fault Refusal :=
  .next { r.1 with
    errcode := (r.2.map Raise.code).getD 0
    errdetail := (r.2.map Raise.detail).getD 0
    status := r.1.status.finish r.2.isSome
    running := none }

/-- R90: an accepted write of `CMD`. -/
def startCommand (s : State) (w : Word) : State :=
  { s with running := some w, status := s.status.start }

end Sys2Proof.Machine
end

