-- ==== Sys2Proof/Machine/Bus.lean ====
section
/-! DEFINITION. The host's accesses to the core's block: the address map, reads, writes, and the reset input (R21 to
R65, R360, R372, R373). -/

namespace Sys2Proof.Machine

/-- The registers of the address map (R21 to R40); `fword k hi` is one of the two words of `Fk`. -/
inductive Reg where
  | id | ctrl | status | cmd | errcode | errdetail
  | arg (k : Nat)
  | res0 | res1 | imgW | imgH | gridW | gridH
  | version | pver | fmt | pstate | numCw | numData | errsCorr
  | rsN | rsTwos | rsNerr | dim | fpcBl | fpcTl | fpcTr | apValid | findNcand
  | plen (k : Nat)
  | fndim
  | fword (k : Nat) (hi : Bool)
  deriving DecidableEq, Repr

/-- The registers with an offset of their own (R21 to R39). -/
def fixedReg : Nat → Option Reg
  | 0x000 => some .id
  | 0x004 => some .ctrl
  | 0x008 => some .status
  | 0x00C => some .cmd
  | 0x010 => some .errcode
  | 0x014 => some .errdetail
  | 0x018 => some (.arg 0)
  | 0x01C => some (.arg 1)
  | 0x020 => some (.arg 2)
  | 0x024 => some (.arg 3)
  | 0x028 => some .res0
  | 0x02C => some .res1
  | 0x030 => some .imgW
  | 0x034 => some .imgH
  | 0x038 => some .gridW
  | 0x03C => some .gridH
  | 0x040 => some .version
  | 0x044 => some .pver
  | 0x048 => some .fmt
  | 0x04C => some .pstate
  | 0x050 => some .numCw
  | 0x054 => some .numData
  | 0x058 => some .errsCorr
  | 0x05C => some .rsN
  | 0x060 => some .rsTwos
  | 0x064 => some .rsNerr
  | 0x068 => some .dim
  | 0x06C => some .fpcBl
  | 0x070 => some .fpcTl
  | 0x074 => some .fpcTr
  | 0x078 => some .apValid
  | 0x07C => some .findNcand
  | 0x0A0 => some .fndim
  | _ => none

/-- The register at an offset that is a multiple of 4 (R21 to R40, R61). -/
def regAt (off : Nat) : Option Reg :=
  if 0x080 ≤ off ∧ off < 0x0A0 then some (.plen ((off - 0x080) / 4))
  else if 0x100 ≤ off ∧ off < 0x280 then some (.fword ((off - 0x100) / 8) (decide (off % 8 = 4)))
  else fixedReg off

/-- What a register reads as, while no command runs (R21 to R40). -/
def State.readReg (s : State) : Reg → Word
  | .id => idWord
  | .ctrl => s.ctrl.word
  | .status => s.status.word
  | .cmd => 0
  | .errcode => s.errcode.setWidth 32
  | .errdetail => s.errdetail.setWidth 32
  | .arg k => s.arg.toList.getD k 0
  | .res0 => s.res0
  | .res1 => s.res1
  | .imgW => s.imgW
  | .imgH => s.imgH
  | .gridW => s.gridW
  | .gridH => s.gridH
  | .version => versionWord s.version
  | .pver => s.pver.setWidth 32
  | .fmt => fmtWord s.fmt
  | .pstate => s.pstate.word
  | .numCw => s.numCw
  | .numData => s.numData
  | .errsCorr => s.errsCorr
  | .rsN => s.rsN
  | .rsTwos => s.rsTwos
  | .rsNerr => s.rsNerr
  | .dim => s.dim
  | .fpcBl => s.fpcBl
  | .fpcTl => s.fpcTl
  | .fpcTr => s.fpcTr
  | .apValid => Word.ofNat (bitNat s.apValid)
  | .findNcand => s.findNcand
  | .plen k => s.plen.toList.getD k 0
  | .fndim => s.fndim
  | .fword k hi => if hi then (s.fbits k).extractLsb' 32 32 else (s.fbits k).extractLsb' 0 32

/-- One word of a binary64 encoding replaced (R40). -/
def replaceWord (b : Bits64) (hi : Bool) (v : Word) : Bits64 :=
  if hi then v ++ b.extractLsb' 0 32 else b.extractLsb' 32 32 ++ v

/-- A write of a register while no command runs (R21 to R40, R65): `CMD` starts a command, a read-only register
ignores it. -/
def State.writeReg (s : State) (r : Reg) (v : Word) : State :=
  match r with
  | .id => s
  | .ctrl => { s with ctrl := Ctrl.ofWord v }
  | .status => { s with status := s.status.w1c v }
  | .cmd => startCommand s v
  | .errcode => s
  | .errdetail => s
  | .arg k => { s with arg := s.arg.setIfInBounds k v }
  | .res0 => s
  | .res1 => s
  | .imgW => { s with imgW := v }
  | .imgH => { s with imgH := v }
  | .gridW => { s with gridW := v }
  | .gridH => { s with gridH := v }
  | .version => s
  | .pver => s
  | .fmt => s
  | .pstate => s
  | .numCw => s
  | .numData => s
  | .errsCorr => s
  | .rsN => { s with rsN := v }
  | .rsTwos => { s with rsTwos := v }
  | .rsNerr => s
  | .dim => s
  | .fpcBl => s
  | .fpcTl => s
  | .fpcTr => s
  | .apValid => s
  | .findNcand => s
  | .plen k => { s with plen := s.plen.setIfInBounds k v }
  | .fndim => s
  | .fword k hi => s.setFbits k (replaceWord (s.fbits k) hi v)

/-- What an offset names (R61). -/
inductive Target where
  | reg (r : Reg)
  | window (w : Window)
  | reserved
  deriving DecidableEq, Repr

/-- The address map (R61). -/
def targetAt (off : Nat) : Target :=
  match regAt off with
  | some r => .reg r
  | none =>
    match windowAt off with
    | some w => .window w
    | none => .reserved

/-- A read while no command runs (R61, R64, R65). -/
def State.readIdle (s : State) (off : Nat) : Word :=
  match targetAt off with
  | .reg r => s.readReg r
  | .window _ => s.word off
  | .reserved => 0

/-- A write while no command runs (R61, R64, R65). -/
def State.writeIdle (s : State) (off : Nat) (v : Word) : State :=
  match targetAt off with
  | .reg r => s.writeReg r v
  | .window w => if w.hostWritable then s.putBytes off (wordBytes v) else s
  | .reserved => s

/-- The registers whose reads stay valid while a command runs (R372). -/
def readableBusy : Target → Bool
  | .reg r => r == .id || r == .ctrl || r == .status
  | .window _ => false
  | .reserved => true

/-- A host read of an offset that is a multiple of 4 (R65, R372): while a command runs, all but `ID`, `CTRL`, `STATUS`
and the reserved offsets read as a free value (log 7). -/
def hostRead (s : State) (off : Nat) : State :=
  if s.status.busy && !readableBusy (targetAt off) then
    { s with resp := .data (Config.busyRead s.draws off), draws := s.draws + 1 }
  else { s with resp := .data (s.readIdle off) }

/-- A host write of an offset that is a multiple of 4 (R65, R90, R373). -/
def hostWrite (s : State) (off : Nat) (v : Word) : State :=
  if s.status.busy then
    if targetAt off = .reg .status then { s with status := s.status.w1c v, resp := .written }
    else { s with status := s.status.overrun, resp := .written }
  else { s.writeIdle off v with resp := .written }

/-- The size of the core's block (R60). -/
abbrev blockSize : Nat := 0x200000

/-- The first address of the core's block, `QRD_BASE` (R6). -/
def State.base (s : State) : Nat := s.params.baseBlock * blockSize

/-- A host access (R60, R63): an address outside the block is no access to the core (log 4); another width than 32 bits
or another alignment is answered with a bus error and has no effect (log 3). -/
def hostAccess (s : State) (addr width : Nat) (k : Nat → State) : Host.Outcome State Fault Refusal :=
  if addr < s.base ∨ s.base + blockSize ≤ addr then .fault (.outsideBlock addr)
  else if width ≠ 32 ∨ (addr - s.base) % 4 ≠ 0 then .next { s with resp := .busError }
  else .next (k (addr - s.base))

/-- The reset input (R53, R360): every register and list, with fresh draws for the memories; a running command is
abandoned. The parameters and the host's own events are no state of the core (log 5, 6). -/
def resetPulse (s : State) : State :=
  { State.reset with params := s.params, host := s.host, epoch := s.draws, draws := s.draws + 1 }

end Sys2Proof.Machine
end

