-- ==== Sys2Proof/Machine/Control.lean ====
section
/-! DEFINITION. The control commands (R91, R92). -/

namespace Sys2Proof.Machine

/-- `NOP` (R91): no operation; it ends as every command does. -/
def execNop (s : State) : Host.Outcome State Fault Refusal := endCommand (s, none)

/-- The writes of `CLEAR` (R92): the derived state; no input, binary64 register or memory. -/
def cleared (s : State) : State :=
  { s with
    res0 := 0
    res1 := 0
    version := none
    fmt := none
    pver := 0
    pstate := { mirror := false, mirrored := false, pinit := false }
    numCw := 0
    numData := 0
    errsCorr := 0
    rsNerr := 0
    dim := 0
    fpcBl := 0
    fpcTl := 0
    fpcTr := 0
    apValid := false
    findNcand := 0
    fndim := 0
    fcand := []
    acand := []
    hasSkipped := false }

/-- `CLEAR` (R92). -/
def execClear (s : State) : Host.Outcome State Fault Refusal := endCommand (cleared s, none)

end Sys2Proof.Machine
end

