-- ==== Sys2Proof/Machine/Tables.lean ====
section
/-! DEFINITION. The constant tables of the core, as the spec prints them (R16, R52). -/

namespace Sys2Proof.Machine

/-- The exponent table of GF(2^8) (R100): row r holds entries 16r to 16r+15. -/
def expTable : List Nat :=
  [0x01, 0x02, 0x04, 0x08, 0x10, 0x20, 0x40, 0x80, 0x1D, 0x3A, 0x74, 0xE8, 0xCD, 0x87, 0x13, 0x26] ++
  [0x4C, 0x98, 0x2D, 0x5A, 0xB4, 0x75, 0xEA, 0xC9, 0x8F, 0x03, 0x06, 0x0C, 0x18, 0x30, 0x60, 0xC0] ++
  [0x9D, 0x27, 0x4E, 0x9C, 0x25, 0x4A, 0x94, 0x35, 0x6A, 0xD4, 0xB5, 0x77, 0xEE, 0xC1, 0x9F, 0x23] ++
  [0x46, 0x8C, 0x05, 0x0A, 0x14, 0x28, 0x50, 0xA0, 0x5D, 0xBA, 0x69, 0xD2, 0xB9, 0x6F, 0xDE, 0xA1] ++
  [0x5F, 0xBE, 0x61, 0xC2, 0x99, 0x2F, 0x5E, 0xBC, 0x65, 0xCA, 0x89, 0x0F, 0x1E, 0x3C, 0x78, 0xF0] ++
  [0xFD, 0xE7, 0xD3, 0xBB, 0x6B, 0xD6, 0xB1, 0x7F, 0xFE, 0xE1, 0xDF, 0xA3, 0x5B, 0xB6, 0x71, 0xE2] ++
  [0xD9, 0xAF, 0x43, 0x86, 0x11, 0x22, 0x44, 0x88, 0x0D, 0x1A, 0x34, 0x68, 0xD0, 0xBD, 0x67, 0xCE] ++
  [0x81, 0x1F, 0x3E, 0x7C, 0xF8, 0xED, 0xC7, 0x93, 0x3B, 0x76, 0xEC, 0xC5, 0x97, 0x33, 0x66, 0xCC] ++
  [0x85, 0x17, 0x2E, 0x5C, 0xB8, 0x6D, 0xDA, 0xA9, 0x4F, 0x9E, 0x21, 0x42, 0x84, 0x15, 0x2A, 0x54] ++
  [0xA8, 0x4D, 0x9A, 0x29, 0x52, 0xA4, 0x55, 0xAA, 0x49, 0x92, 0x39, 0x72, 0xE4, 0xD5, 0xB7, 0x73] ++
  [0xE6, 0xD1, 0xBF, 0x63, 0xC6, 0x91, 0x3F, 0x7E, 0xFC, 0xE5, 0xD7, 0xB3, 0x7B, 0xF6, 0xF1, 0xFF] ++
  [0xE3, 0xDB, 0xAB, 0x4B, 0x96, 0x31, 0x62, 0xC4, 0x95, 0x37, 0x6E, 0xDC, 0xA5, 0x57, 0xAE, 0x41] ++
  [0x82, 0x19, 0x32, 0x64, 0xC8, 0x8D, 0x07, 0x0E, 0x1C, 0x38, 0x70, 0xE0, 0xDD, 0xA7, 0x53, 0xA6] ++
  [0x51, 0xA2, 0x59, 0xB2, 0x79, 0xF2, 0xF9, 0xEF, 0xC3, 0x9B, 0x2B, 0x56, 0xAC, 0x45, 0x8A, 0x09] ++
  [0x12, 0x24, 0x48, 0x90, 0x3D, 0x7A, 0xF4, 0xF5, 0xF7, 0xF3, 0xFB, 0xEB, 0xCB, 0x8B, 0x0B, 0x16] ++
  [0x2C, 0x58, 0xB0, 0x7D, 0xFA, 0xE9, 0xCF, 0x83, 0x1B, 0x36, 0x6C, 0xD8, 0xAD, 0x47, 0x8E, 0x01]

/-- The logarithm table of GF(2^8) (R100); entry 0 is never used. -/
def logTable : List Nat :=
  [0x00, 0x00, 0x01, 0x19, 0x02, 0x32, 0x1A, 0xC6, 0x03, 0xDF, 0x33, 0xEE, 0x1B, 0x68, 0xC7, 0x4B] ++
  [0x04, 0x64, 0xE0, 0x0E, 0x34, 0x8D, 0xEF, 0x81, 0x1C, 0xC1, 0x69, 0xF8, 0xC8, 0x08, 0x4C, 0x71] ++
  [0x05, 0x8A, 0x65, 0x2F, 0xE1, 0x24, 0x0F, 0x21, 0x35, 0x93, 0x8E, 0xDA, 0xF0, 0x12, 0x82, 0x45] ++
  [0x1D, 0xB5, 0xC2, 0x7D, 0x6A, 0x27, 0xF9, 0xB9, 0xC9, 0x9A, 0x09, 0x78, 0x4D, 0xE4, 0x72, 0xA6] ++
  [0x06, 0xBF, 0x8B, 0x62, 0x66, 0xDD, 0x30, 0xFD, 0xE2, 0x98, 0x25, 0xB3, 0x10, 0x91, 0x22, 0x88] ++
  [0x36, 0xD0, 0x94, 0xCE, 0x8F, 0x96, 0xDB, 0xBD, 0xF1, 0xD2, 0x13, 0x5C, 0x83, 0x38, 0x46, 0x40] ++
  [0x1E, 0x42, 0xB6, 0xA3, 0xC3, 0x48, 0x7E, 0x6E, 0x6B, 0x3A, 0x28, 0x54, 0xFA, 0x85, 0xBA, 0x3D] ++
  [0xCA, 0x5E, 0x9B, 0x9F, 0x0A, 0x15, 0x79, 0x2B, 0x4E, 0xD4, 0xE5, 0xAC, 0x73, 0xF3, 0xA7, 0x57] ++
  [0x07, 0x70, 0xC0, 0xF7, 0x8C, 0x80, 0x63, 0x0D, 0x67, 0x4A, 0xDE, 0xED, 0x31, 0xC5, 0xFE, 0x18] ++
  [0xE3, 0xA5, 0x99, 0x77, 0x26, 0xB8, 0xB4, 0x7C, 0x11, 0x44, 0x92, 0xD9, 0x23, 0x20, 0x89, 0x2E] ++
  [0x37, 0x3F, 0xD1, 0x5B, 0x95, 0xBC, 0xCF, 0xCD, 0x90, 0x87, 0x97, 0xB2, 0xDC, 0xFC, 0xBE, 0x61] ++
  [0xF2, 0x56, 0xD3, 0xAB, 0x14, 0x2A, 0x5D, 0x9E, 0x84, 0x3C, 0x39, 0x53, 0x47, 0x6D, 0x41, 0xA2] ++
  [0x1F, 0x2D, 0x43, 0xD8, 0xB7, 0x7B, 0xA4, 0x76, 0xC4, 0x17, 0x49, 0xEC, 0x7F, 0x0C, 0x6F, 0xF6] ++
  [0x6C, 0xA1, 0x3B, 0x52, 0x29, 0x9D, 0x55, 0xAA, 0xFB, 0x60, 0x86, 0xB1, 0xBB, 0xCC, 0x3E, 0x5A] ++
  [0xCB, 0x59, 0x5F, 0xB0, 0x9C, 0xA9, 0xA0, 0x51, 0x0B, 0xF5, 0x16, 0xEB, 0x7A, 0x75, 0x2C, 0xD7] ++
  [0x4F, 0xAE, 0xD5, 0xE9, 0xE6, 0xE7, 0xAD, 0xE8, 0x74, 0xD6, 0xF4, 0xEA, 0xA8, 0x50, 0x58, 0xAF]

/-- The format-information table (R271): the masked 15-bit codeword of each 5-bit `INFO` 0 to 31, in order. -/
def formatTable : List (BitVec 15) :=
  [0x5412, 0x5125, 0x5E7C, 0x5B4B, 0x45F9, 0x40CE, 0x4F97, 0x4AA0] ++
  [0x77C4, 0x72F3, 0x7DAA, 0x789D, 0x662F, 0x6318, 0x6C41, 0x6976] ++
  [0x1689, 0x13BE, 0x1CE7, 0x19D0, 0x0762, 0x0255, 0x0D0C, 0x083B] ++
  [0x355F, 0x3068, 0x3F31, 0x3A06, 0x24B4, 0x2183, 0x2EDA, 0x2BED]

/-- The version-information table (R273): the 18-bit field of versions 7 to 40, in order. -/
def versionTable : List (BitVec 18) :=
  [0x07C94, 0x085BC, 0x09A99, 0x0A4D3, 0x0BBF6, 0x0C762, 0x0D847, 0x0E60D] ++
  [0x0F928, 0x10B78, 0x1145D, 0x12A17, 0x13532, 0x149A6, 0x15683, 0x168C9] ++
  [0x177EC, 0x18EC4, 0x191E1, 0x1AFAB, 0x1B08E, 0x1CC1A, 0x1D33F, 0x1ED75] ++
  [0x1F250, 0x209D5, 0x216F0, 0x228BA, 0x2379F, 0x24B0B, 0x2542E, 0x26A64] ++
  [0x27541, 0x28C69]

/-- The alignment-pattern centres of versions 1 to 40, in order (R274). -/
def alignTable : List (List Nat) :=
  [[], [6, 18], [6, 22], [6, 26], [6, 30]] ++
  [[6, 34], [6, 22, 38], [6, 24, 42], [6, 26, 46], [6, 28, 50]] ++
  [[6, 30, 54], [6, 32, 58], [6, 34, 62], [6, 26, 46, 66], [6, 26, 48, 70]] ++
  [[6, 26, 50, 74], [6, 30, 54, 78], [6, 30, 56, 82], [6, 30, 58, 86], [6, 34, 62, 90]] ++
  [[6, 28, 50, 72, 94], [6, 26, 50, 74, 98], [6, 30, 54, 78, 102], [6, 28, 54, 80, 106], [6, 32, 58, 84, 110]] ++
  [[6, 30, 58, 86, 114], [6, 34, 62, 90, 118], [6, 26, 50, 74, 98, 122], [6, 30, 54, 78, 102, 126], [6, 26, 52, 78, 104, 130]] ++
  [[6, 30, 56, 82, 108, 134], [6, 34, 60, 86, 112, 138], [6, 30, 58, 86, 114, 142], [6, 34, 62, 90, 118, 146], [6, 30, 54, 78, 102, 126, 150]] ++
  [[6, 24, 50, 76, 102, 128, 154], [6, 28, 54, 80, 106, 132, 158], [6, 32, 58, 84, 110, 136, 162], [6, 26, 54, 82, 110, 138, 166], [6, 30, 58, 86, 114, 142, 170]]

/-- One cell of the EC-block table: the error-correction codewords of each block, and the block groups
`(count, data codewords of a block)` (R275). -/
structure EcBlocks where
  ec : Nat
  groups : List (Nat × Nat)
  deriving DecidableEq, Repr

/-- One row of the EC-block table (R275). -/
structure EcRow where
  total : Nat
  l : EcBlocks
  m : EcBlocks
  q : EcBlocks
  h : EcBlocks
  deriving DecidableEq, Repr

/-- The EC-block table, versions 1 to 10 (R275). -/
def ecRows1 : List EcRow := [
  ⟨26, ⟨7, [(1, 19)]⟩, ⟨10, [(1, 16)]⟩, ⟨13, [(1, 13)]⟩, ⟨17, [(1, 9)]⟩⟩,
  ⟨44, ⟨10, [(1, 34)]⟩, ⟨16, [(1, 28)]⟩, ⟨22, [(1, 22)]⟩, ⟨28, [(1, 16)]⟩⟩,
  ⟨70, ⟨15, [(1, 55)]⟩, ⟨26, [(1, 44)]⟩, ⟨18, [(2, 17)]⟩, ⟨22, [(2, 13)]⟩⟩,
  ⟨100, ⟨20, [(1, 80)]⟩, ⟨18, [(2, 32)]⟩, ⟨26, [(2, 24)]⟩, ⟨16, [(4, 9)]⟩⟩,
  ⟨134, ⟨26, [(1, 108)]⟩, ⟨24, [(2, 43)]⟩, ⟨18, [(2, 15), (2, 16)]⟩, ⟨22, [(2, 11), (2, 12)]⟩⟩,
  ⟨172, ⟨18, [(2, 68)]⟩, ⟨16, [(4, 27)]⟩, ⟨24, [(4, 19)]⟩, ⟨28, [(4, 15)]⟩⟩,
  ⟨196, ⟨20, [(2, 78)]⟩, ⟨18, [(4, 31)]⟩, ⟨18, [(2, 14), (4, 15)]⟩, ⟨26, [(4, 13), (1, 14)]⟩⟩,
  ⟨242, ⟨24, [(2, 97)]⟩, ⟨22, [(2, 38), (2, 39)]⟩, ⟨22, [(4, 18), (2, 19)]⟩, ⟨26, [(4, 14), (2, 15)]⟩⟩,
  ⟨292, ⟨30, [(2, 116)]⟩, ⟨22, [(3, 36), (2, 37)]⟩, ⟨20, [(4, 16), (4, 17)]⟩, ⟨24, [(4, 12), (4, 13)]⟩⟩,
  ⟨346, ⟨18, [(2, 68), (2, 69)]⟩, ⟨26, [(4, 43), (1, 44)]⟩, ⟨24, [(6, 19), (2, 20)]⟩, ⟨28, [(6, 15), (2, 16)]⟩⟩]

/-- The EC-block table, versions 11 to 20 (R275). -/
def ecRows11 : List EcRow := [
  ⟨404, ⟨20, [(4, 81)]⟩, ⟨30, [(1, 50), (4, 51)]⟩, ⟨28, [(4, 22), (4, 23)]⟩, ⟨24, [(3, 12), (8, 13)]⟩⟩,
  ⟨466, ⟨24, [(2, 92), (2, 93)]⟩, ⟨22, [(6, 36), (2, 37)]⟩, ⟨26, [(4, 20), (6, 21)]⟩, ⟨28, [(7, 14), (4, 15)]⟩⟩,
  ⟨532, ⟨26, [(4, 107)]⟩, ⟨22, [(8, 37), (1, 38)]⟩, ⟨24, [(8, 20), (4, 21)]⟩, ⟨22, [(12, 11), (4, 12)]⟩⟩,
  ⟨581, ⟨30, [(3, 115), (1, 116)]⟩, ⟨24, [(4, 40), (5, 41)]⟩, ⟨20, [(11, 16), (5, 17)]⟩, ⟨24, [(11, 12), (5, 13)]⟩⟩,
  ⟨655, ⟨22, [(5, 87), (1, 88)]⟩, ⟨24, [(5, 41), (5, 42)]⟩, ⟨30, [(5, 24), (7, 25)]⟩, ⟨24, [(11, 12), (7, 13)]⟩⟩,
  ⟨733, ⟨24, [(5, 98), (1, 99)]⟩, ⟨28, [(7, 45), (3, 46)]⟩, ⟨24, [(15, 19), (2, 20)]⟩, ⟨30, [(3, 15), (13, 16)]⟩⟩,
  ⟨815, ⟨28, [(1, 107), (5, 108)]⟩, ⟨28, [(10, 46), (1, 47)]⟩, ⟨28, [(1, 22), (15, 23)]⟩, ⟨28, [(2, 14), (17, 15)]⟩⟩,
  ⟨901, ⟨30, [(5, 120), (1, 121)]⟩, ⟨26, [(9, 43), (4, 44)]⟩, ⟨28, [(17, 22), (1, 23)]⟩, ⟨28, [(2, 14), (19, 15)]⟩⟩,
  ⟨991, ⟨28, [(3, 113), (4, 114)]⟩, ⟨26, [(3, 44), (11, 45)]⟩, ⟨26, [(17, 21), (4, 22)]⟩, ⟨26, [(9, 13), (16, 14)]⟩⟩,
  ⟨1085, ⟨28, [(3, 107), (5, 108)]⟩, ⟨26, [(3, 41), (13, 42)]⟩, ⟨30, [(15, 24), (5, 25)]⟩, ⟨28, [(15, 15), (10, 16)]⟩⟩]

/-- The EC-block table, versions 21 to 30 (R275). -/
def ecRows21 : List EcRow := [
  ⟨1156, ⟨28, [(4, 116), (4, 117)]⟩, ⟨26, [(17, 42)]⟩, ⟨28, [(17, 22), (6, 23)]⟩, ⟨30, [(19, 16), (6, 17)]⟩⟩,
  ⟨1258, ⟨28, [(2, 111), (7, 112)]⟩, ⟨28, [(17, 46)]⟩, ⟨30, [(7, 24), (16, 25)]⟩, ⟨24, [(34, 13)]⟩⟩,
  ⟨1364, ⟨30, [(4, 121), (5, 122)]⟩, ⟨28, [(4, 47), (14, 48)]⟩, ⟨30, [(11, 24), (14, 25)]⟩, ⟨30, [(16, 15), (14, 16)]⟩⟩,
  ⟨1474, ⟨30, [(6, 117), (4, 118)]⟩, ⟨28, [(6, 45), (14, 46)]⟩, ⟨30, [(11, 24), (16, 25)]⟩, ⟨30, [(30, 16), (2, 17)]⟩⟩,
  ⟨1588, ⟨26, [(8, 106), (4, 107)]⟩, ⟨28, [(8, 47), (13, 48)]⟩, ⟨30, [(7, 24), (22, 25)]⟩, ⟨30, [(22, 15), (13, 16)]⟩⟩,
  ⟨1706, ⟨28, [(10, 114), (2, 115)]⟩, ⟨28, [(19, 46), (4, 47)]⟩, ⟨28, [(28, 22), (6, 23)]⟩, ⟨30, [(33, 16), (4, 17)]⟩⟩,
  ⟨1828, ⟨30, [(8, 122), (4, 123)]⟩, ⟨28, [(22, 45), (3, 46)]⟩, ⟨30, [(8, 23), (26, 24)]⟩, ⟨30, [(12, 15), (28, 16)]⟩⟩,
  ⟨1921, ⟨30, [(3, 117), (10, 118)]⟩, ⟨28, [(3, 45), (23, 46)]⟩, ⟨30, [(4, 24), (31, 25)]⟩, ⟨30, [(11, 15), (31, 16)]⟩⟩,
  ⟨2051, ⟨30, [(7, 116), (7, 117)]⟩, ⟨28, [(21, 45), (7, 46)]⟩, ⟨30, [(1, 23), (37, 24)]⟩, ⟨30, [(19, 15), (26, 16)]⟩⟩,
  ⟨2185, ⟨30, [(5, 115), (10, 116)]⟩, ⟨28, [(19, 47), (10, 48)]⟩, ⟨30, [(15, 24), (25, 25)]⟩, ⟨30, [(23, 15), (25, 16)]⟩⟩]

/-- The EC-block table, versions 31 to 40 (R275). -/
def ecRows31 : List EcRow := [
  ⟨2323, ⟨30, [(13, 115), (3, 116)]⟩, ⟨28, [(2, 46), (29, 47)]⟩, ⟨30, [(42, 24), (1, 25)]⟩, ⟨30, [(23, 15), (28, 16)]⟩⟩,
  ⟨2465, ⟨30, [(17, 115)]⟩, ⟨28, [(10, 46), (23, 47)]⟩, ⟨30, [(10, 24), (35, 25)]⟩, ⟨30, [(19, 15), (35, 16)]⟩⟩,
  ⟨2611, ⟨30, [(17, 115), (1, 116)]⟩, ⟨28, [(14, 46), (21, 47)]⟩, ⟨30, [(29, 24), (19, 25)]⟩, ⟨30, [(11, 15), (46, 16)]⟩⟩,
  ⟨2761, ⟨30, [(13, 115), (6, 116)]⟩, ⟨28, [(14, 46), (23, 47)]⟩, ⟨30, [(44, 24), (7, 25)]⟩, ⟨30, [(59, 16), (1, 17)]⟩⟩,
  ⟨2876, ⟨30, [(12, 121), (7, 122)]⟩, ⟨28, [(12, 47), (26, 48)]⟩, ⟨30, [(39, 24), (14, 25)]⟩, ⟨30, [(22, 15), (41, 16)]⟩⟩,
  ⟨3034, ⟨30, [(6, 121), (14, 122)]⟩, ⟨28, [(6, 47), (34, 48)]⟩, ⟨30, [(46, 24), (10, 25)]⟩, ⟨30, [(2, 15), (64, 16)]⟩⟩,
  ⟨3196, ⟨30, [(17, 122), (4, 123)]⟩, ⟨28, [(29, 46), (14, 47)]⟩, ⟨30, [(49, 24), (10, 25)]⟩, ⟨30, [(24, 15), (46, 16)]⟩⟩,
  ⟨3362, ⟨30, [(4, 122), (18, 123)]⟩, ⟨28, [(13, 46), (32, 47)]⟩, ⟨30, [(48, 24), (14, 25)]⟩, ⟨30, [(42, 15), (32, 16)]⟩⟩,
  ⟨3532, ⟨30, [(20, 117), (4, 118)]⟩, ⟨28, [(40, 47), (7, 48)]⟩, ⟨30, [(43, 24), (22, 25)]⟩, ⟨30, [(10, 15), (67, 16)]⟩⟩,
  ⟨3706, ⟨30, [(19, 118), (6, 119)]⟩, ⟨28, [(18, 47), (31, 48)]⟩, ⟨30, [(34, 24), (34, 25)]⟩, ⟨30, [(20, 15), (61, 16)]⟩⟩]

/-- The EC-block table of versions 1 to 40, in order (R275). -/
def ecTable : List EcRow := ecRows1 ++ ecRows11 ++ ecRows21 ++ ecRows31

/-- The error-correction levels (R272). -/
inductive EcLevel where
  | l | m | q | h
  deriving DecidableEq, Repr

/-- The level of `ECBITS` (R272): 0 = M, 1 = L, 2 = H, 3 = Q. -/
def levelOf (ecbits : Nat) : EcLevel :=
  if ecbits = 0 then .m else if ecbits = 1 then .l else if ecbits = 2 then .h else .q

def EcRow.cell (r : EcRow) : EcLevel → EcBlocks
  | .l => r.l
  | .m => r.m
  | .q => r.q
  | .h => r.h

/-- The row of version `v` (1 to 40) of the EC-block table. -/
def ecRow (v : Nat) : EcRow := ecTable.getD (v - 1) ⟨0, ⟨0, []⟩, ⟨0, []⟩, ⟨0, []⟩, ⟨0, []⟩⟩

/-- `total(v)`: the codewords of a symbol of version `v` (R275). -/
def totalCodewords (v : Nat) : Nat := (ecRow v).total

/-- The alignment centres of version `v` (R274). -/
def alignCentres (v : Nat) : List Nat := alignTable.getD (v - 1) []

end Sys2Proof.Machine
end

