-- ==== Sys2Proof/Machine/Field.lean ====
section
/-! DEFINITION. Arithmetic in GF(2^8) and on polynomials over it (R100 to R104). -/

namespace Sys2Proof.Machine

/-- `EXP[e]` (R101). -/
def gexp (e : Nat) : Byte := BitVec.ofNat 8 (expTable.getD e 0)

/-- `LOG[a]`, for `a` other than 0 (R100). -/
def logOf (a : Byte) : Nat := logTable.getD a.toNat 0

/-- `glog(a)` (R101). -/
def glog (a : Byte) : Except RsErr Nat := if a = 0 then .error .logZero else .ok (logOf a)

/-- `gadd(a, b)` (R101). -/
def gadd (a b : Byte) : Byte := a ^^^ b

/-- `gmul(a, b)` (R101). -/
def gmul (a b : Byte) : Byte := if a = 0 ∨ b = 0 then 0 else gexp ((logOf a + logOf b) % 255)

/-- `ginv(a)` (R101). -/
def ginv (a : Byte) : Except RsErr Byte := if a = 0 then .error .invZero else .ok (gexp (255 - logOf a))

/-- A polynomial: coefficients, highest degree first (R103). -/
abbrev Poly := List Byte

/-- `isZero(p)` for canonical `p` (R103). -/
def pIsZero (p : Poly) : Bool := p.headD 0 == 0

/-- `deg(p)` for canonical `p` (R103). -/
def pDeg (p : Poly) : Nat := p.length - 1

/-- `coef(p, d)` (R103). -/
def pCoef (p : Poly) (d : Nat) : Byte := p.getD (p.length - 1 - d) 0

/-- The sum of `s` and a list `l` at least as long, aligned at the low end. -/
def addAligned (l s : Poly) : Poly :=
  l.take (l.length - s.length) ++ List.zipWith gadd (l.drop (l.length - s.length)) s

/-- `padd(a, b)` (R104). -/
def padd (a b : Poly) : Poly :=
  if pIsZero a then b
  else if pIsZero b then a
  else if a.length < b.length then trim (addAligned b a) else trim (addAligned a b)

/-- The convolution of two coefficient lists: every `a[i] * b[j]` added at `i + j` (R104). -/
def convolve : Poly → Poly → Poly
  | [], _ => []
  | [x], b => b.map (gmul x)
  | x :: y :: as, b =>
    List.zipWith gadd (b.map (gmul x) ++ List.replicate (as.length + 1) 0) (0 :: convolve (y :: as) b)

/-- `pmul(a, b)` (R104). -/
def pmul (a b : Poly) : Poly := if pIsZero a || pIsZero b then [0] else trim (convolve a b)

/-- `pscale(a, s)` (R104). -/
def pscale (a : Poly) (s : Byte) : Poly :=
  if s = 0 then [0] else if s = 1 then a else a.map (fun c => gmul c s)

/-- `pmulmono(a, d, s)` (R104). -/
def pmulmono (a : Poly) (d : Nat) (s : Byte) : Poly :=
  if s = 0 then [0] else trim (a.map (fun c => gmul c s) ++ List.replicate d 0)

/-- `pmono(d, s)` (R104). -/
def pmono (d : Nat) (s : Byte) : Poly := if s = 0 then [0] else s :: List.replicate d 0

/-- `peval(p, x)` (R104): the constant term, the sum of the coefficients, or Horner's rule. -/
def peval (p : Poly) (x : Byte) : Byte :=
  if x = 0 then pCoef p 0
  else if x = 1 then p.foldl gadd 0
  else p.tail.foldl (fun r c => gadd (gmul x r) c) (p.headD 0)

end Sys2Proof.Machine
end

