-- ==== Sys2Proof/Machine/Operands.lean ====
section
/-! DEFINITION. The operand forms of the commands and their checks (R77, R78, R333, R334). -/

namespace Sys2Proof.Machine

/-- `ARGk` as u32 (R26, R78). -/
def State.argNat (s : State) (k : Nat) : Nat := (s.arg.toList.getD k 0).toNat

/-- `ARGk` as s32 (R78). -/
def State.argInt (s : State) (k : Nat) : Int := (s.arg.toList.getD k 0).toInt

/-- `ARGk` as an element of GF(2^8), once it is at most 255 (R78). -/
def State.argByte (s : State) (k : Nat) : Byte := BitVec.ofNat 8 (s.argNat k)

/-- R28, R333: a command that reads `IMG`. -/
def State.imgDimsOk (s : State) : Bool :=
  decide (1 ≤ s.imgW.toNat) && decide (s.imgW.toNat ≤ s.params.maxImgW) &&
    decide (1 ≤ s.imgH.toNat) && decide (s.imgH.toNat ≤ s.params.maxImgH)

/-- R29, R333: a command that reads `GRID`. -/
def State.gridDimsOk (s : State) : Bool :=
  decide (1 ≤ s.gridW.toNat) && decide (s.gridW.toNat ≤ maxGrid) &&
    decide (1 ≤ s.gridH.toNat) && decide (s.gridH.toNat ≤ maxGrid)

/-- R78: a binary64 input must be neither NaN nor infinite. -/
def State.finiteFrom (s : State) (k n : Nat) : Bool := (s.fvals k n).all F64.isFinite

/-- The `x` and `y` of the three finder patterns (R41): an input of `MODULE_SIZE`, `DIMENSION`, `CREATE_XFORM`. -/
def State.cornersFinite (s : State) : Bool :=
  s.finiteFrom fTL 2 && s.finiteFrom fTR 2 && s.finiteFrom fBL 2

/-- R270: the grid check of the parser, after the register check of R29. -/
def State.gridCheck (s : State) : Except Raise Nat :=
  if !s.gridDimsOk then .error (.argRange .dims)
  else if s.gridW = s.gridH ∧ 21 ≤ s.gridW.toNat ∧ s.gridW.toNat % 4 = 1 then .ok s.gridW.toNat
  else .error (.format .dimInvalid)

/-- The common checks of the parser sub-commands, in their order (45_parser.md section 4). -/
def State.parserCheck (s : State) : Except Raise Nat :=
  if !s.pstate.pinit then .error (.argRange .state) else s.gridCheck

/-- `RS_N` in 1..255 (R35, R333). -/
def State.rsNOk (s : State) : Bool := decide (1 ≤ s.rsN.toNat) && decide (s.rsN.toNat ≤ 255)

/-- `RS_TWOS` in 0..255 (R35, R333). -/
def State.rsTwosOk (s : State) : Bool := decide (s.rsTwos.toNat ≤ 255)

/-- R171: division, refused by a zero of either sign. -/
def fdiv (a b : F64) : Except Raise F64 :=
  if F64.eq b (F64.zero false) then .error (.notFound .divZero) else .ok (F64.div a b)

/-- R172: truncation toward zero, within s32. -/
def toInt (v : F64) : Except Raise Int :=
  match v.trunc with
  | none => .error (.notFound .floatRange)
  | some n => if n < -2147483648 ∨ 2147483647 < n then .error (.notFound .floatRange) else .ok n

/-- R173: rounding, halves away from zero, the addition rounded. -/
def roundInt (d : F64) : Except Raise Int :=
  toInt (F64.add d (if F64.lt d (F64.zero false) then F64.neg (F64.ofRatio 1 2) else F64.ofRatio 1 2))

/-- R174. -/
def distance (ax ay bx by' : F64) : F64 :=
  let dx := F64.sub ax bx
  let dy := F64.sub ay by'
  F64.sqrt (F64.add (F64.mul dx dx) (F64.mul dy dy))

end Sys2Proof.Machine
end

