-- ==== Sys2Proof/Machine/Gf.lean ====
section
/-! DEFINITION. The GF(256) and polynomial commands (R110 to R125). -/

namespace Sys2Proof.Machine

/-- An error of the solver, as the GF and RS commands report it (R330). -/
def liftRs {α : Type} : Except RsErr α → Except Raise α
  | .ok a => .ok a
  | .error e => .error (.rsInternal e)

/-- A field result in `RES0` (R110 to R114). -/
def State.setRes0 (s : State) (v : Nat) : State := { s with res0 := Word.ofNat v }

/-- R110. -/
def gfAdd (s : State) : Except Raise State :=
  if 255 < s.argNat 0 ∨ 255 < s.argNat 1 then .error (.argRange .arg)
  else .ok (s.setRes0 (gadd (s.argByte 0) (s.argByte 1)).toNat)

/-- R111. -/
def gfMul (s : State) : Except Raise State :=
  if 255 < s.argNat 0 ∨ 255 < s.argNat 1 then .error (.argRange .arg)
  else .ok (s.setRes0 (gmul (s.argByte 0) (s.argByte 1)).toNat)

/-- R112. -/
def gfInv (s : State) : Except Raise State :=
  if 255 < s.argNat 0 then .error (.argRange .arg)
  else do
    let r ← liftRs (ginv (s.argByte 0))
    .ok (s.setRes0 r.toNat)

/-- R113. -/
def gfExp (s : State) : Except Raise State :=
  if 255 < s.argNat 0 then .error (.argRange .arg)
  else .ok (s.setRes0 (gexp (s.argNat 0)).toNat)

/-- R114. -/
def gfLog (s : State) : Except Raise State :=
  if 255 < s.argNat 0 then .error (.argRange .arg)
  else do
    let r ← liftRs (glog (s.argByte 0))
    .ok (s.setRes0 r)

/-- R120, R121: both sources are read, then the destination `d` is written. -/
def polyBinary (op : Poly → Poly → Poly) (d : Nat) (s : State) : Except Raise State :=
  if 7 < d then .error (.argRange .sel)
  else if 7 < s.argNat 0 ∨ 7 < s.argNat 1 then .error (.argRange .arg)
  else do
    let pa ← s.poly (s.argNat 0)
    let pb ← s.poly (s.argNat 1)
    s.setPoly d (op pa pb)

/-- R122. -/
def polyScale (d : Nat) (s : State) : Except Raise State :=
  if 7 < d then .error (.argRange .sel)
  else if 7 < s.argNat 0 ∨ 255 < s.argNat 1 then .error (.argRange .arg)
  else do
    let pa ← s.poly (s.argNat 0)
    s.setPoly d (pscale pa (s.argByte 1))

/-- R123. -/
def polyMulMono (d : Nat) (s : State) : Except Raise State :=
  if 7 < d then .error (.argRange .sel)
  else if 7 < s.argNat 0 ∨ 511 < s.argNat 1 ∨ 255 < s.argNat 2 then .error (.argRange .arg)
  else do
    let pa ← s.poly (s.argNat 0)
    s.setPoly d (pmulmono pa (s.argNat 1) (s.argByte 2))

/-- R124. -/
def polyMono (d : Nat) (s : State) : Except Raise State :=
  if 7 < d then .error (.argRange .sel)
  else if 511 < s.argNat 0 ∨ 255 < s.argNat 1 then .error (.argRange .arg)
  else s.setPoly d (pmono (s.argNat 0) (s.argByte 1))

/-- R125. -/
def polyEval (k : Nat) (s : State) : Except Raise State :=
  if 7 < k then .error (.argRange .sel)
  else if 255 < s.argNat 0 then .error (.argRange .arg)
  else do
    let p ← s.poly k
    .ok (s.setRes0 (peval p (s.argByte 0)).toNat)

/-- `GF_ADD` (R110). -/
def execGfAdd (s : State) : Host.Outcome State Fault Refusal := endCommand (single s (gfAdd s))

/-- `GF_MUL` (R111). -/
def execGfMul (s : State) : Host.Outcome State Fault Refusal := endCommand (single s (gfMul s))

/-- `GF_INV` (R112). -/
def execGfInv (s : State) : Host.Outcome State Fault Refusal := endCommand (single s (gfInv s))

/-- `GF_EXP` (R113). -/
def execGfExp (s : State) : Host.Outcome State Fault Refusal := endCommand (single s (gfExp s))

/-- `GF_LOG` (R114). -/
def execGfLog (s : State) : Host.Outcome State Fault Refusal := endCommand (single s (gfLog s))

/-- `P_ADD` (R120). -/
def execPAdd (sel : Nat) (s : State) : Host.Outcome State Fault Refusal :=
  endCommand (single s (polyBinary padd sel s))

/-- `P_MUL` (R121). -/
def execPMul (sel : Nat) (s : State) : Host.Outcome State Fault Refusal :=
  endCommand (single s (polyBinary pmul sel s))

/-- `P_SCALE` (R122). -/
def execPScale (sel : Nat) (s : State) : Host.Outcome State Fault Refusal :=
  endCommand (single s (polyScale sel s))

/-- `P_MULMONO` (R123). -/
def execPMulmono (sel : Nat) (s : State) : Host.Outcome State Fault Refusal :=
  endCommand (single s (polyMulMono sel s))

/-- `P_MONO` (R124). -/
def execPMono (sel : Nat) (s : State) : Host.Outcome State Fault Refusal :=
  endCommand (single s (polyMono sel s))

/-- `P_EVAL` (R125). -/
def execPEval (sel : Nat) (s : State) : Host.Outcome State Fault Refusal :=
  endCommand (single s (polyEval sel s))

end Sys2Proof.Machine
end

