-- ==== Sys2Proof/Machine/Rs.lean ====
section
/-! DEFINITION. The Reed-Solomon decoder and its commands (R140 to R155). -/

namespace Sys2Proof.Machine

/-! ### The algorithm -/

/-- The values `peval(recv, gexp(i))` for `i` from `twoS - 1` down to 0: `S_i` is the coefficient of `x^i` (R141). -/
def syndromeList (recv : Poly) (twoS : Nat) : List Byte :=
  ((List.range twoS).map (fun i => peval recv (gexp i))).reverse

/-- `syndromes(recv, twoS)` (R141): the syndrome polynomial, and whether every syndrome is 0. -/
def syndromes (received : List Byte) (twoS : Nat) : Poly × Bool :=
  let l := syndromeList (trim received) twoS
  (trim l, l.all (· == 0))

/-- The inner loop of the Euclid step (R142): one division of `r` by `rLast`, with the quotient gathered in `q`. Each
round lowers the degree of `r` or makes it zero, so a bound of `r.length` rounds never cuts it short (log 14). -/
def euclidDivide (rLast : Poly) (dInv : Byte) : Nat → Poly → Poly → Poly × Poly
  | 0, q, r => (q, r)
  | n + 1, q, r =>
    if pDeg rLast ≤ pDeg r ∧ !pIsZero r then
      let dd := pDeg r - pDeg rLast
      let sc := gmul (pCoef r (pDeg r)) dInv
      euclidDivide rLast dInv n (padd q (pmono dd sc)) (padd r (pmulmono rLast dd sc))
    else (q, r)

/-- The outer loop of `euclid` (R142): it ends with `(r, t)`. Each round lowers the degree of `r`, so a bound of
`r.length` rounds never cuts it short (log 14). -/
def euclidLoop (twoS : Nat) : Nat → Poly → Poly → Poly → Poly → Except RsErr (Poly × Poly)
  | 0, _, r, _, t => .ok (r, t)
  | n + 1, rLastLast, rLast, tLastLast, tLast =>
    if 2 * pDeg rLast < twoS then .ok (rLast, tLast)
    else if pIsZero rLast then .error .euclidRlastZero
    else
      match ginv (pCoef rLast (pDeg rLast)) with
      | .error e => .error e
      | .ok dInv =>
        let (q, r) := euclidDivide rLast dInv (rLastLast.length + 1) [0] rLastLast
        let t := padd (pmul q tLast) tLastLast
        if pDeg rLast ≤ pDeg r then .error .euclidNotReduced
        else euclidLoop twoS n rLast r tLast t

/-- `euclid(a, b, R)` with `a = x^twoS`, `b` the syndrome polynomial, `R = twoS` (R142): `(sigma, omega)`. -/
def euclid (syn : Poly) (twoS : Nat) : Except RsErr (Poly × Poly) := do
  let a := pmono twoS 1
  let (a, b) := if pDeg a < pDeg syn then (syn, a) else (a, syn)
  let (r, t) ← euclidLoop twoS (a.length + b.length + 1) a b [0] [1]
  if pCoef t 0 = 0 then .error .sigma0Zero
  else
    let inv ← ginv (pCoef t 0)
    .ok (pscale t inv, pscale r inv)

/-- The nonzero field elements in ascending order (R144). -/
def nonzeroElements : List Byte := (List.range 255).map (fun i => BitVec.ofNat 8 (i + 1))

/-- Inverses, in order. -/
def invAll : List Byte → Except RsErr (List Byte)
  | [] => .ok []
  | a :: as => do
    let i ← ginv a
    let is ← invAll as
    .ok (i :: is)

/-- `chien(sigma)` (R144): the search stops once it has as many roots as the degree. -/
def chien (sigma : Poly) : Except RsErr (List Byte) :=
  if pDeg sigma = 1 then .ok [pCoef sigma 1]
  else do
    let roots := (nonzeroElements.filter (fun i => peval sigma i == 0)).take (pDeg sigma)
    let loc ← invAll roots
    if loc.length ≠ pDeg sigma then .error .rootCount else .ok loc

/-- The product over `j` other than `i` of `1 + X_j / X_i` (R145). -/
def forneyDen (loc : List Byte) (i : Nat) (xiInv : Byte) : Byte :=
  (List.range loc.length).foldl
    (fun den j => if j = i then den else gmul den (gadd (gmul (loc.getD j 0) xiInv) 1)) 1

/-- The magnitudes of the locations from index `i` on (R145). -/
def forneyFrom (omega : Poly) (loc : List Byte) : Nat → List Byte → Except RsErr (List Byte)
  | _, [] => .ok []
  | i, x :: xs => do
    let xiInv ← ginv x
    let dInv ← ginv (forneyDen loc i xiInv)
    let rest ← forneyFrom omega loc (i + 1) xs
    .ok (gmul (peval omega xiInv) dInv :: rest)

/-- `forney(omega, loc)` (R145). -/
def forney (omega : Poly) (loc : List Byte) : Except RsErr (List Byte) := forneyFrom omega loc 0 loc

/-- The corrections of a word of `n` codewords, in order, up to the entry that raises (R146): positions and what to
add there, and the error that ends the loop, if any. -/
def corrections (n : Nat) : List (Byte × Byte) → List (Nat × Byte) × Option RsErr
  | [] => ([], none)
  | (x, m) :: rest =>
    match glog x with
    | .error e => ([], some e)
    | .ok l =>
      if n < 1 + l then ([], some .badLocation)
      else
        let (more, e) := corrections n rest
        ((n - 1 - l, m) :: more, e)

/-- A word with corrections made in place (R146). -/
def correctWord (word : List Byte) (cs : List (Nat × Byte)) : List Byte :=
  cs.foldl (fun w c => w.modify c.1 (fun b => gadd b c.2)) word

/-- `decodeWithECCount(received, twoS)` (R147): the corrected word and the number of corrected errors. -/
def decodeWithECCount (received : List Byte) (twoS : Nat) : Except RsErr (List Byte × Nat) :=
  let (syn, noError) := syndromes received twoS
  if noError then .ok (received, 0)
  else do
    let (sigma, omega) ← euclid syn twoS
    let loc ← chien sigma
    let mag ← forney omega loc
    match corrections received.length (loc.zip mag) with
    | (cs, none) => .ok (correctWord received cs, loc.length)
    | (_, some e) => .error e

/-! ### The commands -/

/-- The received word (R48, R140). -/
def State.received (s : State) : List Byte := s.bytes Window.rsbuf.base s.rsN.toNat

/-- The error locations (R48). -/
def State.locs (s : State) : List Byte := s.bytes Window.loc.base s.rsNerr.toNat

/-- The error magnitudes (R48). -/
def State.mags (s : State) : List Byte := s.bytes Window.mag.base s.rsNerr.toNat

/-- The checks of `RS_N` and `RS_TWOS` (42_rs.md section 2). -/
def State.rsCheck (s : State) : Except Raise Unit :=
  if s.rsNOk && s.rsTwosOk then .ok () else .error (.argRange .arg)

/-- `RES0` of `RS_SYND`, and what `RS_DECODE` branches on: every syndrome is 0 (R150, R155). -/
def State.noError (s : State) : Bool := (syndromes s.received s.rsTwos.toNat).2

/-- The syndrome step: `P0` (R150, R155). -/
def syndStep (s : State) : Except Raise State := s.setPoly 0 (syndromes s.received s.rsTwos.toNat).1

/-- The Euclid step: `P1` and `P2` from `P0` (R151, R155). -/
def euclidStep (s : State) : Except Raise State := do
  let syn ← s.poly 0
  let (sigma, omega) ← liftRs (euclid syn s.rsTwos.toNat)
  let t ← s.setPoly 1 sigma
  t.setPoly 2 omega

/-- The Chien step: `LOC` and `RS_NERR` from `P1` (R152, R155). -/
def chienStep (s : State) : Except Raise State := do
  let sigma ← s.poly 1
  let loc ← liftRs (chien sigma)
  .ok { s.putBytes Window.loc.base loc with rsNerr := Word.ofNat loc.length }

/-- The Forney step: `MAG` from `P2`, `LOC` and `RS_NERR` (R153, R155). -/
def forneyStep (s : State) : Except Raise State := do
  let omega ← s.poly 2
  let mag ← liftRs (forney omega s.locs)
  .ok (s.putBytes Window.mag.base mag)

/-- `RSBUF` with corrections made in place (R146). -/
def State.correctRsbuf (s : State) (cs : List (Nat × Byte)) : State :=
  cs.foldl (fun t c =>
    let a := Window.rsbuf.base + c.1
    t.putBytes a [gadd (t.byte a) c.2]) s

/-- The correction step: `RSBUF` in place, then `RES0`; a raise leaves the corrections made before it (R146, R154). -/
def correctStep (s : State) : Ended :=
  match corrections s.rsN.toNat (s.locs.zip s.mags) with
  | (cs, none) => ((s.correctRsbuf cs).setRes0 s.rsNerr.toNat, none)
  | (cs, some e) => (s.correctRsbuf cs, some (.rsInternal e))

/-- R150. -/
def rsSynd (s : State) : Except Raise State := do
  s.rsCheck
  let t ← syndStep s
  .ok (t.setRes0 (bitNat s.noError))

/-- R151. -/
def rsEuclid (s : State) : Except Raise State :=
  if s.rsTwos.toNat < 1 ∨ 255 < s.rsTwos.toNat then .error (.argRange .arg) else euclidStep s

/-- R154. -/
def rsCorrect (s : State) : Ended :=
  if !s.rsNOk then (s, some (.argRange .arg)) else correctStep s

/-- R155: each step writes its outputs as it completes. `RES0` is written only where its pseudocode writes it: a raise
after the syndrome step leaves it as it was, which is the model's choice (log 21). -/
def rsDecode (s : State) : Ended :=
  computing s s.rsCheck fun _ =>
    (single s (syndStep s)).andThen fun t =>
      if s.noError then ({ t with rsNerr := 0, res0 := 0 }, none)
      else
        (single t (euclidStep t)).andThen fun t =>
        (single t (chienStep t)).andThen fun t =>
        (single t (forneyStep t)).andThen correctStep

/-- `RS_SYND` (R150). -/
def execRsSynd (s : State) : Host.Outcome State Fault Refusal := endCommand (single s (rsSynd s))

/-- `RS_EUCLID` (R151). -/
def execRsEuclid (s : State) : Host.Outcome State Fault Refusal := endCommand (single s (rsEuclid s))

/-- `RS_CHIEN` (R152). -/
def execRsChien (s : State) : Host.Outcome State Fault Refusal := endCommand (single s (chienStep s))

/-- `RS_FORNEY` (R153). -/
def execRsForney (s : State) : Host.Outcome State Fault Refusal := endCommand (single s (forneyStep s))

/-- `RS_CORRECT` (R154). -/
def execRsCorrect (s : State) : Host.Outcome State Fault Refusal := endCommand (rsCorrect s)

/-- `RS_DECODE` (R155). -/
def execRsDecode (s : State) : Host.Outcome State Fault Refusal := endCommand (rsDecode s)

end Sys2Proof.Machine
end

