-- ==== Sys2Proof/Machine/Parser.lean ====
section
/-! DEFINITION. The QR codeword parser, the masks, the block decoder and their commands (R270 to R301). -/

namespace Sys2Proof.Machine

/-! ### Decoding the format and version fields -/

/-- `bitsDiff(a, b)` (R276). -/
def bitsDiff {w : Nat} (a b : BitVec w) : Nat :=
  (List.range w).foldl (fun acc k => acc + bitNat ((a ^^^ b).getLsbD k)) 0

/-- One comparison of a table search: the distance that is smallest so far, and the first entry that has it; a tie
keeps the earlier entry (R277, R278). -/
def closer {α : Type} (best : Option (Nat × α)) (k : Nat) (entry : α) : Option (Nat × α) :=
  match best with
  | none => some (k, entry)
  | some (n, e) => if k < n then some (k, entry) else some (n, e)

/-- The best entry, if its distance is at most 3 (R277, R278). -/
def closeEnough {α : Type} : Option (Nat × α) → Option α
  | none => none
  | some (n, e) => if n ≤ 3 then some e else none

/-- The loop of `doDecode(a, b)` (R277) over the entries from `info` on. -/
def formatSearch (a b : BitVec 15) : Nat → List (BitVec 15) → Option (Nat × Nat) → Option Nat
  | _, [], best => closeEnough best
  | info, t :: ts, best =>
    if t = a ∨ t = b then some info
    else
      let best := closer best (bitsDiff a t) info
      let best := if a = b then best else closer best (bitsDiff b t) info
      formatSearch a b (info + 1) ts best

/-- `doDecode(a, b)` (R277). -/
def doDecodeFormat (a b : BitVec 15) : Option Nat := formatSearch a b 0 formatTable none

/-- The mask constant of the format fields (R277). -/
def formatMask : BitVec 15 := 0x5412

/-- `decodeFormat(m1, m2)` (R277). -/
def decodeFormat (m1 m2 : BitVec 15) : Except Raise (BitVec 5) :=
  match doDecodeFormat m1 m2 with
  | some info => .ok (BitVec.ofNat 5 info)
  | none =>
    match doDecodeFormat (m1 ^^^ formatMask) (m2 ^^^ formatMask) with
    | some info => .ok (BitVec.ofNat 5 info)
    | none => .error (.format .formatInfo)

/-- The loop of `decodeVersion(bits)` (R278) over the entries of version `v` on. -/
def versionSearch (bits : BitVec 18) : Nat → List (BitVec 18) → Option (Nat × Nat) → Option Nat
  | _, [], best => closeEnough best
  | v, t :: ts, best =>
    if t = bits then some v else versionSearch bits (v + 1) ts (closer best (bitsDiff bits t) v)

/-- `decodeVersion(bits)` (R278). -/
def decodeVersion (bits : BitVec 18) : Option Nat := versionSearch bits 7 versionTable none

/-! ### Masks and function patterns -/

/-- `masked(i, j)` of data mask `m`, for row `i` and column `j` (R284). -/
def masked (m i j : Nat) : Bool :=
  if m = 0 then (i + j) % 2 == 0
  else if m = 1 then i % 2 == 0
  else if m = 2 then j % 3 == 0
  else if m = 3 then (i + j) % 3 == 0
  else if m = 4 then (i / 2 + j / 3) % 2 == 0
  else if m = 5 then i * j % 6 == 0
  else if m = 6 then decide (i * j % 6 < 3)
  else (i + j + i * j % 3) % 2 == 0

/-- Whether module `(x, y)` lies in `region(left, top, width, height)` (R286). -/
def inRegion (left top width height x y : Nat) : Bool :=
  decide (left ≤ x) && decide (x < left + width) && decide (top ≤ y) && decide (y < top + height)

/-- Whether module `(x, y)` lies in an alignment pattern of the centres `c` (R286). -/
def inAlignment (c : List Nat) (x y : Nat) : Bool :=
  let n := c.length
  (List.range n).any fun a => (List.range n).any fun b =>
    !((a == 0 && (b == 0 || b + 1 == n)) || (a + 1 == n && b == 0)) &&
      inRegion (c.getD b 0 - 2) (c.getD a 0 - 2) 5 5 x y

/-- The side of a symbol of version `v` (R286). -/
def sideOf (v : Nat) : Nat := 17 + 4 * v

/-- The modules of the function pattern of version `v`, inside its square (R286). -/
def inFunctionPattern (v x y : Nat) : Bool :=
  let d := sideOf v
  inRegion 0 0 9 9 x y || inRegion (d - 8) 0 8 9 x y || inRegion 0 (d - 8) 9 8 x y ||
    inAlignment (alignCentres v) x y ||
    inRegion 6 9 1 (d - 17) x y || inRegion 9 6 (d - 17) 1 x y ||
    (decide (6 < v) && (inRegion (d - 11) 0 3 6 x y || inRegion 0 (d - 11) 6 3 x y))

/-- `functionPattern(v)` (R286). Outside its own square it is a free value, read only where the version cache is left
from a grid of another side (R376; log 10). -/
def functionPattern (v x y : Nat) : Bool :=
  if x < sideOf v ∧ y < sideOf v then inFunctionPattern v x y else Config.fnpatOutside v x y

/-! ### The parser -/

/-- A parser (R280 to R289): a `dim` by `dim` grid, the mirror flag and the two caches. The sub-commands build it from
`GRID`, `PSTATE`, `VERSION` and `FMT`; the whole decoder has its own (R300). Never part of `State`. -/
structure Parser where
  dim : Nat
  /-- Module `(x, y)`: column `x`, row `y`. -/
  mod : Nat → Nat → Bool
  mirror : Bool
  version : Option (BitVec 6)
  fmt : Option (BitVec 5)

/-- The bit `copyBit(i, j, ..)` appends (R280, R281). -/
def Parser.readBit (p : Parser) (i j : Nat) : Bool := if p.mirror then p.mod j i else p.mod i j

/-- The number read by `copyBit` at positions in order: the first bit read is the most significant (R280, R282). -/
def Parser.readBits (p : Parser) (ps : List (Nat × Nat)) : Nat :=
  ps.foldl (fun acc c => 2 * acc + bitNat (p.readBit c.1 c.2)) 0

/-- `n`, `n - 1`, ..., 0 below `n`: the `n` numbers from `n - 1` down to 0. -/
def countdown (n : Nat) : List Nat := (List.range n).reverse

/-- The positions of the first format field (R282). -/
def formatField1 : List (Nat × Nat) :=
  (List.range 6).map (fun i => (i, 8)) ++ [(7, 8), (8, 8), (8, 7)] ++ (countdown 6).map (fun j => (8, j))

/-- The positions of the second format field (R282). -/
def formatField2 (d : Nat) : List (Nat × Nat) :=
  (List.range 7).map (fun k => (8, d - 1 - k)) ++ (List.range 8).map (fun k => (d - 8 + k, 8))

/-- The positions of the top-right version field (R283). -/
def versionField1 (d : Nat) : List (Nat × Nat) :=
  (countdown 6).flatMap fun j => (List.range 3).map fun k => (d - 9 - k, j)

/-- The positions of the bottom-left version field (R283). -/
def versionField2 (d : Nat) : List (Nat × Nat) :=
  (countdown 6).flatMap fun i => (List.range 3).map fun k => (i, d - 9 - k)

def Parser.b1 (p : Parser) : BitVec 15 := BitVec.ofNat 15 (p.readBits formatField1)
def Parser.b2 (p : Parser) : BitVec 15 := BitVec.ofNat 15 (p.readBits (formatField2 p.dim))
def Parser.topRight (p : Parser) : BitVec 18 := BitVec.ofNat 18 (p.readBits (versionField1 p.dim))
def Parser.bottomLeft (p : Parser) : BitVec 18 := BitVec.ofNat 18 (p.readBits (versionField2 p.dim))

/-- The value `readFormat()` returns (R282); the caller caches it. -/
def Parser.readFormat (p : Parser) : Except Raise (BitVec 5) :=
  match p.fmt with
  | some info => .ok info
  | none => decodeFormat p.b1 p.b2

/-- The version the side of the grid implies (R283). -/
def Parser.sideVersion (p : Parser) : Nat := (p.dim - 17) / 4

/-- A version field whose version has the grid's side (R283). -/
def Parser.accept (p : Parser) (bits : BitVec 18) : Option (BitVec 6) :=
  match decodeVersion bits with
  | some v => if sideOf v = p.dim then some (BitVec.ofNat 6 v) else none
  | none => none

/-- The value `readVersion()` returns (R283); the caller caches it. -/
def Parser.readVersion (p : Parser) : Except Raise (BitVec 6) :=
  match p.version with
  | some v => .ok v
  | none =>
    if p.sideVersion ≤ 6 then .ok (BitVec.ofNat 6 p.sideVersion)
    else
      match p.accept p.topRight with
      | some v => .ok v
      | none =>
        match p.accept p.bottomLeft with
        | some v => .ok v
        | none => .error (.format .versionInfo)

/-- `unmask(m)` (R285): module `(x, y)` is in row `y`, column `x`. -/
def unmaskedBit (m : Nat) (g : Nat → Nat → Bool) (x y : Nat) : Bool := if masked m y x then !g x y else g x y

def Parser.unmask (p : Parser) (m : Nat) : Parser := { p with mod := unmaskedBit m p.mod }

/-- The mask of a format payload: its bits 2:0 (R271). -/
def infoMask (info : BitVec 5) : Nat := info.toNat % 8

/-- The `ECBITS` of a format payload: its bits 4:3 (R271). -/
def infoEc (info : BitVec 5) : Nat := info.toNat / 8

/-- The module pairs of one two-column sweep of a side-`d` grid, columns `j` and `j - 1` (R287). -/
def sweep (d j : Nat) (up : Bool) : List (Nat × Nat) :=
  (List.range d).flatMap fun c =>
    let i := if up then d - 1 - c else c
    [(j, i), (j - 1, i)]

/-- The modules in the order of R287 from column `j` on. `j` falls by 2 or 3 a round, so `d` rounds never cut it
short (log 14). -/
def zigzagFrom (d : Nat) : Nat → Nat → Bool → List (Nat × Nat)
  | 0, _, _ => []
  | n + 1, j, up =>
    if j = 0 then []
    else
      let j := if j = 6 then j - 1 else j
      sweep d j up ++ zigzagFrom d n (j - 2) (!up)

/-- The modules of a side-`d` grid in the order of R287. -/
def zigzag (d : Nat) : List (Nat × Nat) := zigzagFrom d d (d - 1) true

/-- Bits packed into bytes, the first bit read the most significant; left-over bits are dropped (R287). -/
def packMsb : List Bool → List Byte
  | b7 :: b6 :: b5 :: b4 :: b3 :: b2 :: b1 :: b0 :: rest =>
    packByte (fun k => [b0, b1, b2, b3, b4, b5, b6, b7].getD k false) :: packMsb rest
  | _ => []

/-- The codewords of an unmasked grid, as function pattern `v` leaves them (R287). -/
def Parser.rawCodewords (p : Parser) (v : Nat) : List Byte :=
  packMsb (((zigzag p.dim).filter (fun c => !functionPattern v c.1 c.2)).map (fun c => p.mod c.1 c.2))

/-- `readCodewords()` from the function pattern on, on an unmasked grid (R287). -/
def Parser.codewords (p : Parser) (v : Nat) : Except Raise (List Byte) :=
  let out := p.rawCodewords v
  if out.length ≠ totalCodewords v then .error (.format .cwCount) else .ok out

/-! ### The block decoder -/

/-- The numbers of data codewords of the blocks, in order (R288). -/
def blockSizes (b : EcBlocks) : List Nat := b.groups.flatMap fun g => List.replicate g.1 g.2

/-- Block `b` of `nd` data codewords (R288): what the three loops of the rule put into it, in order. `nb` blocks of
which the first `short` have `sd` data codewords and the others one more; the interleaved data come first, then the one
extra codeword of each longer block, then the interleaved error-correction codewords. -/
def blockOf (raw : List Byte) (ec nb short sd b nd : Nat) : List Byte :=
  let at' (k : Nat) : Byte := raw.getD k 0
  (List.range nd).map (fun i => if i < sd then at' (i * nb + b) else at' (sd * nb + (b - short))) ++
    (List.range ec).map (fun i => at' (sd * nb + (nb - short) + i * nb + b))

/-- `dataBlocks(raw, v, level)` (R288): each block with its number of data codewords. -/
def dataBlocks (raw : List Byte) (v : Nat) (level : EcLevel) : Except Raise (List (Nat × List Byte)) :=
  if raw.length ≠ totalCodewords v then .error (.format .cwCount)
  else
    let cell := (ecRow v).cell level
    let sizes := blockSizes cell
    let sd := sizes.headD 0
    let short := (sizes.takeWhile (fun n => decide (n ≤ sd))).length
    .ok (sizes.zipIdx.map fun p => (p.1, blockOf raw cell.ec sizes.length short sd p.2 p.1))

/-- The blocks decoded in order (R289, R296): the data codewords and the number of corrected errors.
`RS_INTERNAL(x)` becomes `CHECKSUM(x)` (R335). -/
def decodeBlocks : List (Nat × List Byte) → Except Raise (List Byte × Nat)
  | [] => .ok ([], 0)
  | (nd, buf) :: rest =>
    match decodeWithECCount buf (buf.length - nd) with
    | .error e => .error (.checksum e)
    | .ok (word, n) => do
      let (data, more) ← decodeBlocks rest
      .ok (word.take nd ++ data, n + more)

/-- What the decoder returns (R289). -/
structure Decoded where
  data : List Byte
  corrected : Nat
  version : BitVec 6
  info : BitVec 5
  deriving DecidableEq, Repr

/-- `decodeParsed()` (R289): the parser afterwards, and the result. -/
def Parser.decodeParsed (p : Parser) : Parser × Except Raise Decoded :=
  match p.readVersion with
  | .error e => (p, .error e)
  | .ok v =>
    let p := { p with version := some v }
    match p.readFormat with
    | .error e => (p, .error e)
    | .ok info =>
      let p := { p with fmt := some info }.unmask (infoMask info)
      (p, do
        let raw ← p.codewords v.toNat
        let blocks ← dataBlocks raw v.toNat (levelOf (infoEc info))
        let (data, corrected) ← decodeBlocks blocks
        .ok ⟨data, corrected, v, info⟩)

/-- `FORMAT` and `CHECKSUM`, the kinds that start the mirror retry (R300, R335). -/
def Raise.retried : Raise → Bool
  | .notFound _ => false
  | .format _ => true
  | .checksum _ => true
  | .rsInternal _ => false
  | .illegalCmd _ => false
  | .argRange _ => false
  | .capacity _ => false

/-- `REMASK` on a parser (R299). -/
def Parser.remask (p : Parser) : Parser :=
  match p.fmt with
  | some info => p.unmask (infoMask info)
  | none => p

/-- The second attempt (R300): the mask is put back, the format and version are read again through the mirror flag, then
the grid is transposed. -/
def Parser.retry (p : Parser) : Except Raise Decoded := do
  let p := { p.remask with mirror := true, version := none, fmt := none }
  let v ← p.readVersion
  let info ← p.readFormat
  { p with version := some v, fmt := some info, mod := fun x y => p.mod y x }.decodeParsed.2

/-- `decodeGrid()` (R300), on a private copy of a side-`d` grid: the result, and whether the retry gave it. -/
def decodeGrid (d : Nat) (g : Nat → Nat → Bool) : Except Raise (Decoded × Bool) :=
  match ({ dim := d, mod := g, mirror := false, version := none, fmt := none } : Parser).decodeParsed with
  | (_, .ok r) => .ok (r, false)
  | (p, .error e1) =>
    if !e1.retried then .error e1
    else
      match p.retry with
      | .ok r => .ok (r, true)
      | .error e2 => if e2.retried then .error e1 else .error e2

/-! ### The commands -/

/-- The parser of the sub-commands, on `GRID` as a side-`d` grid (45_parser.md). -/
def State.parser (s : State) (d : Nat) : Parser where
  dim := d
  mod := s.grid.bit
  mirror := s.pstate.mirror
  version := s.version
  fmt := s.fmt

/-- `GRID` flipped under data mask `m` (R285). -/
def State.unmaskGrid (s : State) (d m : Nat) : State :=
  s.putMatrix Window.grid.base d d (unmaskedBit m s.grid.bit)

/-- `FNPAT` of version `v` on a side-`d` grid, and `FNDIM` (R287, R294; log 10). -/
def State.putFnpat (s : State) (v d : Nat) : State :=
  { s.putMatrix Window.fnpat.base d d (functionPattern v) with fndim := Word.ofNat d }

/-- Decoded data (R296, R301). -/
def State.putData (s : State) (data : List Byte) (corrected : Nat) : State :=
  { s.putBytes Window.data.base data with
    numData := Word.ofNat data.length
    errsCorr := Word.ofNat corrected }

/-- Codewords (R295). -/
def State.putCw (s : State) (out : List Byte) : State :=
  { s.putBytes Window.cw.base out with numCw := Word.ofNat out.length }

/-- R290. -/
def parserInit (s : State) : Ended :=
  let t := { s with version := none, fmt := none, pstate := { s.pstate with mirror := false, pinit := false } }
  computing t t.gridCheck fun _ => ({ t with pstate := { t.pstate with pinit := true } }, none)

/-- R291. -/
def readFormat (s : State) : Ended :=
  computing s s.parserCheck fun d =>
    let p := s.parser d
    if s.fmt.isSome then (s, none)
    else
      let t := { s with res0 := p.b1.setWidth 32, res1 := p.b2.setWidth 32 }
      computing t p.readFormat fun info => ({ t with fmt := some info }, none)

/-- The fields that `READ_VERSION` reads go to `RES0` and `RES1` (R292). -/
def versionFields (p : Parser) (s : State) : State :=
  if p.version.isSome ∨ p.sideVersion ≤ 6 then s
  else
    let s := { s with res0 := p.topRight.setWidth 32 }
    if (p.accept p.topRight).isSome then s else { s with res1 := p.bottomLeft.setWidth 32 }

/-- R292. -/
def readVersion (s : State) : Ended :=
  computing s s.parserCheck fun d =>
    let p := s.parser d
    let t := versionFields p s
    computing t p.readVersion fun v => ({ t with version := some v }, none)

/-- R293. -/
def unmaskCmd (m : Nat) (s : State) : Except Raise State :=
  if 7 < m then .error (.argRange .sel)
  else if !s.gridDimsOk then .error (.argRange .dims)
  else if s.gridW ≠ s.gridH then .error (.argRange .dims)
  else .ok (s.unmaskGrid s.gridW.toNat m)

/-- R294. -/
def buildFnpat (s : State) : Except Raise State :=
  if s.argNat 0 < 1 ∨ 40 < s.argNat 0 then .error (.argRange .arg)
  else .ok (s.putFnpat (s.argNat 0) (sideOf (s.argNat 0)))

/-- R295, R287. -/
def readCodewords (s : State) : Ended :=
  computing s s.parserCheck fun d =>
  computing s (s.parser d).readFormat fun info =>
  let s := { s with fmt := some info }
  computing s (s.parser d).readVersion fun v =>
  let s := ({ s with version := some v }.unmaskGrid d (infoMask info)).putFnpat v.toNat d
  computing s ((s.parser d).codewords v.toNat) fun out => (s.putCw out, none)

/-- R296. -/
def blockDecode (s : State) : Except Raise State :=
  if s.argNat 0 < 1 ∨ 40 < s.argNat 0 ∨ 3 < s.argNat 1 ∨ 4096 < s.argNat 2 then .error (.argRange .arg)
  else do
    let blocks ← dataBlocks (s.bytes Window.cw.base (s.argNat 2)) (s.argNat 0) (levelOf (s.argNat 1))
    let (data, corrected) ← decodeBlocks blocks
    .ok (s.putData data corrected)

/-- R297. -/
def mirrorCmd (s : State) : Except Raise State := do
  let d ← s.parserCheck
  .ok (s.putMatrix Window.grid.base d d (fun x y => s.grid.bit y x))

/-- R298. -/
def setMirror (m : Nat) (s : State) : Except Raise State :=
  if 1 < m then .error (.argRange .sel)
  else do
    let _ ← s.parserCheck
    .ok { s with version := none, fmt := none, pstate := { s.pstate with mirror := decide (m = 1) } }

/-- R299. -/
def remaskCmd (s : State) : Except Raise State := do
  let d ← s.parserCheck
  match s.fmt with
  | some info => .ok (s.unmaskGrid d (infoMask info))
  | none => .ok s

/-- R301: everything happens on a private copy of `GRID`. -/
def decodeCmd (s : State) : Except Raise State := do
  let d ← s.gridCheck
  let (r, mirrored) ← decodeGrid d s.grid.bit
  .ok { s.putData r.data r.corrected with
        res0 := r.version.setWidth 32
        res1 := r.info.setWidth 32
        pstate := { s.pstate with mirrored := mirrored } }

/-- `PARSER_INIT` (R290). -/
def execParserInit (s : State) : Host.Outcome State Fault Refusal := endCommand (parserInit s)

/-- `READ_FORMAT` (R291). -/
def execReadFormat (s : State) : Host.Outcome State Fault Refusal := endCommand (readFormat s)

/-- `READ_VERSION` (R292). -/
def execReadVersion (s : State) : Host.Outcome State Fault Refusal := endCommand (readVersion s)

/-- `UNMASK` (R293). -/
def execUnmask (sel : Nat) (s : State) : Host.Outcome State Fault Refusal := endCommand (single s (unmaskCmd sel s))

/-- `BUILD_FNPAT` (R294). -/
def execBuildFnpat (s : State) : Host.Outcome State Fault Refusal := endCommand (single s (buildFnpat s))

/-- `READ_CODEWORDS` (R295). -/
def execReadCodewords (s : State) : Host.Outcome State Fault Refusal := endCommand (readCodewords s)

/-- `BLOCK_DECODE` (R296). -/
def execBlockDecode (s : State) : Host.Outcome State Fault Refusal := endCommand (single s (blockDecode s))

/-- `MIRROR` (R297). -/
def execMirror (s : State) : Host.Outcome State Fault Refusal := endCommand (single s (mirrorCmd s))

/-- `SET_MIRROR` (R298). -/
def execSetMirror (sel : Nat) (s : State) : Host.Outcome State Fault Refusal := endCommand (single s (setMirror sel s))

/-- `REMASK` (R299). -/
def execRemask (s : State) : Host.Outcome State Fault Refusal := endCommand (single s (remaskCmd s))

/-- `DECODE` (R301). -/
def execDecode (s : State) : Host.Outcome State Fault Refusal := endCommand (single s (decodeCmd s))

end Sys2Proof.Machine
end

