-- ==== Sys2Proof/Machine/Geometry.lean ====
section
/-! DEFINITION. The geometry engine: transforms, grid sampler, module size, dimension (R170 to R200). -/

namespace Sys2Proof.Machine

/-! ### Perspective transforms -/

/-- A transform's nine coefficients (R41), a command's own copy. -/
structure Xform where
  a11 : F64
  a21 : F64
  a31 : F64
  a12 : F64
  a22 : F64
  a32 : F64
  a13 : F64
  a23 : F64
  a33 : F64
  deriving DecidableEq, Repr

/-- The coefficients in the order of the registers (R41). -/
def Xform.list (t : Xform) : List F64 := [t.a11, t.a21, t.a31, t.a12, t.a22, t.a32, t.a13, t.a23, t.a33]

/-- The transform held from `Fk` on (R41). -/
def State.xform (s : State) (k : Nat) : Xform where
  a11 := s.fval k
  a21 := s.fval (k + 1)
  a31 := s.fval (k + 2)
  a12 := s.fval (k + 3)
  a22 := s.fval (k + 4)
  a32 := s.fval (k + 5)
  a13 := s.fval (k + 6)
  a23 := s.fval (k + 7)
  a33 := s.fval (k + 8)

/-- A quadrilateral: its corners in order (43_geometry.md section 2). -/
structure Quad where
  x0 : F64
  y0 : F64
  x1 : F64
  y1 : F64
  x2 : F64
  y2 : F64
  x3 : F64
  y3 : F64
  deriving DecidableEq, Repr

/-- The quadrilateral held from `Fk` on (R41). -/
def State.quad (s : State) (k : Nat) : Quad where
  x0 := s.fval k
  y0 := s.fval (k + 1)
  x1 := s.fval (k + 2)
  y1 := s.fval (k + 3)
  x2 := s.fval (k + 4)
  y2 := s.fval (k + 5)
  x3 := s.fval (k + 6)
  y3 := s.fval (k + 7)

/-- `a * b - c * d`, each operation rounded (R170). -/
def mulSub (a b c d : F64) : F64 := F64.sub (F64.mul a b) (F64.mul c d)

/-- `a - b + c`, left to right (R170). -/
def subAdd (a b c : F64) : F64 := F64.add (F64.sub a b) c

/-- `a * b + c * d + e * f`, left to right (R170). -/
def dot3 (a b c d e f : F64) : F64 := F64.add (F64.add (F64.mul a b) (F64.mul c d)) (F64.mul e f)

/-- R175. -/
def squareToQuad (q : Quad) : Except Raise Xform :=
  let zero := F64.zero false
  let one := F64.ofNat 1
  let dx3 := F64.sub (subAdd q.x0 q.x1 q.x2) q.x3
  let dy3 := F64.sub (subAdd q.y0 q.y1 q.y2) q.y3
  if F64.eq dx3 zero && F64.eq dy3 zero then
    .ok {
      a11 := F64.sub q.x1 q.x0, a21 := F64.sub q.x2 q.x1, a31 := q.x0
      a12 := F64.sub q.y1 q.y0, a22 := F64.sub q.y2 q.y1, a32 := q.y0
      a13 := zero, a23 := zero, a33 := one }
  else do
    let dx1 := F64.sub q.x1 q.x2
    let dx2 := F64.sub q.x3 q.x2
    let dy1 := F64.sub q.y1 q.y2
    let dy2 := F64.sub q.y3 q.y2
    let den := mulSub dx1 dy2 dx2 dy1
    let a13 ← fdiv (mulSub dx3 dy2 dx2 dy3) den
    let a23 ← fdiv (mulSub dx1 dy3 dx3 dy1) den
    .ok {
      a11 := F64.add (F64.sub q.x1 q.x0) (F64.mul a13 q.x1)
      a21 := F64.add (F64.sub q.x3 q.x0) (F64.mul a23 q.x3)
      a31 := q.x0
      a12 := F64.add (F64.sub q.y1 q.y0) (F64.mul a13 q.y1)
      a22 := F64.add (F64.sub q.y3 q.y0) (F64.mul a23 q.y3)
      a32 := q.y0
      a13 := a13, a23 := a23, a33 := one }

/-- R176. -/
def adjoint (t : Xform) : Xform where
  a11 := mulSub t.a22 t.a33 t.a23 t.a32
  a21 := mulSub t.a23 t.a31 t.a21 t.a33
  a31 := mulSub t.a21 t.a32 t.a22 t.a31
  a12 := mulSub t.a13 t.a32 t.a12 t.a33
  a22 := mulSub t.a11 t.a33 t.a13 t.a31
  a32 := mulSub t.a12 t.a31 t.a11 t.a32
  a13 := mulSub t.a12 t.a23 t.a13 t.a22
  a23 := mulSub t.a13 t.a21 t.a11 t.a23
  a33 := mulSub t.a11 t.a22 t.a12 t.a21

/-- R177. -/
def times (t o : Xform) : Xform where
  a11 := dot3 t.a11 o.a11 t.a21 o.a12 t.a31 o.a13
  a21 := dot3 t.a11 o.a21 t.a21 o.a22 t.a31 o.a23
  a31 := dot3 t.a11 o.a31 t.a21 o.a32 t.a31 o.a33
  a12 := dot3 t.a12 o.a11 t.a22 o.a12 t.a32 o.a13
  a22 := dot3 t.a12 o.a21 t.a22 o.a22 t.a32 o.a23
  a32 := dot3 t.a12 o.a31 t.a22 o.a32 t.a32 o.a33
  a13 := dot3 t.a13 o.a11 t.a23 o.a12 t.a33 o.a13
  a23 := dot3 t.a13 o.a21 t.a23 o.a22 t.a33 o.a23
  a33 := dot3 t.a13 o.a31 t.a23 o.a32 t.a33 o.a33

/-- R178. -/
def quadToSquare (q : Quad) : Except Raise Xform := do
  let t ← squareToQuad q
  .ok (adjoint t)

/-- R179 (90_conflicts.md C1): corner `k` of `src` goes to corner `k` of `dst`. -/
def quadToQuad (src dst : Quad) : Except Raise Xform := do
  let d ← squareToQuad dst
  let s ← quadToSquare src
  .ok (times d s)

/-- One pair of R185. -/
def transformPoint (t : Xform) (x y : F64) : Except Raise (F64 × F64) := do
  let w := F64.add (F64.add (F64.mul t.a13 x) (F64.mul t.a23 y)) t.a33
  let px ← fdiv (F64.add (F64.add (F64.mul t.a11 x) (F64.mul t.a21 y)) t.a31) w
  let py ← fdiv (F64.add (F64.add (F64.mul t.a12 x) (F64.mul t.a22 y)) t.a32) w
  .ok (px, py)

/-- R185, on pairs. -/
def transformPoints (t : Xform) : List (F64 × F64) → Except Raise (List (F64 × F64))
  | [] => .ok []
  | p :: ps => do
    let q ← transformPoint t p.1 p.2
    let qs ← transformPoints t ps
    .ok (q :: qs)

/-! ### Grid sampler -/

/-- One coordinate of `nudge` (R180): its value afterwards, and whether it was nudged. -/
def nudgeCoord (v : F64) (n : Int) (size : Nat) : F64 × Bool :=
  if n = -1 then (F64.zero false, true)
  else if n = size then (F64.ofInt ((size : Int) - 1), true)
  else (v, false)

/-- `nudge` of one point (R180): the point afterwards, and whether it was nudged. -/
def nudge (w h : Nat) (p : F64 × F64) : Except Raise ((F64 × F64) × Bool) := do
  let x ← toInt p.1
  let y ← toInt p.2
  if x < -1 ∨ (w : Int) < x ∨ y < -1 ∨ (h : Int) < y then .error (.notFound .sampleOob)
  else
    let (px, nx) := nudgeCoord p.1 x w
    let (py, ny) := nudgeCoord p.2 y h
    .ok ((px, py), nx || ny)

/-- One pass of R180: from the head on, while points were nudged. -/
def nudgePass (w h : Nat) : List (F64 × F64) → Except Raise (List (F64 × F64))
  | [] => .ok []
  | p :: ps => do
    let (q, n) ← nudge w h p
    if n then do
      let qs ← nudgePass w h ps
      .ok (q :: qs)
    else .ok (q :: ps)

/-- `checkAndNudge` (R180): forward from the first point, then backward from the last. -/
def checkAndNudge (w h : Nat) (ps : List (F64 × F64)) : Except Raise (List (F64 × F64)) := do
  let fwd ← nudgePass w h ps
  let bwd ← nudgePass w h fwd.reverse
  .ok bwd.reverse

/-- The pixels under a row of sample points (R181). -/
def samplePixels (im : BitMatrix) : List (F64 × F64) → Except Raise (List Bool)
  | [] => .ok []
  | p :: ps => do
    let x ← toInt p.1
    let y ← toInt p.2
    if 0 ≤ x ∧ x < im.w ∧ 0 ≤ y ∧ y < im.h then do
      let bs ← samplePixels im ps
      .ok (im.bit x.toNat y.toNat :: bs)
    else .error (.notFound .sampleOob)

/-- `n + 0.5` (R181). -/
def halfPast (n : Nat) : F64 := F64.add (F64.ofNat n) (F64.ofRatio 1 2)

/-- One row of the sampled grid (R181). -/
def sampleRow (im : BitMatrix) (dimX : Nat) (t : Xform) (y : Nat) : Except Raise (List Bool) := do
  let ps ← transformPoints t ((List.range dimX).map (fun x => (halfPast x, halfPast y)))
  let qs ← checkAndNudge im.w im.h ps
  samplePixels im qs

/-- The rows `y` of the sampled grid (R181), in order. -/
def sampleRows (im : BitMatrix) (dimX : Nat) (t : Xform) : List Nat → Except Raise (List (List Bool))
  | [] => .ok []
  | y :: ys => do
    let row ← sampleRow im dimX t y
    let rows ← sampleRows im dimX t ys
    .ok (row :: rows)

/-- `sampleGrid` (R181): the rows of the sampled matrix. -/
def sampleGrid (im : BitMatrix) (dimX dimY : Nat) (t : Xform) : Except Raise (List (List Bool)) :=
  sampleRows im dimX t (List.range dimY)

/-- Writes a sampled matrix into `GRID`, and its size (R197, R201). -/
def State.putGrid (s : State) (dimX dimY : Nat) (rows : List (List Bool)) : State :=
  { s.putMatrix Window.grid.base dimX dimY (fun x y => (rows.getD y []).getD x false) with
    gridW := Word.ofNat dimX
    gridH := Word.ofNat dimY }

/-! ### Module size -/

/-- The distance of two points with integer coordinates (R182). -/
def distanceInt (ax ay bx by' : Int) : F64 := distance (F64.ofInt ax) (F64.ofInt ay) (F64.ofInt bx) (F64.ofInt by')

/-- `-dx div 2` as `BRESENHAM_DIV` rounds it (R6, R182). -/
def initialError (div : BresenhamDiv) (dx : Nat) : Int :=
  match div with
  | .trunc => -((dx : Int) / 2)
  | .floor => (-(dx : Int)) / 2

/-- What a run walk keeps fixed (R182), after the swap of a steep walk. -/
structure Walk where
  steep : Bool
  fromX : Int
  fromY : Int
  toX : Int
  toY : Int

def Walk.dx (k : Walk) : Nat := (k.toX - k.fromX).natAbs
def Walk.dy (k : Walk) : Nat := (k.toY - k.fromY).natAbs
def Walk.xstep (k : Walk) : Int := if k.fromX < k.toX then 1 else -1
def Walk.ystep (k : Walk) : Int := if k.fromY < k.toY then 1 else -1

/-- The result once the walk has ended without finding the second white pixel (R182). -/
def Walk.ended (k : Walk) (state : Nat) : F64 :=
  if state = 2 then distanceInt (k.toX + k.xstep) k.toY k.fromX k.fromY else .nan

/-- The loop of R182; `x` takes `dx + 1` values, which bounds it. -/
def Walk.loop (k : Walk) (im : BitMatrix) : Nat → Int → Int → Int → Nat → F64
  | 0, _, _, _, state => k.ended state
  | n + 1, x, y, err, state =>
    let black := if k.steep then im.px y x else im.px x y
    let hit := (state == 1) == black
    if hit && state == 2 then distanceInt x y k.fromX k.fromY
    else
      let state := if hit then state + 1 else state
      let err := err + k.dy
      if 0 < err then
        if y = k.toY then k.ended state
        else Walk.loop k im n (x + k.xstep) (y + k.ystep) (err - k.dx) state
      else Walk.loop k im n (x + k.xstep) y err state

/-- `bwbRun` (R182). -/
def bwbRun (div : BresenhamDiv) (im : BitMatrix) (fromX fromY toX toY : Int) : F64 :=
  let steep := decide ((toX - fromX).natAbs < (toY - fromY).natAbs)
  let k : Walk := if steep then ⟨true, fromY, fromX, toY, toX⟩ else ⟨false, fromX, fromY, toX, toY⟩
  k.loop im (k.dx + 1) k.fromX k.fromY (initialError div k.dx) 0

/-- One coordinate of the reflected point clipped to `0 .. size - 1`, and the scale that clips it (R183). -/
def clipReflected (origin other : Int) (size : Nat) : Except Raise (Int × F64) :=
  if other < 0 then do
    let scale ← fdiv (F64.ofInt origin) (F64.ofInt (origin - other))
    .ok (0, scale)
  else if (size : Int) ≤ other then do
    let scale ← fdiv (F64.ofInt (size - 1 - origin)) (F64.ofInt (other - origin))
    .ok ((size : Int) - 1, scale)
  else .ok (other, F64.ofNat 1)

/-- `bwbBoth` (R183). -/
def bwbBoth (div : BresenhamDiv) (im : BitMatrix) (fromX fromY toX toY : Int) : Except Raise F64 := do
  let r := bwbRun div im fromX fromY toX toY
  let (otherX, scaleX) ← clipReflected fromX (fromX - (toX - fromX)) im.w
  let oy ← toInt (F64.sub (F64.ofInt fromY) (F64.mul (F64.ofInt (toY - fromY)) scaleX))
  let (otherY, scaleY) ← clipReflected fromY oy im.h
  let ox ← toInt (F64.add (F64.ofInt fromX) (F64.mul (F64.ofInt (otherX - fromX)) scaleY))
  .ok (F64.sub (F64.add r (bwbRun div im fromX fromY ox otherY)) (F64.ofNat 1))

/-- A point of the detector. -/
structure Pt where
  x : F64
  y : F64
  deriving DecidableEq, Repr

/-- The point held from `Fk` on (R41). -/
def State.pt (s : State) (k : Nat) : Pt := ⟨s.fval k, s.fval (k + 1)⟩

/-- `oneWay` (R184). -/
def oneWay (div : BresenhamDiv) (im : BitMatrix) (p o : Pt) : Except Raise F64 := do
  let px ← toInt p.x
  let py ← toInt p.y
  let ox ← toInt o.x
  let oy ← toInt o.y
  let e1 ← bwbBoth div im px py ox oy
  let e2 ← bwbBoth div im ox oy px py
  if e1.isNaN then fdiv e2 (F64.ofNat 7)
  else if e2.isNaN then fdiv e1 (F64.ofNat 7)
  else fdiv (F64.add e1 e2) (F64.ofNat 14)

/-- `moduleSize` (R184). -/
def moduleSize (div : BresenhamDiv) (im : BitMatrix) (tl tr bl : Pt) : Except Raise F64 := do
  let a ← oneWay div im tl tr
  let b ← oneWay div im tl bl
  fdiv (F64.add a b) (F64.ofNat 2)

/-- `moduleSize` with the detector's refusal of NaN and of sizes below 1 (R184, R189, R198). -/
def checkedModuleSize (div : BresenhamDiv) (im : BitMatrix) (tl tr bl : Pt) : Except Raise F64 := do
  let ms ← moduleSize div im tl tr bl
  if F64.le (F64.ofNat 1) ms then .ok ms else .error (.notFound .moduleSize)

/-! ### Dimension and transform -/

/-- `dimension` (R186). -/
def dimension (tl tr bl : Pt) (ms : F64) : Except Raise Int := do
  let qa ← fdiv (distance tl.x tl.y tr.x tr.y) ms
  let a ← roundInt qa
  let qb ← fdiv (distance tl.x tl.y bl.x bl.y) ms
  let b ← roundInt qb
  let d := Int.tdiv (a + b) 2 + 7
  if d % 4 = 0 then .ok (d + 1)
  else if d % 4 = 1 then .ok d
  else if d % 4 = 2 then .ok (d - 1)
  else .error (.notFound .dimMod4)

/-- `provisional` (R205): the version of a dimension. -/
def provisional (d : Int) : Except Raise Nat :=
  if 21 ≤ d ∧ d ≤ 177 then .ok ((d - 17) / 4).toNat else .error (.format .versionRange)

/-- The dimension and its provisional version (R189, R199). -/
def dimensionAndVersion (tl tr bl : Pt) (ms : F64) : Except Raise (Nat × Nat) := do
  let d ← dimension tl tr bl ms
  let v ← provisional d
  .ok (d.toNat, v)

/-- `createTransform` (R188). -/
def createTransform (tl tr bl : Pt) (ap : Option Pt) (d : Nat) : Except Raise Xform :=
  let h := F64.ofRatio 7 2
  let m := F64.sub (F64.ofNat d) h
  let (bx, by', s) :=
    match ap with
    | some a => (a.x, a.y, F64.sub m (F64.ofNat 3))
    | none => (subAdd tr.x tl.x bl.x, subAdd tr.y tl.y bl.y, m)
  quadToQuad ⟨h, h, m, h, s, s, h, m⟩ ⟨tl.x, tl.y, tr.x, tr.y, bx, by', bl.x, bl.y⟩

/-! ### The commands -/

/-- Pairs of a list of coordinates. -/
def pairsOf : List F64 → List (F64 × F64)
  | x :: y :: rest => (x, y) :: pairsOf rest
  | [_] => []
  | [] => []

/-- Coordinates of a list of pairs. -/
def unpairs (ps : List (F64 × F64)) : List F64 := ps.flatMap (fun p => [p.1, p.2])

/-- R190. -/
def ptSq2q (s : State) : Except Raise State :=
  if !s.finiteFrom fQ 8 then .error (.argRange .float)
  else do
    let t ← squareToQuad (s.quad fQ)
    .ok (s.setFs fTA t.list)

/-- R191. -/
def ptQ2sq (s : State) : Except Raise State :=
  if !s.finiteFrom fQ 8 then .error (.argRange .float)
  else do
    let t ← quadToSquare (s.quad fQ)
    .ok (s.setFs fTA t.list)

/-- R192. -/
def ptQ2q (s : State) : Except Raise State :=
  if !s.finiteFrom fQ 16 then .error (.argRange .float)
  else do
    let t ← quadToQuad (s.quad fQ) (s.quad (fQ + 8))
    .ok (s.setFs fTA t.list)

/-- R193. -/
def ptAdj (s : State) : Except Raise State :=
  if !s.finiteFrom fTA 9 then .error (.argRange .float)
  else .ok (s.setFs fTA (adjoint (s.xform fTA)).list)

/-- R194. -/
def ptTimes (s : State) : Except Raise State :=
  if !s.finiteFrom fTA 18 then .error (.argRange .float)
  else .ok (s.setFs fTA (times (s.xform fTA) (s.xform fTB)).list)

/-- R195. -/
def ptXform (m : Nat) (s : State) : Except Raise State :=
  if m < 1 ∨ 8 < m then .error (.argRange .sel)
  else if !(s.finiteFrom fTA 9 && s.finiteFrom fQ (2 * m)) then .error (.argRange .float)
  else do
    let ps ← transformPoints (s.xform fTA) (pairsOf (s.fvals fQ (2 * m)))
    .ok (s.setFs fQ (unpairs ps))

/-- Copies `n` registers bit for bit (R196). -/
def State.copyF (s : State) (dst src n : Nat) : State :=
  (List.range n).foldl (fun t i => t.setFbits (dst + i) (s.fbits (src + i))) s

/-- R196. -/
def ptCopy (dir : Nat) (s : State) : Except Raise State :=
  if dir = 0 then .ok (s.copyF fTB fTA 9)
  else if dir = 1 then .ok (s.copyF fTA fTB 9)
  else .error (.argRange .sel)

/-- R197. -/
def gridSample (s : State) : Except Raise State :=
  if !s.imgDimsOk then .error (.argRange .dims)
  else if s.argNat 0 < 1 ∨ maxGrid < s.argNat 0 ∨ s.argNat 1 < 1 ∨ maxGrid < s.argNat 1 then .error (.argRange .dims)
  else if !s.finiteFrom fTA 9 then .error (.argRange .float)
  else do
    let rows ← sampleGrid s.image (s.argNat 0) (s.argNat 1) (s.xform fTA)
    .ok (s.putGrid (s.argNat 0) (s.argNat 1) rows)

/-- R198: every coordinate's integer part lies inside the image; they are looked at in the order of the operands
(log 13). -/
def coordsInside (size : Nat) (v : F64) : Except Raise Unit := do
  let n ← toInt v
  if 0 ≤ n ∧ n < size then .ok () else .error (.notFound .sampleOob)

def pointInside (im : BitMatrix) (p : Pt) : Except Raise Unit := do
  coordsInside im.w p.x
  coordsInside im.h p.y

/-- R198. -/
def moduleSizeCmd (s : State) : Except Raise State :=
  if !s.imgDimsOk then .error (.argRange .dims)
  else if !s.cornersFinite then .error (.argRange .float)
  else do
    pointInside s.image (s.pt fTL)
    pointInside s.image (s.pt fTR)
    pointInside s.image (s.pt fBL)
    let ms ← checkedModuleSize s.params.bresenham s.image (s.pt fTL) (s.pt fTR) (s.pt fBL)
    .ok (s.setF fMS ms)

/-- R199. -/
def dimensionCmd (s : State) : Except Raise State :=
  if !(s.cornersFinite && s.finiteFrom fMS 1) then .error (.argRange .float)
  else do
    let (d, v) ← dimensionAndVersion (s.pt fTL) (s.pt fTR) (s.pt fBL) (s.fval fMS)
    .ok { s with dim := Word.ofNat d, pver := BitVec.ofNat 6 v }

/-- The alignment pattern, if there is one (R39, R200). -/
def State.alignPt (s : State) : Option Pt := if s.apValid then some (s.pt fAP) else none

/-- R200; the binary64 inputs are checked before `DIM` (R334; log 12). -/
def createXform (s : State) : Except Raise State :=
  if !(s.cornersFinite && (!s.apValid || s.finiteFrom fAP 2)) then .error (.argRange .float)
  else if s.dim.toNat < 21 ∨ 177 < s.dim.toNat then .error (.argRange .state)
  else do
    let t ← createTransform (s.pt fTL) (s.pt fTR) (s.pt fBL) s.alignPt s.dim.toNat
    .ok (s.setFs fTA t.list)

/-- `PT_SQ2Q` (R190). -/
def execPtSq2q (s : State) : Host.Outcome State Fault Refusal := endCommand (single s (ptSq2q s))

/-- `PT_Q2SQ` (R191). -/
def execPtQ2sq (s : State) : Host.Outcome State Fault Refusal := endCommand (single s (ptQ2sq s))

/-- `PT_Q2Q` (R192). -/
def execPtQ2q (s : State) : Host.Outcome State Fault Refusal := endCommand (single s (ptQ2q s))

/-- `PT_ADJ` (R193). -/
def execPtAdj (s : State) : Host.Outcome State Fault Refusal := endCommand (single s (ptAdj s))

/-- `PT_TIMES` (R194). -/
def execPtTimes (s : State) : Host.Outcome State Fault Refusal := endCommand (single s (ptTimes s))

/-- `PT_XFORM` (R195). -/
def execPtXform (sel : Nat) (s : State) : Host.Outcome State Fault Refusal := endCommand (single s (ptXform sel s))

/-- `PT_COPY` (R196). -/
def execPtCopy (sel : Nat) (s : State) : Host.Outcome State Fault Refusal := endCommand (single s (ptCopy sel s))

/-- `GRID_SAMPLE` (R197). -/
def execGridSample (s : State) : Host.Outcome State Fault Refusal := endCommand (single s (gridSample s))

/-- `MODULE_SIZE` (R198). -/
def execModuleSize (s : State) : Host.Outcome State Fault Refusal := endCommand (single s (moduleSizeCmd s))

/-- `DIMENSION` (R199). -/
def execDimension (s : State) : Host.Outcome State Fault Refusal := endCommand (single s (dimensionCmd s))

/-- `CREATE_XFORM` (R200). -/
def execCreateXform (s : State) : Host.Outcome State Fault Refusal := endCommand (single s (createXform s))

end Sys2Proof.Machine
end

