-- ==== Sys2Proof/Machine/Patterns.lean ====
section
/-! DEFINITION. The finder and alignment pattern detector and its commands (R220 to R266). -/

namespace Sys2Proof.Machine

/-! ### Run lengths -/

/-- Five run lengths, black, white, black, white, black (R224). -/
structure Runs5 where
  s0 : Nat
  s1 : Nat
  s2 : Nat
  s3 : Nat
  s4 : Nat
  deriving DecidableEq, Repr

def Runs5.zero : Runs5 := ⟨0, 0, 0, 0, 0⟩

def Runs5.total (s : Runs5) : Nat := s.s0 + s.s1 + s.s2 + s.s3 + s.s4

/-- `s[k]++`. -/
def Runs5.inc (s : Runs5) (k : Nat) : Runs5 :=
  if k = 0 then { s with s0 := s.s0 + 1 }
  else if k = 1 then { s with s1 := s.s1 + 1 }
  else if k = 2 then { s with s2 := s.s2 + 1 }
  else if k = 3 then { s with s3 := s.s3 + 1 }
  else { s with s4 := s.s4 + 1 }

/-- `|want - s| < bound`, the run test of R224, R225 and R258. -/
def nearRun (want : F64) (s : Nat) (bound : F64) : Bool := F64.lt (F64.abs (F64.sub want (F64.ofNat s))) bound

/-- The 1:1:3:1:1 test with the variance `m / divisor` (R224, R225). -/
def foundPattern (divisor : F64) (s : Runs5) : Bool :=
  if s.s0 = 0 ∨ s.s1 = 0 ∨ s.s2 = 0 ∨ s.s3 = 0 ∨ s.s4 = 0 ∨ s.total < 7 then false
  else
    let m := F64.div (F64.ofNat s.total) (F64.ofNat 7)
    let v := F64.div m divisor
    let three := F64.ofNat 3
    nearRun m s.s0 v && nearRun m s.s1 v && nearRun (F64.mul three m) s.s2 (F64.mul three v) &&
      nearRun m s.s3 v && nearRun m s.s4 v

/-- `foundPatternCross` (R224). -/
def foundPatternCross (s : Runs5) : Bool := foundPattern (F64.ofNat 2) s

/-- `foundPatternDiagonal` (R225). -/
def foundPatternDiagonal (s : Runs5) : Bool := foundPattern (F64.ofRatio 1333 1000) s

/-- `centerFromEnd` (R226). -/
def centerFromEnd (s : Runs5) (stop : Int) : F64 :=
  F64.sub (F64.ofInt (stop - s.s4 - s.s3)) (F64.div (F64.ofNat s.s2) (F64.ofNat 2))

/-- How many of `k`, `k + 1`, ... satisfy `p` before one does not (at most `fuel`). -/
def countWhile (p : Nat → Bool) : Nat → Nat → Nat
  | 0, _ => 0
  | fuel + 1, k => if p k then countWhile p fuel (k + 1) + 1 else 0

/-- One line of pixels, `0 .. n - 1`, that a cross check walks. -/
structure Line where
  n : Nat
  px : Int → Bool

def Line.black (l : Line) (i : Int) : Bool := decide (0 ≤ i) && decide (i < l.n) && l.px i
def Line.white (l : Line) (i : Int) : Bool := decide (0 ≤ i) && decide (i < l.n) && !l.px i

/-- A run of the pixels `q` from `start` on, downward or upward, while the count so far is `ok`. -/
def Line.run (l : Line) (q : Int → Bool) (ok : Nat → Bool) (start dir : Int) : Nat :=
  countWhile (fun k => ok k && q (start + dir * k)) (l.n + 1) 0

def noBound : Nat → Bool := fun _ => true

/-- The run counting and the pattern test of R227 and R228 along a line; `reject total` is the length test. -/
def crossCheck (l : Line) (start : Int) (maxCount : Nat) (reject : Nat → Bool) : Option F64 :=
  let mid := l.run l.black noBound start (-1)
  let i := start - mid
  if i < 0 then none
  else
    let s1 := l.run l.white (fun k => decide (k ≤ maxCount)) i (-1)
    let i := i - s1
    if i < 0 ∨ maxCount < s1 then none
    else
      let s0 := l.run l.black (fun k => decide (k ≤ maxCount)) i (-1)
      if maxCount < s0 then none
      else
        let i := start + 1
        let more := l.run l.black noBound i 1
        let i := i + more
        if i = l.n then none
        else
          let s3 := l.run l.white (fun k => decide (k < maxCount)) i 1
          let i := i + s3
          if i = l.n ∨ maxCount ≤ s3 then none
          else
            let s4 := l.run l.black (fun k => decide (k < maxCount)) i 1
            let i := i + s4
            if maxCount ≤ s4 then none
            else
              let s : Runs5 := ⟨s0, s1, mid + more, s3, s4⟩
              if reject s.total then none
              else if foundPatternCross s then some (centerFromEnd s i) else none

/-- `5 * |total - orig|`. -/
def fiveDeviations (total orig : Nat) : Nat := 5 * ((total : Int) - orig).natAbs

/-- Column `x` of an image. -/
def BitMatrix.column (im : BitMatrix) (x : Int) : Line := ⟨im.h, fun i => im.px x i⟩

/-- Row `y` of an image. -/
def BitMatrix.row (im : BitMatrix) (y : Int) : Line := ⟨im.w, fun j => im.px j y⟩

/-- `crossCheckVertical` (R227): a deviation of at most 40% is accepted. -/
def crossCheckVertical (im : BitMatrix) (startI cJ : Int) (maxCount orig : Nat) : Option F64 :=
  crossCheck (im.column cJ) startI maxCount (fun total => decide (2 * orig < fiveDeviations total orig))

/-- `crossCheckHorizontal` (R228): a deviation below 20% is accepted. -/
def crossCheckHorizontal (im : BitMatrix) (startJ cI : Int) (maxCount orig : Nat) : Option F64 :=
  crossCheck (im.row cI) startJ maxCount (fun total => decide (orig ≤ fiveDeviations total orig))

/-- `crossCheckDiagonal` (R229). -/
def crossCheckDiagonal (im : BitMatrix) (cI cJ : Int) : Bool :=
  let fuel := im.w + im.h + 1
  let up (black : Bool) (k : Nat) : Bool :=
    decide ((k : Int) ≤ cI) && decide ((k : Int) ≤ cJ) && (im.px (cJ - k) (cI - k) == black)
  let down (black : Bool) (k : Nat) : Bool :=
    decide (cI + k < im.h) && decide (cJ + k < im.w) && (im.px (cJ + k) (cI + k) == black)
  let mid := countWhile (up true) fuel 0
  let s1 := countWhile (up false) fuel mid
  let s0 := countWhile (up true) fuel (mid + s1)
  if mid = 0 ∨ s1 = 0 ∨ s0 = 0 then false
  else
    let more := countWhile (down true) fuel 1
    let s3 := countWhile (down false) fuel (1 + more)
    let s4 := countWhile (down true) fuel (1 + more + s3)
    if s3 = 0 ∨ s4 = 0 then false else foundPatternDiagonal ⟨s0, s1, mid + more, s3, s4⟩

/-! ### Candidates -/

/-- `aboutEquals` (R221), of a candidate's centre and module size with an observation at row `i`, column `j`. -/
def aboutEquals (cx cy cms ms i j : F64) : Bool :=
  if F64.le (F64.abs (F64.sub i cy)) ms && F64.le (F64.abs (F64.sub j cx)) ms then
    let diff := F64.abs (F64.sub ms cms)
    F64.le diff (F64.ofNat 1) || F64.le diff cms
  else false

/-- `combineEstimate` (R222). -/
def combineEstimate (c : FinderCand) (i j ms : F64) : Except Raise FinderCand := do
  let n := F64.ofNat (c.count + 1)
  let k := F64.ofNat c.count
  let x ← fdiv (F64.add (F64.mul k c.x) j) n
  let y ← fdiv (F64.add (F64.mul k c.y) i) n
  let m ← fdiv (F64.add (F64.mul k c.ms) ms) n
  .ok ⟨x, y, m, c.count + 1⟩

/-- `FCAND` with a confirmed centre merged into the first candidate it matches, or added (R230, R251). -/
def mergeCand (cap : Nat) (i j ms : F64) (l : List FinderCand) : Except Raise (List FinderCand) :=
  match l.findIdx? (fun c => aboutEquals c.x c.y c.ms ms i j) with
  | some k =>
    match l[k]? with
    | some c => do
      let c' ← combineEstimate c i j ms
      .ok (l.set k c')
    | none => .ok l
  | none => if l.length < cap then .ok (l ++ [⟨j, i, ms, 1⟩]) else .error (.capacity .finderFull)

/-- `handlePossibleCenter` (R230): none where it answers false, else `FCAND` afterwards. -/
def handlePossibleCenter (im : BitMatrix) (cap : Nat) (l : List FinderCand) (s : Runs5) (i j : Int) :
    Except Raise (Option (List FinderCand)) := do
  let cJ0 ← toInt (centerFromEnd s j)
  match crossCheckVertical im i cJ0 s.s2 s.total with
  | none => .ok none
  | some cI => do
    let cIi ← toInt cI
    match crossCheckHorizontal im cJ0 cIi s.s2 s.total with
    | none => .ok none
    | some cJ => do
      let cJi ← toInt cJ
      if !crossCheckDiagonal im cIi cJi then .ok none
      else do
        let ms ← fdiv (F64.ofNat s.total) (F64.ofNat 7)
        let l' ← mergeCand cap cI cJ ms l
        .ok (some l')

/-- The candidates of count 2 or more (R231, R232, R245). -/
def confirmed (l : List FinderCand) : List FinderCand := l.filter (fun c => decide (2 ≤ c.count))

/-- `findRowSkip` (R231): the skip, and whether it sets `hasSkipped`. -/
def findRowSkip (l : List FinderCand) : Except Raise (Int × Bool) :=
  match confirmed l with
  | first :: c :: _ => do
    let n ← toInt (F64.sub (F64.abs (F64.sub first.x c.x)) (F64.abs (F64.sub first.y c.y)))
    .ok (Int.tdiv n 2, true)
  | [_] => .ok (0, false)
  | [] => .ok (0, false)

/-- `haveMultiplyConfirmedCenters` (R232). -/
def haveMultiplyConfirmedCenters (l : List FinderCand) : Except Raise Bool :=
  let good := confirmed l
  if good.length < 3 then .ok false
  else do
    let tot := good.foldl (fun t c => F64.add t c.ms) (F64.zero false)
    let avg ← fdiv tot (F64.ofNat l.length)
    let dev := l.foldl (fun t c => F64.add t (F64.abs (F64.sub c.ms avg))) (F64.zero false)
    .ok (F64.le dev (F64.mul (F64.ofRatio 5 100) tot))

/-! ### The row scan -/

/-- What the row scan works on (R241). -/
structure Scan where
  fcand : List FinderCand
  hasSkipped : Bool
  s : Runs5
  st : Nat
  i : Int
  iSkip : Int
  done : Bool
  /-- `j` has been set to `W - 1`: the row ends. -/
  rowOver : Bool

/-- `foundPatternCross(s) and handlePossibleCenter(s, i, j)`, left to right (R241). -/
def Scan.tryCentre (c : Scan) (im : BitMatrix) (cap : Nat) (j : Int) : Except Raise (Option (List FinderCand)) :=
  if foundPatternCross c.s then handlePossibleCenter im cap c.fcand c.s c.i j else .ok none

/-- What follows a confirmed centre inside a row (R241). -/
def Scan.afterCentre (c : Scan) : Except Raise Scan := do
  let c : Scan := { c with iSkip := 2 }
  let c ← (if c.hasSkipped then do
      let done ← haveMultiplyConfirmedCenters c.fcand
      .ok { c with done := done }
    else do
      let (rs, sets) ← findRowSkip c.fcand
      let c : Scan := { c with hasSkipped := c.hasSkipped || sets }
      if (c.s.s2 : Int) < rs then .ok { c with i := c.i + rs - c.s.s2 - c.iSkip, rowOver := true }
      else .ok c)
  .ok { c with st := 0, s := Runs5.zero }

/-- The scan with `hasSkipped` and `FCAND` as they stand when a step raises: the candidate merged just before stays
(R230, R255). -/
abbrev ScanResult := Scan × Option Raise

/-- One pixel of the row scan (R241). -/
def Scan.pixel (c : Scan) (im : BitMatrix) (cap : Nat) (j : Nat) : ScanResult :=
  if im.px j c.i then
    let st := if c.st % 2 = 1 then c.st + 1 else c.st
    ({ c with st := st, s := c.s.inc st }, none)
  else if c.st % 2 = 1 then ({ c with s := c.s.inc c.st }, none)
  else if c.st < 4 then ({ c with st := c.st + 1, s := c.s.inc (c.st + 1) }, none)
  else
    match c.tryCentre im cap j with
    | .error e => (c, some e)
    | .ok (some l) =>
      let c := { c with fcand := l }
      match c.afterCentre with
      | .error e => (c, some e)
      | .ok c => (c, none)
    | .ok none => ({ c with s := ⟨c.s.s2, c.s.s3, c.s.s4, 1, 0⟩, st := 3 }, none)

/-- The pixels of a row from column `j` on; `n` of them are left (R241). -/
def Scan.pixels (im : BitMatrix) (cap : Nat) : Nat → Nat → Scan → ScanResult
  | 0, _, c => (c, none)
  | n + 1, j, c =>
    if c.rowOver then (c, none)
    else
      match c.pixel im cap j with
      | (c, none) => Scan.pixels im cap n (j + 1) c
      | (c, some e) => (c, some e)

/-- The centre that may end with the row (R241). -/
def Scan.endOfRow (c : Scan) (im : BitMatrix) (cap : Nat) : ScanResult :=
  match c.tryCentre im cap im.w with
  | .error e => (c, some e)
  | .ok none => (c, none)
  | .ok (some l) =>
    let c := { c with fcand := l, iSkip := c.s.s0 }
    if c.hasSkipped then
      match haveMultiplyConfirmedCenters c.fcand with
      | .error e => (c, some e)
      | .ok done => ({ c with done := done }, none)
    else (c, none)

/-- The rows (R241). Every round raises `i` by at least 1, so `H` rounds never cut the scan short (log 14). -/
def Scan.rows (im : BitMatrix) (cap : Nat) : Nat → Scan → ScanResult
  | 0, c => (c, none)
  | n + 1, c =>
    if (im.h : Int) ≤ c.i ∨ c.done then (c, none)
    else
      match Scan.pixels im cap im.w 0 { c with s := Runs5.zero, st := 0, rowOver := false } with
      | (c, some e) => (c, some e)
      | (c, none) =>
        match c.endOfRow im cap with
        | (c, some e) => (c, some e)
        | (c, none) => Scan.rows im cap n { c with i := c.i + c.iSkip }

/-- The vertical stride the scan starts with (R241). -/
def initialSkip (h : Nat) (tryHarder : Bool) : Nat := if tryHarder then 1 else max 3 (3 * h / (4 * 97))

/-- The scan of `findFinder` (R241), before the selection. -/
def findFinderScan (im : BitMatrix) (cap : Nat) (tryHarder : Bool) : ScanResult :=
  let k : Int := initialSkip im.h tryHarder
  Scan.rows im cap im.h ⟨[], false, Runs5.zero, 0, k - 1, k, false, false⟩

/-! ### The selection -/

/-- Inserts before the first element of a larger module size: equal ones keep their order. -/
def insertByMs (c : FinderCand) : List FinderCand → List FinderCand
  | [] => [c]
  | d :: ds => if F64.lt c.ms d.ms then c :: d :: ds else d :: insertByMs c ds

/-- Stably sorted by module size, ascending (R245). -/
def sortByMs (l : List FinderCand) : List FinderCand := l.foldl (fun acc c => insertByMs c acc) []

/-- `sq(p, q)` (R245). -/
def sqDist (p q : FinderCand) : F64 :=
  let dx := F64.sub p.x q.x
  let dy := F64.sub p.y q.y
  F64.add (F64.mul dx dx) (F64.mul dy dy)

/-- Inserts a number into an ascending list. -/
def insertF64 (v : F64) : List F64 → List F64
  | [] => [v]
  | w :: ws => if F64.lt v w then v :: w :: ws else w :: insertF64 v ws

/-- The isosceles-right-triangle distortion of three squared distances (R245). -/
def distortion (d0 d1 d2 : F64) : F64 :=
  match insertF64 d2 (insertF64 d1 [d0]) with
  | [x, y, z] =>
    let two := F64.ofNat 2
    F64.add (F64.abs (F64.sub z (F64.mul two y))) (F64.abs (F64.sub z (F64.mul two x)))
  | _ => .nan

/-- A triple of candidates. -/
abbrev Triple := FinderCand × FinderCand × FinderCand

/-- The pairs of a list, in the order of R245. -/
def pairsFrom : List FinderCand → List (FinderCand × FinderCand)
  | [] => []
  | c :: cs => cs.map (fun d => (c, d)) ++ pairsFrom cs

/-- The triples of a list, in the order of R245. -/
def triplesFrom : List FinderCand → List Triple
  | [] => []
  | c :: cs => (pairsFrom cs).map (fun p => (c, p.1, p.2)) ++ triplesFrom cs

/-- One round of the selection (R245): the best triple so far, with its distortion. -/
def selectStep (best : F64 × Option Triple) (t : Triple) : F64 × Option Triple :=
  if F64.lt (F64.mul t.1.ms (F64.ofRatio 14 10)) t.2.2.ms then best
  else
    let d := distortion (sqDist t.1 t.2.1) (sqDist t.2.1 t.2.2) (sqDist t.1 t.2.2)
    if F64.lt d best.1 then (d, some t) else best

/-- `orderBestPatterns` (R246): the input indices of bottom left, top left, top right. -/
def orderPoints (p0 p1 p2 : Pt) : Nat × Nat × Nat :=
  let d01 := distance p0.x p0.y p1.x p1.y
  let d12 := distance p1.x p1.y p2.x p2.y
  let d02 := distance p0.x p0.y p2.x p2.y
  let pick (k : Nat) : Pt := if k = 0 then p0 else if k = 1 then p1 else p2
  let (b, a, c) : Nat × Nat × Nat :=
    if F64.le d01 d12 && F64.le d02 d12 then (0, 1, 2)
    else if F64.le d12 d02 && F64.le d01 d02 then (1, 0, 2)
    else (2, 0, 1)
  let A := pick a
  let B := pick b
  let C := pick c
  let cross := mulSub (F64.sub C.x B.x) (F64.sub A.y B.y) (F64.sub C.y B.y) (F64.sub A.x B.x)
  if F64.lt cross (F64.zero false) then (c, b, a) else (a, b, c)

/-- One of three by its index. -/
def pick3 {α : Type} (k : Nat) (a b c : α) : α := if k = 0 then a else if k = 1 then b else c

/-- `selectBestPatterns` (R245): bottom left, top left, top right. -/
def selectBestPatterns (l : List FinderCand) : Except Raise Triple :=
  if l.length < 3 then .error (.notFound .finderFew)
  else
    match (triplesFrom (sortByMs (confirmed l))).foldl selectStep (.inf false, none) with
    | (_, none) => .error (.notFound .finderFew)
    | (_, some (a, b, c)) =>
      let (i, j, k) := orderPoints ⟨a.x, a.y⟩ ⟨b.x, b.y⟩ ⟨c.x, c.y⟩
      .ok (pick3 i a b c, pick3 j a b c, pick3 k a b c)

/-! ### The alignment pattern finder -/

/-- Three run lengths, white, black, white (R258). -/
structure Runs3 where
  s0 : Nat
  s1 : Nat
  s2 : Nat
  deriving DecidableEq, Repr

def Runs3.total (s : Runs3) : Nat := s.s0 + s.s1 + s.s2

/-- `s[k]++`. -/
def Runs3.inc (s : Runs3) (k : Nat) : Runs3 :=
  if k = 0 then { s with s0 := s.s0 + 1 }
  else if k = 1 then { s with s1 := s.s1 + 1 }
  else { s with s2 := s.s2 + 1 }

/-- `crossA` (R258). -/
def crossA (ms : F64) (s : Runs3) : Bool :=
  let v := F64.div ms (F64.ofNat 2)
  nearRun ms s.s0 v && nearRun ms s.s1 v && nearRun ms s.s2 v

/-- `centerFromEndA` (R258). -/
def centerFromEndA (s : Runs3) (stop : Int) : F64 :=
  F64.sub (F64.ofInt (stop - s.s2)) (F64.div (F64.ofNat s.s1) (F64.ofNat 2))

/-- `crossCheckVerticalA` (R260). -/
def crossCheckVerticalA (im : BitMatrix) (ms : F64) (startI cJ : Int) (maxCount orig : Nat) : Option F64 :=
  let l := im.column cJ
  let ok (k : Nat) : Bool := decide (k ≤ maxCount)
  let up := l.run l.black ok startI (-1)
  let i := startI - up
  if i < 0 ∨ maxCount < up then none
  else
    let s0 := l.run l.white ok i (-1)
    if maxCount < s0 then none
    else
      let i := startI + 1
      let more := l.run l.black (fun k => ok (up + k)) i 1
      let i := i + more
      if i = l.n ∨ maxCount < up + more then none
      else
        let s2 := l.run l.white ok i 1
        let i := i + s2
        if maxCount < s2 then none
        else
          let s : Runs3 := ⟨s0, up + more, s2⟩
          if 2 * orig < fiveDeviations s.total orig then none
          else if crossA ms s then some (centerFromEndA s i) else none

/-- What one look at a possible alignment centre comes to (R261): a confirmed pattern, or `ACAND` afterwards. -/
inductive AlignLook where
  | found (c : AlignCand)
  | continue (acand : List AlignCand)

/-- `handlePossibleCenterA` (R261). -/
def handlePossibleCenterA (im : BitMatrix) (cap : Nat) (ms : F64) (l : List AlignCand) (s : Runs3) (i j : Int) :
    Except Raise AlignLook := do
  let cJ := centerFromEndA s j
  let cJi ← toInt cJ
  match crossCheckVerticalA im ms i cJi (2 * s.s1) s.total with
  | none => .ok (.continue l)
  | some cI => do
    let ems ← fdiv (F64.ofNat s.total) (F64.ofNat 3)
    let two := F64.ofNat 2
    match l.find? (fun c => aboutEquals c.x c.y c.ms ems cI cJ) with
    | some c => do
      let x ← fdiv (F64.add c.x cJ) two
      let y ← fdiv (F64.add c.y cI) two
      let m ← fdiv (F64.add c.ms ems) two
      .ok (.found ⟨x, y, m⟩)
    | none =>
      if l.length < cap then .ok (.continue (l ++ [⟨cJ, cI, ems⟩])) else .error (.capacity .alignFull)

/-- The alignment scan: `ACAND`, and how it came out once it has. -/
structure AlignScan where
  acand : List AlignCand
  out : Option (Except Raise AlignCand)

/-- A look at a possible centre where the runs pass the test (R264). -/
def AlignScan.look (a : AlignScan) (im : BitMatrix) (cap : Nat) (ms : F64) (s : Runs3) (i j : Int) : AlignScan :=
  if crossA ms s then
    match handlePossibleCenterA im cap ms a.acand s i j with
    | .error e => { a with out := some (.error e) }
    | .ok (.found c) => { a with out := some (.ok c) }
    | .ok (.continue l) => { a with acand := l }
  else a

/-- The columns of a row from `j` on (R264); `n` of them are left. -/
def AlignScan.columns (im : BitMatrix) (cap : Nat) (ms : F64) (i : Int) :
    Nat → Int → Runs3 → Nat → AlignScan → AlignScan × Runs3
  | 0, _, s, _, a => (a, s)
  | n + 1, j, s, st, a =>
    if im.px j i then
      if st = 1 then AlignScan.columns im cap ms i n (j + 1) (s.inc 1) 1 a
      else if st = 2 then
        let a := a.look im cap ms s i j
        if a.out.isSome then (a, s) else AlignScan.columns im cap ms i n (j + 1) ⟨s.s2, 1, 0⟩ 1 a
      else AlignScan.columns im cap ms i n (j + 1) (s.inc (st + 1)) (st + 1) a
    else
      let st := if st = 1 then 2 else st
      AlignScan.columns im cap ms i n (j + 1) (s.inc st) st a

/-- One row of the search (R264): leading white is skipped, then the runs are counted. -/
def AlignScan.row (a : AlignScan) (im : BitMatrix) (cap : Nat) (ms : F64) (startX width i : Int) : AlignScan :=
  let n := width.toNat
  let lead := countWhile (fun k => !im.px (startX + k) i) n 0
  let (a, s) := AlignScan.columns im cap ms i (n - lead) (startX + lead) ⟨0, 0, 0⟩ 0 a
  if a.out.isSome then a else a.look im cap ms s i (startX + width)

/-- The row of round `g` (R264), as the rule's formula has it (log 11). -/
def alignRow (middleI : Int) (g : Nat) : Int :=
  middleI + (if g % 2 = 0 then (((g + 1) / 2 : Nat) : Int) else -(((g + 1) / 2 : Nat) : Int))

/-- The rounds of the search (R264). -/
def AlignScan.rounds (im : BitMatrix) (cap : Nat) (ms : F64) (startX width middleI : Int) :
    List Nat → AlignScan → AlignScan
  | [], a => a
  | g :: gs, a =>
    let a := a.row im cap ms startX width (alignRow middleI g)
    if a.out.isSome then a else AlignScan.rounds im cap ms startX width middleI gs a

/-- `findAlign` (R264): `ACAND` afterwards, and the pattern or the error. -/
def findAlign (im : BitMatrix) (cap : Nat) (startX startY width height : Int) (ms : F64) :
    List AlignCand × Except Raise AlignCand :=
  let middleI := startY + Int.tdiv height 2
  let a := AlignScan.rounds im cap ms startX width middleI (List.range height.toNat) ⟨[], none⟩
  match a.out, a.acand with
  | some r, l => (l, r)
  | none, c :: cs => (c :: cs, .ok c)
  | none, [] => ([], .error (.notFound .alignNone))

/-- The search region of `alignInRegion` (R262): left, top, width, height. -/
def alignRegion (im : BitMatrix) (ms : F64) (estX estY : Int) (f : Nat) : Except Raise (Int × Int × Int × Int) := do
  let allowance ← toInt (F64.mul (F64.ofNat f) ms)
  let least := F64.mul ms (F64.ofNat 3)
  let left := max 0 (estX - allowance)
  let right := min ((im.w : Int) - 1) (estX + allowance)
  if F64.lt (F64.ofInt (right - left)) least then .error (.notFound .alignRegion)
  else
    let top := max 0 (estY - allowance)
    let bottom := min ((im.h : Int) - 1) (estY + allowance)
    if F64.lt (F64.ofInt (bottom - top)) least then .error (.notFound .alignRegion)
    else .ok (left, top, right - left, bottom - top)

/-- `alignInRegion` (R262) from `ACAND` as it stands: `ACAND` afterwards, and the pattern or the error. `findAlign` is
what empties `ACAND` (R263). -/
def alignInRegion (im : BitMatrix) (cap : Nat) (acand : List AlignCand) (ms : F64) (estX estY : Int) (f : Nat) :
    List AlignCand × Except Raise AlignCand :=
  match alignRegion im ms estX estY f with
  | .error e => (acand, .error e)
  | .ok (left, top, width, height) => findAlign im cap left top width height ms

/-! ### The commands -/

/-- What a search that ended without an overflow leaves: the selected triple, and the writes of R255. -/
def State.putFinder (s : State) (t : Triple) : State :=
  let s := s.setFs fBL [t.1.x, t.1.y, t.1.ms, t.2.1.x, t.2.1.y, t.2.1.ms, t.2.2.x, t.2.2.y, t.2.2.ms]
  { s with
    fpcBl := Word.ofNat t.1.count
    fpcTl := Word.ofNat t.2.1.count
    fpcTr := Word.ofNat t.2.2.count }

/-- The finder scan of the image in force. -/
def State.finderScan (s : State) : ScanResult :=
  findFinderScan s.image s.params.maxFinderCand s.ctrl.tryHarder

/-- `FIND_NCAND` is written when the scan ends, and when the list is full (R255); no other error can end the scan
(log 16). -/
def ncandWritten : Option Raise → Bool
  | none => true
  | some e => e == .capacity .finderFull

/-- The finder step (R255, R201), after the checks. -/
def finderStep (s : State) : Ended :=
  let r := s.finderScan
  let s := { s with fcand := r.1.fcand, hasSkipped := r.1.hasSkipped }
  let s := if ncandWritten r.2 then { s with findNcand := Word.ofNat s.fcand.length } else s
  match r.2 with
  | some e => (s, some e)
  | none => computing s (selectBestPatterns s.fcand) fun t => (s.putFinder t, none)

/-- R255. -/
def findFinder (s : State) : Ended := if !s.imgDimsOk then (s, some (.argRange .dims)) else finderStep s

/-- The writes of a find (R201, R266). -/
def State.putAlign (s : State) (c : AlignCand) : State :=
  { s.setFs fAP [c.x, c.y, c.ms] with apValid := true }

/-- The alignment search of the image in force around an estimate. -/
def State.alignSearch (s : State) (ms : F64) (estX estY : Int) (f : Nat) : List AlignCand × Except Raise AlignCand :=
  alignInRegion s.image s.params.maxAlignCand s.acand ms estX estY f

/-- R266, its checks in its order (log 12). -/
def findAlignCmd (s : State) : Ended :=
  let ms := s.fval fMS
  if !s.imgDimsOk then (s, some (.argRange .dims))
  else if !(ms.isFinite && F64.lt (F64.zero false) ms) then (s, some (.argRange .float))
  else if 65535 < s.argNat 2 then (s, some (.argRange .arg))
  else
    let r := s.alignSearch ms (s.argInt 0) (s.argInt 1) (s.argNat 2)
    let s := { s with acand := r.1 }
    computing s r.2 fun c => (s.putAlign c, none)

/-- R256. -/
def order3 (s : State) : Except Raise State :=
  if !s.finiteFrom fQ 6 then .error (.argRange .float)
  else
    let (a, b, c) := orderPoints (s.pt fQ) (s.pt (fQ + 2)) (s.pt (fQ + 4))
    let copy (t : State) (dst src : Nat) : State :=
      (t.setFbits (fQ + 2 * dst) (s.fbits (fQ + 2 * src))).setFbits (fQ + 2 * dst + 1) (s.fbits (fQ + 2 * src + 1))
    .ok { copy (copy (copy s 0 a) 1 b) 2 c with res0 := Word.ofNat (a + 4 * b + 16 * c) }

/-- `FIND_FINDER` (R255). -/
def execFindFinder (s : State) : Host.Outcome State Fault Refusal := endCommand (findFinder s)

/-- `FIND_ALIGN` (R266). -/
def execFindAlign (s : State) : Host.Outcome State Fault Refusal := endCommand (findAlignCmd s)

/-- `ORDER3` (R256). -/
def execOrder3 (s : State) : Host.Outcome State Fault Refusal := endCommand (single s (order3 s))

end Sys2Proof.Machine
end

