-- ==== Sys2Proof/Machine/Detect.lean ====
section
/-! DEFINITION. The commands that run the whole detector and the whole scan (R187, R189, R201, R302). -/

namespace Sys2Proof.Machine

/-- The alignment estimate (R187). -/
def alignEstimate (tl tr bl : Pt) (d : Nat) : Except Raise (Int × Int) := do
  let brX := subAdd tr.x tl.x bl.x
  let brY := subAdd tr.y tl.y bl.y
  let q ← fdiv (F64.ofNat 3) (F64.ofNat (d - 7))
  let corr := F64.sub (F64.ofNat 1) q
  let estX ← toInt (F64.add tl.x (F64.mul corr (F64.sub brX tl.x)))
  let estY ← toInt (F64.add tl.y (F64.mul corr (F64.sub brY tl.y)))
  .ok (estX, estY)

/-- The tries of R189 with the allowance factors in order: `NOT_FOUND` is caught, nothing else is; to find nothing is no
error. -/
def alignTries (ms : F64) (estX estY : Int) : List Nat → State → Ended
  | [], s => (s, none)
  | f :: fs, s =>
    let r := s.alignSearch ms estX estY f
    let s := { s with acand := r.1 }
    match r.2 with
    | .ok c => (s.putAlign c, none)
    | .error (.notFound _) => alignTries ms estX estY fs s
    | .error (.format d) => (s, some (.format d))
    | .error (.checksum d) => (s, some (.checksum d))
    | .error (.rsInternal d) => (s, some (.rsInternal d))
    | .error (.illegalCmd d) => (s, some (.illegalCmd d))
    | .error (.argRange d) => (s, some (.argRange d))
    | .error (.capacity d) => (s, some (.capacity d))

/-- The alignment step (R189, R201): `AP_VALID` is cleared for every version (log 18). -/
def alignStep (ms : F64) (d v : Nat) (s : State) : Ended :=
  let s := { s with apValid := false }
  if v < 2 then (s, none)
  else computing s (alignEstimate (s.pt fTL) (s.pt fTR) (s.pt fBL) d) fun e => alignTries ms e.1 e.2 [4, 8, 16] s

/-- R201: each output is written as its step completes. -/
def detect (s : State) : Ended :=
  if !s.imgDimsOk then (s, some (.argRange .dims))
  else
    (finderStep s).andThen fun s =>
    computing s (checkedModuleSize s.params.bresenham s.image (s.pt fTL) (s.pt fTR) (s.pt fBL)) fun ms =>
    let s := s.setF fMS ms
    computing s (dimensionAndVersion (s.pt fTL) (s.pt fTR) (s.pt fBL) ms) fun dv =>
    (alignStep ms dv.1 dv.2 { s with dim := Word.ofNat dv.1, pver := BitVec.ofNat 6 dv.2 }).andThen fun s =>
    computing s (createTransform (s.pt fTL) (s.pt fTR) (s.pt fBL) s.alignPt dv.1) fun t =>
    let s := s.setFs fTA t.list
    computing s (sampleGrid s.image dv.1 dv.1 t) fun rows => (s.putGrid dv.1 dv.1 rows, none)

/-- R302: `DETECT`, then `DECODE` on the new `GRID`. -/
def scan (s : State) : Ended := (detect s).andThen fun t => single t (decodeCmd t)

/-- `DETECT` (R201). -/
def execDetect (s : State) : Host.Outcome State Fault Refusal := endCommand (detect s)

/-- `SCAN` (R302). -/
def execScan (s : State) : Host.Outcome State Fault Refusal := endCommand (scan s)

end Sys2Proof.Machine
end

