-- ==== Sys2Proof/Machine/Dispatch.lean ====
section
/-! DEFINITION. The meaning of each command: one arm per constructor. -/

namespace Sys2Proof.Machine

/-- A command executed to its end (R90): each arm calls the meaning of its command. -/
def exec (i : Instr) (s : State) : Host.Outcome State Fault Refusal :=
  match i with
  | .nop => Sys2Proof.Machine.execNop s
  | .clear => Sys2Proof.Machine.execClear s
  | .gfAdd => Sys2Proof.Machine.execGfAdd s
  | .gfMul => Sys2Proof.Machine.execGfMul s
  | .gfInv => Sys2Proof.Machine.execGfInv s
  | .gfExp => Sys2Proof.Machine.execGfExp s
  | .gfLog => Sys2Proof.Machine.execGfLog s
  | .pAdd sel => Sys2Proof.Machine.execPAdd sel s
  | .pMul sel => Sys2Proof.Machine.execPMul sel s
  | .pScale sel => Sys2Proof.Machine.execPScale sel s
  | .pMulmono sel => Sys2Proof.Machine.execPMulmono sel s
  | .pMono sel => Sys2Proof.Machine.execPMono sel s
  | .pEval sel => Sys2Proof.Machine.execPEval sel s
  | .rsSynd => Sys2Proof.Machine.execRsSynd s
  | .rsEuclid => Sys2Proof.Machine.execRsEuclid s
  | .rsChien => Sys2Proof.Machine.execRsChien s
  | .rsForney => Sys2Proof.Machine.execRsForney s
  | .rsCorrect => Sys2Proof.Machine.execRsCorrect s
  | .rsDecode => Sys2Proof.Machine.execRsDecode s
  | .ptSq2q => Sys2Proof.Machine.execPtSq2q s
  | .ptQ2sq => Sys2Proof.Machine.execPtQ2sq s
  | .ptQ2q => Sys2Proof.Machine.execPtQ2q s
  | .ptAdj => Sys2Proof.Machine.execPtAdj s
  | .ptTimes => Sys2Proof.Machine.execPtTimes s
  | .ptXform sel => Sys2Proof.Machine.execPtXform sel s
  | .ptCopy sel => Sys2Proof.Machine.execPtCopy sel s
  | .gridSample => Sys2Proof.Machine.execGridSample s
  | .moduleSize => Sys2Proof.Machine.execModuleSize s
  | .dimension => Sys2Proof.Machine.execDimension s
  | .createXform => Sys2Proof.Machine.execCreateXform s
  | .detect => Sys2Proof.Machine.execDetect s
  | .findFinder => Sys2Proof.Machine.execFindFinder s
  | .findAlign => Sys2Proof.Machine.execFindAlign s
  | .order3 => Sys2Proof.Machine.execOrder3 s
  | .parserInit => Sys2Proof.Machine.execParserInit s
  | .readFormat => Sys2Proof.Machine.execReadFormat s
  | .readVersion => Sys2Proof.Machine.execReadVersion s
  | .unmask sel => Sys2Proof.Machine.execUnmask sel s
  | .buildFnpat => Sys2Proof.Machine.execBuildFnpat s
  | .readCodewords => Sys2Proof.Machine.execReadCodewords s
  | .blockDecode => Sys2Proof.Machine.execBlockDecode s
  | .mirror => Sys2Proof.Machine.execMirror s
  | .setMirror sel => Sys2Proof.Machine.execSetMirror sel s
  | .remask => Sys2Proof.Machine.execRemask s
  | .decode => Sys2Proof.Machine.execDecode s
  | .scan => Sys2Proof.Machine.execScan s

end Sys2Proof.Machine
end

