-- ==== Sys2Proof/Machine/Issue.lean ====
section
/-! DEFINITION. The issue of a command: decoding the accepted command word, and running it (R80, R90). -/

namespace Sys2Proof.Machine

/-- `execute(v)` and the end of the command (R90): a word that is no command ends as `ILLEGAL_CMD` (R80). -/
def runCommand (s : State) (w : Word) : Host.Outcome State Fault Refusal :=
  match decode w with
  | .ok i => exec i s
  | .error e => endCommand (s, some (.illegalCmd e))

/-- The core's turn (R90, R362; log 2): the command in progress runs to its end; an idle core does nothing. -/
def coreTurn (s : State) : Host.Outcome State Fault Refusal :=
  match s.running with
  | none => .next s
  | some w => runCommand s w

end Sys2Proof.Machine
end

