-- ==== Sys2Proof/Machine/Step.lean ====
section
/-! DEFINITION. One step of the machine. -/

namespace Sys2Proof.Machine

/-- One step: the next host event (R67, R360), or the core's turn where none comes before it (log 1, 2). -/
def step (s : State) : Host.Outcome State Fault Refusal :=
  match s.host with
  | [] => coreTurn s
  | .coreTurn :: rest => coreTurn { s with host := rest }
  | .read addr width :: rest => hostAccess { s with host := rest } addr width (hostRead { s with host := rest })
  | .write addr width v :: rest =>
    hostAccess { s with host := rest } addr width (fun off => hostWrite { s with host := rest } off v)
  | .reset :: rest => .next (resetPulse { s with host := rest })

/-- `s` right after the accepted write of a command word to `CMD` (R24, R90), with no host event before the core's
turn: the very next step runs that command (log 1). -/
def State.withFetchWord (s : State) (nbits w : Nat) : State :=
  startCommand { s with host := [] } (BitVec.ofNat 32 (w % 2 ^ nbits))

end Sys2Proof.Machine
end

