-- ==== Sys2Proof/Safety.lean ====
section
/-! DEFINITION. The terms the statements use: how a command ends, what each command may write, the invariants every step
keeps, and the field arithmetic of R100 in its own words. -/

namespace Sys2Proof.Machine

/-! ### How a command ends -/

/-- `t` at the end of a command that raised nothing (R90). -/
def State.finished (t : State) : State :=
  { t with
    errcode := 0
    errdetail := 0
    status := { busy := false, done := true, err := false, ovr := t.status.ovr }
    running := none }

/-- `t` at the end of a command that raised an error, by the numbers of R330 and R332. -/
def State.failed (t : State) (code detail : Nat) : State :=
  { t with
    errcode := BitVec.ofNat 4 code
    errdetail := BitVec.ofNat 8 detail
    status := { busy := false, done := true, err := true, ovr := t.status.ovr }
    running := none }

/-- The state a command leaves behind: every command ends in a next state (R331). -/
def State.after (s : State) (i : Instr) : State :=
  match exec i s with
  | .next t => t
  | .fault _ => s
  | .refused _ => s

/-! ### Frames -/

/-- Every byte outside `n` bytes from `base` on reads as before. -/
def sameBytesOutside (s t : State) (base n : Nat) : Prop :=
  ∀ a, a < base ∨ base + n ≤ a → t.byte a = s.byte a

/-- Every byte reads as before. -/
def sameBytes (s t : State) : Prop := ∀ a, t.byte a = s.byte a

/-- The parts of the state that a frame speaks of; memory and the `F` registers have frames of their own. -/
inductive Part where
  | ctrl | arg | imgDims | rsIn | hostSide | res0 | res1 | gridDims | version | fmt | pver | pstate
  | numCw | numData | errsCorr | rsNerr | plen | dim | fpc | apValid | findNcand | fndim | fcand | acand
  deriving DecidableEq, Repr

/-- The part reads the same in two states. `hostSide` is the model's own: the events to come, the last answer, the
parameters, and the draw in force for the unwritten bytes. -/
def Part.same (p : Part) (s t : State) : Prop :=
  match p with
  | .ctrl => t.ctrl = s.ctrl
  | .arg => t.arg = s.arg
  | .imgDims => t.imgW = s.imgW ∧ t.imgH = s.imgH
  | .rsIn => t.rsN = s.rsN ∧ t.rsTwos = s.rsTwos
  | .hostSide => t.host = s.host ∧ t.resp = s.resp ∧ t.params = s.params ∧ t.epoch = s.epoch
  | .res0 => t.res0 = s.res0
  | .res1 => t.res1 = s.res1
  | .gridDims => t.gridW = s.gridW ∧ t.gridH = s.gridH
  | .version => t.version = s.version
  | .fmt => t.fmt = s.fmt
  | .pver => t.pver = s.pver
  | .pstate => t.pstate = s.pstate
  | .numCw => t.numCw = s.numCw
  | .numData => t.numData = s.numData
  | .errsCorr => t.errsCorr = s.errsCorr
  | .rsNerr => t.rsNerr = s.rsNerr
  | .plen => t.plen = s.plen
  | .dim => t.dim = s.dim
  | .fpc => t.fpcBl = s.fpcBl ∧ t.fpcTl = s.fpcTl ∧ t.fpcTr = s.fpcTr
  | .apValid => t.apValid = s.apValid
  | .findNcand => t.findNcand = s.findNcand
  | .fndim => t.fndim = s.fndim
  | .fcand => t.fcand = s.fcand ∧ t.hasSkipped = s.hasSkipped
  | .acand => t.acand = s.acand

/-- The parts the rule of a command names as written. -/
def partsWritten : Instr → List Part
  | .nop => []
  | .clear => [.res0, .res1, .version, .fmt, .pver, .pstate, .numCw, .numData, .errsCorr, .rsNerr, .dim, .fpc, .apValid,
      .findNcand, .fndim, .fcand, .acand]
  | .gfAdd => [.res0]
  | .gfMul => [.res0]
  | .gfInv => [.res0]
  | .gfExp => [.res0]
  | .gfLog => [.res0]
  | .pAdd _ => [.plen]
  | .pMul _ => [.plen]
  | .pScale _ => [.plen]
  | .pMulmono _ => [.plen]
  | .pMono _ => [.plen]
  | .pEval _ => [.res0]
  | .rsSynd => [.plen, .res0]
  | .rsEuclid => [.plen]
  | .rsChien => [.rsNerr]
  | .rsForney => []
  | .rsCorrect => [.res0]
  | .rsDecode => [.plen, .res0, .rsNerr]
  | .ptSq2q => []
  | .ptQ2sq => []
  | .ptQ2q => []
  | .ptAdj => []
  | .ptTimes => []
  | .ptXform _ => []
  | .ptCopy _ => []
  | .gridSample => [.gridDims]
  | .moduleSize => []
  | .dimension => [.dim, .pver]
  | .createXform => []
  | .detect => [.gridDims, .pver, .dim, .fpc, .apValid, .findNcand, .fcand, .acand]
  | .findFinder => [.fpc, .findNcand, .fcand]
  | .findAlign => [.apValid, .acand]
  | .order3 => [.res0]
  | .parserInit => [.version, .fmt, .pstate]
  | .readFormat => [.res0, .res1, .fmt]
  | .readVersion => [.res0, .res1, .version]
  | .unmask _ => []
  | .buildFnpat => [.fndim]
  | .readCodewords => [.version, .fmt, .fndim, .numCw]
  | .blockDecode => [.numData, .errsCorr]
  | .mirror => []
  | .setMirror _ => [.version, .fmt, .pstate]
  | .remask => []
  | .decode => [.res0, .res1, .numData, .errsCorr, .pstate]
  | .scan => [.res0, .res1, .numData, .errsCorr, .pstate, .gridDims, .pver, .dim, .fpc, .apValid, .findNcand, .fcand,
      .acand]

/-- The memory windows the rule of a command names as written (R71). -/
def windowsWritten : Instr → List Window
  | .nop => []
  | .clear => []
  | .gfAdd => []
  | .gfMul => []
  | .gfInv => []
  | .gfExp => []
  | .gfLog => []
  | .pAdd _ => [.pram]
  | .pMul _ => [.pram]
  | .pScale _ => [.pram]
  | .pMulmono _ => [.pram]
  | .pMono _ => [.pram]
  | .pEval _ => []
  | .rsSynd => [.pram]
  | .rsEuclid => [.pram]
  | .rsChien => [.loc]
  | .rsForney => [.mag]
  | .rsCorrect => [.rsbuf]
  | .rsDecode => [.pram, .loc, .mag, .rsbuf]
  | .ptSq2q => []
  | .ptQ2sq => []
  | .ptQ2q => []
  | .ptAdj => []
  | .ptTimes => []
  | .ptXform _ => []
  | .ptCopy _ => []
  | .gridSample => [.grid]
  | .moduleSize => []
  | .dimension => []
  | .createXform => []
  | .detect => [.grid]
  | .findFinder => []
  | .findAlign => []
  | .order3 => []
  | .parserInit => []
  | .readFormat => []
  | .readVersion => []
  | .unmask _ => [.grid]
  | .buildFnpat => [.fnpat]
  | .readCodewords => [.grid, .fnpat, .cw]
  | .blockDecode => [.data]
  | .mirror => [.grid]
  | .setMirror _ => []
  | .remask => [.grid]
  | .decode => [.data]
  | .scan => [.grid, .data]

/-- The registers `Fk` a command writes, each group as its first register and its length (R41). -/
def floatsWritten : Instr → List (Nat × Nat)
  | .ptSq2q => [(fTA, 9)]
  | .ptQ2sq => [(fTA, 9)]
  | .ptQ2q => [(fTA, 9)]
  | .ptAdj => [(fTA, 9)]
  | .ptTimes => [(fTA, 9)]
  | .ptXform m => [(fQ, 2 * m)]
  | .ptCopy dir => if dir = 0 then [(fTB, 9)] else [(fTA, 9)]
  | .moduleSize => [(fMS, 1)]
  | .createXform => [(fTA, 9)]
  | .detect => [(fTA, 9), (fBL, 9), (fAP, 3), (fMS, 1)]
  | .scan => [(fTA, 9), (fBL, 9), (fAP, 3), (fMS, 1)]
  | .findFinder => [(fBL, 9)]
  | .findAlign => [(fAP, 3)]
  | .order3 => [(fQ, 6)]
  | .nop => []
  | .clear => []
  | .gfAdd => []
  | .gfMul => []
  | .gfInv => []
  | .gfExp => []
  | .gfLog => []
  | .pAdd _ => []
  | .pMul _ => []
  | .pScale _ => []
  | .pMulmono _ => []
  | .pMono _ => []
  | .pEval _ => []
  | .rsSynd => []
  | .rsEuclid => []
  | .rsChien => []
  | .rsForney => []
  | .rsCorrect => []
  | .rsDecode => []
  | .gridSample => []
  | .dimension => []
  | .parserInit => []
  | .readFormat => []
  | .readVersion => []
  | .unmask _ => []
  | .buildFnpat => []
  | .readCodewords => []
  | .blockDecode => []
  | .mirror => []
  | .setMirror _ => []
  | .remask => []
  | .decode => []

/-- No group holds register `k`. -/
def outsideGroups (k : Nat) (gs : List (Nat × Nat)) : Prop := ∀ g ∈ gs, k < g.1 ∨ g.1 + g.2 ≤ k

/-! ### Invariants -/

/-- The control registers agree with one another (R23, R25, R90). -/
structure State.controlInv (s : State) : Prop where
  /-- `BUSY` from the accepted write to the end of the command (R23). -/
  busy : s.status.busy = s.running.isSome
  /-- A running command has neither ended nor failed (R90). -/
  flags : s.status.busy = true → s.status.done = false ∧ s.status.err = false
  /-- Once it has ended, `ERR` says whether an error is recorded (R90). -/
  err : s.status.busy = false → (s.status.err = true ↔ s.errcode ≠ 0)
  /-- The recorded pair is (0, 0) or a pair of R332. -/
  codes : ∃ r : Option Raise, s.errcode = (r.map Raise.code).getD 0 ∧ s.errdetail = (r.map Raise.detail).getD 0

/-- Memory has its canonical form, and lists only bytes of the windows of R61. -/
structure State.memoryInv (s : State) : Prop where
  wf : Memory.wf s.mem
  mapped : ∀ c ∈ s.mem, (windowAt c.1).isSome = true

/-- A cache or the mirror flag is set only on a grid `PARSER_INIT` accepted; a cached version is one (R30, R33, R43). -/
structure State.parserInv (s : State) : Prop where
  mirror : s.pstate.mirror = true → s.pstate.pinit = true
  version : s.version.isSome = true → s.pstate.pinit = true
  fmt : s.fmt.isSome = true → s.pstate.pinit = true
  range : ∀ v, s.version = some v → 1 ≤ v.toNat ∧ v.toNat ≤ 40

/-- The candidate lists stay within their capacities, and the result registers within their ranges (R30 to R49, R251,
R263). -/
structure State.resultInv (s : State) : Prop where
  fcand : s.fcand.length ≤ s.params.maxFinderCand
  count : ∀ c ∈ s.fcand, 1 ≤ c.count
  acand : s.acand.length ≤ s.params.maxAlignCand
  rsNerr : s.rsNerr.toNat ≤ 255
  pver : s.pver.toNat ≤ 40
  dim : s.dim = 0 ∨ (21 ≤ s.dim.toNat ∧ s.dim.toNat ≤ 177 ∧ s.dim.toNat % 4 = 1)
  fndim : s.fndim = 0 ∨ (21 ≤ s.fndim.toNat ∧ s.fndim.toNat ≤ 177 ∧ s.fndim.toNat % 4 = 1)
  numCw : s.numCw.toNat ≤ 3706
  numData : s.numData.toNat ≤ 3706

/-! ### The field of R100 in its own words -/

/-- One round of the loop of R100: times `z`, reduced modulo 0x11D. -/
def timesZ (a : Byte) : Byte := if a.getLsbD 7 then (a <<< 1) ^^^ 0x1D else a <<< 1

/-- `z^n * a`, reduced. -/
def timesZn : Nat → Byte → Byte
  | 0, a => a
  | n + 1, a => timesZn n (timesZ a)

/-- The product of `a` and `b` as polynomials over GF(2), reduced modulo 0x11D (R102). -/
def fieldProduct (a b : Byte) : Byte :=
  (List.range 8).foldl (fun acc k => if b.getLsbD k then acc ^^^ timesZn k a else acc) 0

/-- A canonical polynomial (R103). -/
def canonical (p : Poly) : Prop := trim p = p

/-- `x` to the power `n`. -/
def fieldPower (x : Byte) : Nat → Byte
  | 0 => 1
  | n + 1 => gmul (fieldPower x n) x

/-- Horner's rule over every coefficient, with the product of R102. -/
def horner (p : Poly) (x : Byte) : Byte := p.foldl (fun r c => fieldProduct x r ^^^ c) 0

/-- The coefficient of `x^k` in a polynomial, highest degree first (R103): 0 above its degree. -/
def coefficient (p : Poly) (k : Nat) : Byte := p.reverse.getD k 0

/-- The predicates of R284: whether data mask `m` flips the module of row `i` and column `j`. -/
def flipped (m i j : Nat) : Prop :=
  match m with
  | 0 => (i + j) % 2 = 0
  | 1 => i % 2 = 0
  | 2 => j % 3 = 0
  | 3 => (i + j) % 3 = 0
  | 4 => (i / 2 + j / 3) % 2 = 0
  | 5 => i * j % 6 = 0
  | 6 => i * j % 6 < 3
  | _ => (i + j + i * j % 3) % 2 = 0

/-! ### Encodings and offsets of the spec's tables -/

/-- The opcodes of format C0 (R79). -/
def c0Opcodes : List Nat :=
  [0x00, 0x01, 0x10, 0x11, 0x12, 0x13, 0x14, 0x20, 0x21, 0x22, 0x23, 0x24, 0x25, 0x30, 0x31, 0x32, 0x33, 0x34, 0x37,
    0x38, 0x39, 0x3A, 0x3F] ++
  [0x40, 0x41, 0x42, 0x50, 0x51, 0x52, 0x54, 0x55, 0x56, 0x57, 0x59, 0x5E, 0x5F]

/-- The opcodes of format C1 (R79). -/
def c1Opcodes : List Nat := [0x18, 0x19, 0x1A, 0x1B, 0x1C, 0x1D, 0x35, 0x36, 0x53, 0x58]

/-- The offsets of the read-write registers that hold whole words (R26, R28, R29, R35, R36, R40), and of the read-write
windows (R61). -/
def holdsWord (off : Nat) : Prop :=
  off ∈ [0x018, 0x01C, 0x020, 0x024, 0x030, 0x034, 0x038, 0x03C, 0x05C, 0x060] ∨ (0x080 ≤ off ∧ off < 0x0A0) ∨
    (0x100 ≤ off ∧ off < 0x280) ∨ (0x1000 ≤ off ∧ off < 0x1100) ∨ (0x2000 ≤ off ∧ off < 0x3000) ∨
    (0x4000 ≤ off ∧ off < 0x5000) ∨ (0x8000 ≤ off ∧ off < 0x9000) ∨ (0x100000 ≤ off ∧ off < 0x180000)

/-- The offsets whose writes are ignored: the read-only registers and windows, and the reserved offsets (R21 to R39,
R61). -/
def ignoresWrites (off : Nat) : Prop :=
  off ∈ [0x000, 0x010, 0x014, 0x028, 0x02C, 0x040, 0x044, 0x048, 0x04C, 0x050, 0x054, 0x058, 0x064, 0x068, 0x06C, 0x070,
      0x074, 0x078, 0x07C, 0x0A0] ∨ (0x0A4 ≤ off ∧ off < 0x100) ∨ (0x280 ≤ off ∧ off < 0x1000) ∨
    (0x1100 ≤ off ∧ off < 0x2000) ∨ (0x3000 ≤ off ∧ off < 0x4000) ∨ (0x5000 ≤ off ∧ off < 0x8000) ∨
    (0x9000 ≤ off ∧ off < 0x100000) ∨ (0x180000 ≤ off ∧ off < 0x200000)

/-- The reserved offsets (R61): those that name no register and lie in no window. -/
def reservedOffset (off : Nat) : Prop :=
  (0x0A4 ≤ off ∧ off < 0x100) ∨ (0x280 ≤ off ∧ off < 0x1000) ∨ (0x1300 ≤ off ∧ off < 0x2000) ∨
    (0x3000 ≤ off ∧ off < 0x4000) ∨ (0x6000 ≤ off ∧ off < 0x8000) ∨ (0xA000 ≤ off ∧ off < 0x100000) ∨
    (0x180000 ≤ off ∧ off < 0x200000)

/-- A field of one bit at bit `k` of a register. -/
def flagAt (b : Bool) (k : Nat) : Nat := if b then 2 ^ k else 0

/-- An optional number as a register with a `VALID` bit holds it: the number, and bit 8 (R30, R31). -/
def withValid : Option Nat → Nat
  | none => 0
  | some n => 2 ^ 8 + n

/-- What an idle core's register reads as, by offset: each register of R21 to R39 that has no index. -/
def registerWords (s : State) : List (Nat × Nat) :=
  [(0x000, 0x51524431),
    (0x004, flagAt s.ctrl.ie 0 + flagAt s.ctrl.tryHarder 1),
    (0x008, flagAt s.status.done 1 + flagAt s.status.err 2 + flagAt s.status.ovr 3),
    (0x00C, 0), (0x010, s.errcode.toNat), (0x014, s.errdetail.toNat), (0x028, s.res0.toNat), (0x02C, s.res1.toNat),
    (0x030, s.imgW.toNat), (0x034, s.imgH.toNat), (0x038, s.gridW.toNat), (0x03C, s.gridH.toNat)] ++
  [(0x040, withValid (s.version.map BitVec.toNat)), (0x044, s.pver.toNat),
    (0x048, withValid (s.fmt.map BitVec.toNat)),
    (0x04C, flagAt s.pstate.mirror 0 + flagAt s.pstate.mirrored 1 + flagAt s.pstate.pinit 2),
    (0x050, s.numCw.toNat), (0x054, s.numData.toNat), (0x058, s.errsCorr.toNat)] ++
  [(0x05C, s.rsN.toNat), (0x060, s.rsTwos.toNat), (0x064, s.rsNerr.toNat), (0x068, s.dim.toNat),
    (0x06C, s.fpcBl.toNat), (0x070, s.fpcTl.toNat), (0x074, s.fpcTr.toNat), (0x078, flagAt s.apValid 0),
    (0x07C, s.findNcand.toNat), (0x0A0, s.fndim.toNat)]

end Sys2Proof.Machine
end

