-- ==== Sys2Proof/Certificates/Slice0/Obligations.lean ====
section
/-! DEFINITION. The statements for the provers. -/

open Sys2Proof Sys2Proof.Machine

/-! ### Command words -/

/-- Every command with a 4-bit selector is read back from its word (R76, R79). -/
def Obligations.DecodeReadsEncodedCommand : Prop :=
  ∀ i : Instr, i.wellFormed = true → decode (encode i) = .ok i

/-- A word that is a command is the encoding of that command alone (R76, R79, R80). -/
def Obligations.CommandWordsAreEncodings : Prop :=
  ∀ (w : Word) (i : Instr), decode w = .ok i → i.wellFormed = true ∧ encode i = w

/-- Words written out from R79, R82 and the programs of 95_test_vectors.md. -/
def Obligations.DecodeOfWrittenWords : Prop :=
  decode 0x00000000 = .ok .nop ∧ decode 0x00000011 = .ok .gfMul ∧ decode 0x00000219 = .ok (.pMul 2) ∧
    decode 0x0000021D = .ok (.pEval 2) ∧ decode 0x00000025 = .ok .rsDecode ∧ decode 0x00000135 = .ok (.ptXform 1) ∧
    decode 0x00000040 = .ok .findFinder ∧ decode 0x00000158 = .ok (.setMirror 1) ∧ decode 0x0000005F = .ok .scan

/-- R80: a word whose opcode is not listed, then one with a reserved bit, then a format C0 word with a selector, ends as
`ILLEGAL_CMD` and changes nothing but the end-of-command registers. -/
def Obligations.IllegalWordsEndAsIllegalCmd : Prop :=
  ∀ (s : State) (w : Word), s.host = [] → s.running = some w →
    (w.toNat % 256 ∉ c0Opcodes ++ c1Opcodes → step s = .next (s.failed 5 1)) ∧
    (w.toNat % 256 ∈ c0Opcodes ++ c1Opcodes → w.toNat / 4096 ≠ 0 → step s = .next (s.failed 5 2)) ∧
    (w.toNat % 256 ∈ c0Opcodes → w.toNat / 256 % 16 ≠ 0 → step s = .next (s.failed 5 2))

/-! ### Steps -/

/-- The core's turn runs the command in progress (R90): the step is `exec` of the decoded command. -/
def Obligations.StepRunsCommandInProgress : Prop :=
  ∀ (s : State) (w : Word) (i : Instr), s.running = some w → decode w = .ok i →
    (s.host = [] → step s = exec i s) ∧
    (∀ rest, s.host = .coreTurn :: rest → step s = exec i { s with host := rest })

/-- An accepted write of `CMD` starts a command and changes nothing else (R24, R90). -/
def Obligations.CmdWriteStartsCommand : Prop :=
  ∀ (s : State) (rest : List HostEvent) (v : Word), s.status.busy = false →
    s.host = .write (s.base + 0x00C) 32 v :: rest →
    step s = .next { s with
      host := rest
      resp := .written
      running := some v
      status := { busy := true, done := false, err := false, ovr := s.status.ovr } }

/-- R373: while a command runs, a write to any offset other than `STATUS` only sets `OVR`; a write to `STATUS` acts on
its write-1-to-clear bits. -/
def Obligations.WritesWhileBusyAreIgnored : Prop :=
  ∀ (s : State) (rest : List HostEvent) (off : Nat) (v : Word), s.status.busy = true → off < 0x200000 → off % 4 = 0 →
    s.host = .write (s.base + off) 32 v :: rest →
    (off ≠ 0x008 → step s = .next { s with
      host := rest
      resp := .written
      status := { s.status with ovr := true } }) ∧
    (off = 0x008 → step s = .next { s with
      host := rest
      resp := .written
      status := { s.status with done := s.status.done && !v.getLsbD 1, ovr := s.status.ovr && !v.getLsbD 3 } })

/-- While a command runs, `ID`, `CTRL` and `STATUS` read their values (R372); any other read has no effect either, and
what it returns is the model's free value (log 7). -/
def Obligations.ReadsWhileBusy : Prop :=
  ∀ (s : State) (rest : List HostEvent) (off : Nat), s.status.busy = true → off < 0x200000 → off % 4 = 0 →
    s.host = .read (s.base + off) 32 :: rest →
    (off = 0x000 → step s = .next { s with host := rest, resp := .data 0x51524431 }) ∧
    (off = 0x004 → step s = .next { s with
      host := rest
      resp := .data (BitVec.ofNat 32 ((if s.ctrl.ie then 1 else 0) + (if s.ctrl.tryHarder then 2 else 0))) }) ∧
    (off = 0x008 → step s = .next { s with
      host := rest
      resp := .data (BitVec.ofNat 32 (1 + (if s.status.done then 2 else 0) + (if s.status.err then 4 else 0) +
        (if s.status.ovr then 8 else 0))) }) ∧
    ∃ v n, step s = .next { s with host := rest, resp := .data v, draws := n }

/-- An access of another width or alignment is answered with a bus error and changes nothing else (R63); that the answer
is a next state and not a stop is the model's choice (log 3), and so is the fault of an access outside the core's block
(log 4). -/
def Obligations.RefusedAccesses : Prop :=
  ∀ (s : State) (rest : List HostEvent) (e : HostEvent) (addr width : Nat) (v : Word), s.host = e :: rest →
    e = .read addr width ∨ e = .write addr width v →
    (s.base ≤ addr → addr < s.base + 0x200000 → (width ≠ 32 ∨ (addr - s.base) % 4 ≠ 0) →
      step s = .next { s with host := rest, resp := .busError }) ∧
    ((addr < s.base ∨ s.base + 0x200000 ≤ addr) → step s = .fault (.outsideBlock addr))

/-- A read of an idle core changes nothing (R65). A window reads little-endian words (R64); a register reads its fields at
their bits (R21 to R39), a binary64 register its low word and its high word (R40); a reserved offset reads 0 (R61). -/
def Obligations.IdleReads : Prop :=
  ∀ (s : State) (rest : List HostEvent) (off : Nat), s.status.busy = false → off < 0x200000 → off % 4 = 0 →
    s.host = .read (s.base + off) 32 :: rest →
    (∃ v, step s = .next { s with host := rest, resp := .data v }) ∧
    (∀ w : Window, w.base ≤ off → off < w.base + w.size →
      ∃ v, step s = .next { s with host := rest, resp := .data v } ∧
        v.toNat = (s.byte off).toNat + 2 ^ 8 * (s.byte (off + 1)).toNat + 2 ^ 16 * (s.byte (off + 2)).toNat +
          2 ^ 24 * (s.byte (off + 3)).toNat) ∧
    (∀ r ∈ registerWords s, off = r.1 → step s = .next { s with host := rest, resp := .data (BitVec.ofNat 32 r.2) }) ∧
    (∀ k < 4, off = 0x018 + 4 * k → step s = .next { s with host := rest, resp := .data (BitVec.ofNat 32 (s.argNat k)) }) ∧
    (∀ k < 8, off = 0x080 + 4 * k → step s = .next { s with host := rest, resp := .data (BitVec.ofNat 32 (s.plenOf k)) }) ∧
    (∀ k < 48,
      (off = 0x100 + 8 * k → step s = .next { s with
        host := rest
        resp := .data (BitVec.ofNat 32 ((s.fbits k).toNat % 2 ^ 32)) }) ∧
      (off = 0x104 + 8 * k → step s = .next { s with
        host := rest
        resp := .data (BitVec.ofNat 32 ((s.fbits k).toNat / 2 ^ 32)) })) ∧
    (reservedOffset off → step s = .next { s with host := rest, resp := .data 0 })

/-- What an idle core's host writes to a read-write register or window it reads back, and no other offset reads
differently (R26, R28, R29, R35, R36, R40, R61, R64); a write to a read-only or reserved offset is ignored (R65); a write
of `CTRL` stores `IE` and `TRY_HARDER`, and bits 1:0 read back (R22). -/
def Obligations.WrittenWordsReadBack : Prop :=
  ∀ (s : State) (rest : List HostEvent) (off : Nat) (v : Word), s.status.busy = false → off % 4 = 0 →
    (holdsWord off → s.host = .write (s.base + off) 32 v :: .read (s.base + off) 32 :: rest →
      ∃ t u, step s = .next t ∧ step t = .next u ∧ u.resp = .data v ∧
        ∀ off', off' % 4 = 0 → off' < 0x200000 → off' ≠ off → u.readIdle off' = s.readIdle off') ∧
    (ignoresWrites off → s.host = .write (s.base + off) 32 v :: rest →
      step s = .next { s with host := rest, resp := .written }) ∧
    (s.host = .write (s.base + 0x004) 32 v :: .read (s.base + 0x004) 32 :: rest →
      ∃ t, step s = .next t ∧
        t = { s with
          host := .read (s.base + 0x004) 32 :: rest
          resp := .written
          ctrl := ⟨v.getLsbD 0, v.getLsbD 1⟩ } ∧
        step t = .next { t with host := rest, resp := .data (BitVec.ofNat 32 (v.toNat % 4)) })

/-! ### Reset, the end of a command, and the interrupt -/

/-- R53: the reset value of every register and list; `irq` is 0 and no command runs. -/
def Obligations.ResetValues : Prop :=
  State.reset.readIdle 0x000 = 0x51524431 ∧
    State.reset.ctrl = ⟨false, false⟩ ∧ State.reset.status = ⟨false, false, false, false⟩ ∧
    State.reset.errcode = 0 ∧ State.reset.errdetail = 0 ∧
    (∀ k < 4, State.reset.argNat k = 0) ∧ State.reset.res0 = 0 ∧ State.reset.res1 = 0 ∧
    State.reset.imgW = 0 ∧ State.reset.imgH = 0 ∧ State.reset.gridW = 0 ∧ State.reset.gridH = 0 ∧
    versionWord State.reset.version = 0 ∧ State.reset.pver = 0 ∧ fmtWord State.reset.fmt = 0 ∧
    State.reset.pstate = ⟨false, false, false⟩ ∧
    State.reset.numCw = 0 ∧ State.reset.numData = 0 ∧ State.reset.errsCorr = 0 ∧
    State.reset.rsN = 0 ∧ State.reset.rsTwos = 0 ∧ State.reset.rsNerr = 0 ∧
    State.reset.dim = 0 ∧ State.reset.fpcBl = 0 ∧ State.reset.fpcTl = 0 ∧ State.reset.fpcTr = 0 ∧
    State.reset.apValid = false ∧ State.reset.findNcand = 0 ∧ (∀ k < 8, State.reset.plenOf k = 0) ∧
    State.reset.fndim = 0 ∧ (∀ k < 48, State.reset.fval k = F64.zero false) ∧
    State.reset.fcand = [] ∧ State.reset.acand = [] ∧ State.reset.hasSkipped = false ∧
    State.reset.irq = false ∧ State.reset.running = none

/-- A reset pulse, whatever the core was doing, puts every register and list at its reset value, abandons the running
command and gives every byte of memory a fresh value (R360). That the value is `Config.resetByte` of a new draw is the
model's choice (log 6). -/
def Obligations.ResetPulseAbandonsEverything : Prop :=
  ∀ (s : State) (rest : List HostEvent), s.host = .reset :: rest →
    ∃ t, step s = .next t ∧ t.running = none ∧ t.irq = false ∧
      (∀ a, t.byte a = Config.resetByte s.draws a) ∧ t.draws = s.draws + 1 ∧
      t = { State.reset with params := s.params, host := rest, epoch := s.draws, draws := s.draws + 1 }

/-- Every command, from every state, ends in a next state: `DONE` is set, `BUSY` cleared, `OVR` kept, `ERR` says whether
an error is recorded, and no command runs any more (R17, R90, R331). -/
def Obligations.EveryCommandEnds : Prop :=
  ∀ (i : Instr) (s : State), ∃ t, exec i s = .next t ∧ t.status.busy = false ∧ t.status.done = true ∧
    t.status.ovr = s.status.ovr ∧ (t.status.err = true ↔ t.errcode ≠ 0) ∧ t.running = none

/-- `irq` rises with the end of any command exactly when `IE` is set; it falls with the start of the next command, and
with a write of 1 to `STATUS.DONE`; a write of `CTRL` by an idle core's host sets it to `DONE` and `IE` (R23, R340). -/
def Obligations.InterruptFollowsDone : Prop :=
  (∀ (i : Instr) (s t : State), exec i s = .next t → t.irq = s.ctrl.ie) ∧
  (∀ (s : State) (rest : List HostEvent) (v : Word), s.status.busy = false →
    s.host = .write (s.base + 0x00C) 32 v :: rest → ∃ t, step s = .next t ∧ t.irq = false) ∧
  (∀ (s : State) (rest : List HostEvent) (v : Word), s.status.busy = false →
    s.host = .write (s.base + 0x004) 32 v :: rest →
      ∃ t, step s = .next t ∧ t.irq = (s.status.done && v.getLsbD 0)) ∧
  (∀ (s : State) (rest : List HostEvent) (v : Word), s.host = .write (s.base + 0x008) 32 v :: rest →
    ∃ t, step s = .next t ∧
      t = { s with
        host := rest
        resp := .written
        status := { s.status with done := s.status.done && !v.getLsbD 1, ovr := s.status.ovr && !v.getLsbD 3 } } ∧
      (v.getLsbD 1 = true → t.irq = false))

/-! ### Frames of every command -/

/-- A command writes no register or list but those its rule names: not `CTRL`, `ARG0..3`, `IMG_W`, `IMG_H`, `RS_N` or
`RS_TWOS` at all (R26, R71). -/
def Obligations.CommandsWriteOnlyTheirRegisters : Prop :=
  ∀ (i : Instr) (s t : State) (p : Part), exec i s = .next t → p ∉ partsWritten i → p.same s t

/-- A command writes no binary64 register outside the groups its rule names (R41, R71). -/
def Obligations.CommandsWriteOnlyTheirFloats : Prop :=
  ∀ (i : Instr) (s t : State) (k : Nat), exec i s = .next t → outsideGroups k (floatsWritten i) → t.fbits k = s.fbits k

/-- A command writes no byte of memory outside the windows its rule names; so none writes `IMG` (R71). `RS_FORNEY` in a
state with more locations than `LOC` can hold is ruled out by the invariant of the result registers. -/
def Obligations.CommandsWriteOnlyTheirWindows : Prop :=
  ∀ (i : Instr) (s t : State) (a : Nat), s.resultInv → exec i s = .next t →
    (∀ w ∈ windowsWritten i, ¬(w.base ≤ a ∧ a < w.base + w.size)) → t.byte a = s.byte a

/-! ### Invariants that every step keeps -/

/-- Reset meets the four invariants. -/
def Obligations.ResetMeetsInvariants : Prop :=
  State.reset.controlInv ∧ State.reset.memoryInv ∧ State.reset.parserInv ∧ State.reset.resultInv

/-- The control registers stay in agreement (R23, R25, R90, R332). -/
def Obligations.StepKeepsControlInvariant : Prop :=
  ∀ s t : State, s.controlInv → step s = .next t → t.controlInv

/-- Memory keeps its canonical form and lists only bytes of the windows (R61). -/
def Obligations.StepKeepsMemoryInvariant : Prop :=
  ∀ s t : State, s.memoryInv → s.resultInv → step s = .next t → t.memoryInv

/-- A parser cache or the mirror flag is set only on a grid that `PARSER_INIT` accepted (R30, R33, R43). -/
def Obligations.StepKeepsParserInvariant : Prop :=
  ∀ s t : State, s.parserInv → step s = .next t → t.parserInv

/-- The candidate lists keep their capacities and the result registers their ranges (R30 to R49, R251, R263). -/
def Obligations.StepKeepsResultInvariant : Prop :=
  ∀ s t : State, s.resultInv → step s = .next t → t.resultInv

/-! ### Control commands -/

/-- `NOP` changes nothing but the end-of-command registers (R91); `CLEAR` zeroes the derived state and leaves every input,
binary64 register and memory (R92). -/
def Obligations.NopAndClear : Prop :=
  encode .nop = 0x00000000 ∧ encode .clear = 0x00000001 ∧ (∀ s : State, exec .nop s = .next s.finished) ∧
  ∀ s : State, exec .clear s = .next ({ s with
    res0 := 0
    res1 := 0
    version := none
    fmt := none
    pver := 0
    pstate := ⟨false, false, false⟩
    numCw := 0
    numData := 0
    errsCorr := 0
    rsNerr := 0
    dim := 0
    fpcBl := 0
    fpcTl := 0
    fpcTr := 0
    apValid := false
    findNcand := 0
    fndim := 0
    fcand := []
    acand := []
    hasSkipped := false } : State).finished

/-! ### GF(256) commands -/

/-- `GF_ADD` is the exclusive or of its operands (R110), `GF_MUL` their product as polynomials over GF(2), reduced modulo
0x11D (R102, R111). -/
def Obligations.GfSumAndProduct : Prop :=
  encode .gfAdd = 0x00000010 ∧ encode .gfMul = 0x00000011 ∧ ∀ s : State,
    (255 < s.argNat 0 ∨ 255 < s.argNat 1 →
      exec .gfAdd s = .next (s.failed 6 1) ∧ exec .gfMul s = .next (s.failed 6 1)) ∧
    (s.argNat 0 ≤ 255 → s.argNat 1 ≤ 255 →
      exec .gfAdd s = .next ({ s with res0 := s.arg[0] ^^^ s.arg[1] } : State).finished ∧
      exec .gfMul s = .next ({ s with
        res0 := (fieldProduct (s.arg[0].setWidth 8) (s.arg[1].setWidth 8)).setWidth 32 } : State).finished)

/-- `GF_INV` gives the element whose product with the operand is 1 (R102, R112), `GF_EXP` the power of the generator that
the loop of R100 computes (R113), `GF_LOG` the exponent of that power (R114); 0 has no inverse and no logarithm. -/
def Obligations.GfInverseExponentLogarithm : Prop :=
  encode .gfInv = 0x00000012 ∧ encode .gfExp = 0x00000013 ∧ encode .gfLog = 0x00000014 ∧ ∀ s : State,
    (255 < s.argNat 0 → exec .gfInv s = .next (s.failed 6 1) ∧ exec .gfExp s = .next (s.failed 6 1) ∧
      exec .gfLog s = .next (s.failed 6 1)) ∧
    (s.argNat 0 = 0 → exec .gfInv s = .next (s.failed 4 6) ∧ exec .gfLog s = .next (s.failed 4 7)) ∧
    (s.argNat 0 ≤ 255 →
      exec .gfExp s = .next ({ s with res0 := (timesZn (s.argNat 0) 1).setWidth 32 } : State).finished) ∧
    (1 ≤ s.argNat 0 → s.argNat 0 ≤ 255 →
      (∃ r : Byte, exec .gfInv s = .next ({ s with res0 := r.setWidth 32 } : State).finished ∧
        fieldProduct (s.arg[0].setWidth 8) r = 1) ∧
      ∃ e < 255, exec .gfLog s = .next ({ s with res0 := BitVec.ofNat 32 e } : State).finished ∧
        timesZn e 1 = s.arg[0].setWidth 8)

/-! ### Polynomial commands -/

/-- What `SETPOLY` leaves (R103): the register reads back, the other registers and every byte after the coefficients are
as before. -/
def Obligations.SetPolyReadsBack : Prop :=
  ∀ (s : State) (k : Nat) (p : Poly), k ≤ 7 → canonical p → p.length ≤ 512 →
    (s.putPoly k p).poly k = .ok p ∧ (s.putPoly k p).plenOf k = p.length ∧
    (∀ j, j ≤ 7 → j ≠ k → (s.putPoly k p).poly j = s.poly j) ∧
    sameBytesOutside s (s.putPoly k p) (polyBase k) p.length

/-- Evaluation turns `padd`, `pmul`, `pscale` and `pmulmono` into field operations, at every point (R102, R104). -/
def Obligations.PolynomialsEvaluateAsFieldElements : Prop :=
  ∀ (a b : Poly) (x c : Byte) (d : Nat), canonical a → canonical b →
    peval (padd a b) x = gadd (peval a x) (peval b x) ∧
    peval (pmul a b) x = gmul (peval a x) (peval b x) ∧
    peval (pscale a c) x = gmul (peval a x) c ∧
    peval (pmulmono a d c) x = gmul (gmul (peval a x) c) (fieldPower x d)

/-- `P_ADD` and `P_MUL` (R120, R121): the checks in their order, and what they write. The sum always fits. -/
def Obligations.PolynomialSumAndProduct : Prop :=
  ∀ (s : State) (d : Nat),
    (7 < d → exec (.pAdd d) s = .next (s.failed 6 6) ∧ exec (.pMul d) s = .next (s.failed 6 6)) ∧
    (d ≤ 7 → 7 < s.argNat 0 ∨ 7 < s.argNat 1 →
      exec (.pAdd d) s = .next (s.failed 6 1) ∧ exec (.pMul d) s = .next (s.failed 6 1)) ∧
    (d ≤ 7 → s.argNat 0 ≤ 7 → s.argNat 1 ≤ 7 →
      (s.plenOf (s.argNat 0) < 1 ∨ 512 < s.plenOf (s.argNat 0) ∨
        s.plenOf (s.argNat 1) < 1 ∨ 512 < s.plenOf (s.argNat 1)) →
      exec (.pAdd d) s = .next (s.failed 6 4) ∧ exec (.pMul d) s = .next (s.failed 6 4)) ∧
    (∀ pa pb, d ≤ 7 → s.argNat 0 ≤ 7 → s.argNat 1 ≤ 7 →
      s.poly (s.argNat 0) = .ok pa → s.poly (s.argNat 1) = .ok pb →
      exec (.pAdd d) s = .next (s.putPoly d (padd pa pb)).finished ∧
      ((pmul pa pb).length ≤ 512 → exec (.pMul d) s = .next (s.putPoly d (pmul pa pb)).finished) ∧
      (512 < (pmul pa pb).length → exec (.pMul d) s = .next (s.failed 7 3)))

/-- `P_SCALE`, `P_MULMONO` and `P_MONO` (R122, R123, R124). The scaled polynomial and the monomial always fit. -/
def Obligations.PolynomialScalings : Prop :=
  ∀ (s : State) (d : Nat),
    (7 < d → exec (.pScale d) s = .next (s.failed 6 6) ∧ exec (.pMulmono d) s = .next (s.failed 6 6) ∧
      exec (.pMono d) s = .next (s.failed 6 6)) ∧
    (d ≤ 7 → 7 < s.argNat 0 ∨ 255 < s.argNat 1 → exec (.pScale d) s = .next (s.failed 6 1)) ∧
    (d ≤ 7 → 7 < s.argNat 0 ∨ 511 < s.argNat 1 ∨ 255 < s.argNat 2 →
      exec (.pMulmono d) s = .next (s.failed 6 1)) ∧
    (d ≤ 7 → 511 < s.argNat 0 ∨ 255 < s.argNat 1 → exec (.pMono d) s = .next (s.failed 6 1)) ∧
    (d ≤ 7 → s.argNat 0 ≤ 7 → (s.plenOf (s.argNat 0) < 1 ∨ 512 < s.plenOf (s.argNat 0)) →
      (s.argNat 1 ≤ 255 → exec (.pScale d) s = .next (s.failed 6 4)) ∧
      (s.argNat 1 ≤ 511 → s.argNat 2 ≤ 255 → exec (.pMulmono d) s = .next (s.failed 6 4))) ∧
    (∀ pa, d ≤ 7 → s.argNat 0 ≤ 7 → s.argNat 1 ≤ 255 → s.poly (s.argNat 0) = .ok pa →
      exec (.pScale d) s = .next (s.putPoly d (pscale pa (s.argByte 1))).finished) ∧
    (∀ pa, d ≤ 7 → s.argNat 0 ≤ 7 → s.argNat 1 ≤ 511 → s.argNat 2 ≤ 255 → s.poly (s.argNat 0) = .ok pa →
      ((pmulmono pa (s.argNat 1) (s.argByte 2)).length ≤ 512 →
        exec (.pMulmono d) s = .next (s.putPoly d (pmulmono pa (s.argNat 1) (s.argByte 2))).finished) ∧
      (512 < (pmulmono pa (s.argNat 1) (s.argByte 2)).length → exec (.pMulmono d) s = .next (s.failed 7 3))) ∧
    (d ≤ 7 → s.argNat 0 ≤ 511 → s.argNat 1 ≤ 255 →
      exec (.pMono d) s = .next (s.putPoly d
        (if s.argNat 1 = 0 then [0] else s.argByte 1 :: List.replicate (s.argNat 0) 0)).finished)

/-- `P_EVAL` is Horner's rule over all coefficients, at every point, 0 and 1 included (R104, R125). -/
def Obligations.PolynomialEvaluation : Prop :=
  ∀ (s : State) (k : Nat),
    (7 < k → exec (.pEval k) s = .next (s.failed 6 6)) ∧
    (k ≤ 7 → 255 < s.argNat 0 → exec (.pEval k) s = .next (s.failed 6 1)) ∧
    (k ≤ 7 → s.argNat 0 ≤ 255 → (s.plenOf k < 1 ∨ 512 < s.plenOf k) → exec (.pEval k) s = .next (s.failed 6 4)) ∧
    (∀ p, k ≤ 7 → s.argNat 0 ≤ 255 → s.poly k = .ok p →
      exec (.pEval k) s = .next ({ s with res0 := (horner p (s.argByte 0)).setWidth 32 } : State).finished)

/-! ### Reed-Solomon commands -/

/-- `RS_SYND` leaves the syndrome polynomial in `P0`, and says in `RES0` whether every syndrome is 0 (R141, R150). -/
def Obligations.SyndromesOfReceivedWord : Prop :=
  ∀ s : State,
    ((s.rsN.toNat < 1 ∨ 255 < s.rsN.toNat ∨ 255 < s.rsTwos.toNat) → exec .rsSynd s = .next (s.failed 6 1)) ∧
    (1 ≤ s.rsN.toNat → s.rsN.toNat ≤ 255 → s.rsTwos.toNat ≤ 255 →
      ∃ t : State, exec .rsSynd s = .next t.finished ∧
        t = { s.putPoly 0 (trim ((List.range s.rsTwos.toNat).reverse.map
          (fun i => peval (trim (s.bytes 0x1000 s.rsN.toNat)) (gexp i)))) with res0 := t.res0 } ∧
        (t.res0 = 0 ∨ t.res0 = 1) ∧
        (t.res0 = 1 ↔ ∀ i < s.rsTwos.toNat, peval (trim (s.bytes 0x1000 s.rsN.toNat)) (gexp i) = 0))

/-- `RS_EUCLID` leaves the locator `sigma`, normalized to 1 at 0, in `P1` and the evaluator `omega` in `P2`; twice the
degree of `omega` is below `twoS`, and for a syndrome polynomial of degree at most `twoS` they solve the key equation:
`sigma` times it is `omega` modulo `x^twoS` (R142, R151). -/
def Obligations.EuclidNormalizesLocator : Prop :=
  ∀ s : State,
    ((s.rsTwos.toNat < 1 ∨ 255 < s.rsTwos.toNat) → exec .rsEuclid s = .next (s.failed 6 1)) ∧
    (1 ≤ s.rsTwos.toNat → s.rsTwos.toNat ≤ 255 → (s.plenOf 0 < 1 ∨ 512 < s.plenOf 0) →
      exec .rsEuclid s = .next (s.failed 6 4)) ∧
    (∀ syn, 1 ≤ s.rsTwos.toNat → s.rsTwos.toNat ≤ 255 → s.poly 0 = .ok syn →
      (∀ e, euclid syn s.rsTwos.toNat = .error e → exec .rsEuclid s = .next (s.failed 4 e.code)) ∧
      (∀ sigma omega, euclid syn s.rsTwos.toNat = .ok (sigma, omega) →
        peval sigma 0 = 1 ∧ 2 * (omega.length - 1) < s.rsTwos.toNat ∧
        (syn.length ≤ s.rsTwos.toNat + 1 →
          ∀ k < s.rsTwos.toNat, coefficient (pmul sigma syn) k = coefficient omega k) ∧
        exec .rsEuclid s = .next ((s.putPoly 1 sigma).putPoly 2 omega).finished))

/-- `RS_CHIEN` lists as many locations as the degree of the locator, each the inverse of one of its roots; a locator of
degree 1 takes the shortcut; too few roots is its only execution error (R144, R152). -/
def Obligations.ChienFindsInverseRoots : Prop :=
  ∀ s : State,
    ((s.plenOf 1 < 1 ∨ 512 < s.plenOf 1) → exec .rsChien s = .next (s.failed 6 4)) ∧
    (∀ sigma, s.poly 1 = .ok sigma →
      (∀ e, chien sigma = .error e → e = .rootCount ∧ exec .rsChien s = .next (s.failed 4 4)) ∧
      (∀ loc, chien sigma = .ok loc →
        exec .rsChien s = .next ({ s.putBytes 0x1100 loc with rsNerr := BitVec.ofNat 32 loc.length } : State).finished ∧
        loc.length = sigma.length - 1 ∧
        (sigma.length = 2 → loc = [sigma.headD 0]) ∧
        (sigma.length ≠ 2 → ∀ x ∈ loc, ∃ r, r ≠ 0 ∧ peval sigma r = 0 ∧ gmul x r = 1)))

/-- `RS_FORNEY` writes one magnitude for each location (R145, R153), and `RS_CORRECT` adds each magnitude at its
position; an entry that raises leaves the corrections made before it (R146, R154). -/
def Obligations.ForneyThenCorrect : Prop :=
  ∀ s : State,
    ((s.plenOf 2 < 1 ∨ 512 < s.plenOf 2) → exec .rsForney s = .next (s.failed 6 4)) ∧
    (∀ omega, s.poly 2 = .ok omega →
      (∀ e, forney omega (s.bytes 0x1100 s.rsNerr.toNat) = .error e →
        e = .invZero ∧ exec .rsForney s = .next (s.failed 4 6)) ∧
      (∀ mag, forney omega (s.bytes 0x1100 s.rsNerr.toNat) = .ok mag →
        mag.length = s.rsNerr.toNat ∧ exec .rsForney s = .next (s.putBytes 0x1200 mag).finished)) ∧
    ((s.rsN.toNat < 1 ∨ 255 < s.rsN.toNat) → exec .rsCorrect s = .next (s.failed 6 1)) ∧
    (1 ≤ s.rsN.toNat → s.rsN.toNat ≤ 255 → ∀ cs r,
      corrections s.rsN.toNat ((s.bytes 0x1100 s.rsNerr.toNat).zip (s.bytes 0x1200 s.rsNerr.toNat)) = (cs, r) →
      (∀ c ∈ cs, c.1 < s.rsN.toNat) ∧ sameBytesOutside s (s.correctRsbuf cs) 0x1000 s.rsN.toNat ∧
      (r = none → exec .rsCorrect s = .next ({ s.correctRsbuf cs with res0 := s.rsNerr } : State).finished) ∧
      (∀ e, r = some e → exec .rsCorrect s = .next ((s.correctRsbuf cs).failed 4 e.code)))

/-- `RS_DECODE` of a word without errors writes `P0`, `RS_NERR` and `RES0` only. Of a word with errors it ends as the five
single-step commands in order do, and where one of them raises it stops there, with the writes made before (R155); that
`RES0` is then as it was before the command is the model's choice (log 21). -/
def Obligations.RsDecodeIsItsSteps : Prop :=
  (∀ s : State,
    ((s.rsN.toNat < 1 ∨ 255 < s.rsN.toNat ∨ 255 < s.rsTwos.toNat) → exec .rsDecode s = .next (s.failed 6 1)) ∧
    (1 ≤ s.rsN.toNat → s.rsN.toNat ≤ 255 → s.rsTwos.toNat ≤ 255 →
      (∀ i < s.rsTwos.toNat, peval (trim (s.bytes 0x1000 s.rsN.toNat)) (gexp i) = 0) →
      exec .rsDecode s = .next ({ s.putPoly 0 [0] with rsNerr := 0, res0 := 0 } : State).finished)) ∧
  (∀ s s1 s2 s3 s4 s5 : State, s1 = s.after .rsSynd → s2 = s1.after .rsEuclid → s3 = s2.after .rsChien →
    s4 = s3.after .rsForney → s5 = s4.after .rsCorrect →
    1 ≤ s.rsN.toNat → s.rsN.toNat ≤ 255 → s.rsTwos.toNat ≤ 255 →
    (∃ i < s.rsTwos.toNat, peval (trim (s.bytes 0x1000 s.rsN.toNat)) (gexp i) ≠ 0) →
    s1.errcode = 0 ∧ s1.res0 = 0 ∧
    exec .rsDecode s = .next
      (if s2.errcode ≠ 0 then { s2 with res0 := s.res0 }
      else if s3.errcode ≠ 0 then { s3 with res0 := s.res0 }
      else if s4.errcode ≠ 0 then { s4 with res0 := s.res0 }
      else if s5.errcode ≠ 0 then { s5 with res0 := s.res0 }
      else s5))

/-! ### Geometry commands -/

/-- The transform commands refuse an operand that is not finite (R78), report a zero divisor, and otherwise write the
nine coefficients of `TA` (R190 to R194). -/
def Obligations.TransformCommands : Prop :=
  ∀ s : State,
    (s.finiteFrom 18 8 = false → exec .ptSq2q s = .next (s.failed 6 2) ∧ exec .ptQ2sq s = .next (s.failed 6 2)) ∧
    (s.finiteFrom 18 16 = false → exec .ptQ2q s = .next (s.failed 6 2)) ∧
    (s.finiteFrom 0 9 = false → exec .ptAdj s = .next (s.failed 6 2)) ∧
    (s.finiteFrom 0 18 = false → exec .ptTimes s = .next (s.failed 6 2)) ∧
    (s.finiteFrom 18 8 = true →
      (∀ t, squareToQuad (s.quad 18) = .ok t → exec .ptSq2q s = .next (s.setFs 0 t.list).finished ∧
        exec .ptQ2sq s = .next (s.setFs 0 (adjoint t).list).finished) ∧
      (∀ e, squareToQuad (s.quad 18) = .error e →
        exec .ptSq2q s = .next (s.failed 1 7) ∧ exec .ptQ2sq s = .next (s.failed 1 7))) ∧
    (s.finiteFrom 18 16 = true →
      (∀ d t, squareToQuad (s.quad 26) = .ok d → squareToQuad (s.quad 18) = .ok t →
        exec .ptQ2q s = .next (s.setFs 0 (times d (adjoint t)).list).finished) ∧
      (∀ e, squareToQuad (s.quad 26) = .error e ∨ squareToQuad (s.quad 18) = .error e →
        exec .ptQ2q s = .next (s.failed 1 7))) ∧
    (s.finiteFrom 0 9 = true → exec .ptAdj s = .next (s.setFs 0 (adjoint (s.xform 0)).list).finished) ∧
    (s.finiteFrom 0 18 = true → exec .ptTimes s = .next (s.setFs 0 (times (s.xform 0) (s.xform 9)).list).finished)

/-- `PT_XFORM` maps its `m` pairs, or changes no `Q` register (R185, R195). -/
def Obligations.TransformOfPoints : Prop :=
  ∀ (s : State) (m : Nat),
    ((m < 1 ∨ 8 < m) → exec (.ptXform m) s = .next (s.failed 6 6)) ∧
    (1 ≤ m → m ≤ 8 → (s.finiteFrom 0 9 = false ∨ s.finiteFrom 18 (2 * m) = false) →
      exec (.ptXform m) s = .next (s.failed 6 2)) ∧
    (1 ≤ m → m ≤ 8 → s.finiteFrom 0 9 = true → s.finiteFrom 18 (2 * m) = true →
      (∀ e, transformPoints (s.xform 0) (pairsOf (s.fvals 18 (2 * m))) = .error e →
        exec (.ptXform m) s = .next (s.failed 1 7)) ∧
      (∀ ps, transformPoints (s.xform 0) (pairsOf (s.fvals 18 (2 * m))) = .ok ps →
        ps.length = m ∧ exec (.ptXform m) s = .next (s.setFs 18 (unpairs ps)).finished))

/-- `PT_COPY` copies nine encodings bit for bit and changes nothing else (R196). -/
def Obligations.TransformCopy : Prop :=
  (∀ s : State, ∃ t : State, exec (.ptCopy 0) s = .next t.finished ∧ { t with f := s.f } = s ∧
    (∀ k < 9, t.fbits (9 + k) = s.fbits k) ∧ ∀ k, k < 9 ∨ 18 ≤ k → t.fbits k = s.fbits k) ∧
  (∀ s : State, ∃ t : State, exec (.ptCopy 1) s = .next t.finished ∧ { t with f := s.f } = s ∧
    (∀ k < 9, t.fbits k = s.fbits (9 + k)) ∧ ∀ k, 9 ≤ k → t.fbits k = s.fbits k) ∧
  (∀ (s : State) (m : Nat), 1 < m → exec (.ptCopy m) s = .next (s.failed 6 6))

/-- `GRID_SAMPLE` writes the sampled bits and the grid's size; the bits of `GRID` beyond them, and every other byte, stay;
an error of the sampler leaves `GRID` and its size as they were (R181, R197). -/
def Obligations.SampledGrid : Prop :=
  ∀ s : State,
    (s.imgDimsOk = false ∨ s.argNat 0 < 1 ∨ 177 < s.argNat 0 ∨ s.argNat 1 < 1 ∨ 177 < s.argNat 1 →
      exec .gridSample s = .next (s.failed 6 3)) ∧
    (s.imgDimsOk = true → 1 ≤ s.argNat 0 → s.argNat 0 ≤ 177 → 1 ≤ s.argNat 1 → s.argNat 1 ≤ 177 →
      (s.finiteFrom 0 9 = false → exec .gridSample s = .next (s.failed 6 2)) ∧
      (s.finiteFrom 0 9 = true → ∀ e, sampleGrid s.image (s.argNat 0) (s.argNat 1) (s.xform 0) = .error e →
        exec .gridSample s = .next (s.failed e.code.toNat e.detail.toNat)) ∧
      (s.finiteFrom 0 9 = true → ∀ rows,
        sampleGrid s.image (s.argNat 0) (s.argNat 1) (s.xform 0) = .ok rows →
        ∃ t : State, exec .gridSample s = .next t.finished ∧
          { t with gridW := s.gridW, gridH := s.gridH, mem := s.mem } = s ∧
          t.gridW = s.arg[0] ∧ t.gridH = s.arg[1] ∧
          (∀ x y, x < s.argNat 0 → y < s.argNat 1 → t.grid.bit x y = (rows.getD y []).getD x false) ∧
          (∀ n, s.argNat 0 * s.argNat 1 ≤ n → t.bit 0x8000 n = s.bit 0x8000 n) ∧
          sameBytesOutside s t 0x8000 ((s.argNat 0 * s.argNat 1 + 7) / 8)))

/-- `MODULE_SIZE` writes a size of at least 1, and `CREATE_XFORM` the transform of the three or four points; an error
leaves `MS` and `TA` as they were (R184, R188, R198, R200). The order in which `MODULE_SIZE` examines its points is the
model's choice (log 13); that `CREATE_XFORM` looks at its binary64 inputs before `DIM` is the model's reading (log 12). -/
def Obligations.ModuleSizeAndTransform : Prop :=
  ∀ s : State,
    (s.imgDimsOk = false → exec .moduleSize s = .next (s.failed 6 3)) ∧
    (s.imgDimsOk = true → s.cornersFinite = false → exec .moduleSize s = .next (s.failed 6 2)) ∧
    (s.imgDimsOk = true → s.cornersFinite = true → ∀ e,
      (do
        pointInside s.image (s.pt 37)
        pointInside s.image (s.pt 40)
        pointInside s.image (s.pt 34)
        moduleSize s.params.bresenham s.image (s.pt 37) (s.pt 40) (s.pt 34)) = .error e →
      exec .moduleSize s = .next (s.failed e.code.toNat e.detail.toNat)) ∧
    (s.imgDimsOk = true → s.cornersFinite = true → ∀ ms,
      pointInside s.image (s.pt 37) = .ok () → pointInside s.image (s.pt 40) = .ok () →
      pointInside s.image (s.pt 34) = .ok () →
      moduleSize s.params.bresenham s.image (s.pt 37) (s.pt 40) (s.pt 34) = .ok ms →
      (F64.le (F64.ofNat 1) ms = true → exec .moduleSize s = .next (s.setF 46 ms).finished) ∧
      (F64.le (F64.ofNat 1) ms = false → exec .moduleSize s = .next (s.failed 1 2))) ∧
    (s.cornersFinite = false ∨ (s.apValid = true ∧ s.finiteFrom 43 2 = false) →
      exec .createXform s = .next (s.failed 6 2)) ∧
    (s.cornersFinite = true → (s.apValid = true → s.finiteFrom 43 2 = true) →
      ((s.dim.toNat < 21 ∨ 177 < s.dim.toNat) → exec .createXform s = .next (s.failed 6 5)) ∧
      (∀ e, 21 ≤ s.dim.toNat → s.dim.toNat ≤ 177 →
        createTransform (s.pt 37) (s.pt 40) (s.pt 34) (if s.apValid then some (s.pt 43) else none) s.dim.toNat = .error e →
        exec .createXform s = .next (s.failed e.code.toNat e.detail.toNat)) ∧
      (∀ t, 21 ≤ s.dim.toNat → s.dim.toNat ≤ 177 →
        createTransform (s.pt 37) (s.pt 40) (s.pt 34) (if s.apValid then some (s.pt 43) else none) s.dim.toNat = .ok t →
        exec .createXform s = .next (s.setFs 0 t.list).finished))

/-- `DIMENSION` writes a dimension that is 1 modulo 4 and at most 177, and its version; an
error leaves both as they were (R186, R199, R205). -/
def Obligations.DimensionIsOneModFour : Prop :=
  ∀ s : State,
    ((s.cornersFinite = false ∨ s.finiteFrom 46 1 = false) → exec .dimension s = .next (s.failed 6 2)) ∧
    (s.cornersFinite = true → s.finiteFrom 46 1 = true → ∀ e,
      dimensionAndVersion (s.pt 37) (s.pt 40) (s.pt 34) (s.fval 46) = .error e →
      exec .dimension s = .next (s.failed e.code.toNat e.detail.toNat)) ∧
    (s.cornersFinite = true → s.finiteFrom 46 1 = true → ∀ d v,
      dimensionAndVersion (s.pt 37) (s.pt 40) (s.pt 34) (s.fval 46) = .ok (d, v) →
      d % 4 = 1 ∧ d = 17 + 4 * v ∧ 1 ≤ v ∧ v ≤ 40 ∧
        exec .dimension s = .next ({ s with dim := BitVec.ofNat 32 d, pver := BitVec.ofNat 6 v } : State).finished)

/-- `DETECT` writes the output of each step of R189 as it completes, up to the sampled grid; a step that fails leaves the
outputs of the steps before it (R201). -/
def Obligations.DetectWritesEachStep : Prop :=
  (∀ s : State, s.imgDimsOk = false → exec .detect s = .next (s.failed 6 3)) ∧
  (∀ s : State, s.imgDimsOk = true → exec .detect s = .next
    (match finderStep s with
    | (s1, some e) => s1.failed e.code.toNat e.detail.toNat
    | (s1, none) =>
      match checkedModuleSize s.params.bresenham s.image (s1.pt 37) (s1.pt 40) (s1.pt 34) with
      | .error e => s1.failed e.code.toNat e.detail.toNat
      | .ok ms =>
        match dimensionAndVersion (s1.pt 37) (s1.pt 40) (s1.pt 34) ms with
        | .error e => (s1.setF 46 ms).failed e.code.toNat e.detail.toNat
        | .ok (d, v) =>
          match alignStep ms d v { s1.setF 46 ms with dim := BitVec.ofNat 32 d, pver := BitVec.ofNat 6 v } with
          | (s2, some e) => s2.failed e.code.toNat e.detail.toNat
          | (s2, none) =>
            match createTransform (s1.pt 37) (s1.pt 40) (s1.pt 34) (if s2.apValid then some (s2.pt 43) else none) d with
            | .error e => s2.failed e.code.toNat e.detail.toNat
            | .ok t =>
              match sampleGrid s.image d d t with
              | .error e => (s2.setFs 0 t.list).failed e.code.toNat e.detail.toNat
              | .ok rows => ((s2.setFs 0 t.list).putGrid d d rows).finished)) ∧
  ∀ (s s1 s2 : State) (ms : F64) (d v : Nat) (t : Xform) (rows : List (List Bool)), s.imgDimsOk = true →
    finderStep s = (s1, none) →
    checkedModuleSize s.params.bresenham s.image (s1.pt 37) (s1.pt 40) (s1.pt 34) = .ok ms →
    dimensionAndVersion (s1.pt 37) (s1.pt 40) (s1.pt 34) ms = .ok (d, v) →
    alignStep ms d v { s1.setF 46 ms with dim := BitVec.ofNat 32 d, pver := BitVec.ofNat 6 v } = (s2, none) →
    createTransform (s1.pt 37) (s1.pt 40) (s1.pt 34) (if s2.apValid then some (s2.pt 43) else none) d = .ok t →
    sampleGrid s.image d d t = .ok rows →
    exec .detect s = .next ((s2.setFs 0 t.list).putGrid d d rows).finished ∧ (v = 1 → s2.apValid = false)

/-! ### Pattern commands -/

/-- `FIND_FINDER` writes the three selected candidates; without a selection it writes none of them, but the number of
candidates. A candidate beyond the capacity ends it as `CAPACITY(FINDER_FULL)`, with `FIND_NCAND` at the capacity (R251,
R255). An image without a black pixel has no candidate (R241, R255). -/
def Obligations.FinderWritesSelection : Prop :=
  ∀ s : State,
    (s.imgDimsOk = false → exec .findFinder s = .next (s.failed 6 3)) ∧
    (s.imgDimsOk = true → ∀ c, findFinderScan s.image s.params.maxFinderCand s.ctrl.tryHarder = (c, none) →
      (∀ bl tl tr, selectBestPatterns c.fcand = .ok (bl, tl, tr) →
        exec .findFinder s = .next ({
          ({ s with
            fcand := c.fcand
            hasSkipped := c.hasSkipped
            findNcand := BitVec.ofNat 32 c.fcand.length } : State).setFs 34
              [bl.x, bl.y, bl.ms, tl.x, tl.y, tl.ms, tr.x, tr.y, tr.ms] with
          fpcBl := BitVec.ofNat 32 bl.count
          fpcTl := BitVec.ofNat 32 tl.count
          fpcTr := BitVec.ofNat 32 tr.count } : State).finished) ∧
      (∀ e, selectBestPatterns c.fcand = .error e →
        exec .findFinder s = .next (({ s with
          fcand := c.fcand
          hasSkipped := c.hasSkipped
          findNcand := BitVec.ofNat 32 c.fcand.length } : State).failed 1 1))) ∧
    (s.imgDimsOk = true → ∀ c,
      findFinderScan s.image s.params.maxFinderCand s.ctrl.tryHarder = (c, some (.capacity .finderFull)) →
      c.fcand.length = s.params.maxFinderCand ∧
      exec .findFinder s = .next (({ s with
        fcand := c.fcand
        hasSkipped := c.hasSkipped
        findNcand := BitVec.ofNat 32 s.params.maxFinderCand } : State).failed 7 1)) ∧
    (s.imgDimsOk = true →
      (∀ x y, x < s.imgW.toNat → y < s.imgH.toNat → s.image.bit x y = false) →
      exec .findFinder s = .next (({ s with fcand := [], hasSkipped := false, findNcand := 0 } : State).failed 1 1))

/-- `FIND_ALIGN` writes the pattern it found; on an error `AP` and `AP_VALID` stay (R262, R266). The order of the checks
of `MS` and `ARG2` is the model's reading (log 12). -/
def Obligations.AlignmentWritesPattern : Prop :=
  ∀ s : State,
    (s.imgDimsOk = false → exec .findAlign s = .next (s.failed 6 3)) ∧
    (s.imgDimsOk = true → (s.fval 46).isFinite = false ∨ F64.lt (F64.zero false) (s.fval 46) = false →
      exec .findAlign s = .next (s.failed 6 2)) ∧
    (s.imgDimsOk = true → (s.fval 46).isFinite = true → F64.lt (F64.zero false) (s.fval 46) = true →
      (65535 < s.argNat 2 → exec .findAlign s = .next (s.failed 6 1)) ∧
      (s.argNat 2 ≤ 65535 → ∀ l r,
        alignInRegion s.image s.params.maxAlignCand s.acand (s.fval 46) (s.argInt 0) (s.argInt 1) (s.argNat 2) = (l, r) →
        (∀ c, r = .ok c → exec .findAlign s = .next
          ({ ({ s with acand := l } : State).setFs 43 [c.x, c.y, c.ms] with apValid := true } : State).finished) ∧
        (∀ e, r = .error e → exec .findAlign s =
          .next (({ s with acand := l } : State).failed e.code.toNat e.detail.toNat))))

/-- `ORDER3` permutes its three points bit for bit, as `orderBestPatterns` orders them, and says how in `RES0` (R246,
R256): no side is longer than the one opposite the middle point, and the cross product is not negative. -/
def Obligations.OrderIsPermutation : Prop :=
  ∀ s : State,
    (s.finiteFrom 18 6 = false → exec .order3 s = .next (s.failed 6 2)) ∧
    (s.finiteFrom 18 6 = true → ∃ (t : State) (a b c : Nat),
      exec .order3 s = .next t.finished ∧ orderPoints (s.pt 18) (s.pt 20) (s.pt 22) = (a, b, c) ∧
      [a, b, c].Perm [0, 1, 2] ∧ { t with f := s.f, res0 := s.res0 } = s ∧
      t.res0 = BitVec.ofNat 32 (a + 4 * b + 16 * c) ∧
      t.fbits 18 = s.fbits (18 + 2 * a) ∧ t.fbits 19 = s.fbits (19 + 2 * a) ∧
      t.fbits 20 = s.fbits (18 + 2 * b) ∧ t.fbits 21 = s.fbits (19 + 2 * b) ∧
      t.fbits 22 = s.fbits (18 + 2 * c) ∧ t.fbits 23 = s.fbits (19 + 2 * c) ∧
      (∀ k, k < 18 ∨ 24 ≤ k → t.fbits k = s.fbits k) ∧
      ∀ A B C : Pt, A = s.pt (18 + 2 * a) → B = s.pt (18 + 2 * b) → C = s.pt (18 + 2 * c) →
        F64.le (distance A.x A.y B.x B.y) (distance A.x A.y C.x C.y) = true ∧
        F64.le (distance B.x B.y C.x C.y) (distance A.x A.y C.x C.y) = true ∧
        F64.lt (mulSub (F64.sub C.x B.x) (F64.sub A.y B.y) (F64.sub C.y B.y) (F64.sub A.x B.x)) (F64.zero false) =
          false)

/-! ### Parser commands -/

/-- The common checks of the parser sub-commands, in their order (45_parser.md section 4, R270, R333). -/
def Obligations.ParserSubcommandChecks : Prop :=
  ∀ (s : State) (i : Instr),
    i ∈ [.readFormat, .readVersion, .readCodewords, .mirror, .setMirror 0, .setMirror 1, .remask] →
    (s.pstate.pinit = false → exec i s = .next (s.failed 6 5)) ∧
    (s.pstate.pinit = true →
      (s.gridW.toNat < 1 ∨ 177 < s.gridW.toNat ∨ s.gridH.toNat < 1 ∨ 177 < s.gridH.toNat →
        exec i s = .next (s.failed 6 3)) ∧
      (1 ≤ s.gridW.toNat → s.gridW.toNat ≤ 177 → 1 ≤ s.gridH.toNat → s.gridH.toNat ≤ 177 →
        (s.gridW ≠ s.gridH ∨ s.gridW.toNat < 21 ∨ s.gridW.toNat % 4 ≠ 1) → exec i s = .next (s.failed 2 1)))

/-- `PARSER_INIT` empties the caches and accepts the grid, or not (R270, R290); `SET_MIRROR` empties both caches and sets
the flag (R298). -/
def Obligations.ParserInitAndSetMirror : Prop :=
  (∀ (s : State) (m : Nat),
    (1 < m → exec (.setMirror m) s = .next (s.failed 6 6)) ∧
    (m ≤ 1 → s.pstate.pinit = true → s.gridW = s.gridH → 21 ≤ s.gridW.toNat → s.gridW.toNat ≤ 177 →
      s.gridW.toNat % 4 = 1 →
      exec (.setMirror m) s = .next ({ s with
        version := none, fmt := none, pstate := ⟨decide (m = 1), s.pstate.mirrored, true⟩ } : State).finished)) ∧
  ∀ s : State,
    (s.gridW.toNat < 1 ∨ 177 < s.gridW.toNat ∨ s.gridH.toNat < 1 ∨ 177 < s.gridH.toNat →
      exec .parserInit s = .next (({ s with
        version := none, fmt := none, pstate := ⟨false, s.pstate.mirrored, false⟩ } : State).failed 6 3)) ∧
    (1 ≤ s.gridW.toNat → s.gridW.toNat ≤ 177 → 1 ≤ s.gridH.toNat → s.gridH.toNat ≤ 177 →
      (s.gridW ≠ s.gridH ∨ s.gridW.toNat < 21 ∨ s.gridW.toNat % 4 ≠ 1) →
      exec .parserInit s = .next (({ s with
        version := none, fmt := none, pstate := ⟨false, s.pstate.mirrored, false⟩ } : State).failed 2 1)) ∧
    (s.gridW = s.gridH → 21 ≤ s.gridW.toNat → s.gridW.toNat ≤ 177 → s.gridW.toNat % 4 = 1 →
      exec .parserInit s = .next ({ s with
        version := none, fmt := none, pstate := ⟨false, s.pstate.mirrored, true⟩ } : State).finished)

/-- `READ_FORMAT`: a cached format is kept and nothing is read; else both fields go to `RES0` and `RES1`, and the format
they decode to is cached (R282, R291). -/
def Obligations.ReadFormatCaches : Prop :=
  ∀ s : State, s.pstate.pinit = true → s.gridW = s.gridH → 21 ≤ s.gridW.toNat → s.gridW.toNat ≤ 177 →
    s.gridW.toNat % 4 = 1 →
    (s.fmt.isSome = true → exec .readFormat s = .next s.finished) ∧
    (s.fmt = none → ∀ b1 b2 : BitVec 15,
      b1 = (s.parser s.gridW.toNat).b1 → b2 = (s.parser s.gridW.toNat).b2 →
      (∀ info, decodeFormat b1 b2 = .ok info → exec .readFormat s =
        .next ({ s with res0 := b1.setWidth 32, res1 := b2.setWidth 32, fmt := some info } : State).finished) ∧
      (∀ e, decodeFormat b1 b2 = .error e → exec .readFormat s =
        .next (({ s with res0 := b1.setWidth 32, res1 := b2.setWidth 32 } : State).failed 2 3)))

/-- `READ_VERSION`: a cached version is kept; versions 1 to 6 follow from the side, with `RES0` and `RES1` unchanged; from
version 7 on the fields are read in their order, and one whose version has another side is rejected (R283, R292). That
side 41 too reads no field and leaves `RES0` and `RES1` is the model's choice (log 19). -/
def Obligations.ReadVersionFromSideOrField : Prop :=
  ∀ s : State, s.pstate.pinit = true → s.gridW = s.gridH → 21 ≤ s.gridW.toNat → s.gridW.toNat ≤ 177 →
    s.gridW.toNat % 4 = 1 →
    (s.version.isSome = true → exec .readVersion s = .next s.finished) ∧
    (s.version = none → s.gridW.toNat ≤ 41 → exec .readVersion s =
      .next ({ s with version := some (BitVec.ofNat 6 ((s.gridW.toNat - 17) / 4)) } : State).finished) ∧
    (s.version = none → 45 ≤ s.gridW.toNat → ∀ f1 f2 : BitVec 18,
      f1 = (s.parser s.gridW.toNat).topRight → f2 = (s.parser s.gridW.toNat).bottomLeft →
      (∀ v, decodeVersion f1 = some v → 17 + 4 * v = s.gridW.toNat → exec .readVersion s =
        .next ({ s with res0 := f1.setWidth 32, version := some (BitVec.ofNat 6 v) } : State).finished) ∧
      ((∀ v, decodeVersion f1 = some v → 17 + 4 * v ≠ s.gridW.toNat) →
        (∀ v, decodeVersion f2 = some v → 17 + 4 * v = s.gridW.toNat → exec .readVersion s =
          .next ({ s with
            res0 := f1.setWidth 32, res1 := f2.setWidth 32, version := some (BitVec.ofNat 6 v) } : State).finished) ∧
        ((∀ v, decodeVersion f2 = some v → 17 + 4 * v ≠ s.gridW.toNat) → exec .readVersion s =
          .next (({ s with res0 := f1.setWidth 32, res1 := f2.setWidth 32 } : State).failed 2 4))))

/-- Two copies of a format field, each with at most three wrong bits of its own, decode to the entry they came from, and
so does a version field with at most three wrong bits (R271, R273, R277, R278). -/
def Obligations.FieldsCorrectThreeBits : Prop :=
  (∀ (info : Nat) (t w1 w2 : BitVec 15), Sys2Proof.Machine.formatTable[info]? = some t → bitsDiff t w1 ≤ 3 →
    bitsDiff t w2 ≤ 3 → decodeFormat w1 w2 = .ok (BitVec.ofNat 5 info)) ∧
  (∀ (n : Nat) (t w : BitVec 18), versionTable[n]? = some t → bitsDiff t w ≤ 3 → decodeVersion w = some (n + 7))

/-- `UNMASK` flips exactly the modules its mask names, and no other bit of memory (R284, R285, R293). -/
def Obligations.UnmaskFlipsMaskedModules : Prop :=
  ∀ (s : State) (m : Nat),
    (7 < m → exec (.unmask m) s = .next (s.failed 6 6)) ∧
    (m ≤ 7 → s.gridW.toNat < 1 ∨ 177 < s.gridW.toNat ∨ s.gridH.toNat < 1 ∨ 177 < s.gridH.toNat ∨ s.gridW ≠ s.gridH →
      exec (.unmask m) s = .next (s.failed 6 3)) ∧
    (m ≤ 7 → 1 ≤ s.gridW.toNat → s.gridW.toNat ≤ 177 → s.gridW = s.gridH →
      ∃ t : State, exec (.unmask m) s = .next t.finished ∧ { t with mem := s.mem } = s ∧
        (∀ x y, x < s.gridW.toNat → y < s.gridW.toNat →
          (flipped m y x → t.grid.bit x y = !s.grid.bit x y) ∧ (¬flipped m y x → t.grid.bit x y = s.grid.bit x y)) ∧
        (∀ n, s.gridW.toNat * s.gridW.toNat ≤ n → t.bit 0x8000 n = s.bit 0x8000 n) ∧
        sameBytesOutside s t 0x8000 ((s.gridW.toNat * s.gridW.toNat + 7) / 8))

/-- `MIRROR` transposes `GRID`; `REMASK` flips it under the cached mask, or does nothing (R297, R299). -/
def Obligations.MirrorAndRemask : Prop :=
  ∀ (s : State) (d : Nat), s.pstate.pinit = true → s.gridW.toNat = d → s.gridH.toNat = d → 21 ≤ d → d ≤ 177 → d % 4 = 1 →
    (∃ t : State, exec .mirror s = .next t.finished ∧ { t with mem := s.mem } = s ∧
      (∀ x y, x < d → y < d → t.grid.bit x y = s.grid.bit y x) ∧
      (∀ n, d * d ≤ n → t.bit 0x8000 n = s.bit 0x8000 n) ∧ sameBytesOutside s t 0x8000 ((d * d + 7) / 8)) ∧
    (s.fmt = none → exec .remask s = .next s.finished) ∧
    (∀ info, s.fmt = some info →
      ∃ t : State, exec .remask s = .next t.finished ∧ { t with mem := s.mem } = s ∧
        (∀ x y, x < d → y < d →
          (flipped (info.toNat % 8) y x → t.grid.bit x y = !s.grid.bit x y) ∧
          (¬flipped (info.toNat % 8) y x → t.grid.bit x y = s.grid.bit x y)) ∧
        (∀ n, d * d ≤ n → t.bit 0x8000 n = s.bit 0x8000 n) ∧ sameBytesOutside s t 0x8000 ((d * d + 7) / 8))

/-- `BUILD_FNPAT` writes the function pattern of its version and that pattern's side (R286, R294). -/
def Obligations.FunctionPatternBuilt : Prop :=
  ∀ (s : State) (v : Nat), s.argNat 0 = v →
    (v < 1 ∨ 40 < v → exec .buildFnpat s = .next (s.failed 6 1)) ∧
    (1 ≤ v → v ≤ 40 →
      ∃ t : State, exec .buildFnpat s = .next t.finished ∧ { t with fndim := s.fndim, mem := s.mem } = s ∧
        t.fndim.toNat = 17 + 4 * v ∧
        (∀ x y, x < 17 + 4 * v → y < 17 + 4 * v →
          t.bit 0x9000 (y * (17 + 4 * v) + x) = inFunctionPattern v x y) ∧
        (∀ n, (17 + 4 * v) * (17 + 4 * v) ≤ n → t.bit 0x9000 n = s.bit 0x9000 n) ∧
        sameBytesOutside s t 0x9000 (((17 + 4 * v) * (17 + 4 * v) + 7) / 8))

/-- `READ_CODEWORDS` fills the caches, unmasks `GRID`, writes the function pattern and reads the codewords of the unmasked
grid; a format or version that cannot be read leaves what was cached before it (R287, R295). A version cached from a grid
of another side is no case of this statement (log 10). -/
def Obligations.CodewordsOfUnmaskedGrid : Prop :=
  ∀ (s : State) (d : Nat), s.pstate.pinit = true → s.gridW.toNat = d → s.gridH.toNat = d → 21 ≤ d → d ≤ 177 → d % 4 = 1 →
    (∀ e, (s.parser d).readFormat = .error e → exec .readCodewords s = .next (s.failed 2 3)) ∧
    (∀ info, (s.parser d).readFormat = .ok info →
      (∀ e, (s.parser d).readVersion = .error e →
        exec .readCodewords s = .next (({ s with fmt := some info } : State).failed 2 4)) ∧
      (∀ v out, (s.parser d).readVersion = .ok v → 17 + 4 * v.toNat = d →
        ((s.parser d).unmask (info.toNat % 8)).codewords v.toNat = .ok out →
        exec .readCodewords s = .next (((({ s with fmt := some info, version := some v } : State).unmaskGrid d
          (info.toNat % 8)).putFnpat v.toNat d).putCw out).finished))

/-- `UNMASK` twice with one mask, and `MIRROR` twice, restore every byte of memory (R285, R293, R297); `REMASK` after a
`READ_CODEWORDS` that succeeded restores `GRID` (R295, R299). -/
def Obligations.GridCommandsUndoThemselves : Prop :=
  (∀ (s t u : State) (m : Nat), exec (.unmask m) s = .next t → exec (.unmask m) t = .next u → sameBytes s u) ∧
  (∀ s t u : State, exec .mirror s = .next t → exec .mirror t = .next u → sameBytes s u) ∧
  (∀ s t u : State, exec .readCodewords s = .next t → t.errcode = 0 → exec .remask t = .next u →
    ∀ a, 0x8000 ≤ a → a < 0x9000 → u.byte a = s.byte a)

/-- `BLOCK_DECODE` concatenates the corrected data codewords of the blocks in order; on an error it writes nothing
(R288, R296, R335). -/
def Obligations.BlockDecodeConcatenates : Prop :=
  ∀ s : State,
    (s.argNat 0 < 1 ∨ 40 < s.argNat 0 ∨ 3 < s.argNat 1 ∨ 4096 < s.argNat 2 →
      exec .blockDecode s = .next (s.failed 6 1)) ∧
    (1 ≤ s.argNat 0 → s.argNat 0 ≤ 40 → s.argNat 1 ≤ 3 → s.argNat 2 ≤ 4096 →
      (s.argNat 2 ≠ totalCodewords (s.argNat 0) → exec .blockDecode s = .next (s.failed 2 5)) ∧
      (∀ blocks, dataBlocks (s.bytes 0x4000 (s.argNat 2)) (s.argNat 0) (levelOf (s.argNat 1)) = .ok blocks →
        (∀ e, decodeBlocks blocks = .error e → exec .blockDecode s = .next (s.failed 3 e.detail.toNat)) ∧
        (∀ data n, decodeBlocks blocks = .ok (data, n) → exec .blockDecode s =
          .next ({ s.putBytes 0x5000 data with
            numData := BitVec.ofNat 32 data.length, errsCorr := BitVec.ofNat 32 n } : State).finished)))

/-- `DECODE` writes the decoded data and where they came from, and nothing on an error (R300, R301). -/
def Obligations.DecodeWritesResult : Prop :=
  ∀ s : State,
    (s.gridW.toNat < 1 ∨ 177 < s.gridW.toNat ∨ s.gridH.toNat < 1 ∨ 177 < s.gridH.toNat →
      exec .decode s = .next (s.failed 6 3)) ∧
    (1 ≤ s.gridW.toNat → s.gridW.toNat ≤ 177 → 1 ≤ s.gridH.toNat → s.gridH.toNat ≤ 177 →
      (s.gridW ≠ s.gridH ∨ s.gridW.toNat < 21 ∨ s.gridW.toNat % 4 ≠ 1) → exec .decode s = .next (s.failed 2 1)) ∧
    (s.gridW = s.gridH → 21 ≤ s.gridW.toNat → s.gridW.toNat ≤ 177 → s.gridW.toNat % 4 = 1 →
      (∀ e, decodeGrid s.gridW.toNat s.grid.bit = .error e →
        (e.code = 2 ∨ e.code = 3) ∧ exec .decode s = .next (s.failed e.code.toNat e.detail.toNat)) ∧
      (∀ r mirrored, decodeGrid s.gridW.toNat s.grid.bit = .ok (r, mirrored) → exec .decode s =
        .next ({ s.putBytes 0x5000 r.data with
          numData := BitVec.ofNat 32 r.data.length
          errsCorr := BitVec.ofNat 32 r.corrected
          res0 := r.version.setWidth 32
          res1 := r.info.setWidth 32
          pstate := { s.pstate with mirrored := mirrored } } : State).finished))

/-- `DECODE` run again on what it left ends in the same state: it leaves `GRID` as it was (R300, R301). -/
def Obligations.DecodeIsIdempotent : Prop :=
  ∀ s t : State, exec .decode s = .next t → exec .decode t = .next t

/-- `SCAN` is `DETECT` and then `DECODE` of the new `GRID`: a failed `DETECT` ends it, and where the new grid decodes it
writes the decoded data (R302). -/
def Obligations.ScanIsDetectThenDecode : Prop :=
  (∀ s t : State, exec .detect s = .next t →
    (t.errcode = 0 → exec .scan s = exec .decode t) ∧ (t.errcode ≠ 0 → exec .scan s = .next t)) ∧
  (∀ (s t : State) (d : Nat) (r : Decoded) (mirrored : Bool), detect s = (t, none) → t.gridCheck = .ok d →
    decodeGrid d t.grid.bit = .ok (r, mirrored) →
    exec .scan s = .next ({ t.putBytes 0x5000 r.data with
      numData := BitVec.ofNat 32 r.data.length
      errsCorr := BitVec.ofNat 32 r.corrected
      res0 := r.version.setWidth 32
      res1 := r.info.setWidth 32
      pstate := { t.pstate with mirrored := mirrored } } : State).finished)
end

