-- ==== Sys2Proof/Laws/Memory.lean ====
section
/-! SUPPORT. What the operations over memory do: reading after writing, the canonical form, and the bit memories. -/

namespace Sys2Proof.Machine

/-! ### The list of cells -/

theorem memGet_append (m n : List Host.Cell) (a : Nat) : memGet (m ++ n) a = (memGet m a).or (memGet n a) := by
  induction m with
  | nil => simp [memGet]
  | cons c m ih =>
    obtain ⟨k, v⟩ := c
    simp only [memGet, List.cons_append, List.lookup_cons] at *
    cases h : a == k <;> simp_all

theorem memGet_filter (m : List Host.Cell) (p : Nat → Bool) (a : Nat) :
    memGet (m.filter (fun c => p c.1)) a = if p a then memGet m a else none := by
  induction m with
  | nil => simp [memGet]
  | cons c m ih =>
    obtain ⟨k, v⟩ := c
    simp only [memGet, List.filter_cons] at *
    by_cases hk : p k = true
    · simp only [hk, if_true, List.lookup_cons]
      cases h : a == k
      · simpa using ih
      · have : a = k := by simpa using h
        subst this; simp [hk]
    · simp only [hk, List.lookup_cons]
      cases h : a == k
      · simpa using ih
      · have : a = k := by simpa using h
        subst this; simpa [hk] using ih

theorem memGet_cellsFrom (bs : List Byte) (base a : Nat) :
    memGet (cellsFrom base bs) a = if base ≤ a then bs[a - base]? else none := by
  induction bs generalizing base with
  | nil => simp [cellsFrom, memGet]
  | cons b bs ih =>
    have := ih (base + 1)
    simp only [memGet, cellsFrom, List.lookup_cons] at *
    cases h : a == base
    · have hne : a ≠ base := by simpa using h
      simp only [this]
      by_cases hle : base ≤ a
      · have h1 : base + 1 ≤ a := by omega
        have h2 : a - base = (a - (base + 1)) + 1 := by omega
        simp [hle, h1, h2]
      · have h1 : ¬ base + 1 ≤ a := by omega
        simp [hle, h1]
    · have : a = base := by simpa using h
      subst this; simp

/-- What a write leaves to be read at any offset. -/
theorem memGet_memPut (m : List Host.Cell) (base : Nat) (bs : List Byte) (a : Nat) :
    memGet (memPut m base bs) a =
      if base ≤ a ∧ a < base + bs.length then bs[a - base]? else memGet m a := by
  have h1 := memGet_filter m (fun k => decide (k < base)) a
  have h2 := memGet_filter m (fun k => decide (base + bs.length ≤ k)) a
  simp only [memPut, memGet_append, h1, h2, memGet_cellsFrom, decide_eq_true_eq]
  by_cases hl : a < base
  · have : ¬ base ≤ a := by omega
    have h3 : ¬ base + bs.length ≤ a := by omega
    simp [hl, this, h3]
  · have hb : base ≤ a := by omega
    by_cases hi : a < base + bs.length
    · have h3 : ¬ base + bs.length ≤ a := by omega
      simp [hl, hb, hi, h3]
    · have h3 : base + bs.length ≤ a := by omega
      have h4 : bs[a - base]? = none := by rw [List.getElem?_eq_none_iff]; omega
      simp [hl, hb, hi, h3, h4]

theorem cellsFrom_bounds (bs : List Byte) (base : Nat) (c : Host.Cell) (h : c ∈ cellsFrom base bs) :
    base ≤ c.1 ∧ c.1 < base + bs.length := by
  induction bs generalizing base with
  | nil => simp [cellsFrom] at h
  | cons b bs ih =>
    simp only [cellsFrom, List.mem_cons] at h
    rcases h with rfl | h
    · simp
    · have := ih _ h
      simp only [List.length_cons]
      omega

theorem cellsFrom_wf (bs : List Byte) (base : Nat) : Memory.wf (cellsFrom base bs) := by
  induction bs generalizing base with
  | nil => simp [cellsFrom, Memory.wf]
  | cons b bs ih =>
    simp only [Memory.wf, cellsFrom, List.pairwise_cons]
    exact ⟨fun c hc => by have := (cellsFrom_bounds bs (base + 1) c hc).1; omega, ih (base + 1)⟩

/-- A write keeps the canonical form. -/
theorem memPut_wf (m : List Host.Cell) (base : Nat) (bs : List Byte) (h : Memory.wf m) : Memory.wf (memPut m base bs) := by
  simp only [Memory.wf, memPut, List.pairwise_append, List.mem_append, List.mem_filter, decide_eq_true_eq]
  refine ⟨⟨h.filter _, cellsFrom_wf bs base, ?_⟩, h.filter _, ?_⟩
  · intro a ha b hb
    have := (cellsFrom_bounds bs base b hb).1
    omega
  · rintro a (⟨_, ha⟩ | ha) b ⟨_, hb⟩
    · omega
    · have := (cellsFrom_bounds bs base a ha).2
      omega

/-- A listed byte was listed before, outside the written bytes, or was written. -/
theorem mem_memPut (m : List Host.Cell) (base : Nat) (bs : List Byte) (c : Host.Cell) (h : c ∈ memPut m base bs) :
    c ∈ m ∨ (base ≤ c.1 ∧ c.1 < base + bs.length) := by
  simp only [memPut, List.mem_append, List.mem_filter] at h
  rcases h with (h | h) | h
  · exact .inl h.1
  · exact .inr (cellsFrom_bounds bs base c h)
  · exact .inl h.1

/-! ### Bytes -/

/-- What a write of bytes leaves to be read. -/
theorem byte_putBytes (s : State) (base : Nat) (bs : List Byte) (a : Nat) :
    (s.putBytes base bs).byte a =
      if base ≤ a ∧ a < base + bs.length then bs.getD (a - base) 0 else s.byte a := by
  simp only [State.byte, State.putBytes, memGet_memPut]
  split
  · rename_i h
    have : a - base < bs.length := by omega
    simp [List.getD, this]
  · rfl

theorem byte_putBytes_outside (s : State) (base : Nat) (bs : List Byte) (a : Nat)
    (h : a < base ∨ base + bs.length ≤ a) : (s.putBytes base bs).byte a = s.byte a := by
  rw [byte_putBytes, if_neg (by omega)]

theorem byte_putBytes_inside (s : State) (base : Nat) (bs : List Byte) (i : Nat) (h : i < bs.length) :
    (s.putBytes base bs).byte (base + i) = bs.getD i 0 := by
  rw [byte_putBytes, if_pos (by omega), Nat.add_sub_cancel_left]

@[simp] theorem length_bytes (s : State) (base n : Nat) : (s.bytes base n).length = n := by simp [State.bytes]

/-- The bytes just written read back. -/
theorem bytes_putBytes (s : State) (base : Nat) (bs : List Byte) : (s.putBytes base bs).bytes base bs.length = bs := by
  apply List.ext_getElem (by simp)
  intro i h1 h2
  simp only [State.bytes, List.getElem_map, List.getElem_range]
  rw [byte_putBytes_inside _ _ _ _ h2]
  simp [List.getD, h2]

/-- Bytes elsewhere read as before. -/
theorem bytes_putBytes_outside (s : State) (base : Nat) (bs : List Byte) (b n : Nat)
    (h : b + n ≤ base ∨ base + bs.length ≤ b) : (s.putBytes base bs).bytes b n = s.bytes b n := by
  simp only [State.bytes]
  apply List.map_congr_left
  intro i hi
  have := List.mem_range.1 hi
  exact byte_putBytes_outside _ _ _ _ (by omega)

/-! ### Bits -/

/-- The bits of a packed byte. -/
theorem getLsbD_packByte (g : Nat → Bool) (k : Nat) (h : k < 8) : (packByte g).getLsbD k = g k := by
  have key : ∀ b0 b1 b2 b3 b4 b5 b6 b7 : Bool, ∀ k < 8,
      (BitVec.ofNat 8 (0 + bitNat b0 * 2 ^ 0 + bitNat b1 * 2 ^ 1 + bitNat b2 * 2 ^ 2 + bitNat b3 * 2 ^ 3
        + bitNat b4 * 2 ^ 4 + bitNat b5 * 2 ^ 5 + bitNat b6 * 2 ^ 6 + bitNat b7 * 2 ^ 7)).getLsbD k
        = [b0, b1, b2, b3, b4, b5, b6, b7].getD k false := by decide
  have hk := key (g 0) (g 1) (g 2) (g 3) (g 4) (g 5) (g 6) (g 7) k h
  have hr : List.range 8 = [0, 1, 2, 3, 4, 5, 6, 7] := by decide
  rw [packByte, hr]
  simp only [List.foldl_cons, List.foldl_nil]
  rw [hk]
  rcases k with _ | _ | _ | _ | _ | _ | _ | _ | k <;> first | rfl | omega

/-- What a write of bits leaves to be read. -/
theorem bit_putBits (s : State) (base count : Nat) (g : Nat → Bool) (n : Nat) :
    (s.putBits base count g).bit base n = if n < count then g n else s.bit base n := by
  simp only [State.bit, State.putBits, byte_putBytes, List.length_map, List.length_range]
  by_cases h : n / 8 < (count + 7) / 8
  · rw [if_pos (by omega), Nat.add_sub_cancel_left]
    have h2 : ((List.range ((count + 7) / 8)).map (fun k =>
        packByte (fun b => if 8 * k + b < count then g (8 * k + b) else (s.byte (base + k)).getLsbD b))).getD (n / 8) 0
        = packByte (fun b => if 8 * (n / 8) + b < count then g (8 * (n / 8) + b)
            else (s.byte (base + n / 8)).getLsbD b) := by
      simp [List.getD, h]
    rw [h2, getLsbD_packByte _ _ (Nat.mod_lt _ (by decide))]
    have h3 : 8 * (n / 8) + n % 8 = n := by omega
    rw [h3]
  · rw [if_neg (by omega), if_neg (by omega)]

theorem byte_putBits_outside (s : State) (base count : Nat) (g : Nat → Bool) (a : Nat)
    (h : a < base ∨ base + (count + 7) / 8 ≤ a) : (s.putBits base count g).byte a = s.byte a := by
  simp only [State.putBits]
  exact byte_putBytes_outside _ _ _ _ (by simpa using h)

/-- What a write of a matrix leaves to be read, by coordinates. -/
theorem bit_putMatrix (s : State) (base w h : Nat) (g : Nat → Nat → Bool) (x y : Nat) (hx : x < w) (hy : y < h) :
    (s.putMatrix base w h g).bit base (y * w + x) = g x y := by
  have hlt : y * w + x < w * h := by
    calc y * w + x < y * w + w := by omega
      _ = (y + 1) * w := by ring
      _ ≤ h * w := Nat.mul_le_mul_right _ hy
      _ = w * h := Nat.mul_comm _ _
  rw [State.putMatrix, bit_putBits, if_pos hlt]
  have h1 : (y * w + x) % w = x := by
    rw [Nat.mul_comm, Nat.mul_add_mod, Nat.mod_eq_of_lt hx]
  have h2 : (y * w + x) / w = y := by
    rw [Nat.mul_comm, Nat.mul_add_div (by omega), Nat.div_eq_of_lt hx, Nat.add_zero]
  rw [h1, h2]

/-- Two bytes are equal when all their bits are. -/
theorem byte_eq_of_bits (s t : State) (base k : Nat) (h : ∀ n, n / 8 = k → t.bit base n = s.bit base n) :
    t.byte (base + k) = s.byte (base + k) := by
  apply BitVec.eq_of_getLsbD_eq
  intro i hi
  have := h (8 * k + i) (by omega)
  simp only [State.bit] at this
  rwa [show (8 * k + i) / 8 = k by omega, show (8 * k + i) % 8 = i by omega] at this

end Sys2Proof.Machine
end

