-- ==== Sys2Proof/Laws/State.lean ====
section
/-! SUPPORT. What each named update leaves in each field: one lemma a field and update, so that no proof unfolds an update. -/

namespace Sys2Proof.Machine

/-! ### `putBytes` -/

@[simp] theorem putBytes_params (s : State) (a : Nat) (bs : List Byte) : (s.putBytes a bs).params = s.params := rfl
@[simp] theorem putBytes_host (s : State) (a : Nat) (bs : List Byte) : (s.putBytes a bs).host = s.host := rfl
@[simp] theorem putBytes_resp (s : State) (a : Nat) (bs : List Byte) : (s.putBytes a bs).resp = s.resp := rfl
@[simp] theorem putBytes_draws (s : State) (a : Nat) (bs : List Byte) : (s.putBytes a bs).draws = s.draws := rfl
@[simp] theorem putBytes_epoch (s : State) (a : Nat) (bs : List Byte) : (s.putBytes a bs).epoch = s.epoch := rfl
@[simp] theorem putBytes_running (s : State) (a : Nat) (bs : List Byte) : (s.putBytes a bs).running = s.running := rfl
@[simp] theorem putBytes_ctrl (s : State) (a : Nat) (bs : List Byte) : (s.putBytes a bs).ctrl = s.ctrl := rfl
@[simp] theorem putBytes_status (s : State) (a : Nat) (bs : List Byte) : (s.putBytes a bs).status = s.status := rfl
@[simp] theorem putBytes_errcode (s : State) (a : Nat) (bs : List Byte) : (s.putBytes a bs).errcode = s.errcode := rfl
@[simp] theorem putBytes_errdetail (s : State) (a : Nat) (bs : List Byte) : (s.putBytes a bs).errdetail = s.errdetail := rfl
@[simp] theorem putBytes_arg (s : State) (a : Nat) (bs : List Byte) : (s.putBytes a bs).arg = s.arg := rfl
@[simp] theorem putBytes_res0 (s : State) (a : Nat) (bs : List Byte) : (s.putBytes a bs).res0 = s.res0 := rfl
@[simp] theorem putBytes_res1 (s : State) (a : Nat) (bs : List Byte) : (s.putBytes a bs).res1 = s.res1 := rfl
@[simp] theorem putBytes_imgW (s : State) (a : Nat) (bs : List Byte) : (s.putBytes a bs).imgW = s.imgW := rfl
@[simp] theorem putBytes_imgH (s : State) (a : Nat) (bs : List Byte) : (s.putBytes a bs).imgH = s.imgH := rfl
@[simp] theorem putBytes_gridW (s : State) (a : Nat) (bs : List Byte) : (s.putBytes a bs).gridW = s.gridW := rfl
@[simp] theorem putBytes_gridH (s : State) (a : Nat) (bs : List Byte) : (s.putBytes a bs).gridH = s.gridH := rfl
@[simp] theorem putBytes_version (s : State) (a : Nat) (bs : List Byte) : (s.putBytes a bs).version = s.version := rfl
@[simp] theorem putBytes_fmt (s : State) (a : Nat) (bs : List Byte) : (s.putBytes a bs).fmt = s.fmt := rfl
@[simp] theorem putBytes_pver (s : State) (a : Nat) (bs : List Byte) : (s.putBytes a bs).pver = s.pver := rfl
@[simp] theorem putBytes_pstate (s : State) (a : Nat) (bs : List Byte) : (s.putBytes a bs).pstate = s.pstate := rfl
@[simp] theorem putBytes_numCw (s : State) (a : Nat) (bs : List Byte) : (s.putBytes a bs).numCw = s.numCw := rfl
@[simp] theorem putBytes_numData (s : State) (a : Nat) (bs : List Byte) : (s.putBytes a bs).numData = s.numData := rfl
@[simp] theorem putBytes_errsCorr (s : State) (a : Nat) (bs : List Byte) : (s.putBytes a bs).errsCorr = s.errsCorr := rfl
@[simp] theorem putBytes_rsN (s : State) (a : Nat) (bs : List Byte) : (s.putBytes a bs).rsN = s.rsN := rfl
@[simp] theorem putBytes_rsTwos (s : State) (a : Nat) (bs : List Byte) : (s.putBytes a bs).rsTwos = s.rsTwos := rfl
@[simp] theorem putBytes_rsNerr (s : State) (a : Nat) (bs : List Byte) : (s.putBytes a bs).rsNerr = s.rsNerr := rfl
@[simp] theorem putBytes_plen (s : State) (a : Nat) (bs : List Byte) : (s.putBytes a bs).plen = s.plen := rfl
@[simp] theorem putBytes_dim (s : State) (a : Nat) (bs : List Byte) : (s.putBytes a bs).dim = s.dim := rfl
@[simp] theorem putBytes_fpcBl (s : State) (a : Nat) (bs : List Byte) : (s.putBytes a bs).fpcBl = s.fpcBl := rfl
@[simp] theorem putBytes_fpcTl (s : State) (a : Nat) (bs : List Byte) : (s.putBytes a bs).fpcTl = s.fpcTl := rfl
@[simp] theorem putBytes_fpcTr (s : State) (a : Nat) (bs : List Byte) : (s.putBytes a bs).fpcTr = s.fpcTr := rfl
@[simp] theorem putBytes_apValid (s : State) (a : Nat) (bs : List Byte) : (s.putBytes a bs).apValid = s.apValid := rfl
@[simp] theorem putBytes_findNcand (s : State) (a : Nat) (bs : List Byte) : (s.putBytes a bs).findNcand = s.findNcand := rfl
@[simp] theorem putBytes_fndim (s : State) (a : Nat) (bs : List Byte) : (s.putBytes a bs).fndim = s.fndim := rfl
@[simp] theorem putBytes_f (s : State) (a : Nat) (bs : List Byte) : (s.putBytes a bs).f = s.f := rfl
@[simp] theorem putBytes_fcand (s : State) (a : Nat) (bs : List Byte) : (s.putBytes a bs).fcand = s.fcand := rfl
@[simp] theorem putBytes_hasSkipped (s : State) (a : Nat) (bs : List Byte) : (s.putBytes a bs).hasSkipped = s.hasSkipped := rfl
@[simp] theorem putBytes_acand (s : State) (a : Nat) (bs : List Byte) : (s.putBytes a bs).acand = s.acand := rfl
@[simp] theorem putBytes_mem (s : State) (a : Nat) (bs : List Byte) : (s.putBytes a bs).mem = memPut s.mem a bs := rfl

/-! ### `putBits` -/

@[simp] theorem putBits_params (s : State) (a n : Nat) (g : Nat → Bool) : (s.putBits a n g).params = s.params := rfl
@[simp] theorem putBits_host (s : State) (a n : Nat) (g : Nat → Bool) : (s.putBits a n g).host = s.host := rfl
@[simp] theorem putBits_resp (s : State) (a n : Nat) (g : Nat → Bool) : (s.putBits a n g).resp = s.resp := rfl
@[simp] theorem putBits_draws (s : State) (a n : Nat) (g : Nat → Bool) : (s.putBits a n g).draws = s.draws := rfl
@[simp] theorem putBits_epoch (s : State) (a n : Nat) (g : Nat → Bool) : (s.putBits a n g).epoch = s.epoch := rfl
@[simp] theorem putBits_running (s : State) (a n : Nat) (g : Nat → Bool) : (s.putBits a n g).running = s.running := rfl
@[simp] theorem putBits_ctrl (s : State) (a n : Nat) (g : Nat → Bool) : (s.putBits a n g).ctrl = s.ctrl := rfl
@[simp] theorem putBits_status (s : State) (a n : Nat) (g : Nat → Bool) : (s.putBits a n g).status = s.status := rfl
@[simp] theorem putBits_errcode (s : State) (a n : Nat) (g : Nat → Bool) : (s.putBits a n g).errcode = s.errcode := rfl
@[simp] theorem putBits_errdetail (s : State) (a n : Nat) (g : Nat → Bool) : (s.putBits a n g).errdetail = s.errdetail := rfl
@[simp] theorem putBits_arg (s : State) (a n : Nat) (g : Nat → Bool) : (s.putBits a n g).arg = s.arg := rfl
@[simp] theorem putBits_res0 (s : State) (a n : Nat) (g : Nat → Bool) : (s.putBits a n g).res0 = s.res0 := rfl
@[simp] theorem putBits_res1 (s : State) (a n : Nat) (g : Nat → Bool) : (s.putBits a n g).res1 = s.res1 := rfl
@[simp] theorem putBits_imgW (s : State) (a n : Nat) (g : Nat → Bool) : (s.putBits a n g).imgW = s.imgW := rfl
@[simp] theorem putBits_imgH (s : State) (a n : Nat) (g : Nat → Bool) : (s.putBits a n g).imgH = s.imgH := rfl
@[simp] theorem putBits_gridW (s : State) (a n : Nat) (g : Nat → Bool) : (s.putBits a n g).gridW = s.gridW := rfl
@[simp] theorem putBits_gridH (s : State) (a n : Nat) (g : Nat → Bool) : (s.putBits a n g).gridH = s.gridH := rfl
@[simp] theorem putBits_version (s : State) (a n : Nat) (g : Nat → Bool) : (s.putBits a n g).version = s.version := rfl
@[simp] theorem putBits_fmt (s : State) (a n : Nat) (g : Nat → Bool) : (s.putBits a n g).fmt = s.fmt := rfl
@[simp] theorem putBits_pver (s : State) (a n : Nat) (g : Nat → Bool) : (s.putBits a n g).pver = s.pver := rfl
@[simp] theorem putBits_pstate (s : State) (a n : Nat) (g : Nat → Bool) : (s.putBits a n g).pstate = s.pstate := rfl
@[simp] theorem putBits_numCw (s : State) (a n : Nat) (g : Nat → Bool) : (s.putBits a n g).numCw = s.numCw := rfl
@[simp] theorem putBits_numData (s : State) (a n : Nat) (g : Nat → Bool) : (s.putBits a n g).numData = s.numData := rfl
@[simp] theorem putBits_errsCorr (s : State) (a n : Nat) (g : Nat → Bool) : (s.putBits a n g).errsCorr = s.errsCorr := rfl
@[simp] theorem putBits_rsN (s : State) (a n : Nat) (g : Nat → Bool) : (s.putBits a n g).rsN = s.rsN := rfl
@[simp] theorem putBits_rsTwos (s : State) (a n : Nat) (g : Nat → Bool) : (s.putBits a n g).rsTwos = s.rsTwos := rfl
@[simp] theorem putBits_rsNerr (s : State) (a n : Nat) (g : Nat → Bool) : (s.putBits a n g).rsNerr = s.rsNerr := rfl
@[simp] theorem putBits_plen (s : State) (a n : Nat) (g : Nat → Bool) : (s.putBits a n g).plen = s.plen := rfl
@[simp] theorem putBits_dim (s : State) (a n : Nat) (g : Nat → Bool) : (s.putBits a n g).dim = s.dim := rfl
@[simp] theorem putBits_fpcBl (s : State) (a n : Nat) (g : Nat → Bool) : (s.putBits a n g).fpcBl = s.fpcBl := rfl
@[simp] theorem putBits_fpcTl (s : State) (a n : Nat) (g : Nat → Bool) : (s.putBits a n g).fpcTl = s.fpcTl := rfl
@[simp] theorem putBits_fpcTr (s : State) (a n : Nat) (g : Nat → Bool) : (s.putBits a n g).fpcTr = s.fpcTr := rfl
@[simp] theorem putBits_apValid (s : State) (a n : Nat) (g : Nat → Bool) : (s.putBits a n g).apValid = s.apValid := rfl
@[simp] theorem putBits_findNcand (s : State) (a n : Nat) (g : Nat → Bool) : (s.putBits a n g).findNcand = s.findNcand := rfl
@[simp] theorem putBits_fndim (s : State) (a n : Nat) (g : Nat → Bool) : (s.putBits a n g).fndim = s.fndim := rfl
@[simp] theorem putBits_f (s : State) (a n : Nat) (g : Nat → Bool) : (s.putBits a n g).f = s.f := rfl
@[simp] theorem putBits_fcand (s : State) (a n : Nat) (g : Nat → Bool) : (s.putBits a n g).fcand = s.fcand := rfl
@[simp] theorem putBits_hasSkipped (s : State) (a n : Nat) (g : Nat → Bool) : (s.putBits a n g).hasSkipped = s.hasSkipped := rfl
@[simp] theorem putBits_acand (s : State) (a n : Nat) (g : Nat → Bool) : (s.putBits a n g).acand = s.acand := rfl

/-! ### `putMatrix` -/

@[simp] theorem putMatrix_params (s : State) (a w h : Nat) (g : Nat → Nat → Bool) : (s.putMatrix a w h g).params = s.params := rfl
@[simp] theorem putMatrix_host (s : State) (a w h : Nat) (g : Nat → Nat → Bool) : (s.putMatrix a w h g).host = s.host := rfl
@[simp] theorem putMatrix_resp (s : State) (a w h : Nat) (g : Nat → Nat → Bool) : (s.putMatrix a w h g).resp = s.resp := rfl
@[simp] theorem putMatrix_draws (s : State) (a w h : Nat) (g : Nat → Nat → Bool) : (s.putMatrix a w h g).draws = s.draws := rfl
@[simp] theorem putMatrix_epoch (s : State) (a w h : Nat) (g : Nat → Nat → Bool) : (s.putMatrix a w h g).epoch = s.epoch := rfl
@[simp] theorem putMatrix_running (s : State) (a w h : Nat) (g : Nat → Nat → Bool) : (s.putMatrix a w h g).running = s.running := rfl
@[simp] theorem putMatrix_ctrl (s : State) (a w h : Nat) (g : Nat → Nat → Bool) : (s.putMatrix a w h g).ctrl = s.ctrl := rfl
@[simp] theorem putMatrix_status (s : State) (a w h : Nat) (g : Nat → Nat → Bool) : (s.putMatrix a w h g).status = s.status := rfl
@[simp] theorem putMatrix_errcode (s : State) (a w h : Nat) (g : Nat → Nat → Bool) : (s.putMatrix a w h g).errcode = s.errcode := rfl
@[simp] theorem putMatrix_errdetail (s : State) (a w h : Nat) (g : Nat → Nat → Bool) : (s.putMatrix a w h g).errdetail = s.errdetail := rfl
@[simp] theorem putMatrix_arg (s : State) (a w h : Nat) (g : Nat → Nat → Bool) : (s.putMatrix a w h g).arg = s.arg := rfl
@[simp] theorem putMatrix_res0 (s : State) (a w h : Nat) (g : Nat → Nat → Bool) : (s.putMatrix a w h g).res0 = s.res0 := rfl
@[simp] theorem putMatrix_res1 (s : State) (a w h : Nat) (g : Nat → Nat → Bool) : (s.putMatrix a w h g).res1 = s.res1 := rfl
@[simp] theorem putMatrix_imgW (s : State) (a w h : Nat) (g : Nat → Nat → Bool) : (s.putMatrix a w h g).imgW = s.imgW := rfl
@[simp] theorem putMatrix_imgH (s : State) (a w h : Nat) (g : Nat → Nat → Bool) : (s.putMatrix a w h g).imgH = s.imgH := rfl
@[simp] theorem putMatrix_gridW (s : State) (a w h : Nat) (g : Nat → Nat → Bool) : (s.putMatrix a w h g).gridW = s.gridW := rfl
@[simp] theorem putMatrix_gridH (s : State) (a w h : Nat) (g : Nat → Nat → Bool) : (s.putMatrix a w h g).gridH = s.gridH := rfl
@[simp] theorem putMatrix_version (s : State) (a w h : Nat) (g : Nat → Nat → Bool) : (s.putMatrix a w h g).version = s.version := rfl
@[simp] theorem putMatrix_fmt (s : State) (a w h : Nat) (g : Nat → Nat → Bool) : (s.putMatrix a w h g).fmt = s.fmt := rfl
@[simp] theorem putMatrix_pver (s : State) (a w h : Nat) (g : Nat → Nat → Bool) : (s.putMatrix a w h g).pver = s.pver := rfl
@[simp] theorem putMatrix_pstate (s : State) (a w h : Nat) (g : Nat → Nat → Bool) : (s.putMatrix a w h g).pstate = s.pstate := rfl
@[simp] theorem putMatrix_numCw (s : State) (a w h : Nat) (g : Nat → Nat → Bool) : (s.putMatrix a w h g).numCw = s.numCw := rfl
@[simp] theorem putMatrix_numData (s : State) (a w h : Nat) (g : Nat → Nat → Bool) : (s.putMatrix a w h g).numData = s.numData := rfl
@[simp] theorem putMatrix_errsCorr (s : State) (a w h : Nat) (g : Nat → Nat → Bool) : (s.putMatrix a w h g).errsCorr = s.errsCorr := rfl
@[simp] theorem putMatrix_rsN (s : State) (a w h : Nat) (g : Nat → Nat → Bool) : (s.putMatrix a w h g).rsN = s.rsN := rfl
@[simp] theorem putMatrix_rsTwos (s : State) (a w h : Nat) (g : Nat → Nat → Bool) : (s.putMatrix a w h g).rsTwos = s.rsTwos := rfl
@[simp] theorem putMatrix_rsNerr (s : State) (a w h : Nat) (g : Nat → Nat → Bool) : (s.putMatrix a w h g).rsNerr = s.rsNerr := rfl
@[simp] theorem putMatrix_plen (s : State) (a w h : Nat) (g : Nat → Nat → Bool) : (s.putMatrix a w h g).plen = s.plen := rfl
@[simp] theorem putMatrix_dim (s : State) (a w h : Nat) (g : Nat → Nat → Bool) : (s.putMatrix a w h g).dim = s.dim := rfl
@[simp] theorem putMatrix_fpcBl (s : State) (a w h : Nat) (g : Nat → Nat → Bool) : (s.putMatrix a w h g).fpcBl = s.fpcBl := rfl
@[simp] theorem putMatrix_fpcTl (s : State) (a w h : Nat) (g : Nat → Nat → Bool) : (s.putMatrix a w h g).fpcTl = s.fpcTl := rfl
@[simp] theorem putMatrix_fpcTr (s : State) (a w h : Nat) (g : Nat → Nat → Bool) : (s.putMatrix a w h g).fpcTr = s.fpcTr := rfl
@[simp] theorem putMatrix_apValid (s : State) (a w h : Nat) (g : Nat → Nat → Bool) : (s.putMatrix a w h g).apValid = s.apValid := rfl
@[simp] theorem putMatrix_findNcand (s : State) (a w h : Nat) (g : Nat → Nat → Bool) : (s.putMatrix a w h g).findNcand = s.findNcand := rfl
@[simp] theorem putMatrix_fndim (s : State) (a w h : Nat) (g : Nat → Nat → Bool) : (s.putMatrix a w h g).fndim = s.fndim := rfl
@[simp] theorem putMatrix_f (s : State) (a w h : Nat) (g : Nat → Nat → Bool) : (s.putMatrix a w h g).f = s.f := rfl
@[simp] theorem putMatrix_fcand (s : State) (a w h : Nat) (g : Nat → Nat → Bool) : (s.putMatrix a w h g).fcand = s.fcand := rfl
@[simp] theorem putMatrix_hasSkipped (s : State) (a w h : Nat) (g : Nat → Nat → Bool) : (s.putMatrix a w h g).hasSkipped = s.hasSkipped := rfl
@[simp] theorem putMatrix_acand (s : State) (a w h : Nat) (g : Nat → Nat → Bool) : (s.putMatrix a w h g).acand = s.acand := rfl

/-! ### `setFbits` -/

@[simp] theorem setFbits_params (s : State) (k : Nat) (b : Bits64) : (s.setFbits k b).params = s.params := rfl
@[simp] theorem setFbits_host (s : State) (k : Nat) (b : Bits64) : (s.setFbits k b).host = s.host := rfl
@[simp] theorem setFbits_resp (s : State) (k : Nat) (b : Bits64) : (s.setFbits k b).resp = s.resp := rfl
@[simp] theorem setFbits_draws (s : State) (k : Nat) (b : Bits64) : (s.setFbits k b).draws = s.draws := rfl
@[simp] theorem setFbits_epoch (s : State) (k : Nat) (b : Bits64) : (s.setFbits k b).epoch = s.epoch := rfl
@[simp] theorem setFbits_running (s : State) (k : Nat) (b : Bits64) : (s.setFbits k b).running = s.running := rfl
@[simp] theorem setFbits_ctrl (s : State) (k : Nat) (b : Bits64) : (s.setFbits k b).ctrl = s.ctrl := rfl
@[simp] theorem setFbits_status (s : State) (k : Nat) (b : Bits64) : (s.setFbits k b).status = s.status := rfl
@[simp] theorem setFbits_errcode (s : State) (k : Nat) (b : Bits64) : (s.setFbits k b).errcode = s.errcode := rfl
@[simp] theorem setFbits_errdetail (s : State) (k : Nat) (b : Bits64) : (s.setFbits k b).errdetail = s.errdetail := rfl
@[simp] theorem setFbits_arg (s : State) (k : Nat) (b : Bits64) : (s.setFbits k b).arg = s.arg := rfl
@[simp] theorem setFbits_res0 (s : State) (k : Nat) (b : Bits64) : (s.setFbits k b).res0 = s.res0 := rfl
@[simp] theorem setFbits_res1 (s : State) (k : Nat) (b : Bits64) : (s.setFbits k b).res1 = s.res1 := rfl
@[simp] theorem setFbits_imgW (s : State) (k : Nat) (b : Bits64) : (s.setFbits k b).imgW = s.imgW := rfl
@[simp] theorem setFbits_imgH (s : State) (k : Nat) (b : Bits64) : (s.setFbits k b).imgH = s.imgH := rfl
@[simp] theorem setFbits_gridW (s : State) (k : Nat) (b : Bits64) : (s.setFbits k b).gridW = s.gridW := rfl
@[simp] theorem setFbits_gridH (s : State) (k : Nat) (b : Bits64) : (s.setFbits k b).gridH = s.gridH := rfl
@[simp] theorem setFbits_version (s : State) (k : Nat) (b : Bits64) : (s.setFbits k b).version = s.version := rfl
@[simp] theorem setFbits_fmt (s : State) (k : Nat) (b : Bits64) : (s.setFbits k b).fmt = s.fmt := rfl
@[simp] theorem setFbits_pver (s : State) (k : Nat) (b : Bits64) : (s.setFbits k b).pver = s.pver := rfl
@[simp] theorem setFbits_pstate (s : State) (k : Nat) (b : Bits64) : (s.setFbits k b).pstate = s.pstate := rfl
@[simp] theorem setFbits_numCw (s : State) (k : Nat) (b : Bits64) : (s.setFbits k b).numCw = s.numCw := rfl
@[simp] theorem setFbits_numData (s : State) (k : Nat) (b : Bits64) : (s.setFbits k b).numData = s.numData := rfl
@[simp] theorem setFbits_errsCorr (s : State) (k : Nat) (b : Bits64) : (s.setFbits k b).errsCorr = s.errsCorr := rfl
@[simp] theorem setFbits_rsN (s : State) (k : Nat) (b : Bits64) : (s.setFbits k b).rsN = s.rsN := rfl
@[simp] theorem setFbits_rsTwos (s : State) (k : Nat) (b : Bits64) : (s.setFbits k b).rsTwos = s.rsTwos := rfl
@[simp] theorem setFbits_rsNerr (s : State) (k : Nat) (b : Bits64) : (s.setFbits k b).rsNerr = s.rsNerr := rfl
@[simp] theorem setFbits_plen (s : State) (k : Nat) (b : Bits64) : (s.setFbits k b).plen = s.plen := rfl
@[simp] theorem setFbits_dim (s : State) (k : Nat) (b : Bits64) : (s.setFbits k b).dim = s.dim := rfl
@[simp] theorem setFbits_fpcBl (s : State) (k : Nat) (b : Bits64) : (s.setFbits k b).fpcBl = s.fpcBl := rfl
@[simp] theorem setFbits_fpcTl (s : State) (k : Nat) (b : Bits64) : (s.setFbits k b).fpcTl = s.fpcTl := rfl
@[simp] theorem setFbits_fpcTr (s : State) (k : Nat) (b : Bits64) : (s.setFbits k b).fpcTr = s.fpcTr := rfl
@[simp] theorem setFbits_apValid (s : State) (k : Nat) (b : Bits64) : (s.setFbits k b).apValid = s.apValid := rfl
@[simp] theorem setFbits_findNcand (s : State) (k : Nat) (b : Bits64) : (s.setFbits k b).findNcand = s.findNcand := rfl
@[simp] theorem setFbits_fndim (s : State) (k : Nat) (b : Bits64) : (s.setFbits k b).fndim = s.fndim := rfl
@[simp] theorem setFbits_f (s : State) (k : Nat) (b : Bits64) : (s.setFbits k b).f = s.f.setIfInBounds k b := rfl
@[simp] theorem setFbits_fcand (s : State) (k : Nat) (b : Bits64) : (s.setFbits k b).fcand = s.fcand := rfl
@[simp] theorem setFbits_hasSkipped (s : State) (k : Nat) (b : Bits64) : (s.setFbits k b).hasSkipped = s.hasSkipped := rfl
@[simp] theorem setFbits_acand (s : State) (k : Nat) (b : Bits64) : (s.setFbits k b).acand = s.acand := rfl
@[simp] theorem setFbits_mem (s : State) (k : Nat) (b : Bits64) : (s.setFbits k b).mem = s.mem := rfl

/-! ### `putPoly` -/

@[simp] theorem putPoly_params (s : State) (k : Nat) (p : List Byte) : (s.putPoly k p).params = s.params := rfl
@[simp] theorem putPoly_host (s : State) (k : Nat) (p : List Byte) : (s.putPoly k p).host = s.host := rfl
@[simp] theorem putPoly_resp (s : State) (k : Nat) (p : List Byte) : (s.putPoly k p).resp = s.resp := rfl
@[simp] theorem putPoly_draws (s : State) (k : Nat) (p : List Byte) : (s.putPoly k p).draws = s.draws := rfl
@[simp] theorem putPoly_epoch (s : State) (k : Nat) (p : List Byte) : (s.putPoly k p).epoch = s.epoch := rfl
@[simp] theorem putPoly_running (s : State) (k : Nat) (p : List Byte) : (s.putPoly k p).running = s.running := rfl
@[simp] theorem putPoly_ctrl (s : State) (k : Nat) (p : List Byte) : (s.putPoly k p).ctrl = s.ctrl := rfl
@[simp] theorem putPoly_status (s : State) (k : Nat) (p : List Byte) : (s.putPoly k p).status = s.status := rfl
@[simp] theorem putPoly_errcode (s : State) (k : Nat) (p : List Byte) : (s.putPoly k p).errcode = s.errcode := rfl
@[simp] theorem putPoly_errdetail (s : State) (k : Nat) (p : List Byte) : (s.putPoly k p).errdetail = s.errdetail := rfl
@[simp] theorem putPoly_arg (s : State) (k : Nat) (p : List Byte) : (s.putPoly k p).arg = s.arg := rfl
@[simp] theorem putPoly_res0 (s : State) (k : Nat) (p : List Byte) : (s.putPoly k p).res0 = s.res0 := rfl
@[simp] theorem putPoly_res1 (s : State) (k : Nat) (p : List Byte) : (s.putPoly k p).res1 = s.res1 := rfl
@[simp] theorem putPoly_imgW (s : State) (k : Nat) (p : List Byte) : (s.putPoly k p).imgW = s.imgW := rfl
@[simp] theorem putPoly_imgH (s : State) (k : Nat) (p : List Byte) : (s.putPoly k p).imgH = s.imgH := rfl
@[simp] theorem putPoly_gridW (s : State) (k : Nat) (p : List Byte) : (s.putPoly k p).gridW = s.gridW := rfl
@[simp] theorem putPoly_gridH (s : State) (k : Nat) (p : List Byte) : (s.putPoly k p).gridH = s.gridH := rfl
@[simp] theorem putPoly_version (s : State) (k : Nat) (p : List Byte) : (s.putPoly k p).version = s.version := rfl
@[simp] theorem putPoly_fmt (s : State) (k : Nat) (p : List Byte) : (s.putPoly k p).fmt = s.fmt := rfl
@[simp] theorem putPoly_pver (s : State) (k : Nat) (p : List Byte) : (s.putPoly k p).pver = s.pver := rfl
@[simp] theorem putPoly_pstate (s : State) (k : Nat) (p : List Byte) : (s.putPoly k p).pstate = s.pstate := rfl
@[simp] theorem putPoly_numCw (s : State) (k : Nat) (p : List Byte) : (s.putPoly k p).numCw = s.numCw := rfl
@[simp] theorem putPoly_numData (s : State) (k : Nat) (p : List Byte) : (s.putPoly k p).numData = s.numData := rfl
@[simp] theorem putPoly_errsCorr (s : State) (k : Nat) (p : List Byte) : (s.putPoly k p).errsCorr = s.errsCorr := rfl
@[simp] theorem putPoly_rsN (s : State) (k : Nat) (p : List Byte) : (s.putPoly k p).rsN = s.rsN := rfl
@[simp] theorem putPoly_rsTwos (s : State) (k : Nat) (p : List Byte) : (s.putPoly k p).rsTwos = s.rsTwos := rfl
@[simp] theorem putPoly_rsNerr (s : State) (k : Nat) (p : List Byte) : (s.putPoly k p).rsNerr = s.rsNerr := rfl
@[simp] theorem putPoly_plen (s : State) (k : Nat) (p : List Byte) : (s.putPoly k p).plen = s.plen.setIfInBounds k (Word.ofNat p.length) := rfl
@[simp] theorem putPoly_dim (s : State) (k : Nat) (p : List Byte) : (s.putPoly k p).dim = s.dim := rfl
@[simp] theorem putPoly_fpcBl (s : State) (k : Nat) (p : List Byte) : (s.putPoly k p).fpcBl = s.fpcBl := rfl
@[simp] theorem putPoly_fpcTl (s : State) (k : Nat) (p : List Byte) : (s.putPoly k p).fpcTl = s.fpcTl := rfl
@[simp] theorem putPoly_fpcTr (s : State) (k : Nat) (p : List Byte) : (s.putPoly k p).fpcTr = s.fpcTr := rfl
@[simp] theorem putPoly_apValid (s : State) (k : Nat) (p : List Byte) : (s.putPoly k p).apValid = s.apValid := rfl
@[simp] theorem putPoly_findNcand (s : State) (k : Nat) (p : List Byte) : (s.putPoly k p).findNcand = s.findNcand := rfl
@[simp] theorem putPoly_fndim (s : State) (k : Nat) (p : List Byte) : (s.putPoly k p).fndim = s.fndim := rfl
@[simp] theorem putPoly_f (s : State) (k : Nat) (p : List Byte) : (s.putPoly k p).f = s.f := rfl
@[simp] theorem putPoly_fcand (s : State) (k : Nat) (p : List Byte) : (s.putPoly k p).fcand = s.fcand := rfl
@[simp] theorem putPoly_hasSkipped (s : State) (k : Nat) (p : List Byte) : (s.putPoly k p).hasSkipped = s.hasSkipped := rfl
@[simp] theorem putPoly_acand (s : State) (k : Nat) (p : List Byte) : (s.putPoly k p).acand = s.acand := rfl
@[simp] theorem putPoly_mem (s : State) (k : Nat) (p : List Byte) : (s.putPoly k p).mem = memPut s.mem (polyBase k) p := rfl

/-! ### `setRes0` -/

@[simp] theorem setRes0_params (s : State) (v : Nat) : (s.setRes0 v).params = s.params := rfl
@[simp] theorem setRes0_host (s : State) (v : Nat) : (s.setRes0 v).host = s.host := rfl
@[simp] theorem setRes0_resp (s : State) (v : Nat) : (s.setRes0 v).resp = s.resp := rfl
@[simp] theorem setRes0_draws (s : State) (v : Nat) : (s.setRes0 v).draws = s.draws := rfl
@[simp] theorem setRes0_epoch (s : State) (v : Nat) : (s.setRes0 v).epoch = s.epoch := rfl
@[simp] theorem setRes0_running (s : State) (v : Nat) : (s.setRes0 v).running = s.running := rfl
@[simp] theorem setRes0_ctrl (s : State) (v : Nat) : (s.setRes0 v).ctrl = s.ctrl := rfl
@[simp] theorem setRes0_status (s : State) (v : Nat) : (s.setRes0 v).status = s.status := rfl
@[simp] theorem setRes0_errcode (s : State) (v : Nat) : (s.setRes0 v).errcode = s.errcode := rfl
@[simp] theorem setRes0_errdetail (s : State) (v : Nat) : (s.setRes0 v).errdetail = s.errdetail := rfl
@[simp] theorem setRes0_arg (s : State) (v : Nat) : (s.setRes0 v).arg = s.arg := rfl
@[simp] theorem setRes0_res0 (s : State) (v : Nat) : (s.setRes0 v).res0 = Word.ofNat v := rfl
@[simp] theorem setRes0_res1 (s : State) (v : Nat) : (s.setRes0 v).res1 = s.res1 := rfl
@[simp] theorem setRes0_imgW (s : State) (v : Nat) : (s.setRes0 v).imgW = s.imgW := rfl
@[simp] theorem setRes0_imgH (s : State) (v : Nat) : (s.setRes0 v).imgH = s.imgH := rfl
@[simp] theorem setRes0_gridW (s : State) (v : Nat) : (s.setRes0 v).gridW = s.gridW := rfl
@[simp] theorem setRes0_gridH (s : State) (v : Nat) : (s.setRes0 v).gridH = s.gridH := rfl
@[simp] theorem setRes0_version (s : State) (v : Nat) : (s.setRes0 v).version = s.version := rfl
@[simp] theorem setRes0_fmt (s : State) (v : Nat) : (s.setRes0 v).fmt = s.fmt := rfl
@[simp] theorem setRes0_pver (s : State) (v : Nat) : (s.setRes0 v).pver = s.pver := rfl
@[simp] theorem setRes0_pstate (s : State) (v : Nat) : (s.setRes0 v).pstate = s.pstate := rfl
@[simp] theorem setRes0_numCw (s : State) (v : Nat) : (s.setRes0 v).numCw = s.numCw := rfl
@[simp] theorem setRes0_numData (s : State) (v : Nat) : (s.setRes0 v).numData = s.numData := rfl
@[simp] theorem setRes0_errsCorr (s : State) (v : Nat) : (s.setRes0 v).errsCorr = s.errsCorr := rfl
@[simp] theorem setRes0_rsN (s : State) (v : Nat) : (s.setRes0 v).rsN = s.rsN := rfl
@[simp] theorem setRes0_rsTwos (s : State) (v : Nat) : (s.setRes0 v).rsTwos = s.rsTwos := rfl
@[simp] theorem setRes0_rsNerr (s : State) (v : Nat) : (s.setRes0 v).rsNerr = s.rsNerr := rfl
@[simp] theorem setRes0_plen (s : State) (v : Nat) : (s.setRes0 v).plen = s.plen := rfl
@[simp] theorem setRes0_dim (s : State) (v : Nat) : (s.setRes0 v).dim = s.dim := rfl
@[simp] theorem setRes0_fpcBl (s : State) (v : Nat) : (s.setRes0 v).fpcBl = s.fpcBl := rfl
@[simp] theorem setRes0_fpcTl (s : State) (v : Nat) : (s.setRes0 v).fpcTl = s.fpcTl := rfl
@[simp] theorem setRes0_fpcTr (s : State) (v : Nat) : (s.setRes0 v).fpcTr = s.fpcTr := rfl
@[simp] theorem setRes0_apValid (s : State) (v : Nat) : (s.setRes0 v).apValid = s.apValid := rfl
@[simp] theorem setRes0_findNcand (s : State) (v : Nat) : (s.setRes0 v).findNcand = s.findNcand := rfl
@[simp] theorem setRes0_fndim (s : State) (v : Nat) : (s.setRes0 v).fndim = s.fndim := rfl
@[simp] theorem setRes0_f (s : State) (v : Nat) : (s.setRes0 v).f = s.f := rfl
@[simp] theorem setRes0_fcand (s : State) (v : Nat) : (s.setRes0 v).fcand = s.fcand := rfl
@[simp] theorem setRes0_hasSkipped (s : State) (v : Nat) : (s.setRes0 v).hasSkipped = s.hasSkipped := rfl
@[simp] theorem setRes0_acand (s : State) (v : Nat) : (s.setRes0 v).acand = s.acand := rfl
@[simp] theorem setRes0_mem (s : State) (v : Nat) : (s.setRes0 v).mem = s.mem := rfl

/-! ### `unmaskGrid` -/

@[simp] theorem unmaskGrid_params (s : State) (d m : Nat) : (s.unmaskGrid d m).params = s.params := rfl
@[simp] theorem unmaskGrid_host (s : State) (d m : Nat) : (s.unmaskGrid d m).host = s.host := rfl
@[simp] theorem unmaskGrid_resp (s : State) (d m : Nat) : (s.unmaskGrid d m).resp = s.resp := rfl
@[simp] theorem unmaskGrid_draws (s : State) (d m : Nat) : (s.unmaskGrid d m).draws = s.draws := rfl
@[simp] theorem unmaskGrid_epoch (s : State) (d m : Nat) : (s.unmaskGrid d m).epoch = s.epoch := rfl
@[simp] theorem unmaskGrid_running (s : State) (d m : Nat) : (s.unmaskGrid d m).running = s.running := rfl
@[simp] theorem unmaskGrid_ctrl (s : State) (d m : Nat) : (s.unmaskGrid d m).ctrl = s.ctrl := rfl
@[simp] theorem unmaskGrid_status (s : State) (d m : Nat) : (s.unmaskGrid d m).status = s.status := rfl
@[simp] theorem unmaskGrid_errcode (s : State) (d m : Nat) : (s.unmaskGrid d m).errcode = s.errcode := rfl
@[simp] theorem unmaskGrid_errdetail (s : State) (d m : Nat) : (s.unmaskGrid d m).errdetail = s.errdetail := rfl
@[simp] theorem unmaskGrid_arg (s : State) (d m : Nat) : (s.unmaskGrid d m).arg = s.arg := rfl
@[simp] theorem unmaskGrid_res0 (s : State) (d m : Nat) : (s.unmaskGrid d m).res0 = s.res0 := rfl
@[simp] theorem unmaskGrid_res1 (s : State) (d m : Nat) : (s.unmaskGrid d m).res1 = s.res1 := rfl
@[simp] theorem unmaskGrid_imgW (s : State) (d m : Nat) : (s.unmaskGrid d m).imgW = s.imgW := rfl
@[simp] theorem unmaskGrid_imgH (s : State) (d m : Nat) : (s.unmaskGrid d m).imgH = s.imgH := rfl
@[simp] theorem unmaskGrid_gridW (s : State) (d m : Nat) : (s.unmaskGrid d m).gridW = s.gridW := rfl
@[simp] theorem unmaskGrid_gridH (s : State) (d m : Nat) : (s.unmaskGrid d m).gridH = s.gridH := rfl
@[simp] theorem unmaskGrid_version (s : State) (d m : Nat) : (s.unmaskGrid d m).version = s.version := rfl
@[simp] theorem unmaskGrid_fmt (s : State) (d m : Nat) : (s.unmaskGrid d m).fmt = s.fmt := rfl
@[simp] theorem unmaskGrid_pver (s : State) (d m : Nat) : (s.unmaskGrid d m).pver = s.pver := rfl
@[simp] theorem unmaskGrid_pstate (s : State) (d m : Nat) : (s.unmaskGrid d m).pstate = s.pstate := rfl
@[simp] theorem unmaskGrid_numCw (s : State) (d m : Nat) : (s.unmaskGrid d m).numCw = s.numCw := rfl
@[simp] theorem unmaskGrid_numData (s : State) (d m : Nat) : (s.unmaskGrid d m).numData = s.numData := rfl
@[simp] theorem unmaskGrid_errsCorr (s : State) (d m : Nat) : (s.unmaskGrid d m).errsCorr = s.errsCorr := rfl
@[simp] theorem unmaskGrid_rsN (s : State) (d m : Nat) : (s.unmaskGrid d m).rsN = s.rsN := rfl
@[simp] theorem unmaskGrid_rsTwos (s : State) (d m : Nat) : (s.unmaskGrid d m).rsTwos = s.rsTwos := rfl
@[simp] theorem unmaskGrid_rsNerr (s : State) (d m : Nat) : (s.unmaskGrid d m).rsNerr = s.rsNerr := rfl
@[simp] theorem unmaskGrid_plen (s : State) (d m : Nat) : (s.unmaskGrid d m).plen = s.plen := rfl
@[simp] theorem unmaskGrid_dim (s : State) (d m : Nat) : (s.unmaskGrid d m).dim = s.dim := rfl
@[simp] theorem unmaskGrid_fpcBl (s : State) (d m : Nat) : (s.unmaskGrid d m).fpcBl = s.fpcBl := rfl
@[simp] theorem unmaskGrid_fpcTl (s : State) (d m : Nat) : (s.unmaskGrid d m).fpcTl = s.fpcTl := rfl
@[simp] theorem unmaskGrid_fpcTr (s : State) (d m : Nat) : (s.unmaskGrid d m).fpcTr = s.fpcTr := rfl
@[simp] theorem unmaskGrid_apValid (s : State) (d m : Nat) : (s.unmaskGrid d m).apValid = s.apValid := rfl
@[simp] theorem unmaskGrid_findNcand (s : State) (d m : Nat) : (s.unmaskGrid d m).findNcand = s.findNcand := rfl
@[simp] theorem unmaskGrid_fndim (s : State) (d m : Nat) : (s.unmaskGrid d m).fndim = s.fndim := rfl
@[simp] theorem unmaskGrid_f (s : State) (d m : Nat) : (s.unmaskGrid d m).f = s.f := rfl
@[simp] theorem unmaskGrid_fcand (s : State) (d m : Nat) : (s.unmaskGrid d m).fcand = s.fcand := rfl
@[simp] theorem unmaskGrid_hasSkipped (s : State) (d m : Nat) : (s.unmaskGrid d m).hasSkipped = s.hasSkipped := rfl
@[simp] theorem unmaskGrid_acand (s : State) (d m : Nat) : (s.unmaskGrid d m).acand = s.acand := rfl

/-! ### `putFnpat` -/

@[simp] theorem putFnpat_params (s : State) (v d : Nat) : (s.putFnpat v d).params = s.params := rfl
@[simp] theorem putFnpat_host (s : State) (v d : Nat) : (s.putFnpat v d).host = s.host := rfl
@[simp] theorem putFnpat_resp (s : State) (v d : Nat) : (s.putFnpat v d).resp = s.resp := rfl
@[simp] theorem putFnpat_draws (s : State) (v d : Nat) : (s.putFnpat v d).draws = s.draws := rfl
@[simp] theorem putFnpat_epoch (s : State) (v d : Nat) : (s.putFnpat v d).epoch = s.epoch := rfl
@[simp] theorem putFnpat_running (s : State) (v d : Nat) : (s.putFnpat v d).running = s.running := rfl
@[simp] theorem putFnpat_ctrl (s : State) (v d : Nat) : (s.putFnpat v d).ctrl = s.ctrl := rfl
@[simp] theorem putFnpat_status (s : State) (v d : Nat) : (s.putFnpat v d).status = s.status := rfl
@[simp] theorem putFnpat_errcode (s : State) (v d : Nat) : (s.putFnpat v d).errcode = s.errcode := rfl
@[simp] theorem putFnpat_errdetail (s : State) (v d : Nat) : (s.putFnpat v d).errdetail = s.errdetail := rfl
@[simp] theorem putFnpat_arg (s : State) (v d : Nat) : (s.putFnpat v d).arg = s.arg := rfl
@[simp] theorem putFnpat_res0 (s : State) (v d : Nat) : (s.putFnpat v d).res0 = s.res0 := rfl
@[simp] theorem putFnpat_res1 (s : State) (v d : Nat) : (s.putFnpat v d).res1 = s.res1 := rfl
@[simp] theorem putFnpat_imgW (s : State) (v d : Nat) : (s.putFnpat v d).imgW = s.imgW := rfl
@[simp] theorem putFnpat_imgH (s : State) (v d : Nat) : (s.putFnpat v d).imgH = s.imgH := rfl
@[simp] theorem putFnpat_gridW (s : State) (v d : Nat) : (s.putFnpat v d).gridW = s.gridW := rfl
@[simp] theorem putFnpat_gridH (s : State) (v d : Nat) : (s.putFnpat v d).gridH = s.gridH := rfl
@[simp] theorem putFnpat_version (s : State) (v d : Nat) : (s.putFnpat v d).version = s.version := rfl
@[simp] theorem putFnpat_fmt (s : State) (v d : Nat) : (s.putFnpat v d).fmt = s.fmt := rfl
@[simp] theorem putFnpat_pver (s : State) (v d : Nat) : (s.putFnpat v d).pver = s.pver := rfl
@[simp] theorem putFnpat_pstate (s : State) (v d : Nat) : (s.putFnpat v d).pstate = s.pstate := rfl
@[simp] theorem putFnpat_numCw (s : State) (v d : Nat) : (s.putFnpat v d).numCw = s.numCw := rfl
@[simp] theorem putFnpat_numData (s : State) (v d : Nat) : (s.putFnpat v d).numData = s.numData := rfl
@[simp] theorem putFnpat_errsCorr (s : State) (v d : Nat) : (s.putFnpat v d).errsCorr = s.errsCorr := rfl
@[simp] theorem putFnpat_rsN (s : State) (v d : Nat) : (s.putFnpat v d).rsN = s.rsN := rfl
@[simp] theorem putFnpat_rsTwos (s : State) (v d : Nat) : (s.putFnpat v d).rsTwos = s.rsTwos := rfl
@[simp] theorem putFnpat_rsNerr (s : State) (v d : Nat) : (s.putFnpat v d).rsNerr = s.rsNerr := rfl
@[simp] theorem putFnpat_plen (s : State) (v d : Nat) : (s.putFnpat v d).plen = s.plen := rfl
@[simp] theorem putFnpat_dim (s : State) (v d : Nat) : (s.putFnpat v d).dim = s.dim := rfl
@[simp] theorem putFnpat_fpcBl (s : State) (v d : Nat) : (s.putFnpat v d).fpcBl = s.fpcBl := rfl
@[simp] theorem putFnpat_fpcTl (s : State) (v d : Nat) : (s.putFnpat v d).fpcTl = s.fpcTl := rfl
@[simp] theorem putFnpat_fpcTr (s : State) (v d : Nat) : (s.putFnpat v d).fpcTr = s.fpcTr := rfl
@[simp] theorem putFnpat_apValid (s : State) (v d : Nat) : (s.putFnpat v d).apValid = s.apValid := rfl
@[simp] theorem putFnpat_findNcand (s : State) (v d : Nat) : (s.putFnpat v d).findNcand = s.findNcand := rfl
@[simp] theorem putFnpat_fndim (s : State) (v d : Nat) : (s.putFnpat v d).fndim = Word.ofNat d := rfl
@[simp] theorem putFnpat_f (s : State) (v d : Nat) : (s.putFnpat v d).f = s.f := rfl
@[simp] theorem putFnpat_fcand (s : State) (v d : Nat) : (s.putFnpat v d).fcand = s.fcand := rfl
@[simp] theorem putFnpat_hasSkipped (s : State) (v d : Nat) : (s.putFnpat v d).hasSkipped = s.hasSkipped := rfl
@[simp] theorem putFnpat_acand (s : State) (v d : Nat) : (s.putFnpat v d).acand = s.acand := rfl

/-! ### `putData` -/

@[simp] theorem putData_params (s : State) (data : List Byte) (n : Nat) : (s.putData data n).params = s.params := rfl
@[simp] theorem putData_host (s : State) (data : List Byte) (n : Nat) : (s.putData data n).host = s.host := rfl
@[simp] theorem putData_resp (s : State) (data : List Byte) (n : Nat) : (s.putData data n).resp = s.resp := rfl
@[simp] theorem putData_draws (s : State) (data : List Byte) (n : Nat) : (s.putData data n).draws = s.draws := rfl
@[simp] theorem putData_epoch (s : State) (data : List Byte) (n : Nat) : (s.putData data n).epoch = s.epoch := rfl
@[simp] theorem putData_running (s : State) (data : List Byte) (n : Nat) : (s.putData data n).running = s.running := rfl
@[simp] theorem putData_ctrl (s : State) (data : List Byte) (n : Nat) : (s.putData data n).ctrl = s.ctrl := rfl
@[simp] theorem putData_status (s : State) (data : List Byte) (n : Nat) : (s.putData data n).status = s.status := rfl
@[simp] theorem putData_errcode (s : State) (data : List Byte) (n : Nat) : (s.putData data n).errcode = s.errcode := rfl
@[simp] theorem putData_errdetail (s : State) (data : List Byte) (n : Nat) : (s.putData data n).errdetail = s.errdetail := rfl
@[simp] theorem putData_arg (s : State) (data : List Byte) (n : Nat) : (s.putData data n).arg = s.arg := rfl
@[simp] theorem putData_res0 (s : State) (data : List Byte) (n : Nat) : (s.putData data n).res0 = s.res0 := rfl
@[simp] theorem putData_res1 (s : State) (data : List Byte) (n : Nat) : (s.putData data n).res1 = s.res1 := rfl
@[simp] theorem putData_imgW (s : State) (data : List Byte) (n : Nat) : (s.putData data n).imgW = s.imgW := rfl
@[simp] theorem putData_imgH (s : State) (data : List Byte) (n : Nat) : (s.putData data n).imgH = s.imgH := rfl
@[simp] theorem putData_gridW (s : State) (data : List Byte) (n : Nat) : (s.putData data n).gridW = s.gridW := rfl
@[simp] theorem putData_gridH (s : State) (data : List Byte) (n : Nat) : (s.putData data n).gridH = s.gridH := rfl
@[simp] theorem putData_version (s : State) (data : List Byte) (n : Nat) : (s.putData data n).version = s.version := rfl
@[simp] theorem putData_fmt (s : State) (data : List Byte) (n : Nat) : (s.putData data n).fmt = s.fmt := rfl
@[simp] theorem putData_pver (s : State) (data : List Byte) (n : Nat) : (s.putData data n).pver = s.pver := rfl
@[simp] theorem putData_pstate (s : State) (data : List Byte) (n : Nat) : (s.putData data n).pstate = s.pstate := rfl
@[simp] theorem putData_numCw (s : State) (data : List Byte) (n : Nat) : (s.putData data n).numCw = s.numCw := rfl
@[simp] theorem putData_numData (s : State) (data : List Byte) (n : Nat) : (s.putData data n).numData = Word.ofNat data.length := rfl
@[simp] theorem putData_errsCorr (s : State) (data : List Byte) (n : Nat) : (s.putData data n).errsCorr = Word.ofNat n := rfl
@[simp] theorem putData_rsN (s : State) (data : List Byte) (n : Nat) : (s.putData data n).rsN = s.rsN := rfl
@[simp] theorem putData_rsTwos (s : State) (data : List Byte) (n : Nat) : (s.putData data n).rsTwos = s.rsTwos := rfl
@[simp] theorem putData_rsNerr (s : State) (data : List Byte) (n : Nat) : (s.putData data n).rsNerr = s.rsNerr := rfl
@[simp] theorem putData_plen (s : State) (data : List Byte) (n : Nat) : (s.putData data n).plen = s.plen := rfl
@[simp] theorem putData_dim (s : State) (data : List Byte) (n : Nat) : (s.putData data n).dim = s.dim := rfl
@[simp] theorem putData_fpcBl (s : State) (data : List Byte) (n : Nat) : (s.putData data n).fpcBl = s.fpcBl := rfl
@[simp] theorem putData_fpcTl (s : State) (data : List Byte) (n : Nat) : (s.putData data n).fpcTl = s.fpcTl := rfl
@[simp] theorem putData_fpcTr (s : State) (data : List Byte) (n : Nat) : (s.putData data n).fpcTr = s.fpcTr := rfl
@[simp] theorem putData_apValid (s : State) (data : List Byte) (n : Nat) : (s.putData data n).apValid = s.apValid := rfl
@[simp] theorem putData_findNcand (s : State) (data : List Byte) (n : Nat) : (s.putData data n).findNcand = s.findNcand := rfl
@[simp] theorem putData_fndim (s : State) (data : List Byte) (n : Nat) : (s.putData data n).fndim = s.fndim := rfl
@[simp] theorem putData_f (s : State) (data : List Byte) (n : Nat) : (s.putData data n).f = s.f := rfl
@[simp] theorem putData_fcand (s : State) (data : List Byte) (n : Nat) : (s.putData data n).fcand = s.fcand := rfl
@[simp] theorem putData_hasSkipped (s : State) (data : List Byte) (n : Nat) : (s.putData data n).hasSkipped = s.hasSkipped := rfl
@[simp] theorem putData_acand (s : State) (data : List Byte) (n : Nat) : (s.putData data n).acand = s.acand := rfl
@[simp] theorem putData_mem (s : State) (data : List Byte) (n : Nat) : (s.putData data n).mem = memPut s.mem Window.data.base data := rfl

/-! ### `putCw` -/

@[simp] theorem putCw_params (s : State) (out : List Byte) : (s.putCw out).params = s.params := rfl
@[simp] theorem putCw_host (s : State) (out : List Byte) : (s.putCw out).host = s.host := rfl
@[simp] theorem putCw_resp (s : State) (out : List Byte) : (s.putCw out).resp = s.resp := rfl
@[simp] theorem putCw_draws (s : State) (out : List Byte) : (s.putCw out).draws = s.draws := rfl
@[simp] theorem putCw_epoch (s : State) (out : List Byte) : (s.putCw out).epoch = s.epoch := rfl
@[simp] theorem putCw_running (s : State) (out : List Byte) : (s.putCw out).running = s.running := rfl
@[simp] theorem putCw_ctrl (s : State) (out : List Byte) : (s.putCw out).ctrl = s.ctrl := rfl
@[simp] theorem putCw_status (s : State) (out : List Byte) : (s.putCw out).status = s.status := rfl
@[simp] theorem putCw_errcode (s : State) (out : List Byte) : (s.putCw out).errcode = s.errcode := rfl
@[simp] theorem putCw_errdetail (s : State) (out : List Byte) : (s.putCw out).errdetail = s.errdetail := rfl
@[simp] theorem putCw_arg (s : State) (out : List Byte) : (s.putCw out).arg = s.arg := rfl
@[simp] theorem putCw_res0 (s : State) (out : List Byte) : (s.putCw out).res0 = s.res0 := rfl
@[simp] theorem putCw_res1 (s : State) (out : List Byte) : (s.putCw out).res1 = s.res1 := rfl
@[simp] theorem putCw_imgW (s : State) (out : List Byte) : (s.putCw out).imgW = s.imgW := rfl
@[simp] theorem putCw_imgH (s : State) (out : List Byte) : (s.putCw out).imgH = s.imgH := rfl
@[simp] theorem putCw_gridW (s : State) (out : List Byte) : (s.putCw out).gridW = s.gridW := rfl
@[simp] theorem putCw_gridH (s : State) (out : List Byte) : (s.putCw out).gridH = s.gridH := rfl
@[simp] theorem putCw_version (s : State) (out : List Byte) : (s.putCw out).version = s.version := rfl
@[simp] theorem putCw_fmt (s : State) (out : List Byte) : (s.putCw out).fmt = s.fmt := rfl
@[simp] theorem putCw_pver (s : State) (out : List Byte) : (s.putCw out).pver = s.pver := rfl
@[simp] theorem putCw_pstate (s : State) (out : List Byte) : (s.putCw out).pstate = s.pstate := rfl
@[simp] theorem putCw_numCw (s : State) (out : List Byte) : (s.putCw out).numCw = Word.ofNat out.length := rfl
@[simp] theorem putCw_numData (s : State) (out : List Byte) : (s.putCw out).numData = s.numData := rfl
@[simp] theorem putCw_errsCorr (s : State) (out : List Byte) : (s.putCw out).errsCorr = s.errsCorr := rfl
@[simp] theorem putCw_rsN (s : State) (out : List Byte) : (s.putCw out).rsN = s.rsN := rfl
@[simp] theorem putCw_rsTwos (s : State) (out : List Byte) : (s.putCw out).rsTwos = s.rsTwos := rfl
@[simp] theorem putCw_rsNerr (s : State) (out : List Byte) : (s.putCw out).rsNerr = s.rsNerr := rfl
@[simp] theorem putCw_plen (s : State) (out : List Byte) : (s.putCw out).plen = s.plen := rfl
@[simp] theorem putCw_dim (s : State) (out : List Byte) : (s.putCw out).dim = s.dim := rfl
@[simp] theorem putCw_fpcBl (s : State) (out : List Byte) : (s.putCw out).fpcBl = s.fpcBl := rfl
@[simp] theorem putCw_fpcTl (s : State) (out : List Byte) : (s.putCw out).fpcTl = s.fpcTl := rfl
@[simp] theorem putCw_fpcTr (s : State) (out : List Byte) : (s.putCw out).fpcTr = s.fpcTr := rfl
@[simp] theorem putCw_apValid (s : State) (out : List Byte) : (s.putCw out).apValid = s.apValid := rfl
@[simp] theorem putCw_findNcand (s : State) (out : List Byte) : (s.putCw out).findNcand = s.findNcand := rfl
@[simp] theorem putCw_fndim (s : State) (out : List Byte) : (s.putCw out).fndim = s.fndim := rfl
@[simp] theorem putCw_f (s : State) (out : List Byte) : (s.putCw out).f = s.f := rfl
@[simp] theorem putCw_fcand (s : State) (out : List Byte) : (s.putCw out).fcand = s.fcand := rfl
@[simp] theorem putCw_hasSkipped (s : State) (out : List Byte) : (s.putCw out).hasSkipped = s.hasSkipped := rfl
@[simp] theorem putCw_acand (s : State) (out : List Byte) : (s.putCw out).acand = s.acand := rfl
@[simp] theorem putCw_mem (s : State) (out : List Byte) : (s.putCw out).mem = memPut s.mem Window.cw.base out := rfl

/-! ### `putGrid` -/

@[simp] theorem putGrid_params (s : State) (x y : Nat) (rows : List (List Bool)) : (s.putGrid x y rows).params = s.params := rfl
@[simp] theorem putGrid_host (s : State) (x y : Nat) (rows : List (List Bool)) : (s.putGrid x y rows).host = s.host := rfl
@[simp] theorem putGrid_resp (s : State) (x y : Nat) (rows : List (List Bool)) : (s.putGrid x y rows).resp = s.resp := rfl
@[simp] theorem putGrid_draws (s : State) (x y : Nat) (rows : List (List Bool)) : (s.putGrid x y rows).draws = s.draws := rfl
@[simp] theorem putGrid_epoch (s : State) (x y : Nat) (rows : List (List Bool)) : (s.putGrid x y rows).epoch = s.epoch := rfl
@[simp] theorem putGrid_running (s : State) (x y : Nat) (rows : List (List Bool)) : (s.putGrid x y rows).running = s.running := rfl
@[simp] theorem putGrid_ctrl (s : State) (x y : Nat) (rows : List (List Bool)) : (s.putGrid x y rows).ctrl = s.ctrl := rfl
@[simp] theorem putGrid_status (s : State) (x y : Nat) (rows : List (List Bool)) : (s.putGrid x y rows).status = s.status := rfl
@[simp] theorem putGrid_errcode (s : State) (x y : Nat) (rows : List (List Bool)) : (s.putGrid x y rows).errcode = s.errcode := rfl
@[simp] theorem putGrid_errdetail (s : State) (x y : Nat) (rows : List (List Bool)) : (s.putGrid x y rows).errdetail = s.errdetail := rfl
@[simp] theorem putGrid_arg (s : State) (x y : Nat) (rows : List (List Bool)) : (s.putGrid x y rows).arg = s.arg := rfl
@[simp] theorem putGrid_res0 (s : State) (x y : Nat) (rows : List (List Bool)) : (s.putGrid x y rows).res0 = s.res0 := rfl
@[simp] theorem putGrid_res1 (s : State) (x y : Nat) (rows : List (List Bool)) : (s.putGrid x y rows).res1 = s.res1 := rfl
@[simp] theorem putGrid_imgW (s : State) (x y : Nat) (rows : List (List Bool)) : (s.putGrid x y rows).imgW = s.imgW := rfl
@[simp] theorem putGrid_imgH (s : State) (x y : Nat) (rows : List (List Bool)) : (s.putGrid x y rows).imgH = s.imgH := rfl
@[simp] theorem putGrid_gridW (s : State) (x y : Nat) (rows : List (List Bool)) : (s.putGrid x y rows).gridW = Word.ofNat x := rfl
@[simp] theorem putGrid_gridH (s : State) (x y : Nat) (rows : List (List Bool)) : (s.putGrid x y rows).gridH = Word.ofNat y := rfl
@[simp] theorem putGrid_version (s : State) (x y : Nat) (rows : List (List Bool)) : (s.putGrid x y rows).version = s.version := rfl
@[simp] theorem putGrid_fmt (s : State) (x y : Nat) (rows : List (List Bool)) : (s.putGrid x y rows).fmt = s.fmt := rfl
@[simp] theorem putGrid_pver (s : State) (x y : Nat) (rows : List (List Bool)) : (s.putGrid x y rows).pver = s.pver := rfl
@[simp] theorem putGrid_pstate (s : State) (x y : Nat) (rows : List (List Bool)) : (s.putGrid x y rows).pstate = s.pstate := rfl
@[simp] theorem putGrid_numCw (s : State) (x y : Nat) (rows : List (List Bool)) : (s.putGrid x y rows).numCw = s.numCw := rfl
@[simp] theorem putGrid_numData (s : State) (x y : Nat) (rows : List (List Bool)) : (s.putGrid x y rows).numData = s.numData := rfl
@[simp] theorem putGrid_errsCorr (s : State) (x y : Nat) (rows : List (List Bool)) : (s.putGrid x y rows).errsCorr = s.errsCorr := rfl
@[simp] theorem putGrid_rsN (s : State) (x y : Nat) (rows : List (List Bool)) : (s.putGrid x y rows).rsN = s.rsN := rfl
@[simp] theorem putGrid_rsTwos (s : State) (x y : Nat) (rows : List (List Bool)) : (s.putGrid x y rows).rsTwos = s.rsTwos := rfl
@[simp] theorem putGrid_rsNerr (s : State) (x y : Nat) (rows : List (List Bool)) : (s.putGrid x y rows).rsNerr = s.rsNerr := rfl
@[simp] theorem putGrid_plen (s : State) (x y : Nat) (rows : List (List Bool)) : (s.putGrid x y rows).plen = s.plen := rfl
@[simp] theorem putGrid_dim (s : State) (x y : Nat) (rows : List (List Bool)) : (s.putGrid x y rows).dim = s.dim := rfl
@[simp] theorem putGrid_fpcBl (s : State) (x y : Nat) (rows : List (List Bool)) : (s.putGrid x y rows).fpcBl = s.fpcBl := rfl
@[simp] theorem putGrid_fpcTl (s : State) (x y : Nat) (rows : List (List Bool)) : (s.putGrid x y rows).fpcTl = s.fpcTl := rfl
@[simp] theorem putGrid_fpcTr (s : State) (x y : Nat) (rows : List (List Bool)) : (s.putGrid x y rows).fpcTr = s.fpcTr := rfl
@[simp] theorem putGrid_apValid (s : State) (x y : Nat) (rows : List (List Bool)) : (s.putGrid x y rows).apValid = s.apValid := rfl
@[simp] theorem putGrid_findNcand (s : State) (x y : Nat) (rows : List (List Bool)) : (s.putGrid x y rows).findNcand = s.findNcand := rfl
@[simp] theorem putGrid_fndim (s : State) (x y : Nat) (rows : List (List Bool)) : (s.putGrid x y rows).fndim = s.fndim := rfl
@[simp] theorem putGrid_f (s : State) (x y : Nat) (rows : List (List Bool)) : (s.putGrid x y rows).f = s.f := rfl
@[simp] theorem putGrid_fcand (s : State) (x y : Nat) (rows : List (List Bool)) : (s.putGrid x y rows).fcand = s.fcand := rfl
@[simp] theorem putGrid_hasSkipped (s : State) (x y : Nat) (rows : List (List Bool)) : (s.putGrid x y rows).hasSkipped = s.hasSkipped := rfl
@[simp] theorem putGrid_acand (s : State) (x y : Nat) (rows : List (List Bool)) : (s.putGrid x y rows).acand = s.acand := rfl

/-! ### `finished` -/

@[simp] theorem finished_params (s : State) : (s.finished).params = s.params := rfl
@[simp] theorem finished_host (s : State) : (s.finished).host = s.host := rfl
@[simp] theorem finished_resp (s : State) : (s.finished).resp = s.resp := rfl
@[simp] theorem finished_draws (s : State) : (s.finished).draws = s.draws := rfl
@[simp] theorem finished_epoch (s : State) : (s.finished).epoch = s.epoch := rfl
@[simp] theorem finished_running (s : State) : (s.finished).running = none := rfl
@[simp] theorem finished_ctrl (s : State) : (s.finished).ctrl = s.ctrl := rfl
@[simp] theorem finished_status (s : State) : (s.finished).status = ⟨false, true, false, s.status.ovr⟩ := rfl
@[simp] theorem finished_errcode (s : State) : (s.finished).errcode = 0 := rfl
@[simp] theorem finished_errdetail (s : State) : (s.finished).errdetail = 0 := rfl
@[simp] theorem finished_arg (s : State) : (s.finished).arg = s.arg := rfl
@[simp] theorem finished_res0 (s : State) : (s.finished).res0 = s.res0 := rfl
@[simp] theorem finished_res1 (s : State) : (s.finished).res1 = s.res1 := rfl
@[simp] theorem finished_imgW (s : State) : (s.finished).imgW = s.imgW := rfl
@[simp] theorem finished_imgH (s : State) : (s.finished).imgH = s.imgH := rfl
@[simp] theorem finished_gridW (s : State) : (s.finished).gridW = s.gridW := rfl
@[simp] theorem finished_gridH (s : State) : (s.finished).gridH = s.gridH := rfl
@[simp] theorem finished_version (s : State) : (s.finished).version = s.version := rfl
@[simp] theorem finished_fmt (s : State) : (s.finished).fmt = s.fmt := rfl
@[simp] theorem finished_pver (s : State) : (s.finished).pver = s.pver := rfl
@[simp] theorem finished_pstate (s : State) : (s.finished).pstate = s.pstate := rfl
@[simp] theorem finished_numCw (s : State) : (s.finished).numCw = s.numCw := rfl
@[simp] theorem finished_numData (s : State) : (s.finished).numData = s.numData := rfl
@[simp] theorem finished_errsCorr (s : State) : (s.finished).errsCorr = s.errsCorr := rfl
@[simp] theorem finished_rsN (s : State) : (s.finished).rsN = s.rsN := rfl
@[simp] theorem finished_rsTwos (s : State) : (s.finished).rsTwos = s.rsTwos := rfl
@[simp] theorem finished_rsNerr (s : State) : (s.finished).rsNerr = s.rsNerr := rfl
@[simp] theorem finished_plen (s : State) : (s.finished).plen = s.plen := rfl
@[simp] theorem finished_dim (s : State) : (s.finished).dim = s.dim := rfl
@[simp] theorem finished_fpcBl (s : State) : (s.finished).fpcBl = s.fpcBl := rfl
@[simp] theorem finished_fpcTl (s : State) : (s.finished).fpcTl = s.fpcTl := rfl
@[simp] theorem finished_fpcTr (s : State) : (s.finished).fpcTr = s.fpcTr := rfl
@[simp] theorem finished_apValid (s : State) : (s.finished).apValid = s.apValid := rfl
@[simp] theorem finished_findNcand (s : State) : (s.finished).findNcand = s.findNcand := rfl
@[simp] theorem finished_fndim (s : State) : (s.finished).fndim = s.fndim := rfl
@[simp] theorem finished_f (s : State) : (s.finished).f = s.f := rfl
@[simp] theorem finished_fcand (s : State) : (s.finished).fcand = s.fcand := rfl
@[simp] theorem finished_hasSkipped (s : State) : (s.finished).hasSkipped = s.hasSkipped := rfl
@[simp] theorem finished_acand (s : State) : (s.finished).acand = s.acand := rfl
@[simp] theorem finished_mem (s : State) : (s.finished).mem = s.mem := rfl

/-! ### `failed` -/

@[simp] theorem failed_params (s : State) (c d : Nat) : (s.failed c d).params = s.params := rfl
@[simp] theorem failed_host (s : State) (c d : Nat) : (s.failed c d).host = s.host := rfl
@[simp] theorem failed_resp (s : State) (c d : Nat) : (s.failed c d).resp = s.resp := rfl
@[simp] theorem failed_draws (s : State) (c d : Nat) : (s.failed c d).draws = s.draws := rfl
@[simp] theorem failed_epoch (s : State) (c d : Nat) : (s.failed c d).epoch = s.epoch := rfl
@[simp] theorem failed_running (s : State) (c d : Nat) : (s.failed c d).running = none := rfl
@[simp] theorem failed_ctrl (s : State) (c d : Nat) : (s.failed c d).ctrl = s.ctrl := rfl
@[simp] theorem failed_status (s : State) (c d : Nat) : (s.failed c d).status = ⟨false, true, true, s.status.ovr⟩ := rfl
@[simp] theorem failed_errcode (s : State) (c d : Nat) : (s.failed c d).errcode = BitVec.ofNat 4 c := rfl
@[simp] theorem failed_errdetail (s : State) (c d : Nat) : (s.failed c d).errdetail = BitVec.ofNat 8 d := rfl
@[simp] theorem failed_arg (s : State) (c d : Nat) : (s.failed c d).arg = s.arg := rfl
@[simp] theorem failed_res0 (s : State) (c d : Nat) : (s.failed c d).res0 = s.res0 := rfl
@[simp] theorem failed_res1 (s : State) (c d : Nat) : (s.failed c d).res1 = s.res1 := rfl
@[simp] theorem failed_imgW (s : State) (c d : Nat) : (s.failed c d).imgW = s.imgW := rfl
@[simp] theorem failed_imgH (s : State) (c d : Nat) : (s.failed c d).imgH = s.imgH := rfl
@[simp] theorem failed_gridW (s : State) (c d : Nat) : (s.failed c d).gridW = s.gridW := rfl
@[simp] theorem failed_gridH (s : State) (c d : Nat) : (s.failed c d).gridH = s.gridH := rfl
@[simp] theorem failed_version (s : State) (c d : Nat) : (s.failed c d).version = s.version := rfl
@[simp] theorem failed_fmt (s : State) (c d : Nat) : (s.failed c d).fmt = s.fmt := rfl
@[simp] theorem failed_pver (s : State) (c d : Nat) : (s.failed c d).pver = s.pver := rfl
@[simp] theorem failed_pstate (s : State) (c d : Nat) : (s.failed c d).pstate = s.pstate := rfl
@[simp] theorem failed_numCw (s : State) (c d : Nat) : (s.failed c d).numCw = s.numCw := rfl
@[simp] theorem failed_numData (s : State) (c d : Nat) : (s.failed c d).numData = s.numData := rfl
@[simp] theorem failed_errsCorr (s : State) (c d : Nat) : (s.failed c d).errsCorr = s.errsCorr := rfl
@[simp] theorem failed_rsN (s : State) (c d : Nat) : (s.failed c d).rsN = s.rsN := rfl
@[simp] theorem failed_rsTwos (s : State) (c d : Nat) : (s.failed c d).rsTwos = s.rsTwos := rfl
@[simp] theorem failed_rsNerr (s : State) (c d : Nat) : (s.failed c d).rsNerr = s.rsNerr := rfl
@[simp] theorem failed_plen (s : State) (c d : Nat) : (s.failed c d).plen = s.plen := rfl
@[simp] theorem failed_dim (s : State) (c d : Nat) : (s.failed c d).dim = s.dim := rfl
@[simp] theorem failed_fpcBl (s : State) (c d : Nat) : (s.failed c d).fpcBl = s.fpcBl := rfl
@[simp] theorem failed_fpcTl (s : State) (c d : Nat) : (s.failed c d).fpcTl = s.fpcTl := rfl
@[simp] theorem failed_fpcTr (s : State) (c d : Nat) : (s.failed c d).fpcTr = s.fpcTr := rfl
@[simp] theorem failed_apValid (s : State) (c d : Nat) : (s.failed c d).apValid = s.apValid := rfl
@[simp] theorem failed_findNcand (s : State) (c d : Nat) : (s.failed c d).findNcand = s.findNcand := rfl
@[simp] theorem failed_fndim (s : State) (c d : Nat) : (s.failed c d).fndim = s.fndim := rfl
@[simp] theorem failed_f (s : State) (c d : Nat) : (s.failed c d).f = s.f := rfl
@[simp] theorem failed_fcand (s : State) (c d : Nat) : (s.failed c d).fcand = s.fcand := rfl
@[simp] theorem failed_hasSkipped (s : State) (c d : Nat) : (s.failed c d).hasSkipped = s.hasSkipped := rfl
@[simp] theorem failed_acand (s : State) (c d : Nat) : (s.failed c d).acand = s.acand := rfl
@[simp] theorem failed_mem (s : State) (c d : Nat) : (s.failed c d).mem = s.mem := rfl

/-! ### The start of a command -/

@[simp] theorem startCommand_params (s : State) (w : Word) : (startCommand s w).params = s.params := rfl
@[simp] theorem startCommand_host (s : State) (w : Word) : (startCommand s w).host = s.host := rfl
@[simp] theorem startCommand_resp (s : State) (w : Word) : (startCommand s w).resp = s.resp := rfl
@[simp] theorem startCommand_draws (s : State) (w : Word) : (startCommand s w).draws = s.draws := rfl
@[simp] theorem startCommand_epoch (s : State) (w : Word) : (startCommand s w).epoch = s.epoch := rfl
@[simp] theorem startCommand_running (s : State) (w : Word) : (startCommand s w).running = some w := rfl
@[simp] theorem startCommand_ctrl (s : State) (w : Word) : (startCommand s w).ctrl = s.ctrl := rfl
@[simp] theorem startCommand_status (s : State) (w : Word) : (startCommand s w).status = s.status.start := rfl
@[simp] theorem startCommand_errcode (s : State) (w : Word) : (startCommand s w).errcode = s.errcode := rfl
@[simp] theorem startCommand_errdetail (s : State) (w : Word) : (startCommand s w).errdetail = s.errdetail := rfl
@[simp] theorem startCommand_arg (s : State) (w : Word) : (startCommand s w).arg = s.arg := rfl
@[simp] theorem startCommand_res0 (s : State) (w : Word) : (startCommand s w).res0 = s.res0 := rfl
@[simp] theorem startCommand_res1 (s : State) (w : Word) : (startCommand s w).res1 = s.res1 := rfl
@[simp] theorem startCommand_imgW (s : State) (w : Word) : (startCommand s w).imgW = s.imgW := rfl
@[simp] theorem startCommand_imgH (s : State) (w : Word) : (startCommand s w).imgH = s.imgH := rfl
@[simp] theorem startCommand_gridW (s : State) (w : Word) : (startCommand s w).gridW = s.gridW := rfl
@[simp] theorem startCommand_gridH (s : State) (w : Word) : (startCommand s w).gridH = s.gridH := rfl
@[simp] theorem startCommand_version (s : State) (w : Word) : (startCommand s w).version = s.version := rfl
@[simp] theorem startCommand_fmt (s : State) (w : Word) : (startCommand s w).fmt = s.fmt := rfl
@[simp] theorem startCommand_pver (s : State) (w : Word) : (startCommand s w).pver = s.pver := rfl
@[simp] theorem startCommand_pstate (s : State) (w : Word) : (startCommand s w).pstate = s.pstate := rfl
@[simp] theorem startCommand_numCw (s : State) (w : Word) : (startCommand s w).numCw = s.numCw := rfl
@[simp] theorem startCommand_numData (s : State) (w : Word) : (startCommand s w).numData = s.numData := rfl
@[simp] theorem startCommand_errsCorr (s : State) (w : Word) : (startCommand s w).errsCorr = s.errsCorr := rfl
@[simp] theorem startCommand_rsN (s : State) (w : Word) : (startCommand s w).rsN = s.rsN := rfl
@[simp] theorem startCommand_rsTwos (s : State) (w : Word) : (startCommand s w).rsTwos = s.rsTwos := rfl
@[simp] theorem startCommand_rsNerr (s : State) (w : Word) : (startCommand s w).rsNerr = s.rsNerr := rfl
@[simp] theorem startCommand_plen (s : State) (w : Word) : (startCommand s w).plen = s.plen := rfl
@[simp] theorem startCommand_dim (s : State) (w : Word) : (startCommand s w).dim = s.dim := rfl
@[simp] theorem startCommand_fpcBl (s : State) (w : Word) : (startCommand s w).fpcBl = s.fpcBl := rfl
@[simp] theorem startCommand_fpcTl (s : State) (w : Word) : (startCommand s w).fpcTl = s.fpcTl := rfl
@[simp] theorem startCommand_fpcTr (s : State) (w : Word) : (startCommand s w).fpcTr = s.fpcTr := rfl
@[simp] theorem startCommand_apValid (s : State) (w : Word) : (startCommand s w).apValid = s.apValid := rfl
@[simp] theorem startCommand_findNcand (s : State) (w : Word) : (startCommand s w).findNcand = s.findNcand := rfl
@[simp] theorem startCommand_fndim (s : State) (w : Word) : (startCommand s w).fndim = s.fndim := rfl
@[simp] theorem startCommand_f (s : State) (w : Word) : (startCommand s w).f = s.f := rfl
@[simp] theorem startCommand_fcand (s : State) (w : Word) : (startCommand s w).fcand = s.fcand := rfl
@[simp] theorem startCommand_hasSkipped (s : State) (w : Word) : (startCommand s w).hasSkipped = s.hasSkipped := rfl
@[simp] theorem startCommand_acand (s : State) (w : Word) : (startCommand s w).acand = s.acand := rfl
@[simp] theorem startCommand_mem (s : State) (w : Word) : (startCommand s w).mem = s.mem := rfl

end Sys2Proof.Machine
end

