-- ==== Sys2Proof/Laws/Ops.lean ====
section
/-! SUPPORT. What the shared operations of the commands can do: the end of a command, the steps of a composite command, and
the writes of binary64 and polynomial registers. -/

namespace Sys2Proof.Machine

/-! ### The end of a command -/

theorem endCommand_none (t : State) : endCommand (t, none) = .next t.finished := rfl

theorem endCommand_some (t : State) (e : Raise) :
    endCommand (t, some e) = .next (t.failed e.code.toNat e.detail.toNat) := by
  simp [endCommand, State.failed, Status.finish]

/-- A command always ends in a next state (R90). -/
theorem endCommand_next (r : Ended) : ∃ t, endCommand r = .next t := ⟨_, rfl⟩

/-- What a single-step command can come to. -/
theorem single_cases (s : State) (v : Except Raise State) :
    (∃ t, v = .ok t ∧ single s v = (t, none)) ∨ (∃ e, v = .error e ∧ single s v = (s, some e)) := by
  cases v with
  | ok t => exact .inl ⟨t, rfl, rfl⟩
  | error e => exact .inr ⟨e, rfl, rfl⟩

@[simp] theorem single_ok (s t : State) : single s (.ok t) = (t, none) := rfl
@[simp] theorem single_error (s : State) (e : Raise) : single s (.error e) = (s, some e) := rfl
@[simp] theorem andThen_none (t : State) (k : State → Ended) : Ended.andThen (t, none) k = k t := rfl
@[simp] theorem andThen_some (t : State) (e : Raise) (k : State → Ended) : Ended.andThen (t, some e) k = (t, some e) := rfl
@[simp] theorem computing_ok {α : Type} (s : State) (a : α) (k : α → Ended) : computing s (.ok a) k = k a := rfl
@[simp] theorem computing_error {α : Type} (s : State) (e : Raise) (k : α → Ended) :
    computing s (.error e) k = (s, some e) := rfl

/-- A property of states that a first step establishes and the rest keeps holds of the whole. -/
theorem andThen_induct {P : State → Prop} (r : Ended) (k : State → Ended) (h1 : P r.1)
    (h2 : ∀ t, r = (t, none) → P (k t).1) : P (r.andThen k).1 := by
  obtain ⟨t, e⟩ := r
  cases e with
  | none => exact h2 t rfl
  | some e => exact h1

/-- A property of states that holds before a computed value, and is kept by what follows each value, holds of the whole. -/
theorem computing_induct {α : Type} {P : State → Prop} (s : State) (v : Except Raise α) (k : α → Ended) (h1 : P s)
    (h2 : ∀ a, v = .ok a → P (k a).1) : P (computing s v k).1 := by
  cases v with
  | ok a => exact h2 a rfl
  | error e => exact h1

/-- A property of states that holds before a single-step command and of its result holds of the whole. -/
theorem single_induct {P : State → Prop} (s : State) (v : Except Raise State) (h1 : P s) (h2 : ∀ t, v = .ok t → P t) :
    P (single s v).1 := by
  cases v with
  | ok t => exact h2 t rfl
  | error e => exact h1

/-! ### Binary64 registers -/

/-- A write of `Fk` changes `f` at `k`, and `draws` for a NaN, and nothing else. -/
theorem setF_cases (s : State) (k : Nat) (v : F64) :
    ∃ b n, s.setF k v = { s with f := s.f.setIfInBounds k b, draws := n } := by
  unfold State.setF
  split
  · exact ⟨_, _, rfl⟩
  · exact ⟨_, s.draws, rfl⟩

/-- Where the encoding written to `Fk` is read. -/
theorem getD_setIfInBounds (v : Vector Bits64 48) (k j : Nat) (b : Bits64) :
    (v.setIfInBounds k b).toList.getD j 0 = if j = k ∧ k < 48 then b else v.toList.getD j 0 := by
  by_cases hj : j < 48
  · by_cases h : j = k
    · subst h; simp [List.getD, hj]
    · have h' : ¬ k = j := fun e => h e.symm
      simp [List.getD, h, h', hj]
  · have hk : ¬ (j = k ∧ k < 48) := by omega
    simp [List.getD, hj, hk]

theorem fbits_setFbits (s : State) (k j : Nat) (b : Bits64) :
    (s.setFbits k b).fbits j = if j = k ∧ k < 48 then b else s.fbits j := getD_setIfInBounds s.f k j b

theorem fbits_setF_other (s : State) (k j : Nat) (v : F64) (h : j ≠ k) : (s.setF k v).fbits j = s.fbits j := by
  obtain ⟨b, n, e⟩ := setF_cases s k v
  rw [e]
  have := getD_setIfInBounds s.f k j b
  simp only [State.fbits, this, if_neg (show ¬ (j = k ∧ k < 48) from fun hc => h hc.1)]

/-- A write of consecutive binary64 registers changes `f` and `draws`, and nothing else. -/
theorem setFs_cases (vs : List F64) (s : State) (k : Nat) :
    ∃ g n, s.setFs k vs = { s with f := g, draws := n } := by
  induction vs generalizing s k with
  | nil => exact ⟨s.f, s.draws, rfl⟩
  | cons v vs ih =>
    obtain ⟨b, n, e⟩ := setF_cases s k v
    obtain ⟨g, m, e'⟩ := ih (s.setF k v) (k + 1)
    exact ⟨g, m, by rw [State.setFs, e', e]⟩

/-- The registers outside the group written keep their encodings. -/
theorem fbits_setFs_outside (vs : List F64) (s : State) (k j : Nat) (h : j < k ∨ k + vs.length ≤ j) :
    (s.setFs k vs).fbits j = s.fbits j := by
  induction vs generalizing s k with
  | nil => rfl
  | cons v vs ih =>
    simp only [List.length_cons] at h
    rw [State.setFs, ih _ _ (by omega), fbits_setF_other _ _ _ _ (by omega)]

/-! ### Polynomial registers -/

theorem trim_ne_nil (p : List Byte) : trim p ≠ [] := by
  induction p with
  | nil => simp [trim]
  | cons c p ih =>
    cases p with
    | nil => simp [trim]
    | cons d cs => unfold trim; split <;> simp_all

/-- Trimming never lengthens a list that is not empty. -/
theorem length_trim_le (p : List Byte) (h : p ≠ []) : (trim p).length ≤ p.length := by
  induction p with
  | nil => exact absurd rfl h
  | cons c p ih =>
    cases p with
    | nil => simp [trim]
    | cons d cs =>
      unfold trim
      split
      · have := ih (by simp)
        simp only [List.length_cons] at *
        omega
      · simp

/-- Trimming twice is trimming once. -/
theorem trim_trim (p : List Byte) : trim (trim p) = trim p := by
  induction p with
  | nil => rfl
  | cons c p ih =>
    cases p with
    | nil => rfl
    | cons d cs =>
      by_cases hc : c = 0
      · have : trim (c :: d :: cs) = trim (d :: cs) := by rw [trim, if_pos hc]
        rw [this, ih]
      · have : trim (c :: d :: cs) = c :: d :: cs := by rw [trim, if_neg hc]
        rw [this, this]

/-- `POLY(k)` is `ARG_RANGE(POLY_LEN)`, or the trimmed bytes of a length in 1..512 (R103). -/
theorem poly_cases (s : State) (k : Nat) :
    ((s.plenOf k < 1 ∨ 512 < s.plenOf k) ∧ s.poly k = .error (.argRange .polyLen)) ∨
    (1 ≤ s.plenOf k ∧ s.plenOf k ≤ 512 ∧ s.poly k = .ok (trim (s.bytes (polyBase k) (s.plenOf k)))) := by
  by_cases h : s.plenOf k < 1 ∨ polyMaxLen < s.plenOf k
  · exact .inl ⟨h, if_pos h⟩
  · exact .inr ⟨by omega, by simp only [polyMaxLen] at h; omega, if_neg h⟩

/-- `SETPOLY(k, p)` is `CAPACITY(POLY_LEN)`, or the write of a list of at most 512 coefficients (R103). -/
theorem setPoly_cases (s : State) (k : Nat) (p : List Byte) :
    (512 < p.length ∧ s.setPoly k p = .error (.capacity .polyLen)) ∨
    (p.length ≤ 512 ∧ s.setPoly k p = .ok (s.putPoly k p)) := by
  by_cases h : polyMaxLen < p.length
  · exact .inl ⟨h, if_pos h⟩
  · exact .inr ⟨by simp only [polyMaxLen] at h; omega, if_neg h⟩

end Sys2Proof.Machine
end

