-- ==== Sys2Proof/Laws/Bus.lean ====
section
/-! SUPPORT. The address map and what a host access can do. -/

namespace Sys2Proof.Machine

/-- An aligned 32-bit access inside the block reaches the offset it names (R60, R63). -/
theorem hostAccess_inside (s : State) (off : Nat) (k : Nat → State) (h : off < 0x200000) (h4 : off % 4 = 0) :
    hostAccess s (s.base + off) 32 k = .next (k off) := by
  have hs : blockSize = 0x200000 := rfl
  unfold hostAccess
  rw [if_neg (by omega), if_neg (by omega), Nat.add_sub_cancel_left]

/-- An access that ends in a next state is refused with a bus error, or reaches an aligned offset of the block. -/
theorem hostAccess_next {s t : State} {addr width : Nat} {k : Nat → State} (h : hostAccess s addr width k = .next t) :
    t = { s with resp := .busError } ∨
      ∃ off, addr = s.base + off ∧ off % 4 = 0 ∧ off < 0x200000 ∧ width = 32 ∧ t = k off := by
  have hs : blockSize = 0x200000 := rfl
  unfold hostAccess at h
  split at h
  · cases h
  · split at h
    · cases h; exact .inl rfl
    · cases h; exact .inr ⟨addr - s.base, by omega, by omega, by omega, by omega, rfl⟩

/-- A write step of an aligned 32-bit word inside the block. -/
theorem step_write (s : State) (rest : List HostEvent) (off : Nat) (v : Word) (h : off < 0x200000) (h4 : off % 4 = 0)
    (hh : s.host = .write (s.base + off) 32 v :: rest) : step s = .next (hostWrite { s with host := rest } off v) := by
  simp only [step, hh]; exact hostAccess_inside { s with host := rest } off _ h h4

/-- A read step of an aligned 32-bit word inside the block. -/
theorem step_read (s : State) (rest : List HostEvent) (off : Nat) (h : off < 0x200000) (h4 : off % 4 = 0)
    (hh : s.host = .read (s.base + off) 32 :: rest) : step s = .next (hostRead { s with host := rest } off) := by
  simp only [step, hh]; exact hostAccess_inside { s with host := rest } off _ h h4

/-- The registers with an offset of their own lie below 0xA4 (R21 to R39). -/
theorem fixedReg_none (off : Nat) (h : 0xA4 ≤ off) : fixedReg off = none := by
  unfold fixedReg
  split <;> first | rfl | (exfalso; revert h; decide)

/-- `STATUS` is at offset 0x008 only. -/
theorem targetAt_status (off : Nat) (h : targetAt off = .reg .status) : off = 0x008 := by
  unfold targetAt regAt at h
  split at h
  · rename_i r hr
    split at hr
    · cases hr; cases h
    · split at hr
      · cases hr; cases h
      · cases h
        unfold fixedReg at hr
        split at hr <;> cases hr
        rfl
  · split at h <;> cases h

/-- The windows do not overlap: each offset inside one is found in it (R61). -/
theorem windowAt_inside (off : Nat) (w : Window) (h1 : w.base ≤ off) (h2 : off < w.base + w.size) :
    windowAt off = some w := by
  have hc : ∀ v : Window, v.contains off = decide (v = w) := by
    intro v
    rw [Bool.eq_iff_iff]
    simp only [Window.contains, Bool.and_eq_true, decide_eq_true_eq]
    cases w <;> simp only [Window.base, Window.size] at h1 h2 <;> cases v <;> simp [Window.base, Window.size] <;> omega
  have : (fun v : Window => v.contains off) = fun v => decide (v = w) := funext hc
  unfold windowAt
  rw [this]
  clear hc this h1 h2
  cases w <;> rfl

/-- An offset of a window names the window (R61). -/
theorem targetAt_window (off : Nat) (w : Window) (h1 : w.base ≤ off) (h2 : off < w.base + w.size) :
    targetAt off = .window w := by
  have hr : regAt off = none := by
    have : 0x1000 ≤ off := by cases w <;> simp only [Window.base] at h1 <;> omega
    unfold regAt
    rw [if_neg (by omega), if_neg (by omega), fixedReg_none off (by omega)]
  unfold targetAt
  rw [hr]
  simp only [windowAt_inside off w h1 h2]

/-- An offset past the registers and outside every window is reserved (R61). -/
theorem targetAt_reserved (off : Nat) (h : (0xA4 ≤ off ∧ off < 0x100) ∨ 0x280 ≤ off)
    (hw : ∀ w : Window, off < w.base ∨ w.base + w.size ≤ off) : targetAt off = .reserved := by
  have hr : regAt off = none := by
    unfold regAt
    rw [if_neg (by omega), if_neg (by omega), fixedReg_none off (by omega)]
  have hn : windowAt off = none := by
    simp only [windowAt, List.find?_eq_none]
    intro w _
    have := hw w
    simp only [Window.contains, Bool.and_eq_true, decide_eq_true_eq]
    omega
  unfold targetAt
  rw [hr]
  simp only [hn]

/-- An aligned word that starts in a window lies in it. -/
theorem windowAt_aligned (off : Nat) (w : Window) (h : windowAt off = some w) (h4 : off % 4 = 0) :
    w.base ≤ off ∧ off + 4 ≤ w.base + w.size := by
  have := List.find?_some h
  simp only [Window.contains, Bool.and_eq_true, decide_eq_true_eq] at this
  cases w <;> simp only [Window.base, Window.size] at this ⊢ <;> omega

end Sys2Proof.Machine
end

