-- ==== Sys2Proof/Laws/Range.lean ====
section
/-! SUPPORT. The ranges of what the command rules compute: lengths of lists, dimensions, versions, candidate lists, and the
bytes a memory write can touch. -/

namespace Sys2Proof.Machine

/-! ### Writes to one stretch of memory -/

/-- Everything a write within `n` bytes from `lo` on can do to a memory. -/
structure MemWrote (m m' : List Host.Cell) (lo n : Nat) : Prop where
  wf : Memory.wf m → Memory.wf m'
  listed : ∀ c ∈ m', c ∈ m ∨ (lo ≤ c.1 ∧ c.1 < lo + n)
  same : ∀ a, a < lo ∨ lo + n ≤ a → memGet m' a = memGet m a

theorem MemWrote.refl (m : List Host.Cell) (lo n : Nat) : MemWrote m m lo n :=
  ⟨id, fun _ h => .inl h, fun _ _ => rfl⟩

theorem MemWrote.trans {m m' m'' : List Host.Cell} {lo n : Nat} (h : MemWrote m m' lo n) (h' : MemWrote m' m'' lo n) :
    MemWrote m m'' lo n :=
  ⟨fun w => h'.wf (h.wf w), fun c hc => (h'.listed c hc).elim (h.listed c) .inr,
    fun a ha => (h'.same a ha).trans (h.same a ha)⟩

theorem MemWrote.mono {m m' : List Host.Cell} {lo n lo' n' : Nat} (h : MemWrote m m' lo n) (h1 : lo' ≤ lo)
    (h2 : lo + n ≤ lo' + n') : MemWrote m m' lo' n' :=
  ⟨h.wf, fun c hc => (h.listed c hc).imp id (by omega), fun a ha => h.same a (by omega)⟩

theorem memPut_wrote (m : List Host.Cell) (base : Nat) (bs : List Byte) : MemWrote m (memPut m base bs) base bs.length :=
  ⟨memPut_wf m base bs, fun c hc => mem_memPut m base bs c hc, fun a ha => by rw [memGet_memPut, if_neg (by omega)]⟩

theorem putBits_wrote (s : State) (base count : Nat) (g : Nat → Bool) :
    MemWrote s.mem (s.putBits base count g).mem base ((count + 7) / 8) := by
  have := memPut_wrote s.mem base ((List.range ((count + 7) / 8)).map (fun k =>
    packByte (fun b => if 8 * k + b < count then g (8 * k + b) else (s.byte (base + k)).getLsbD b)))
  simpa [State.putBits] using this

/-- A grid of a side up to 177 fits its window. -/
theorem putMatrix_wrote (s : State) (base w h : Nat) (g : Nat → Nat → Bool) (hw : w ≤ 177) (hh : h ≤ 177) :
    MemWrote s.mem (s.putMatrix base w h g).mem base 4096 := by
  have : w * h ≤ 177 * 177 := Nat.mul_le_mul hw hh
  exact (putBits_wrote s base (w * h) _).mono le_rfl (by omega)

/-! ### Reed-Solomon -/

theorem ginv_ne_zero (a : Byte) (h : a ≠ 0) : ginv a = .ok (gexp (255 - logOf a)) := if_neg h

/-- The only error of `invAll` is a zero; its result is as long as its list. -/
theorem invAll_cases (l : List Byte) :
    (∃ r, invAll l = .ok r ∧ r.length = l.length) ∨ (invAll l = .error .invZero ∧ 0 ∈ l) := by
  induction l with
  | nil => exact .inl ⟨[], rfl, rfl⟩
  | cons a as ih =>
    by_cases ha : a = 0
    · exact .inr ⟨by simp [invAll, ginv, ha, bind, Except.bind], by simp [ha]⟩
    · rcases ih with ⟨r, h, hl⟩ | ⟨h, h0⟩
      · exact .inl ⟨_, by rw [invAll, ginv_ne_zero a ha, h]; rfl, by simp [hl]⟩
      · exact .inr ⟨by rw [invAll, ginv_ne_zero a ha, h]; rfl, List.mem_cons_of_mem _ h0⟩

theorem length_nonzeroElements : nonzeroElements.length = 255 := by simp [nonzeroElements]

theorem ne_zero_of_mem_nonzeroElements : ∀ a ∈ nonzeroElements, a ≠ 0 := by decide +kernel

/-- What `chien` can come to (R144). -/
theorem chien_cases (sigma : Poly) :
    (pDeg sigma = 1 ∧ chien sigma = .ok [pCoef sigma 1]) ∨
    (pDeg sigma ≠ 1 ∧ ∃ loc, invAll ((nonzeroElements.filter (fun i => peval sigma i == 0)).take (pDeg sigma)) = .ok loc ∧
      loc.length ≤ 255 ∧
      ((loc.length = pDeg sigma ∧ chien sigma = .ok loc) ∨ (loc.length ≠ pDeg sigma ∧ chien sigma = .error .rootCount))) := by
  by_cases h1 : pDeg sigma = 1
  · exact .inl ⟨h1, if_pos h1⟩
  · refine .inr ⟨h1, ?_⟩
    rcases invAll_cases ((nonzeroElements.filter (fun i => peval sigma i == 0)).take (pDeg sigma)) with ⟨r, h, hl⟩ | ⟨_, h0⟩
    · refine ⟨r, h, ?_, ?_⟩
      · rw [hl, List.length_take]
        exact (Nat.min_le_right _ _).trans ((List.length_filter_le _ _).trans length_nonzeroElements.le)
      · have hc : chien sigma = if r.length ≠ pDeg sigma then .error .rootCount else .ok r := by
          unfold chien; rw [if_neg h1]; simp only [h]; rfl
        by_cases he : r.length = pDeg sigma
        · exact .inl ⟨he, by rw [hc, if_neg (by simpa using he)]⟩
        · exact .inr ⟨he, by rw [hc, if_pos he]⟩
    · have := List.mem_of_mem_take h0
      exact absurd rfl (ne_zero_of_mem_nonzeroElements 0 (List.mem_filter.1 this).1)

/-- `chien` lists at most 255 locations. -/
theorem length_chien (sigma : Poly) (loc : List Byte) (h : chien sigma = .ok loc) : loc.length ≤ 255 := by
  rcases chien_cases sigma with ⟨_, hc⟩ | ⟨_, r, _, hl, ⟨_, hc⟩ | ⟨_, hc⟩⟩
  · rw [hc] at h; cases h; simp
  · rw [hc] at h; cases h; exact hl
  · rw [hc] at h; cases h

/-- The only error of `forney` is the inverse of zero; it gives one magnitude a location (R145). -/
theorem forneyFrom_cases (omega : Poly) (loc : List Byte) (i : Nat) (xs : List Byte) :
    (∃ mag, forneyFrom omega loc i xs = .ok mag ∧ mag.length = xs.length) ∨
    forneyFrom omega loc i xs = .error .invZero := by
  induction xs generalizing i with
  | nil => exact .inl ⟨[], rfl, rfl⟩
  | cons x xs ih =>
    by_cases hx : x = 0
    · exact .inr (by simp [forneyFrom, ginv, hx, bind, Except.bind])
    · by_cases hd : forneyDen loc i (gexp (255 - logOf x)) = 0
      · exact .inr (by
          rw [forneyFrom, ginv_ne_zero x hx]
          simp only [bind, Except.bind, ginv, hd, ↓reduceIte])
      · rcases ih (i + 1) with ⟨mag, h, hl⟩ | h
        · exact .inl ⟨_, by rw [forneyFrom, ginv_ne_zero x hx]; simp only [bind, Except.bind, ginv_ne_zero _ hd, h]; rfl,
            by simp [hl]⟩
        · exact .inr (by rw [forneyFrom, ginv_ne_zero x hx]; simp only [bind, Except.bind, ginv_ne_zero _ hd, h])

/-- Every correction lies inside the word; there is at most one for each entry (R146). -/
theorem corrections_bounds (n : Nat) (l : List (Byte × Byte)) : ∀ c ∈ (corrections n l).1, c.1 < n := by
  induction l with
  | nil => simp [corrections]
  | cons p rest ih =>
    obtain ⟨x, m⟩ := p
    simp only [corrections]
    split
    · simp
    · split
      · simp
      · rename_i hn
        intro c hc
        simp only [List.mem_cons] at hc
        rcases hc with rfl | hc
        · simp only; omega
        · exact ih c hc

/-- Everything the corrections of `RSBUF` can do. -/
theorem correctRsbuf_cases (s : State) (n : Nat) (cs : List (Nat × Byte)) (h : ∀ c ∈ cs, c.1 < n) :
    ∃ m, s.correctRsbuf cs = { s with mem := m } ∧ MemWrote s.mem m 0x1000 n := by
  induction cs generalizing s with
  | nil => exact ⟨s.mem, rfl, .refl _ _ _⟩
  | cons c cs ih =>
    obtain ⟨m, e, hm⟩ := ih (s.putBytes (Window.rsbuf.base + c.1) [gadd (s.byte (Window.rsbuf.base + c.1)) c.2])
      (fun c hc => h c (List.mem_cons_of_mem _ hc))
    have hc := h c List.mem_cons_self
    refine ⟨m, by simpa [State.correctRsbuf, State.putBytes] using e, ?_⟩
    refine .trans ((memPut_wrote s.mem (Window.rsbuf.base + c.1) [gadd (s.byte (Window.rsbuf.base + c.1)) c.2]).mono ?_ ?_) hm
    · simp [Window.base]
    · simp [Window.base]; omega

/-! ### Polynomial registers and the steps of the solver -/

theorem polyBase_bounds (k : Nat) (h : k ≤ 7) : 0x2000 ≤ polyBase k ∧ polyBase k + 512 ≤ 0x3000 := by
  simp only [polyBase, Window.base]; omega

/-- Everything a write of a polynomial register can do. -/
theorem setPoly_ok (s t : State) (k : Nat) (p : List Byte) (hk : k ≤ 7) (h : s.setPoly k p = .ok t) :
    ∃ m v, t = { s with mem := m, plen := v } ∧ MemWrote s.mem m 0x2000 4096 := by
  rcases setPoly_cases s k p with ⟨_, e⟩ | ⟨hp, e⟩
  · rw [e] at h; cases h
  · rw [e] at h; cases h
    have := polyBase_bounds k hk
    exact ⟨_, _, rfl, (memPut_wrote s.mem (polyBase k) p).mono (by omega) (by omega)⟩

theorem syndStep_ok (s t : State) (h : syndStep s = .ok t) :
    ∃ m v, t = { s with mem := m, plen := v } ∧ MemWrote s.mem m 0x2000 4096 := setPoly_ok s t 0 _ (by omega) h

theorem bind_ok {ε α β : Type} {x : Except ε α} {f : α → Except ε β} {b : β} (h : x >>= f = .ok b) :
    ∃ a, x = .ok a ∧ f a = .ok b := by
  cases x with
  | ok a => exact ⟨a, rfl, h⟩
  | error e => exact nomatch h

theorem euclidStep_ok (s t : State) (h : euclidStep s = .ok t) :
    ∃ m v, t = { s with mem := m, plen := v } ∧ MemWrote s.mem m 0x2000 4096 := by
  obtain ⟨syn, _, h⟩ := bind_ok h
  obtain ⟨⟨sigma, omega⟩, _, h⟩ := bind_ok h
  obtain ⟨u, h1, h2⟩ := bind_ok h
  obtain ⟨m, v, e, hm⟩ := setPoly_ok s u 1 sigma (by omega) h1
  obtain ⟨m', v', e', hm'⟩ := setPoly_ok u t 2 omega (by omega) h2
  subst e
  exact ⟨m', v', e', hm.trans hm'⟩

theorem chienStep_ok (s t : State) (h : chienStep s = .ok t) :
    ∃ m n, t = { s with mem := m, rsNerr := Word.ofNat n } ∧ n ≤ 255 ∧ MemWrote s.mem m 0x1100 256 := by
  obtain ⟨sigma, _, h⟩ := bind_ok h
  obtain ⟨loc, hl, h⟩ := bind_ok h
  cases h
  have hloc : loc.length ≤ 255 := by
    cases hc : chien sigma with
    | ok l => rw [hc] at hl; cases hl; exact length_chien _ _ hc
    | error e => rw [hc] at hl; cases hl
  exact ⟨_, loc.length, rfl, hloc, (memPut_wrote s.mem 0x1100 loc).mono le_rfl (by omega)⟩

theorem forneyStep_ok (s t : State) (h : forneyStep s = .ok t) :
    ∃ m, t = { s with mem := m } ∧ MemWrote s.mem m 0x1200 s.rsNerr.toNat := by
  obtain ⟨omega, _, h⟩ := bind_ok h
  obtain ⟨mag, hl, h⟩ := bind_ok h
  cases h
  have hmag : mag.length = s.rsNerr.toNat := by
    rcases forneyFrom_cases omega s.locs 0 s.locs with ⟨r, hr, hn⟩ | hr
    · rw [forney, hr] at hl; cases hl; simpa [State.locs] using hn
    · rw [forney, hr] at hl; cases hl
  exact ⟨_, rfl, hmag ▸ memPut_wrote s.mem 0x1200 mag⟩

theorem correctStep_cases (s : State) :
    ∃ m r, (correctStep s).1 = { s with mem := m, res0 := r } ∧ MemWrote s.mem m 0x1000 s.rsN.toNat := by
  have hb := corrections_bounds s.rsN.toNat (s.locs.zip s.mags)
  unfold correctStep
  obtain ⟨m, e, hm⟩ := correctRsbuf_cases s s.rsN.toNat _ hb
  generalize corrections s.rsN.toNat (s.locs.zip s.mags) = c at *
  obtain ⟨cs, r⟩ := c
  cases r with
  | none => exact ⟨m, Word.ofNat s.rsNerr.toNat, by simp only [e, State.setRes0], hm⟩
  | some r => exact ⟨m, s.res0, e, hm⟩

/-! ### Dimensions and versions -/

/-- The dimension and version of R186 and R205. -/
theorem dimensionAndVersion_ok (tl tr bl : Pt) (ms : F64) (d v : Nat) (h : dimensionAndVersion tl tr bl ms = .ok (d, v)) :
    1 ≤ v ∧ v ≤ 40 ∧ d = 17 + 4 * v := by
  obtain ⟨n, h1, h⟩ := bind_ok h
  obtain ⟨w, h2, h⟩ := bind_ok h
  cases h
  have hmod : n % 4 = 1 := by
    obtain ⟨_, _, h1⟩ := bind_ok h1
    obtain ⟨a, _, h1⟩ := bind_ok h1
    obtain ⟨_, _, h1⟩ := bind_ok h1
    obtain ⟨b, _, h1⟩ := bind_ok h1
    simp only at h1
    generalize Int.tdiv (a + b) 2 + 7 = q at h1
    split at h1
    · cases h1; omega
    · split at h1
      · cases h1; omega
      · split at h1
        · cases h1; omega
        · cases h1
  unfold provisional at h2
  split at h2
  · cases h2; omega
  · cases h2

/-- What `decodeVersion` accepts is a version from 7 to 40 (R273, R278). -/
theorem versionSearch_range (bits : BitVec 18) (ts : List (BitVec 18)) (v n : Nat) (best : Option (Nat × Nat))
    (hb : ∀ p, best = some p → 7 ≤ p.2 ∧ p.2 ≤ 40) (hv : 7 ≤ v) (hl : v + ts.length ≤ 41)
    (h : versionSearch bits v ts best = some n) : 7 ≤ n ∧ n ≤ 40 := by
  induction ts generalizing v best with
  | nil =>
    simp only [versionSearch] at h
    cases best with
    | none => simp [closeEnough] at h
    | some p =>
      obtain ⟨k, e⟩ := p
      simp only [closeEnough] at h
      split at h
      · cases h; exact hb _ rfl
      · cases h
  | cons t ts ih =>
    simp only [List.length_cons] at hl
    simp only [versionSearch] at h
    split at h
    · cases h; omega
    · refine ih _ _ ?_ (by omega) (by omega) h
      intro p hp
      cases best with
      | none => simp only [closer, Option.some.injEq] at hp; subst hp; simp only; omega
      | some q =>
        obtain ⟨k, e⟩ := q
        simp only [closer] at hp
        split at hp
        · cases hp; simp only; omega
        · cases hp; exact hb _ rfl

theorem decodeVersion_range (bits : BitVec 18) (n : Nat) (h : decodeVersion bits = some n) : 7 ≤ n ∧ n ≤ 40 :=
  versionSearch_range bits versionTable 7 n none (by simp) (by omega) (by decide) h

theorem accept_range (p : Parser) (bits : BitVec 18) (v : BitVec 6) (h : p.accept bits = some v) :
    7 ≤ v.toNat ∧ v.toNat ≤ 40 ∧ 17 + 4 * v.toNat = p.dim := by
  unfold Parser.accept at h
  split at h
  · rename_i n hn
    have := decodeVersion_range bits n hn
    split at h
    · rename_i hs
      cases h
      simp only [sideOf] at hs
      have : (BitVec.ofNat 6 n).toNat = n := by simp; omega
      omega
    · cases h
  · cases h

/-- The version `readVersion` reads, where none is cached, belongs to the side of the grid (R283). -/
theorem readVersion_range (p : Parser) (v : BitVec 6) (hd : 21 ≤ p.dim) (hd' : p.dim ≤ 177) (hm : p.dim % 4 = 1)
    (hc : p.version = none) (h : p.readVersion = .ok v) : 1 ≤ v.toNat ∧ v.toNat ≤ 40 ∧ 17 + 4 * v.toNat = p.dim := by
  unfold Parser.readVersion at h
  rw [hc] at h
  simp only at h
  split at h
  · cases h
    rename_i hs
    simp only [Parser.sideVersion] at *
    have : (BitVec.ofNat 6 ((p.dim - 17) / 4)).toNat = (p.dim - 17) / 4 := by simp; omega
    omega
  · split at h
    · rename_i w hw
      cases h
      have := accept_range _ _ _ hw
      omega
    · split at h
      · rename_i w hw
        cases h
        have := accept_range _ _ _ hw
        omega
      · cases h

/-! ### Codewords and blocks -/

theorem totalCodewords_le (v : Nat) : totalCodewords v ≤ 3706 := by
  by_cases h : v < 41
  · have : ∀ v < 41, totalCodewords v ≤ 3706 := by decide +kernel
    exact this v h
  · have : ecTable.length = 40 := by decide
    simp [totalCodewords, ecRow, List.getD, List.getElem?_eq_none (show ecTable.length ≤ v - 1 by omega)]

theorem codewords_ok (p : Parser) (v : Nat) (out : List Byte) (h : p.codewords v = .ok out) :
    out = p.rawCodewords v ∧ out.length = totalCodewords v := by
  unfold Parser.codewords at h
  simp only at h
  split at h
  · cases h
  · rename_i hl
    cases h
    exact ⟨rfl, by simpa using hl⟩

/-- The data codewords of a version and level are no more than its codewords. -/
theorem sum_blockSizes_le (v : Nat) (level : EcLevel) : (blockSizes ((ecRow v).cell level)).sum ≤ 3706 := by
  by_cases h : v < 41
  · have : ∀ v < 41, ∀ k ∈ [EcLevel.l, .m, .q, .h], (blockSizes ((ecRow v).cell k)).sum ≤ 3706 := by decide +kernel
    exact this v h level (by cases level <;> simp)
  · have : ecTable.length = 40 := by decide
    have hr : ecRow v = ⟨0, ⟨0, []⟩, ⟨0, []⟩, ⟨0, []⟩, ⟨0, []⟩⟩ := by
      simp [ecRow, List.getD, List.getElem?_eq_none (show ecTable.length ≤ v - 1 by omega)]
    cases level <;> simp [hr, EcRow.cell, blockSizes]

theorem dataBlocks_ok (raw : List Byte) (v : Nat) (level : EcLevel) (bs : List (Nat × List Byte))
    (h : dataBlocks raw v level = .ok bs) :
    raw.length = totalCodewords v ∧ bs.map (·.1) = blockSizes ((ecRow v).cell level) := by
  unfold dataBlocks at h
  split at h
  · cases h
  · rename_i hl
    cases h
    refine ⟨by simpa using hl, ?_⟩
    rw [List.map_map, show ((fun x => x.1) ∘ fun p : Nat × Nat => (p.1, blockOf raw ((ecRow v).cell level).ec
      (blockSizes ((ecRow v).cell level)).length
      ((List.takeWhile (fun n => decide (n ≤ (blockSizes ((ecRow v).cell level)).headD 0))
        (blockSizes ((ecRow v).cell level))).length)
      ((blockSizes ((ecRow v).cell level)).headD 0) p.2 p.1)) = Prod.fst from rfl]
    simp

/-- The data of the blocks are no more than their data codewords; only a block's error ends the loop (R289, R335). -/
theorem decodeBlocks_cases (bs : List (Nat × List Byte)) :
    (∃ data n, decodeBlocks bs = .ok (data, n) ∧ data.length ≤ (bs.map (·.1)).sum) ∨
    ∃ e, decodeBlocks bs = .error (.checksum e) := by
  induction bs with
  | nil => exact .inl ⟨[], 0, rfl, by simp⟩
  | cons b rest ih =>
    obtain ⟨nd, buf⟩ := b
    simp only [decodeBlocks]
    cases hd : decodeWithECCount buf (buf.length - nd) with
    | error e => exact .inr ⟨e, rfl⟩
    | ok r =>
      obtain ⟨word, n⟩ := r
      rcases ih with ⟨data, m, h, hl⟩ | ⟨e, h⟩
      · refine .inl ⟨word.take nd ++ data, n + m, by simp [h, bind, Except.bind], ?_⟩
        simp only [List.length_append, List.length_take, List.map_cons, List.sum_cons]
        omega
      · exact .inr ⟨e, by simp [h, bind, Except.bind]⟩

theorem dataBlocks_cases (raw : List Byte) (v : Nat) (level : EcLevel) :
    (∃ bs, dataBlocks raw v level = .ok bs) ∨ dataBlocks raw v level = .error (.format .cwCount) := by
  unfold dataBlocks
  split
  · exact .inr rfl
  · exact .inl ⟨_, rfl⟩

end Sys2Proof.Machine
end

