-- ==== Sys2Proof/Laws/Detect.lean ====
section
/-! SUPPORT. What the steps of the detector can do: the candidate lists within their capacities, and the parts of the state
each step writes. -/

namespace Sys2Proof.Machine

/-! ### Finder candidates -/

/-- A candidate list within its capacity, every count at least 1 (R220, R251). -/
def CandsOk (cap : Nat) (l : List FinderCand) : Prop := l.length ≤ cap ∧ ∀ c ∈ l, 1 ≤ c.count

theorem combineEstimate_ok (c c' : FinderCand) (i j ms : F64) (h : combineEstimate c i j ms = .ok c') :
    c'.count = c.count + 1 := by
  obtain ⟨_, _, h⟩ := bind_ok h
  obtain ⟨_, _, h⟩ := bind_ok h
  obtain ⟨_, _, h⟩ := bind_ok h
  cases h; rfl

theorem mergeCand_ok (cap : Nat) (i j ms : F64) (l l' : List FinderCand) (hl : CandsOk cap l)
    (h : mergeCand cap i j ms l = .ok l') : CandsOk cap l' := by
  unfold mergeCand at h
  split at h
  · split at h
    · rename_i k hk c hc
      obtain ⟨c', h1, h⟩ := bind_ok h
      cases h
      refine ⟨by simpa using hl.1, fun d hd => ?_⟩
      rcases List.mem_or_eq_of_mem_set hd with hd | rfl
      · exact hl.2 d hd
      · rw [combineEstimate_ok c _ i j ms h1]; omega
    · cases h; exact hl
  · split at h
    · rename_i hlt
      cases h
      refine ⟨by simp only [List.length_append, List.length_singleton]; omega, fun d hd => ?_⟩
      simp only [List.mem_append, List.mem_singleton] at hd
      rcases hd with hd | rfl
      · exact hl.2 d hd
      · simp
    · cases h

theorem handlePossibleCenter_ok (im : BitMatrix) (cap : Nat) (l l' : List FinderCand) (s : Runs5) (i j : Int)
    (hl : CandsOk cap l) (h : handlePossibleCenter im cap l s i j = .ok (some l')) : CandsOk cap l' := by
  obtain ⟨cJ0, _, h⟩ := bind_ok h
  split at h
  · cases h
  · obtain ⟨cIi, _, h⟩ := bind_ok h
    split at h
    · cases h
    · obtain ⟨cJi, _, h⟩ := bind_ok h
      split at h
      · cases h
      · obtain ⟨ms, _, h⟩ := bind_ok h
        obtain ⟨l'', h1, h⟩ := bind_ok h
        cases h
        exact mergeCand_ok cap _ _ _ l _ hl h1

theorem tryCentre_ok (c : Scan) (im : BitMatrix) (cap : Nat) (j : Int) (l : List FinderCand) (hl : CandsOk cap c.fcand)
    (h : c.tryCentre im cap j = .ok (some l)) : CandsOk cap l := by
  unfold Scan.tryCentre at h
  split at h
  · exact handlePossibleCenter_ok im cap _ _ _ _ _ hl h
  · cases h

theorem afterCentre_ok (c d : Scan) (h : c.afterCentre = .ok d) : d.fcand = c.fcand := by
  unfold Scan.afterCentre at h
  obtain ⟨e, h1, h⟩ := bind_ok h
  cases h
  simp only at h1 ⊢
  split at h1
  · obtain ⟨_, _, h1⟩ := bind_ok h1
    cases h1; rfl
  · obtain ⟨⟨rs, b⟩, _, h1⟩ := bind_ok h1
    simp only at h1
    split at h1 <;> (cases h1; rfl)

theorem pixel_ok (c : Scan) (im : BitMatrix) (cap j : Nat) (hl : CandsOk cap c.fcand) :
    CandsOk cap (c.pixel im cap j).1.fcand := by
  unfold Scan.pixel
  split
  · exact hl
  · split
    · exact hl
    · split
      · exact hl
      · split
        · exact hl
        · rename_i l hl'
          have := tryCentre_ok c im cap j l hl hl'
          simp only
          split
          · exact this
          · rename_i d hd
            rw [afterCentre_ok _ d hd]
            exact this
        · exact hl

theorem pixels_ok (im : BitMatrix) (cap n j : Nat) (c : Scan) (hl : CandsOk cap c.fcand) :
    CandsOk cap (Scan.pixels im cap n j c).1.fcand := by
  induction n generalizing j c with
  | zero => exact hl
  | succ n ih =>
    have hp := pixel_ok c im cap j hl
    simp only [Scan.pixels]
    split
    · exact hl
    · split
      · rename_i d hd
        rw [hd] at hp
        exact ih _ _ hp
      · rename_i d e hd
        rw [hd] at hp
        exact hp

theorem endOfRow_ok (c : Scan) (im : BitMatrix) (cap : Nat) (hl : CandsOk cap c.fcand) :
    CandsOk cap (c.endOfRow im cap).1.fcand := by
  unfold Scan.endOfRow
  split
  · exact hl
  · exact hl
  · rename_i l hl'
    have := tryCentre_ok c im cap im.w l hl hl'
    simp only
    split
    · split <;> exact this
    · exact this

theorem rows_ok (im : BitMatrix) (cap n : Nat) (c : Scan) (hl : CandsOk cap c.fcand) :
    CandsOk cap (Scan.rows im cap n c).1.fcand := by
  induction n generalizing c with
  | zero => exact hl
  | succ n ih =>
    simp only [Scan.rows]
    split
    · exact hl
    · have hp := pixels_ok im cap im.w 0 { c with s := Runs5.zero, st := 0, rowOver := false } hl
      split
      · rename_i d e hd
        rw [hd] at hp; exact hp
      · rename_i d hd
        rw [hd] at hp
        have he := endOfRow_ok d im cap hp
        split
        · rename_i d' e' hd'
          rw [hd'] at he; exact he
        · rename_i d' hd'
          rw [hd'] at he
          exact ih _ he

/-- The scan keeps the candidate list within its capacity. -/
theorem findFinderScan_ok (im : BitMatrix) (cap : Nat) (tryHarder : Bool) :
    CandsOk cap (findFinderScan im cap tryHarder).1.fcand :=
  rows_ok im cap im.h _ ⟨Nat.zero_le _, by simp⟩

/-! ### Alignment candidates -/

theorem handlePossibleCenterA_ok (im : BitMatrix) (cap : Nat) (ms : F64) (l l' : List AlignCand) (s : Runs3) (i j : Int)
    (hl : l.length ≤ cap) (h : handlePossibleCenterA im cap ms l s i j = .ok (.continue l')) : l'.length ≤ cap := by
  obtain ⟨cJi, _, h⟩ := bind_ok h
  split at h
  · cases h; exact hl
  · obtain ⟨ems, _, h⟩ := bind_ok h
    simp only at h
    split at h
    · obtain ⟨_, _, h⟩ := bind_ok h
      obtain ⟨_, _, h⟩ := bind_ok h
      obtain ⟨_, _, h⟩ := bind_ok h
      cases h
    · split at h
      · cases h
        simp only [List.length_append, List.length_singleton]; omega
      · cases h

theorem look_ok (a : AlignScan) (im : BitMatrix) (cap : Nat) (ms : F64) (s : Runs3) (i j : Int)
    (hl : a.acand.length ≤ cap) : (a.look im cap ms s i j).acand.length ≤ cap := by
  unfold AlignScan.look
  split
  · split
    · exact hl
    · exact hl
    · rename_i l h
      exact handlePossibleCenterA_ok im cap ms _ l s i j hl h
  · exact hl

theorem columns_ok (im : BitMatrix) (cap : Nat) (ms : F64) (i : Int) (n : Nat) (j : Int) (s : Runs3) (st : Nat)
    (a : AlignScan) (hl : a.acand.length ≤ cap) :
    (AlignScan.columns im cap ms i n j s st a).1.acand.length ≤ cap := by
  induction n generalizing j s st a with
  | zero => exact hl
  | succ n ih =>
    simp only [AlignScan.columns]
    split
    · split
      · exact ih _ _ _ _ hl
      · split
        · have := look_ok a im cap ms s i j hl
          split
          · exact this
          · exact ih _ _ _ _ this
        · exact ih _ _ _ _ hl
    · exact ih _ _ _ _ hl

theorem row_ok (a : AlignScan) (im : BitMatrix) (cap : Nat) (ms : F64) (startX width i : Int)
    (hl : a.acand.length ≤ cap) : (a.row im cap ms startX width i).acand.length ≤ cap := by
  unfold AlignScan.row
  simp only
  have := columns_ok im cap ms i
    (width.toNat - countWhile (fun k => !im.px (startX + k) i) width.toNat 0)
    (startX + countWhile (fun k => !im.px (startX + k) i) width.toNat 0) ⟨0, 0, 0⟩ 0 a hl
  split
  · exact this
  · exact look_ok _ im cap ms _ i _ this

theorem rounds_ok (im : BitMatrix) (cap : Nat) (ms : F64) (startX width middleI : Int) (gs : List Nat) (a : AlignScan)
    (hl : a.acand.length ≤ cap) : (AlignScan.rounds im cap ms startX width middleI gs a).acand.length ≤ cap := by
  induction gs generalizing a with
  | nil => exact hl
  | cons g gs ih =>
    simp only [AlignScan.rounds]
    have := row_ok a im cap ms startX width (alignRow middleI g) hl
    split
    · exact this
    · exact ih _ this

/-- The search keeps the candidate list within its capacity (R263). -/
theorem alignInRegion_ok (im : BitMatrix) (cap : Nat) (l : List AlignCand) (ms : F64) (estX estY : Int) (f : Nat)
    (hl : l.length ≤ cap) : (alignInRegion im cap l ms estX estY f).1.length ≤ cap := by
  unfold alignInRegion
  split
  · exact hl
  · rename_i left top width height _
    unfold findAlign
    have := rounds_ok im cap ms left width (top + Int.tdiv height 2) (List.range height.toNat) ⟨[], none⟩ (by simp)
    simp only
    split
    · exact this
    · rename_i _ _ h
      rw [h] at this; exact this
    · simp

/-! ### The steps -/

/-- Everything the finder step can do (R255, R201). -/
theorem finderStep_cases (s : State) :
    ∃ l b n g k w1 w2 w3, (finderStep s).1 = { s with
      fcand := l, hasSkipped := b, findNcand := n, f := g, draws := k, fpcBl := w1, fpcTl := w2, fpcTr := w3 } ∧
      CandsOk s.params.maxFinderCand l ∧ ∀ j, j < 34 ∨ 43 ≤ j → (finderStep s).1.fbits j = s.fbits j := by
  have hc := findFinderScan_ok s.image s.params.maxFinderCand s.ctrl.tryHarder
  unfold finderStep State.finderScan
  generalize findFinderScan s.image s.params.maxFinderCand s.ctrl.tryHarder = r at *
  obtain ⟨c, e⟩ := r
  cases e with
  | some e =>
    simp only
    by_cases hn : ncandWritten (some e) = true
    · simp only [hn, if_true]
      exact ⟨_, _, _, _, _, _, _, _, rfl, hc, fun _ _ => rfl⟩
    · simp only [hn]
      exact ⟨_, _, _, _, _, _, _, _, rfl, hc, fun _ _ => rfl⟩
  | none =>
    simp only [ncandWritten, if_true]
    cases hs : selectBestPatterns c.fcand with
    | error e => exact ⟨_, _, _, _, _, _, _, _, rfl, hc, fun _ _ => rfl⟩
    | ok t =>
      simp only [computing_ok, State.putFinder]
      obtain ⟨g, n, hg⟩ := setFs_cases [t.1.x, t.1.y, t.1.ms, t.2.1.x, t.2.1.y, t.2.1.ms, t.2.2.x, t.2.2.y, t.2.2.ms]
        { s with fcand := c.fcand, hasSkipped := c.hasSkipped, findNcand := Word.ofNat c.fcand.length } fBL
      refine ⟨c.fcand, c.hasSkipped, Word.ofNat c.fcand.length, g, n, _, _, _, by rw [hg], hc, fun j hj => ?_⟩
      exact fbits_setFs_outside _ { s with
        fcand := c.fcand, hasSkipped := c.hasSkipped, findNcand := Word.ofNat c.fcand.length } fBL j (by simpa using hj)

/-- Everything the writes of a found alignment pattern can do (R201, R266). -/
theorem putAlign_cases (s : State) (c : AlignCand) :
    ∃ g n, s.putAlign c = { s with f := g, draws := n, apValid := true } ∧
      ∀ j, j < 43 ∨ 46 ≤ j → (s.putAlign c).fbits j = s.fbits j := by
  obtain ⟨g, n, hg⟩ := setFs_cases [c.x, c.y, c.ms] s fAP
  exact ⟨g, n, by rw [State.putAlign, hg],
    fun j hj => fbits_setFs_outside [c.x, c.y, c.ms] s fAP j (by simpa using hj)⟩

/-- Everything the tries of R189 can do. -/
theorem alignTries_cases (ms : F64) (estX estY : Int) (fs : List Nat) (s : State) :
    ∃ l g n b, (alignTries ms estX estY fs s).1 = { s with acand := l, f := g, draws := n, apValid := b } ∧
      (s.acand.length ≤ s.params.maxAlignCand → l.length ≤ s.params.maxAlignCand) ∧
      ∀ j, j < 43 ∨ 46 ≤ j → (alignTries ms estX estY fs s).1.fbits j = s.fbits j := by
  induction fs generalizing s with
  | nil => exact ⟨_, _, _, _, rfl, id, fun _ _ => rfl⟩
  | cons f fs ih =>
    have h := alignInRegion_ok s.image s.params.maxAlignCand s.acand ms estX estY f
    simp only [alignTries, State.alignSearch]
    generalize alignInRegion s.image s.params.maxAlignCand s.acand ms estX estY f = r at *
    obtain ⟨l, v⟩ := r
    cases v with
    | ok c =>
      obtain ⟨g, n, hg, hj⟩ := putAlign_cases { s with acand := l } c
      exact ⟨l, g, n, true, hg, h, hj⟩
    | error e =>
      cases e with
      | notFound d =>
        obtain ⟨l', g, n, b, hr, hl', hj⟩ := ih { s with acand := l }
        exact ⟨l', g, n, b, hr, fun hs => hl' (h hs), hj⟩
      | format d => exact ⟨_, _, _, _, rfl, h, fun _ _ => rfl⟩
      | checksum d => exact ⟨_, _, _, _, rfl, h, fun _ _ => rfl⟩
      | rsInternal d => exact ⟨_, _, _, _, rfl, h, fun _ _ => rfl⟩
      | illegalCmd d => exact ⟨_, _, _, _, rfl, h, fun _ _ => rfl⟩
      | argRange d => exact ⟨_, _, _, _, rfl, h, fun _ _ => rfl⟩
      | capacity d => exact ⟨_, _, _, _, rfl, h, fun _ _ => rfl⟩

/-- Everything the alignment step can do (R189, R201). -/
theorem alignStep_cases (ms : F64) (d v : Nat) (s : State) :
    ∃ l g n b, (alignStep ms d v s).1 = { s with acand := l, f := g, draws := n, apValid := b } ∧
      (s.acand.length ≤ s.params.maxAlignCand → l.length ≤ s.params.maxAlignCand) ∧ ∀ j, j < 43 ∨ 46 ≤ j → (alignStep ms d v s).1.fbits j = s.fbits j := by
  unfold alignStep
  simp only
  split
  · exact ⟨_, _, _, _, rfl, id, fun _ _ => rfl⟩
  · cases alignEstimate (State.pt { s with apValid := false } fTL) (State.pt { s with apValid := false } fTR)
      (State.pt { s with apValid := false } fBL) d with
    | error e => exact ⟨_, _, _, _, rfl, id, fun _ _ => rfl⟩
    | ok e =>
      obtain ⟨l, g, n, b, h, hl', hj⟩ := alignTries_cases ms e.1 e.2 [4, 8, 16] { s with apValid := false }
      exact ⟨l, g, n, b, h, hl', hj⟩

/-- Everything the writes of a sampled grid can do (R197, R201). -/
theorem putGrid_cases (s : State) (w h : Nat) (rows : List (List Bool)) (hw : w ≤ 177) (hh : h ≤ 177) :
    ∃ m, s.putGrid w h rows = { s with mem := m, gridW := Word.ofNat w, gridH := Word.ofNat h } ∧
      MemWrote s.mem m 0x8000 4096 :=
  ⟨_, rfl, putMatrix_wrote s Window.grid.base w h _ hw hh⟩

end Sys2Proof.Machine
end

