-- ==== Sys2Proof/Laws/Float.lean ====
section
/-! SUPPORT. Laws of binary64 arithmetic that the rules of the pattern engine rest on: the symmetry of a distance, and the
total order of the values that are no NaN. -/

namespace Sys2Proof

theorem F64.neg_pack (s : Bool) (m : Nat) (e : Int) : F64.neg (F64.pack s m e) = F64.pack (!s) m e := by
  unfold F64.pack; split <;> rfl

theorem F64.neg_round (s : Bool) (m : Nat) (e : Int) : F64.neg (F64.round s m e) = F64.round (!s) m e := by
  unfold F64.round
  split
  · rfl
  · dsimp only
    split
    · exact F64.neg_pack ..
    · split <;> exact F64.neg_pack ..

theorem F64.units_not (s : Bool) (m : Nat) (e g : Int) : F64.units (!s) m e g = -F64.units s m e g := by
  cases s <;> simp [F64.units]

theorem F64.mul_neg_neg (a b : F64) : F64.mul (F64.neg a) (F64.neg b) = F64.mul a b := by
  cases a <;> cases b <;> simp [F64.mul, F64.neg]

theorem F64.mul_comm (a b : F64) : F64.mul a b = F64.mul b a := by
  cases a <;> cases b <;> simp [F64.mul, Bool.xor_comm, Nat.mul_comm, Int.add_comm]

/-- A difference and its opposite are opposite, but for the sign of a zero. -/
theorem F64.sub_swap (a b : F64) :
    F64.sub b a = F64.neg (F64.sub a b) ∨ ∃ s t, F64.sub a b = F64.zero s ∧ F64.sub b a = F64.zero t := by
  cases a with
  | nan => cases b <;> exact .inl rfl
  | inf s =>
    cases b with
    | nan => exact .inl rfl
    | inf t => cases s <;> cases t <;> exact .inl rfl
    | fin t n f => exact .inl (by simp [F64.sub, F64.add, F64.neg])
  | fin s m e =>
    cases b with
    | nan => exact .inl rfl
    | inf t => exact .inl (by simp [F64.sub, F64.add, F64.neg])
    | fin t n f =>
      have hz : F64.units t n f (min f e) + F64.units (!s) m e (min f e) =
          -(F64.units s m e (min e f) + F64.units (!t) n f (min e f)) := by
        rw [F64.units_not, F64.units_not, Int.min_comm f e]; omega
      simp only [F64.sub, F64.neg, F64.add, hz]
      rw [Int.min_comm f e]
      generalize F64.units s m e (min e f) + F64.units (!t) n f (min e f) = z
      by_cases h0 : z = 0
      · exact .inr ⟨_, _, by rw [if_pos h0], by rw [if_pos (by omega)]⟩
      · refine .inl ?_
        rw [if_neg h0, if_neg (by omega)]
        change _ = F64.neg (F64.round (decide (z < 0)) z.natAbs (min e f))
        rw [F64.neg_round, Int.natAbs_neg]
        congr 1
        by_cases h : z < 0 <;> simp [h] <;> omega

theorem F64.sub_square_swap (a b : F64) :
    F64.mul (F64.sub a b) (F64.sub a b) = F64.mul (F64.sub b a) (F64.sub b a) := by
  rcases F64.sub_swap a b with h | ⟨s, t, h1, h2⟩
  · rw [h, F64.mul_neg_neg]
  · rw [h1, h2]; cases s <;> cases t <;> rfl

/-- Of a difference and its opposite, not both are below 0. -/
theorem F64.sub_swap_not_neg (a b : F64) (h : F64.lt (F64.sub a b) (F64.zero false) = true) :
    F64.lt (F64.sub b a) (F64.zero false) = false := by
  rcases F64.sub_swap a b with h' | ⟨s, t, h1, h2⟩
  · rw [h']
    revert h
    cases F64.sub a b with
    | nan => exact fun _ => rfl
    | inf s => cases s <;> simp [F64.lt, F64.zero, F64.neg]
    | fin s m e =>
      simp only [F64.lt, F64.zero, F64.neg, F64.units_not, decide_eq_true_eq, decide_eq_false_iff_not]
      simp only [F64.units, Nat.zero_shiftLeft]
      intro h; simp at h ⊢; omega
  · rw [h2]; cases t <;> decide

/-! ### Order -/

theorem F64.units_scale (s : Bool) (m : Nat) (e g g' : Int) (h1 : g' ≤ g) (h2 : g ≤ e) :
    F64.units s m e g' = F64.units s m e g * 2 ^ (g - g').toNat := by
  have : (e - g').toNat = (e - g).toNat + (g - g').toNat := by omega
  simp only [F64.units, this, Nat.shiftLeft_eq, Nat.pow_add, ← Nat.mul_assoc]
  cases s <;> simp

/-- `<=` of two finite values, in any unit fine enough for both. -/
theorem F64.le_fin (s t : Bool) (m n : Nat) (e f g : Int) (h1 : g ≤ e) (h2 : g ≤ f) :
    F64.le (.fin s m e) (.fin t n f) = decide (F64.units s m e g ≤ F64.units t n f g) := by
  have hp : (0 : Int) < 2 ^ (min e f - g).toNat := by positivity
  rw [F64.units_scale s m e (min e f) g (by omega) (by omega), F64.units_scale t n f (min e f) g (by omega) (by omega)]
  simp only [F64.le, F64.lt, F64.eq, mul_le_mul_iff_left₀ hp]
  by_cases h : F64.units s m e (min e f) ≤ F64.units t n f (min e f)
  · rcases lt_or_eq_of_le h with h' | h' <;> simp [h, h']
  · simp [h]; omega

theorem F64.le_total (a b : F64) (ha : a.isNaN = false) (hb : b.isNaN = false) : F64.le a b = true ∨ F64.le b a = true := by
  cases a with
  | nan => cases ha
  | inf s =>
    cases b with
    | nan => cases hb
    | inf t => cases s <;> cases t <;> simp [F64.le, F64.lt, F64.eq]
    | fin t n f => cases s <;> simp [F64.le, F64.lt, F64.eq]
  | fin s m e =>
    cases b with
    | nan => cases hb
    | inf t => cases t <;> simp [F64.le, F64.lt, F64.eq]
    | fin t n f =>
      rw [F64.le_fin s t m n e f (min e f) (by omega) (by omega), F64.le_fin t s n m f e (min e f) (by omega) (by omega)]
      simp only [decide_eq_true_eq]; omega

theorem F64.le_trans (a b c : F64) (h1 : F64.le a b = true) (h2 : F64.le b c = true) : F64.le a c = true := by
  cases a with
  | nan => cases h1
  | inf s =>
    cases b with
    | nan => cases s <;> cases h1
    | inf t =>
      cases c with
      | nan => cases t <;> cases h2
      | inf u => revert h1 h2; cases s <;> cases t <;> cases u <;> simp [F64.le, F64.lt, F64.eq]
      | fin u n f => revert h1 h2; cases s <;> cases t <;> simp [F64.le, F64.lt, F64.eq]
    | fin t n f =>
      cases c with
      | nan => cases h2
      | inf u => revert h1 h2; cases s <;> cases u <;> simp [F64.le, F64.lt, F64.eq]
      | fin u n f => revert h1; cases s <;> simp [F64.le, F64.lt, F64.eq]
  | fin s m e =>
    cases b with
    | nan => cases h1
    | inf t =>
      cases c with
      | nan => cases t <;> cases h2
      | inf u => revert h1 h2; cases t <;> cases u <;> simp [F64.le, F64.lt, F64.eq]
      | fin u n f => revert h1 h2; cases t <;> simp [F64.le, F64.lt, F64.eq]
    | fin t n f =>
      cases c with
      | nan => cases h2
      | inf u => revert h1 h2; cases u <;> simp [F64.le, F64.lt, F64.eq]
      | fin u k g =>
        rw [F64.le_fin s t m n e f (min e (min f g)) (by omega) (by omega)] at h1
        rw [F64.le_fin t u n k f g (min e (min f g)) (by omega) (by omega)] at h2
        rw [F64.le_fin s u m k e g (min e (min f g)) (by omega) (by omega)]
        simp only [decide_eq_true_eq] at *; omega

/-! ### Distances -/

/-- A value that is no NaN and has no sign. -/
def F64.unsigned : F64 → Prop
  | .nan => False
  | .inf s => s = false
  | .fin s _ _ => s = false

theorem F64.pack_unsigned (m : Nat) (e : Int) : (F64.pack false m e).unsigned := by
  unfold F64.pack; split <;> rfl

theorem F64.round_unsigned (m : Nat) (e : Int) : (F64.round false m e).unsigned := by
  unfold F64.round
  split
  · rfl
  · dsimp only
    split
    · exact F64.pack_unsigned ..
    · split <;> exact F64.pack_unsigned ..

theorem F64.pack_not_nan (s : Bool) (m : Nat) (e : Int) : (F64.pack s m e).isNaN = false := by
  unfold F64.pack; split <;> rfl

theorem F64.round_not_nan (s : Bool) (m : Nat) (e : Int) : (F64.round s m e).isNaN = false := by
  unfold F64.round
  split
  · rfl
  · dsimp only
    split
    · exact F64.pack_not_nan ..
    · split <;> exact F64.pack_not_nan ..

theorem F64.sub_not_nan (a b : F64) (ha : a.isFinite = true) (hb : b.isFinite = true) : (F64.sub a b).isNaN = false := by
  cases a <;> cases b <;> simp [F64.isFinite] at ha hb
  simp only [F64.sub, F64.neg, F64.add]
  split
  · rfl
  · exact F64.round_not_nan ..

theorem F64.square_unsigned (a : F64) (ha : a.isNaN = false) : (F64.mul a a).unsigned := by
  cases a with
  | nan => cases ha
  | inf s => cases s <;> rfl
  | fin s m e => simpa [F64.mul] using F64.round_unsigned ..

theorem F64.add_unsigned (a b : F64) (ha : a.unsigned) (hb : b.unsigned) : (F64.add a b).unsigned := by
  cases a with
  | nan => exact ha.elim
  | inf s => cases b <;> simp_all [F64.add, F64.unsigned]
  | fin s m e =>
    cases b with
    | nan => exact hb.elim
    | inf t => exact hb
    | fin t n f =>
      cases ha; cases hb
      simp only [F64.add]
      split
      · rfl
      · have h1 : 0 ≤ F64.units false m e (min e f) := Int.natCast_nonneg _
        have h2 : 0 ≤ F64.units false n f (min e f) := Int.natCast_nonneg _
        rw [decide_eq_false (by omega)]
        exact F64.round_unsigned ..

theorem F64.sqrt_unsigned (a : F64) (ha : a.unsigned) : (F64.sqrt a).unsigned := by
  cases a with
  | nan => exact ha
  | inf s => cases ha; rfl
  | fin s m e =>
    cases ha
    unfold F64.sqrt
    by_cases h : m = 0
    · simp only [if_pos h]; rfl
    · simp only [if_neg h, Bool.false_eq_true, if_false]; exact F64.round_unsigned _ _

namespace Machine

theorem distance_comm (ax ay bx by' : F64) : distance ax ay bx by' = distance bx by' ax ay := by
  simp only [distance, F64.sub_square_swap ax bx, F64.sub_square_swap ay by']

/-- The distance of two points with finite coordinates is a number: 0, positive or infinite. -/
theorem distance_unsigned (ax ay bx by' : F64) (h1 : ax.isFinite = true) (h2 : ay.isFinite = true) (h3 : bx.isFinite = true)
    (h4 : by'.isFinite = true) : (distance ax ay bx by').unsigned :=
  F64.sqrt_unsigned _ (F64.add_unsigned _ _ (F64.square_unsigned _ (F64.sub_not_nan _ _ h1 h3))
    (F64.square_unsigned _ (F64.sub_not_nan _ _ h2 h4)))

theorem distance_not_nan (ax ay bx by' : F64) (h1 : ax.isFinite = true) (h2 : ay.isFinite = true) (h3 : bx.isFinite = true)
    (h4 : by'.isFinite = true) : (distance ax ay bx by').isNaN = false := by
  have h := distance_unsigned ax ay bx by' h1 h2 h3 h4
  revert h
  cases distance ax ay bx by' <;> simp [F64.unsigned, F64.isNaN]

end Machine

end Sys2Proof
end

