-- ==== Sys2Proof/Laws/PerInstr.lean ====
section
/-! SUPPORT. The families of facts proved once per command. -/

/-- Bits 31:12 of the word of a well-formed command are zero (R76). -/
def Sys2Proof.Laws.ReservedBitsZero.Statement (i : Sys2Proof.Instr) : Prop :=
  i.wellFormed = true → (Sys2Proof.encode i).toNat < 4096

/-- An opcode has 8 bits (R76). -/
theorem Sys2Proof.Laws.opcode_lt (i : Sys2Proof.Instr) : i.opcode < 256 := by
  cases i <;> simp only [Sys2Proof.Instr.opcode] <;> decide

/-- The word of a command fits 12 bits: its selector has 4, its opcode 8. -/
theorem Sys2Proof.Laws.encode_lt (i : Sys2Proof.Instr) : (Sys2Proof.encode i).toNat < 4096 := by
  have := Sys2Proof.Laws.opcode_lt i
  simp only [Sys2Proof.encode, BitVec.toNat_ofNat]
  omega

theorem Sys2Proof.Laws.ReservedBitsZero.nop : Sys2Proof.Laws.ReservedBitsZero.Statement .nop :=
  fun _ => Sys2Proof.Laws.encode_lt _
theorem Sys2Proof.Laws.ReservedBitsZero.clear : Sys2Proof.Laws.ReservedBitsZero.Statement .clear :=
  fun _ => Sys2Proof.Laws.encode_lt _
theorem Sys2Proof.Laws.ReservedBitsZero.gfAdd : Sys2Proof.Laws.ReservedBitsZero.Statement .gfAdd :=
  fun _ => Sys2Proof.Laws.encode_lt _
theorem Sys2Proof.Laws.ReservedBitsZero.gfMul : Sys2Proof.Laws.ReservedBitsZero.Statement .gfMul :=
  fun _ => Sys2Proof.Laws.encode_lt _
theorem Sys2Proof.Laws.ReservedBitsZero.gfInv : Sys2Proof.Laws.ReservedBitsZero.Statement .gfInv :=
  fun _ => Sys2Proof.Laws.encode_lt _
theorem Sys2Proof.Laws.ReservedBitsZero.gfExp : Sys2Proof.Laws.ReservedBitsZero.Statement .gfExp :=
  fun _ => Sys2Proof.Laws.encode_lt _
theorem Sys2Proof.Laws.ReservedBitsZero.gfLog : Sys2Proof.Laws.ReservedBitsZero.Statement .gfLog :=
  fun _ => Sys2Proof.Laws.encode_lt _
theorem Sys2Proof.Laws.ReservedBitsZero.pAdd (sel : Nat) : Sys2Proof.Laws.ReservedBitsZero.Statement (.pAdd sel) :=
  fun _ => Sys2Proof.Laws.encode_lt _
theorem Sys2Proof.Laws.ReservedBitsZero.pMul (sel : Nat) : Sys2Proof.Laws.ReservedBitsZero.Statement (.pMul sel) :=
  fun _ => Sys2Proof.Laws.encode_lt _
theorem Sys2Proof.Laws.ReservedBitsZero.pScale (sel : Nat) : Sys2Proof.Laws.ReservedBitsZero.Statement (.pScale sel) :=
  fun _ => Sys2Proof.Laws.encode_lt _
theorem Sys2Proof.Laws.ReservedBitsZero.pMulmono (sel : Nat) : Sys2Proof.Laws.ReservedBitsZero.Statement (.pMulmono sel) :=
  fun _ => Sys2Proof.Laws.encode_lt _
theorem Sys2Proof.Laws.ReservedBitsZero.pMono (sel : Nat) : Sys2Proof.Laws.ReservedBitsZero.Statement (.pMono sel) :=
  fun _ => Sys2Proof.Laws.encode_lt _
theorem Sys2Proof.Laws.ReservedBitsZero.pEval (sel : Nat) : Sys2Proof.Laws.ReservedBitsZero.Statement (.pEval sel) :=
  fun _ => Sys2Proof.Laws.encode_lt _
theorem Sys2Proof.Laws.ReservedBitsZero.rsSynd : Sys2Proof.Laws.ReservedBitsZero.Statement .rsSynd :=
  fun _ => Sys2Proof.Laws.encode_lt _
theorem Sys2Proof.Laws.ReservedBitsZero.rsEuclid : Sys2Proof.Laws.ReservedBitsZero.Statement .rsEuclid :=
  fun _ => Sys2Proof.Laws.encode_lt _
theorem Sys2Proof.Laws.ReservedBitsZero.rsChien : Sys2Proof.Laws.ReservedBitsZero.Statement .rsChien :=
  fun _ => Sys2Proof.Laws.encode_lt _
theorem Sys2Proof.Laws.ReservedBitsZero.rsForney : Sys2Proof.Laws.ReservedBitsZero.Statement .rsForney :=
  fun _ => Sys2Proof.Laws.encode_lt _
theorem Sys2Proof.Laws.ReservedBitsZero.rsCorrect : Sys2Proof.Laws.ReservedBitsZero.Statement .rsCorrect :=
  fun _ => Sys2Proof.Laws.encode_lt _
theorem Sys2Proof.Laws.ReservedBitsZero.rsDecode : Sys2Proof.Laws.ReservedBitsZero.Statement .rsDecode :=
  fun _ => Sys2Proof.Laws.encode_lt _
theorem Sys2Proof.Laws.ReservedBitsZero.ptSq2q : Sys2Proof.Laws.ReservedBitsZero.Statement .ptSq2q :=
  fun _ => Sys2Proof.Laws.encode_lt _
theorem Sys2Proof.Laws.ReservedBitsZero.ptQ2sq : Sys2Proof.Laws.ReservedBitsZero.Statement .ptQ2sq :=
  fun _ => Sys2Proof.Laws.encode_lt _
theorem Sys2Proof.Laws.ReservedBitsZero.ptQ2q : Sys2Proof.Laws.ReservedBitsZero.Statement .ptQ2q :=
  fun _ => Sys2Proof.Laws.encode_lt _
theorem Sys2Proof.Laws.ReservedBitsZero.ptAdj : Sys2Proof.Laws.ReservedBitsZero.Statement .ptAdj :=
  fun _ => Sys2Proof.Laws.encode_lt _
theorem Sys2Proof.Laws.ReservedBitsZero.ptTimes : Sys2Proof.Laws.ReservedBitsZero.Statement .ptTimes :=
  fun _ => Sys2Proof.Laws.encode_lt _
theorem Sys2Proof.Laws.ReservedBitsZero.ptXform (sel : Nat) : Sys2Proof.Laws.ReservedBitsZero.Statement (.ptXform sel) :=
  fun _ => Sys2Proof.Laws.encode_lt _
theorem Sys2Proof.Laws.ReservedBitsZero.ptCopy (sel : Nat) : Sys2Proof.Laws.ReservedBitsZero.Statement (.ptCopy sel) :=
  fun _ => Sys2Proof.Laws.encode_lt _
theorem Sys2Proof.Laws.ReservedBitsZero.gridSample : Sys2Proof.Laws.ReservedBitsZero.Statement .gridSample :=
  fun _ => Sys2Proof.Laws.encode_lt _
theorem Sys2Proof.Laws.ReservedBitsZero.moduleSize : Sys2Proof.Laws.ReservedBitsZero.Statement .moduleSize :=
  fun _ => Sys2Proof.Laws.encode_lt _
theorem Sys2Proof.Laws.ReservedBitsZero.dimension : Sys2Proof.Laws.ReservedBitsZero.Statement .dimension :=
  fun _ => Sys2Proof.Laws.encode_lt _
theorem Sys2Proof.Laws.ReservedBitsZero.createXform : Sys2Proof.Laws.ReservedBitsZero.Statement .createXform :=
  fun _ => Sys2Proof.Laws.encode_lt _
theorem Sys2Proof.Laws.ReservedBitsZero.detect : Sys2Proof.Laws.ReservedBitsZero.Statement .detect :=
  fun _ => Sys2Proof.Laws.encode_lt _
theorem Sys2Proof.Laws.ReservedBitsZero.findFinder : Sys2Proof.Laws.ReservedBitsZero.Statement .findFinder :=
  fun _ => Sys2Proof.Laws.encode_lt _
theorem Sys2Proof.Laws.ReservedBitsZero.findAlign : Sys2Proof.Laws.ReservedBitsZero.Statement .findAlign :=
  fun _ => Sys2Proof.Laws.encode_lt _
theorem Sys2Proof.Laws.ReservedBitsZero.order3 : Sys2Proof.Laws.ReservedBitsZero.Statement .order3 :=
  fun _ => Sys2Proof.Laws.encode_lt _
theorem Sys2Proof.Laws.ReservedBitsZero.parserInit : Sys2Proof.Laws.ReservedBitsZero.Statement .parserInit :=
  fun _ => Sys2Proof.Laws.encode_lt _
theorem Sys2Proof.Laws.ReservedBitsZero.readFormat : Sys2Proof.Laws.ReservedBitsZero.Statement .readFormat :=
  fun _ => Sys2Proof.Laws.encode_lt _
theorem Sys2Proof.Laws.ReservedBitsZero.readVersion : Sys2Proof.Laws.ReservedBitsZero.Statement .readVersion :=
  fun _ => Sys2Proof.Laws.encode_lt _
theorem Sys2Proof.Laws.ReservedBitsZero.unmask (sel : Nat) : Sys2Proof.Laws.ReservedBitsZero.Statement (.unmask sel) :=
  fun _ => Sys2Proof.Laws.encode_lt _
theorem Sys2Proof.Laws.ReservedBitsZero.buildFnpat : Sys2Proof.Laws.ReservedBitsZero.Statement .buildFnpat :=
  fun _ => Sys2Proof.Laws.encode_lt _
theorem Sys2Proof.Laws.ReservedBitsZero.readCodewords : Sys2Proof.Laws.ReservedBitsZero.Statement .readCodewords :=
  fun _ => Sys2Proof.Laws.encode_lt _
theorem Sys2Proof.Laws.ReservedBitsZero.blockDecode : Sys2Proof.Laws.ReservedBitsZero.Statement .blockDecode :=
  fun _ => Sys2Proof.Laws.encode_lt _
theorem Sys2Proof.Laws.ReservedBitsZero.mirror : Sys2Proof.Laws.ReservedBitsZero.Statement .mirror :=
  fun _ => Sys2Proof.Laws.encode_lt _
theorem Sys2Proof.Laws.ReservedBitsZero.setMirror (sel : Nat) : Sys2Proof.Laws.ReservedBitsZero.Statement (.setMirror sel) :=
  fun _ => Sys2Proof.Laws.encode_lt _
theorem Sys2Proof.Laws.ReservedBitsZero.remask : Sys2Proof.Laws.ReservedBitsZero.Statement .remask :=
  fun _ => Sys2Proof.Laws.encode_lt _
theorem Sys2Proof.Laws.ReservedBitsZero.decode : Sys2Proof.Laws.ReservedBitsZero.Statement .decode :=
  fun _ => Sys2Proof.Laws.encode_lt _
theorem Sys2Proof.Laws.ReservedBitsZero.scan : Sys2Proof.Laws.ReservedBitsZero.Statement .scan :=
  fun _ => Sys2Proof.Laws.encode_lt _
end

