-- ==== Sys2Proof/Tests/Slice0.lean ====
section
/-! SUPPORT. Tests, each of one step on a small state, with values from the spec's own vectors or worked out by hand from its
rules; and for each statement with hypotheses a state that meets them. -/

namespace Sys2Proof.Tests

open Sys2Proof.Machine

set_option Elab.async false

/-! ### Small states -/

/-- What a command leaves. -/
def run (i : Instr) (s : State) : State :=
  match exec i s with
  | .next t => t
  | .fault _ => s
  | .refused _ => s

/-- Every command ends in the state `run` gives. -/
theorem exec_run (i : Instr) (s : State) : exec i s = .next (run i s) := by cases i <;> rfl

/-- Reset with operands. -/
def args (a b c d : Word) : State := { State.reset with arg := #v[a, b, c, d] }

/-- `s` with operands. -/
def withArgs (s : State) (a b c : Word) : State := { s with arg := #v[a, b, c, 0] }

/-- `s` with whole numbers in the binary64 registers from `Fk` on. -/
def withF (s : State) (k : Nat) (vs : List Nat) : State := s.setFs k (vs.map F64.ofNat)

/-- Reset with host events to come. -/
def hosted (es : List HostEvent) : State := { State.reset with host := es }

/-- A state while `GF_MUL` runs. -/
def busy (es : List HostEvent) : State := { startCommand State.reset 0x11 with host := es }

/-- Reset with `PINIT` set and a `w` by `h` grid of unwritten modules. -/
def parsing (w h : Word) : State := { State.reset with gridW := w, gridH := h, pstate := ⟨false, false, true⟩ }

/-- `PINIT` set and a side-`d` grid of given modules. -/
def onGrid (d : Nat) (g : Nat → Nat → Bool) : State :=
  (parsing (Word.ofNat d) (Word.ofNat d)).putMatrix 0x8000 d d g

/-- Symbol S1 of 95_test_vectors.md section 3, as the bytes of `GRID`. -/
def s1Bytes : List Byte :=
  [0x7F, 0xCE, 0x3F, 0xA8, 0x09, 0x76, 0x11, 0xDD, 0x2E, 0xA6, 0xDB, 0x55, 0x75, 0x83, 0xAC, 0xE0, 0x5F, 0xF5, 0x07, 0xD0,
    0x00, 0x55, 0x0A, 0xA9, 0xC2, 0x08, 0x81, 0x59] ++
  [0xFC, 0x5A, 0x23, 0x64, 0x6E, 0x55, 0x00, 0x5A, 0xD9, 0x1F, 0x3A, 0x0F, 0xE2, 0x0D, 0x5D, 0xED, 0xBC, 0x4B, 0x98, 0x75,
    0x55, 0xD4, 0x20, 0xA3, 0xF4, 0x57, 0xCD, 0x01]

/-- S1 in `GRID`, after `PARSER_INIT`. -/
def gridS1 : State := { parsing 21 21 with mem := cellsFrom 0x8000 s1Bytes }

/-- S1 as an image of one pixel a module, without a border; the byte of `GRID` that S1 fills in part is written. -/
def imgS1 : State := { State.reset with imgW := 21, imgH := 21, mem := (0x8037, 0) :: cellsFrom 0x100000 s1Bytes }

/-- A side-`w` image of bytes. -/
def img (w : Word) (bs : List Byte) : State := { State.reset with imgW := w, imgH := w, mem := cellsFrom 0x100000 bs }

/-- `RSBUF`, `RS_N` and `RS_TWOS`. -/
def rsWord (bs : List Byte) (twoS : Word) : State :=
  { State.reset.putBytes 0x1000 bs with rsN := Word.ofNat bs.length, rsTwos := twoS }

/-- The code word C of R166 with two bytes changed. -/
def twoErrors : State := rsWord [0x10, 0x75, 0x30, 0x40, 0x03, 0xE2, 0xE0, 0x4E] 4

/-! ### A word for each check and for each command (R76 to R82) -/

theorem test_pAdd_selector_16_is_ill_formed : (Instr.pAdd 16).wellFormed = false := by decide
theorem test_pMul_selector_16_is_ill_formed : (Instr.pMul 16).wellFormed = false := by decide
theorem test_pScale_selector_16_is_ill_formed : (Instr.pScale 16).wellFormed = false := by decide
theorem test_pMulmono_selector_16_is_ill_formed : (Instr.pMulmono 16).wellFormed = false := by decide
theorem test_pMono_selector_16_is_ill_formed : (Instr.pMono 16).wellFormed = false := by decide
theorem test_pEval_selector_16_is_ill_formed : (Instr.pEval 16).wellFormed = false := by decide
theorem test_ptXform_selector_16_is_ill_formed : (Instr.ptXform 16).wellFormed = false := by decide
theorem test_ptCopy_selector_16_is_ill_formed : (Instr.ptCopy 16).wellFormed = false := by decide
theorem test_unmask_selector_16_is_ill_formed : (Instr.unmask 16).wellFormed = false := by decide
theorem test_setMirror_selector_16_is_ill_formed : (Instr.setMirror 16).wellFormed = false := by decide

theorem test_decode_nop : Sys2Proof.decode 0x00000000 = .ok (.nop) := by decide
theorem test_decode_clear : Sys2Proof.decode 0x00000001 = .ok (.clear) := by decide
theorem test_decode_gfAdd : Sys2Proof.decode 0x00000010 = .ok (.gfAdd) := by decide
theorem test_decode_gfMul : Sys2Proof.decode 0x00000011 = .ok (.gfMul) := by decide
theorem test_decode_gfInv : Sys2Proof.decode 0x00000012 = .ok (.gfInv) := by decide
theorem test_decode_gfExp : Sys2Proof.decode 0x00000013 = .ok (.gfExp) := by decide
theorem test_decode_gfLog : Sys2Proof.decode 0x00000014 = .ok (.gfLog) := by decide
theorem test_decode_pAdd : Sys2Proof.decode 0x00000218 = .ok (.pAdd 2) := by decide
theorem test_decode_pMul : Sys2Proof.decode 0x00000219 = .ok (.pMul 2) := by decide
theorem test_decode_pScale : Sys2Proof.decode 0x0000011A = .ok (.pScale 1) := by decide
theorem test_decode_pMulmono : Sys2Proof.decode 0x0000071B = .ok (.pMulmono 7) := by decide
theorem test_decode_pMono : Sys2Proof.decode 0x0000001C = .ok (.pMono 0) := by decide
theorem test_decode_pEval : Sys2Proof.decode 0x00000F1D = .ok (.pEval 15) := by decide
theorem test_decode_rsSynd : Sys2Proof.decode 0x00000020 = .ok (.rsSynd) := by decide
theorem test_decode_rsEuclid : Sys2Proof.decode 0x00000021 = .ok (.rsEuclid) := by decide
theorem test_decode_rsChien : Sys2Proof.decode 0x00000022 = .ok (.rsChien) := by decide
theorem test_decode_rsForney : Sys2Proof.decode 0x00000023 = .ok (.rsForney) := by decide
theorem test_decode_rsCorrect : Sys2Proof.decode 0x00000024 = .ok (.rsCorrect) := by decide
theorem test_decode_rsDecode : Sys2Proof.decode 0x00000025 = .ok (.rsDecode) := by decide
theorem test_decode_ptSq2q : Sys2Proof.decode 0x00000030 = .ok (.ptSq2q) := by decide
theorem test_decode_ptQ2sq : Sys2Proof.decode 0x00000031 = .ok (.ptQ2sq) := by decide
theorem test_decode_ptQ2q : Sys2Proof.decode 0x00000032 = .ok (.ptQ2q) := by decide
theorem test_decode_ptAdj : Sys2Proof.decode 0x00000033 = .ok (.ptAdj) := by decide
theorem test_decode_ptTimes : Sys2Proof.decode 0x00000034 = .ok (.ptTimes) := by decide
theorem test_decode_ptXform : Sys2Proof.decode 0x00000835 = .ok (.ptXform 8) := by decide
theorem test_decode_ptCopy : Sys2Proof.decode 0x00000136 = .ok (.ptCopy 1) := by decide
theorem test_decode_gridSample : Sys2Proof.decode 0x00000037 = .ok (.gridSample) := by decide
theorem test_decode_moduleSize : Sys2Proof.decode 0x00000038 = .ok (.moduleSize) := by decide
theorem test_decode_dimension : Sys2Proof.decode 0x00000039 = .ok (.dimension) := by decide
theorem test_decode_createXform : Sys2Proof.decode 0x0000003A = .ok (.createXform) := by decide
theorem test_decode_detect : Sys2Proof.decode 0x0000003F = .ok (.detect) := by decide
theorem test_decode_findFinder : Sys2Proof.decode 0x00000040 = .ok (.findFinder) := by decide
theorem test_decode_findAlign : Sys2Proof.decode 0x00000041 = .ok (.findAlign) := by decide
theorem test_decode_order3 : Sys2Proof.decode 0x00000042 = .ok (.order3) := by decide
theorem test_decode_parserInit : Sys2Proof.decode 0x00000050 = .ok (.parserInit) := by decide
theorem test_decode_readFormat : Sys2Proof.decode 0x00000051 = .ok (.readFormat) := by decide
theorem test_decode_readVersion : Sys2Proof.decode 0x00000052 = .ok (.readVersion) := by decide
theorem test_decode_unmask : Sys2Proof.decode 0x00000553 = .ok (.unmask 5) := by decide
theorem test_decode_buildFnpat : Sys2Proof.decode 0x00000054 = .ok (.buildFnpat) := by decide
theorem test_decode_readCodewords : Sys2Proof.decode 0x00000055 = .ok (.readCodewords) := by decide
theorem test_decode_blockDecode : Sys2Proof.decode 0x00000056 = .ok (.blockDecode) := by decide
theorem test_decode_mirror : Sys2Proof.decode 0x00000057 = .ok (.mirror) := by decide
theorem test_decode_setMirror : Sys2Proof.decode 0x00000158 = .ok (.setMirror 1) := by decide
theorem test_decode_remask : Sys2Proof.decode 0x00000059 = .ok (.remask) := by decide
theorem test_decode_decode : Sys2Proof.decode 0x0000005E = .ok (.decode) := by decide
theorem test_decode_scan : Sys2Proof.decode 0x0000005F = .ok (.scan) := by decide

theorem test_word_with_unlisted_opcode : Sys2Proof.decode 0x000000F0 = .error .undefOp := by decide
theorem test_word_with_reserved_bit : Sys2Proof.decode 0x00001011 = .error .rsvdBits := by decide
theorem test_c0_word_with_selector : Sys2Proof.decode 0x00000811 = .error .rsvdBits := by decide

/-! ### Control and host accesses (95_test_vectors.md section 2.1) -/

theorem test_clear_empties_caches : (run .clear { gridS1 with fmt := some 0, version := some 1 }).fmt = none := by decide
theorem test_clear_keeps_grid : (run .clear gridS1).gridW = 21 := by decide
theorem test_nop_clears_error : (run .nop (State.reset.failed 6 1)).status.word = 0x2 := by decide
theorem test_decode_at_reset : (run .decode State.reset).errdetail = 3 := by decide
theorem test_grid_sample_at_reset : (run .gridSample State.reset).errdetail = 3 := by decide
theorem test_read_version_at_reset : (run .readVersion State.reset).errdetail = 5 := by decide
theorem test_create_xform_at_reset : (run .createXform State.reset).errdetail = 5 := by decide
theorem test_synd_at_reset : (run .rsSynd State.reset).errdetail = 1 := by decide
theorem test_add_at_reset : (run (.pAdd 0) State.reset).errdetail = 4 := by decide
theorem test_idle_turn_changes_nothing : step State.reset = .next State.reset := rfl
theorem test_word_is_little_endian :
    (State.reset.putBytes 0x1000 [0x31, 0x44, 0x52, 0x51]).readIdle 0x1000 = 0x51524431 := by decide
theorem test_high_word_of_f1 : ((State.reset.writeIdle 0x10C 0x3FF00000).fval 1) = F64.ofNat 1 := by decide +kernel

/-! ### GF(256) and polynomials (95_test_vectors.md section 2.2) -/

theorem test_gf_add : (run .gfAdd (args 0x53 0xCA 0 0)).res0 = 0x99 := by decide
theorem test_gf_mul_reduces : (run .gfMul (args 0x02 0x80 0 0)).res0 = 0x1D := by decide +kernel
theorem test_gf_mul : (run .gfMul (args 0x53 0xCA 0 0)).res0 = 0x8F := by decide +kernel
theorem test_gf_inv : (run .gfInv (args 0x53 0 0 0)).res0 = 0x8C := by decide +kernel
theorem test_gf_exp_255 : (run .gfExp (args 255 0 0 0)).res0 = 0x01 := by decide +kernel
theorem test_gf_log : (run .gfLog (args 0xFF 0 0 0)).res0 = 175 := by decide +kernel
theorem test_gf_log_0 : (run .gfLog (args 0 0 0 0)).errdetail = 7 := by decide
theorem test_p_add_trims :
    (run (.pAdd 2) (((args 0 1 0 0).putPoly 0 [1, 2, 3]).putPoly 1 [1, 0, 0])).poly 2 = .ok [2, 3] := by decide +kernel
theorem test_p_mul :
    (run (.pMul 2) (((args 0 1 0 0).putPoly 0 [1, 2]).putPoly 1 [1, 3])).poly 2 = .ok [1, 1, 6] := by decide +kernel
theorem test_p_scale :
    (run (.pScale 1) ((args 0 0x80 0 0).putPoly 0 [1, 2, 3])).poly 1 = .ok [0x80, 0x1D, 0x9D] := by decide +kernel
theorem test_p_mulmono :
    (run (.pMulmono 1) ((args 0 2 3 0).putPoly 0 [5, 7])).poly 1 = .ok [0x0F, 0x09, 0x00, 0x00] := by decide +kernel
theorem test_p_mono : (run (.pMono 0) (args 4 1 0 0)).poly 0 = .ok [1, 0, 0, 0, 0] := by decide +kernel
theorem test_p_eval : (run (.pEval 0) ((args 2 0 0 0).putPoly 0 [1, 2, 3])).res0 = 0x03 := by decide +kernel
theorem test_p_eval_at_1 : (run (.pEval 0) ((args 1 0 0 0).putPoly 0 [1, 2, 3])).res0 = 0x00 := by decide +kernel

/-! ### Reed-Solomon (95_test_vectors.md section 2.3) -/

theorem test_rs_synd : (run .rsSynd twoErrors).poly 0 = .ok [0x84, 0x83, 0xFA, 0x5A] := by decide +kernel
theorem test_rs_euclid :
    (run .rsEuclid ({ State.reset with rsTwos := 4 }.putPoly 0 [0x84, 0x83, 0xFA, 0x5A])).poly 1 =
      .ok [0x80, 0x42, 0x01] := by decide +kernel
theorem test_rs_forney :
    (run .rsForney ({ State.reset with rsNerr := 2 }.putBytes 0x1100 [0x40, 0x02] |>.putPoly 2 [0x4D, 0x5A])).mags =
      [0x55, 0x0F] := by decide +kernel
theorem test_rs_correct :
    (run .rsCorrect (({ twoErrors with rsNerr := 2 }.putBytes 0x1100 [0x40, 0x02]).putBytes 0x1200 [0x55, 0x0F])).received =
      [0x10, 0x20, 0x30, 0x40, 0x03, 0xE2, 0xEF, 0x4E] := by decide +kernel
theorem test_rs_decode :
    (run .rsDecode twoErrors).received = [0x10, 0x20, 0x30, 0x40, 0x03, 0xE2, 0xEF, 0x4E] := by decide +kernel

/-! ### Geometry (95_test_vectors.md section 2.4) -/

theorem test_square_to_quad :
    (run .ptSq2q (withF State.reset 18 [0, 0, 1, 0, 1, 1, 0, 1])).fvals 0 9 =
      [1, 0, 0, 0, 1, 0, 0, 0, 1].map F64.ofNat := by decide +kernel
theorem test_quad_to_square :
    (run .ptQ2sq (withF State.reset 18 [0, 0, 2, 0, 2, 2, 0, 2])).fvals 0 9 =
      [2, 0, 0, 0, 2, 0, 0, 0, 4].map F64.ofNat := by decide +kernel
theorem test_quad_to_quad :
    (run .ptQ2q (withF State.reset 18 [0, 0, 10, 0, 10, 10, 0, 10, 5, 5, 25, 5, 25, 25, 5, 25])).fvals 0 9 =
      [200, 0, 500, 0, 200, 500, 0, 0, 100].map F64.ofNat := by decide +kernel
theorem test_pt_adj :
    (run .ptAdj (withF State.reset 0 [2, 0, 0, 0, 2, 0, 0, 0, 1])).fvals 0 9 =
      [2, 0, 0, 0, 2, 0, 0, 0, 4].map F64.ofNat := by decide +kernel
theorem test_pt_times :
    (run .ptTimes (withF State.reset 0 [2, 0, 0, 0, 2, 0, 0, 0, 1, 2, 0, 0, 0, 2, 0, 0, 0, 1])).fvals 0 9 =
      [4, 0, 0, 0, 4, 0, 0, 0, 1].map F64.ofNat := by decide +kernel
theorem test_pt_xform :
    (run (.ptXform 1) (withF (withF State.reset 0 [200, 0, 500, 0, 200, 500, 0, 0, 100]) 18 [2, 3])).fvals 18 2 =
      [9, 11].map F64.ofNat := by decide +kernel
theorem test_pt_xform_divides_by_zero :
    (run (.ptXform 1) (withF (withF State.reset 0 [1, 0, 0, 0, 1, 0, 0, 0, 0]) 18 [1, 1])).errdetail = 7 := by
  decide +kernel
theorem test_pt_copy : (run (.ptCopy 0) (State.reset.setFbits 8 0x7FF8000000000001)).fbits 17 = 0x7FF8000000000001 := by
  decide +kernel
theorem test_grid_sample_nudges :
    (run .gridSample (withF (withArgs (img 4 [0xFF, 0xFF]) 5 4 0) 0 [1, 0, 0, 0, 1, 0, 0, 0, 1])).bytes 0x8000 2 =
      [0xFF, 0xFF] := by decide +kernel
theorem test_dimension :
    (run .dimension (withF State.reset 34 [30, 86, 0, 30, 30, 0, 86, 30, 0, 0, 0, 0, 4])).dim = 21 := by decide +kernel
theorem test_dimension_of_estimate_23 :
    (run .dimension (withF State.reset 34 [30, 94, 0, 30, 30, 0, 94, 30, 0, 0, 0, 0, 4])).errdetail = 3 := by
  decide +kernel
theorem test_create_xform :
    (run .createXform (withF { State.reset with dim := 21 } 34 [30, 86, 0, 30, 30, 0, 86, 30, 0])).fvals 0 9 =
      [784, 0, 3136, 0, 784, 3136, 0, 0, 196].map F64.ofNat := by decide +kernel
theorem test_order3_turns_the_corner :
    (run .order3 (withF State.reset 18 [10, 0, 0, 10, 0, 0])).fvals 18 6 = [0, 10, 0, 0, 10, 0].map F64.ofNat := by
  decide +kernel
theorem test_found_pattern_cross : foundPatternCross ⟨1, 1, 3, 1, 1⟩ = true := by decide +kernel

/-! ### Patterns (44_patterns.md) -/

/-- S1 as an image, with its three finder centres (3.5 and 17.5 modules) and a module size of 1. -/
def cornersS1 : State :=
  imgS1.setFs 34 [.ofRatio 7 2, .ofRatio 35 2, .ofNat 1, .ofRatio 7 2, .ofRatio 7 2, .ofNat 1, .ofRatio 35 2, .ofRatio 7 2,
    .ofNat 1, .ofNat 0, .ofNat 0, .ofNat 0, .ofNat 1]

/-- An image that is one alignment pattern: a black module in a white ring in a black ring. -/
def imgAlign : State := withF (withArgs (img 5 [0x3F, 0xD6, 0xF8, 0x01]) 2 2 4) 46 [1]

theorem test_module_size : (run .moduleSize { cornersS1 with f := cornersS1.f.setIfInBounds 46 0 }).fval 46 = F64.ofNat 1 := by
  decide +kernel
theorem test_find_align : (run .findAlign imgAlign).fvals 43 3 = [F64.ofRatio 5 2, F64.ofRatio 5 2, F64.ofNat 1] := by
  decide +kernel

/-! ### Parser and decoder (95_test_vectors.md sections 2.5 and 3) -/

/-- The codewords of S1. -/
def s1Codewords : List Byte :=
  [0x40, 0x54, 0x84, 0x54, 0xC4, 0xC4, 0xF0, 0xEC, 0x11, 0xEC, 0x11, 0xEC, 0x11, 0xEC, 0x11, 0xEC, 0x23, 0x73, 0x23, 0x99,
    0xEC, 0x08, 0xC9, 0xF7, 0x37, 0xDF]

theorem test_parser_init : (run .parserInit { gridS1 with pstate := ⟨true, true, false⟩ }).pstate = ⟨false, true, true⟩ := by
  decide
theorem test_read_format : (run .readFormat gridS1).res0 = 0x5412 := by decide +kernel
theorem test_read_format_caches : fmtWord (run .readFormat gridS1).fmt = 0x100 := by decide +kernel
theorem test_read_version : versionWord (run .readVersion gridS1).version = 0x101 := by decide +kernel
theorem test_read_codewords : (run .readCodewords gridS1).bytes 0x4000 26 = s1Codewords := by decide +kernel
theorem test_remask_restores :
    (run .remask (run (.unmask 5) { gridS1 with fmt := some 5 })).bytes 0x8000 56 = s1Bytes := by decide +kernel
theorem test_unmask_flips_corner : (run (.unmask 0) gridS1).grid.bit 0 0 = false := by decide +kernel
theorem test_build_fnpat :
    ((List.range 440).filter (fun n => (run .buildFnpat (args 1 0 0 0)).bit 0x9000 n)).length = 233 := by decide +kernel
theorem test_block_decode :
    (run .blockDecode ((args 1 0 26 0).putBytes 0x4000 (0xBF :: s1Codewords.tail))).bytes 0x5000 16 =
      s1Codewords.take 16 := by decide +kernel
theorem test_block_decode_count : (run .blockDecode (args 1 0 25 0)).errdetail = 5 := by decide +kernel
theorem test_mirror : (run .mirror gridS1).grid.bit 20 1 = gridS1.grid.bit 1 20 := by decide +kernel
theorem test_set_mirror_reads_columns_as_rows :
    (run .readFormat (run (.setMirror 1) (run .mirror gridS1))).res0 = 0x5412 := by decide +kernel
theorem test_decode_grid : decodeGrid 21 gridS1.grid.bit = .ok (⟨s1Codewords.take 16, 0, 1, 0⟩, false) := by decide +kernel
theorem test_scan_of_no_image : (run .scan State.reset).errdetail = 3 := by decide
theorem test_detect_of_no_image : (run .detect State.reset).errdetail = 3 := by decide

/-! ### For each statement with hypotheses, a state that meets them

Each theorem names the statement and, where it has several, the clause. -/

theorem witness_DecodeReadsEncodedCommand : (Instr.pEval 15).wellFormed = true := by decide
theorem witness_CommandWordsAreEncodings : Sys2Proof.decode 0x00000F1D = .ok (.pEval 15) := by decide

theorem witness_IllegalWords_opcode : ({ busy [] with running := some 0x02 } : State).host = [] ∧
    ({ busy [] with running := some 0x02 } : State).running = some 0x02 ∧
    (0x02 : Word).toNat % 256 ∉ c0Opcodes ++ c1Opcodes := by decide
theorem witness_IllegalWords_reserved : (busy []).host = [] ∧ (0x1011 : Word).toNat % 256 ∈ c0Opcodes ++ c1Opcodes ∧
    (0x1011 : Word).toNat / 4096 ≠ 0 := by decide
theorem witness_IllegalWords_selector : (0x111 : Word).toNat % 256 ∈ c0Opcodes ∧ (0x111 : Word).toNat / 256 % 16 ≠ 0 := by
  decide
theorem witness_StepRuns_now : (busy []).running = some 0x11 ∧ Sys2Proof.decode 0x11 = .ok .gfMul ∧ (busy []).host = [] := by
  decide
theorem witness_StepRuns_turn : (busy [.coreTurn]).running = some 0x11 ∧ Sys2Proof.decode 0x11 = .ok .gfMul ∧
    (busy [.coreTurn]).host = .coreTurn :: [] := by decide
theorem witness_CmdWrite : (hosted [.write 0x00C 32 0x11]).status.busy = false ∧
    (hosted [.write 0x00C 32 0x11]).host = .write (State.reset.base + 0x00C) 32 0x11 :: [] := by decide
theorem witness_WritesWhileBusy_other : (busy [.write 0x1FFFFC 32 0]).status.busy = true ∧
    (busy [.write 0x1FFFFC 32 0]).host = .write ((busy []).base + 0x1FFFFC) 32 0 :: [] ∧ 0x1FFFFC < 0x200000 ∧
    0x1FFFFC % 4 = 0 ∧ 0x1FFFFC ≠ 0x008 := by decide
theorem witness_WritesWhileBusy_status : (busy [.write 0x008 32 0xA]).status.busy = true ∧
    (busy [.write 0x008 32 0xA]).host = .write ((busy []).base + 0x008) 32 0xA :: [] := by decide
theorem witness_ReadsWhileBusy : ∀ off ∈ [0x000, 0x004, 0x008, 0x1FFFFC], (busy [.read off 32]).status.busy = true ∧
    (busy [.read off 32]).host = .read ((busy []).base + off) 32 :: [] ∧ off < 0x200000 ∧ off % 4 = 0 := by decide
theorem witness_RefusedAccesses_form : ∀ p ∈ [(0x000, 8), (0x002, 32), (0x1FFFFF, 32)],
    (hosted [.read p.1 p.2]).host = .read p.1 p.2 :: [] ∧ State.reset.base ≤ p.1 ∧ p.1 < State.reset.base + 0x200000 ∧
      (p.2 ≠ 32 ∨ (p.1 - State.reset.base) % 4 ≠ 0) := by decide
theorem witness_RefusedAccesses_outside : (hosted [.write 0x200000 32 0]).host = .write 0x200000 32 0 :: [] ∧
    State.reset.base + 0x200000 ≤ 0x200000 := by decide
theorem witness_RefusedAccesses_below :
    0x1FFFFC < ({ State.reset with params := { Params.qrd1 with baseBlock := 1 } } : State).base := by decide
theorem witness_IdleReads : ∀ off ∈ [0x000, 0x0A0, 0x1000, 0x1FFFFC],
    (hosted [.read off 32]).status.busy = false ∧ off < 0x200000 ∧ off % 4 = 0 ∧
      (hosted [.read off 32]).host = .read (State.reset.base + off) 32 :: [] := by decide
theorem witness_IdleReads_reserved : ∀ off ∈ [0x0A4, 0x0FC, 0x280, 0xFFC, 0x1300, 0x1FFC, 0x3000, 0x3FFC, 0x6000, 0x7FFC,
    0xA000, 0xFFFFC, 0x180000, 0x1FFFFC], reservedOffset off ∧ off % 4 = 0 := by unfold reservedOffset; decide
theorem witness_IdleReads_registers : (0x000, 0x51524431) ∈ registerWords State.reset ∧
    (0x0A0, 0) ∈ registerWords State.reset ∧ (0x040, 0x128) ∈ registerWords { State.reset with version := some 40 } ∧
    (0x048, 0x11F) ∈ registerWords { State.reset with fmt := some 31 } ∧
    (0x04C, 7) ∈ registerWords { State.reset with pstate := ⟨true, true, true⟩ } := by decide
theorem witness_IdleReads_indexed : 0x024 = 0x018 + 4 * 3 ∧ 0x09C = 0x080 + 4 * 7 ∧ 0x278 = 0x100 + 8 * 47 ∧
    0x27C = 0x104 + 8 * 47 := by decide
theorem witness_IdleReads_windows : ∀ w ∈ Window.all, ∀ off ∈ [w.base, w.base + w.size - 4],
    w.base ≤ off ∧ off < w.base + w.size ∧ off < 0x200000 ∧ off % 4 = 0 := by decide
theorem witness_WrittenWords : ∀ off ∈ [0x018, 0x09C, 0x27C, 0x10FC, 0x2000, 0x17FFFC], holdsWord off ∧ off % 4 = 0 ∧
    (hosted [.write off 32 7, .read off 32]).host =
      .write (State.reset.base + off) 32 7 :: .read (State.reset.base + off) 32 :: [] := by
  unfold holdsWord; decide
theorem witness_WrittenWords_ignored : ∀ off ∈ [0x000, 0x0A0, 0x0FC, 0x1100, 0x9000, 0x1FFFFC], ignoresWrites off ∧
    off % 4 = 0 ∧ (hosted [.write off 32 7]).host = .write (State.reset.base + off) 32 7 :: [] := by
  unfold ignoresWrites; decide
theorem witness_WrittenWords_ctrl : (hosted [.write 0x004 32 0xFFFFFFFF, .read 0x004 32]).host =
    .write (State.reset.base + 0x004) 32 0xFFFFFFFF :: .read (State.reset.base + 0x004) 32 :: [] := by decide
theorem witness_ResetPulse : (busy [.reset]).host = .reset :: [] := by decide
theorem witness_InterruptFollowsDone : exec .nop State.reset = .next (run .nop State.reset) ∧
    (hosted [.write 0x00C 32 0]).status.busy = false ∧
    (hosted [.write 0x00C 32 0]).host = .write (State.reset.base + 0x00C) 32 0 :: [] ∧
    (hosted [.write 0x004 32 1]).host = .write (State.reset.base + 0x004) 32 1 :: [] ∧
    (hosted [.write 0x008 32 2]).host = .write (State.reset.base + 0x008) 32 2 :: [] ∧ (2 : Word).getLsbD 1 = true :=
  ⟨exec_run _ _, by decide, by decide, by decide, by decide, by decide⟩

theorem witness_CommandsWriteOnlyTheirRegisters : exec .gfAdd (args 1 2 0 0) = .next (run .gfAdd (args 1 2 0 0)) ∧
    Part.res1 ∉ partsWritten .gfAdd := ⟨exec_run _ _, by decide⟩
theorem witness_CommandsWriteOnlyTheirFloats :
    exec (.ptXform 8) State.reset = .next (run (.ptXform 8) State.reset) ∧ outsideGroups 17 (floatsWritten (.ptXform 8)) ∧
      outsideGroups 34 (floatsWritten (.ptXform 8)) :=
  ⟨exec_run _ _, by simp [outsideGroups, floatsWritten, fQ], by simp [outsideGroups, floatsWritten, fQ]⟩
theorem reset_resultInv : State.reset.resultInv :=
  ⟨by decide, by decide, by decide, by decide, by decide, .inl rfl, .inl rfl, by decide, by decide⟩
theorem witness_CommandsWriteOnlyTheirWindows : State.reset.resultInv ∧
    exec .rsForney State.reset = .next (run .rsForney State.reset) ∧
    (∀ w ∈ windowsWritten .rsForney, ¬(w.base ≤ 0x1300 ∧ 0x1300 < w.base + w.size)) ∧
    (∀ w ∈ windowsWritten .rsForney, ¬(w.base ≤ 0x11FF ∧ 0x11FF < w.base + w.size)) :=
  ⟨reset_resultInv, exec_run _ _, by decide, by decide⟩

/-- A state while `GF_MUL` runs meets the four invariants, and its next step ends the command. -/
theorem witness_StepKeepsInvariants : (busy []).controlInv ∧ (busy []).memoryInv ∧ (busy []).parserInv ∧
    (busy []).resultInv ∧ step (busy []) = .next (run .gfMul (busy [])) :=
  ⟨⟨rfl, by decide, by decide, none, rfl, rfl⟩, ⟨.nil, by simp [busy, startCommand, State.reset]⟩,
    ⟨by decide, by decide, by decide, by simp [busy, startCommand, State.reset]⟩,
    ⟨by decide, by decide, by decide, by decide, by decide, .inl rfl, .inl rfl, by decide, by decide⟩, rfl⟩

/-! #### GF(256) and polynomials -/

theorem witness_Gf_out_of_range : 255 < (args 256 0 0 0).argNat 0 ∧ 255 < (args 0 256 0 0).argNat 1 := by decide
theorem witness_Gf_in_range : (args 255 255 0 0).argNat 0 ≤ 255 ∧ (args 255 255 0 0).argNat 1 ≤ 255 ∧
    1 ≤ (args 255 0 0 0).argNat 0 ∧ 1 ≤ (args 1 0 0 0).argNat 0 ∧ (args 0 0 0 0).argNat 0 = 0 := by decide
theorem witness_SetPoly : canonical [0] ∧ canonical (1 :: List.replicate 511 0) ∧
    (1 :: List.replicate 511 (0 : Byte)).length ≤ 512 := by unfold canonical; decide +kernel
theorem witness_PolynomialsEvaluate : canonical [0] ∧ canonical [1, 0, 2] := by unfold canonical; decide

/-- `P0` and `P1` as given. -/
def polys (a b c : Word) (p0 p1 : List Byte) : State := ((args a b c 0).putPoly 0 p0).putPoly 1 p1

theorem witness_SumAndProduct_operand : 7 < (args 8 0 0 0).argNat 0 ∧ 7 < (args 0 8 0 0).argNat 1 := by decide
theorem witness_SumAndProduct_length : (args 7 7 0 0).argNat 0 ≤ 7 ∧ (args 7 7 0 0).argNat 1 ≤ 7 ∧
    (args 7 7 0 0).plenOf 7 < 1 ∧ 512 < ({ args 7 7 0 0 with plen := Vector.replicate 8 513 } : State).plenOf 7 := by decide
theorem witness_SumAndProduct_fits : (polys 0 1 0 [1, 2] [1, 3]).argNat 0 ≤ 7 ∧ (polys 0 1 0 [1, 2] [1, 3]).argNat 1 ≤ 7 ∧
    (polys 0 1 0 [1, 2] [1, 3]).poly ((polys 0 1 0 [1, 2] [1, 3]).argNat 0) = .ok [1, 2] ∧
    (polys 0 1 0 [1, 2] [1, 3]).poly ((polys 0 1 0 [1, 2] [1, 3]).argNat 1) = .ok [1, 3] ∧
    (pmul [1, 2] [1, 3]).length ≤ 512 := by decide +kernel
/-- The longest polynomial in `P1`. -/
def longest : List Byte := 1 :: List.replicate 511 0

theorem putPoly_bytes (s : State) (k : Nat) (p : List Byte) : (s.putPoly k p).bytes (polyBase k) p.length = p :=
  bytes_putBytes s (polyBase k) p
theorem longest_read : (polys 0 1 0 [1, 3] longest).poly 1 = .ok longest := by
  have hl : longest.length = 512 := by decide +kernel
  have h : (polys 0 1 0 [1, 3] longest).bytes (polyBase 1) longest.length = longest := putPoly_bytes _ 1 longest
  rw [hl] at h
  have ht : trim longest = longest := by decide +kernel
  rw [State.poly, show (polys 0 1 0 [1, 3] longest).plenOf 1 = 512 by decide +kernel, if_neg (by decide), h, ht]
theorem witness_SumAndProduct_overflows : (polys 0 1 0 [1, 3] longest).poly 0 = .ok [1, 3] ∧
    (polys 0 1 0 [1, 3] longest).poly 1 = .ok longest ∧ 512 < (pmul [1, 3] longest).length :=
  ⟨by decide +kernel, longest_read, by decide +kernel⟩
theorem witness_Scalings_operands : 255 < (args 0 256 0 0).argNat 1 ∧ 511 < (args 0 512 0 0).argNat 1 ∧
    255 < (args 0 0 256 0).argNat 2 ∧ 511 < (args 512 0 0 0).argNat 0 ∧ (args 511 255 0 0).argNat 0 ≤ 511 ∧
    (args 511 255 0 0).argNat 1 ≤ 255 := by decide
theorem witness_Scalings_length : (args 7 255 255 0).argNat 0 ≤ 7 ∧ (args 7 255 255 0).plenOf 7 < 1 ∧
    512 < ({ args 7 255 255 0 with plen := Vector.replicate 8 513 } : State).plenOf 7 ∧
    (args 7 255 255 0).argNat 1 ≤ 255 ∧ (args 7 255 255 0).argNat 2 ≤ 255 := by decide
theorem witness_Scalings_scale : (polys 0 255 0 [1, 2] [0]).argNat 0 ≤ 7 ∧ (polys 0 255 0 [1, 2] [0]).argNat 1 ≤ 255 ∧
    (polys 0 255 0 [1, 2] [0]).poly ((polys 0 255 0 [1, 2] [0]).argNat 0) = .ok [1, 2] := by decide +kernel
theorem witness_Scalings_mulmono : (polys 0 511 255 [1, 2] [0]).argNat 1 ≤ 511 ∧ (polys 0 511 255 [1, 2] [0]).argNat 2 ≤ 255 ∧
    (polys 0 511 255 [1, 2] [0]).poly 0 = .ok [1, 2] ∧ 512 < (pmulmono [1, 2] 511 255).length ∧
    (pmulmono [1] 511 255).length ≤ 512 ∧ (polys 0 511 255 [1] [0]).poly 0 = .ok [1] := by decide +kernel
theorem witness_Evaluation : 255 < (args 256 0 0 0).argNat 0 ∧ (args 255 0 0 0).argNat 0 ≤ 255 ∧ (args 255 0 0 0).plenOf 7 < 1 ∧
    (polys 255 0 0 [1, 2] [0]).argNat 0 ≤ 255 ∧ (polys 255 0 0 [1, 2] [0]).poly 0 = .ok [1, 2] := by decide +kernel

/-! #### Reed-Solomon -/

theorem witness_Syndromes_refused : (rsWord [] 4).rsN.toNat < 1 ∧ 255 < ({ State.reset with rsN := 256 } : State).rsN.toNat ∧
    255 < (rsWord [1] 256).rsTwos.toNat := by decide
theorem witness_Syndromes : 1 ≤ (rsWord [1] 0).rsN.toNat ∧ (rsWord [1] 255).rsTwos.toNat ≤ 255 ∧
    ({ State.reset with rsN := 255 } : State).rsN.toNat ≤ 255 := by decide
theorem witness_Euclid_refused : (rsWord [] 0).rsTwos.toNat < 1 ∧ 255 < (rsWord [] 256).rsTwos.toNat ∧
    1 ≤ (rsWord [] 1).rsTwos.toNat ∧ (rsWord [] 255).rsTwos.toNat ≤ 255 ∧ (rsWord [] 1).plenOf 0 < 1 := by decide
theorem witness_Euclid : (({ State.reset with rsTwos := 4 }.putPoly 0 [0x84, 0x83, 0xFA, 0x5A])).poly 0 =
      .ok [0x84, 0x83, 0xFA, 0x5A] ∧
    euclid [0x84, 0x83, 0xFA, 0x5A] 4 = .ok ([0x80, 0x42, 0x01], [0x4D, 0x5A]) := by decide +kernel
/-- A syndrome polynomial of degree `twoS`, the largest of the key equation, and one above it. -/
theorem witness_Euclid_degrees : (euclid [1, 2, 3] 2).isOk = true ∧ [1, 2, (3 : Byte)].length = 2 + 1 ∧
    (euclid [1, 2, 3, 4] 2).isOk = true := by decide +kernel
theorem witness_Euclid_error : ({ State.reset with rsTwos := 2 }.putPoly 0 [1, 0]).poly 0 = .ok [1, 0] ∧
    euclid [1, 0] 2 = .error .sigma0Zero := by decide +kernel
theorem witness_Chien_refused : State.reset.plenOf 1 < 1 ∧
    512 < ({ State.reset with plen := Vector.replicate 8 513 } : State).plenOf 1 := by decide
theorem witness_Chien : (State.reset.putPoly 1 [0x80, 0x42, 0x01]).poly 1 = .ok [0x80, 0x42, 0x01] ∧
    chien [0x80, 0x42, 0x01] = .ok [0x40, 0x02] := by decide +kernel
theorem witness_Chien_shortcut : (State.reset.putPoly 1 [0x08, 0x01]).poly 1 = .ok [0x08, 0x01] ∧
    chien [0x08, 0x01] = .ok [0x08] := by decide +kernel
theorem witness_Chien_error : (State.reset.putPoly 1 [0x01, 0x00, 0x01]).poly 1 = .ok [0x01, 0x00, 0x01] ∧
    chien [0x01, 0x00, 0x01] = .error .rootCount := by decide +kernel
theorem witness_Forney : (({ State.reset with rsNerr := 2 }.putBytes 0x1100 [0x40, 0x02]).putPoly 2 [0x4D, 0x5A]).poly 2 =
      .ok [0x4D, 0x5A] ∧
    forney [0x4D, 0x5A] (({ State.reset with rsNerr := 2 }.putBytes 0x1100 [0x40, 0x02]).bytes 0x1100 2) =
      .ok [0x55, 0x0F] := by decide +kernel
theorem witness_Forney_error : State.reset.plenOf 2 < 1 ∧ (State.reset.putPoly 2 [1]).poly 2 = .ok [1] ∧
    forney [1] (({ State.reset with rsNerr := 1 }.putBytes 0x1100 [0]).bytes 0x1100 1) = .error .invZero := by
  decide +kernel
theorem witness_Correct : corrections 8 [(0x40, 0x55), (0x02, 0x0F)] = ([(1, 0x55), (6, 0x0F)], none) ∧
    corrections 1 [(0x01, 0x0F), (0x40, 0x55)] = ([(0, 0x0F)], some .badLocation) ∧
    1 ≤ (rsWord [1] 0).rsN.toNat ∧ (rsWord [] 4).rsN.toNat < 1 := by decide +kernel
theorem witness_RsDecode_no_errors : (rsWord [0x10, 0x20, 0x30, 0x40, 0x03, 0xE2, 0xEF, 0x4E] 4).rsN.toNat ≤ 255 ∧
    ∀ i < 4, peval (trim ((rsWord [0x10, 0x20, 0x30, 0x40, 0x03, 0xE2, 0xEF, 0x4E] 4).bytes 0x1000 8)) (gexp i) = 0 := by
  decide +kernel
/-- The zero word of two check symbols with one byte changed. -/
def oneError : State := rsWord [0, 7, 0] 2

theorem witness_RsDecode_steps : exec .rsSynd oneError = .next (run .rsSynd oneError) ∧
    exec .rsEuclid (run .rsSynd oneError) = .next (run .rsEuclid (run .rsSynd oneError)) ∧
    (run .rsSynd oneError).errcode = 0 ∧ (run .rsSynd oneError).res0 = 0 ∧
    (run .rsEuclid (run .rsSynd oneError)).errcode = 0 ∧
    (run .rsChien (run .rsEuclid (run .rsSynd oneError))).errcode = 0 ∧
    (run .rsForney (run .rsChien (run .rsEuclid (run .rsSynd oneError)))).errcode = 0 ∧
    (run .rsCorrect (run .rsForney (run .rsChien (run .rsEuclid (run .rsSynd oneError))))).errcode = 0 :=
  ⟨exec_run _ _, exec_run _ _, by decide +kernel⟩

theorem witness_RsDecode_errors : 1 ≤ oneError.rsN.toNat ∧ oneError.rsN.toNat ≤ 255 ∧ oneError.rsTwos.toNat ≤ 255 ∧
    0 < oneError.rsTwos.toNat ∧ peval (trim (oneError.bytes 0x1000 3)) (gexp 0) ≠ 0 := by decide +kernel

/-- Words of R166 on which a step raises: Euclid, Chien, and correction. -/
def raisingWords : List (List Byte) :=
  [[0x8D, 0x20, 0x30, 0x40, 0x03, 0x9D, 0xEF, 0x9D], [0x79, 0x0F, 0x30, 0x40, 0x03, 0xAA, 0xEF, 0x4E],
    [0x11, 0x20, 0x32, 0x40, 0x00, 0xE2, 0xEF, 0x4E]]

theorem witness_RsDecode_raises : raisingWords.map (fun w => (run .rsDecode (rsWord w 4)).errdetail) = [3, 4, 5] ∧
    ∀ w ∈ raisingWords, peval (trim ((rsWord w 4).bytes 0x1000 8)) (gexp 1) ≠ 0 := by decide +kernel

/-! #### Geometry -/

/-- Reset with a NaN in `Fk`. -/
def nanAt (k : Nat) : State := State.reset.setFbits k 0x7FF8000000000000

theorem witness_Transform_refused : (nanAt 25).finiteFrom 18 8 = false ∧ (nanAt 33).finiteFrom 18 16 = false ∧
    (nanAt 8).finiteFrom 0 9 = false ∧ (nanAt 17).finiteFrom 0 18 = false := by decide +kernel
theorem witness_Transform : State.reset.finiteFrom 18 16 = true ∧ State.reset.finiteFrom 0 18 = true ∧
    (squareToQuad (State.reset.quad 18)).isOk = true ∧ (squareToQuad (State.reset.quad 26)).isOk = true := by
  decide +kernel
theorem witness_Transform_error : (withF State.reset 18 [0, 0, 1, 0, 2, 0, 4, 0]).finiteFrom 18 8 = true ∧
    squareToQuad ((withF State.reset 18 [0, 0, 1, 0, 2, 0, 4, 0]).quad 18) = .error (.notFound .divZero) := by
  decide +kernel
theorem witness_Points_refused : (nanAt 33).finiteFrom 18 (2 * 8) = false ∧ (nanAt 19).finiteFrom 18 (2 * 1) = false := by
  decide +kernel
theorem witness_Points : (withF State.reset 8 [1]).finiteFrom 0 9 = true ∧
    (withF State.reset 8 [1]).finiteFrom 18 (2 * 8) = true ∧
    (transformPoints ((withF State.reset 8 [1]).xform 0) (pairsOf ((withF State.reset 8 [1]).fvals 18 (2 * 8)))).isOk = true ∧
    (transformPoints ((withF State.reset 8 [1]).xform 0) (pairsOf ((withF State.reset 8 [1]).fvals 18 (2 * 1)))).isOk = true :=
  by decide +kernel
theorem witness_Points_error : State.reset.finiteFrom 0 9 = true ∧
    transformPoints (State.reset.xform 0) (pairsOf (State.reset.fvals 18 (2 * 1))) = .error (.notFound .divZero) := by
  decide +kernel

/-- A one-pixel image and the transform that leaves points as they are. -/
def onePixel (a b : Word) : State := withF (withArgs (img 1 [1]) a b 0) 0 [1, 0, 0, 0, 1, 0, 0, 0, 1]

theorem witness_Sampled_refused : (onePixel 1 1).imgDimsOk = true ∧ State.reset.imgDimsOk = false ∧
    (onePixel 0 1).argNat 0 < 1 ∧ 177 < (onePixel 178 1).argNat 0 ∧ 177 < (onePixel 177 178).argNat 1 ∧
    ((onePixel 177 177).setFbits 8 0x7FF8000000000000).finiteFrom 0 9 = false := by decide +kernel
theorem witness_Sampled : (onePixel 1 1).imgDimsOk = true ∧ 1 ≤ (onePixel 1 1).argNat 0 ∧ (onePixel 1 1).finiteFrom 0 9 = true ∧
    sampleGrid (onePixel 1 1).image 1 1 ((onePixel 1 1).xform 0) = .ok [[true]] := by decide +kernel
/-- A transform that puts every point on the one pixel. -/
theorem witness_Sampled_largest :
    (sampleGrid (onePixel 177 1).image 177 1 ((withF (onePixel 177 1) 0 [0, 0, 0, 0, 0, 0, 0, 0, 1]).xform 0)).isOk = true := by
  decide +kernel

theorem witness_Sampled_error : (withF (onePixel 1 1) 8 [0]).finiteFrom 0 9 = true ∧
    sampleGrid (onePixel 1 1).image 1 1 ((withF (onePixel 1 1) 8 [0]).xform 0) = .error (.notFound .divZero) ∧
    sampleGrid (onePixel 1 1).image 1 1 ((withF (onePixel 1 1) 2 [9]).xform 0) = .error (.notFound .sampleOob) := by
  decide +kernel

theorem witness_ModuleSize_refused : State.reset.imgDimsOk = false ∧ (onePixel 1 1).imgDimsOk = true ∧
    ((onePixel 1 1).setFbits 37 0x7FF0000000000000).cornersFinite = false := by decide +kernel
theorem witness_ModuleSize : cornersS1.imgDimsOk = true ∧ cornersS1.cornersFinite = true ∧
    pointInside cornersS1.image (cornersS1.pt 37) = .ok () ∧ pointInside cornersS1.image (cornersS1.pt 40) = .ok () ∧
    pointInside cornersS1.image (cornersS1.pt 34) = .ok () ∧
    moduleSize cornersS1.params.bresenham cornersS1.image (cornersS1.pt 37) (cornersS1.pt 40) (cornersS1.pt 34) =
      .ok (F64.ofNat 1) ∧ F64.le (F64.ofNat 1) (F64.ofNat 1) = true := by decide +kernel
theorem witness_ModuleSize_too_small : (img 1 [0]).imgDimsOk = true ∧ (img 1 [0]).cornersFinite = true ∧
    pointInside (img 1 [0]).image ((img 1 [0]).pt 37) = .ok () ∧
    moduleSize .trunc (img 1 [0]).image ((img 1 [0]).pt 37) ((img 1 [0]).pt 40) ((img 1 [0]).pt 34) = .ok .nan ∧
    F64.le (F64.ofNat 1) .nan = false := by decide +kernel
theorem witness_ModuleSize_outside : (withF (img 1 [0]) 37 [1]).imgDimsOk = true ∧
    (withF (img 1 [0]) 37 [1]).cornersFinite = true ∧
    pointInside (img 1 [0]).image ((withF (img 1 [0]) 37 [1]).pt 37) = .error (.notFound .sampleOob) := by decide +kernel
theorem witness_CreateXform_pattern : (nanAt 44).cornersFinite = true ∧
    ({ nanAt 44 with apValid := true } : State).finiteFrom 43 2 = false := by decide +kernel
/-- Four points on one line. -/
def onLine : State := { withF State.reset 34 [4, 0, 0, 0, 0, 0, 1, 0, 0, 2, 0] with apValid := true, dim := 21 }

theorem witness_CreateXform_error : onLine.cornersFinite = true ∧ onLine.finiteFrom 43 2 = true ∧
    createTransform (onLine.pt 37) (onLine.pt 40) (onLine.pt 34) (if onLine.apValid then some (onLine.pt 43) else none) 21 =
      .error (.notFound .divZero) := by decide +kernel
theorem witness_CreateXform_refused : ({ State.reset with dim := 20 } : State).dim.toNat < 21 ∧
    177 < ({ State.reset with dim := 178 } : State).dim.toNat ∧ State.reset.cornersFinite = true ∧
    ({ State.reset with apValid := true } : State).finiteFrom 43 2 = true := by decide +kernel
theorem witness_CreateXform : ∀ d ∈ [21, 177], cornersS1.cornersFinite = true ∧ cornersS1.apValid = false ∧
    (createTransform (cornersS1.pt 37) (cornersS1.pt 40) (cornersS1.pt 34) none d).isOk = true := by decide +kernel

/-- Three finder centres `n` apart and a module size of 1. -/
def apart (n : Nat) : State := withF State.reset 34 [0, n, 0, 0, 0, 0, n, 0, 0, 0, 0, 0, 1]

theorem witness_Dimension_error : (apart 16).cornersFinite = true ∧ (apart 16).finiteFrom 46 1 = true ∧
    dimensionAndVersion ((apart 16).pt 37) ((apart 16).pt 40) ((apart 16).pt 34) ((apart 16).fval 46) =
      .error (.notFound .dimMod4) := by decide +kernel
theorem witness_Dimension : (nanAt 46).finiteFrom 46 1 = false ∧ (nanAt 34).cornersFinite = false ∧
    ∀ p ∈ [(14, 21, 1), (170, 177, 40)], (apart p.1).cornersFinite = true ∧ (apart p.1).finiteFrom 46 1 = true ∧
      dimensionAndVersion ((apart p.1).pt 37) ((apart p.1).pt 40) ((apart p.1).pt 34) ((apart p.1).fval 46) = .ok p.2 := by
  decide +kernel

/-! #### Patterns -/

/-- What the finder scan of S1's image leaves. -/
def candsS1 : List FinderCand :=
  [⟨.ofRatio 7 2, .ofRatio 7 2, .ofNat 1, 3⟩, ⟨.ofRatio 35 2, .ofRatio 7 2, .ofNat 1, 2⟩,
    ⟨.ofRatio 7 2, .ofRatio 35 2, .ofNat 1, 2⟩]

theorem witness_Finder_refused : State.reset.imgDimsOk = false := by decide
theorem witness_Finder_scan : (findFinderScan imgS1.image 64 false).1.fcand = candsS1 ∧
    (findFinderScan imgS1.image 64 false).2 = none := by decide +kernel
theorem witness_Finder_selection : imgS1.imgDimsOk = true ∧ (selectBestPatterns candsS1).isOk = true := by decide +kernel
theorem witness_Finder_none : (img 1 [0]).imgDimsOk = true ∧ (findFinderScan (img 1 [0]).image 64 false).2 = none ∧
    (findFinderScan (img 1 [0]).image 64 false).1.fcand = [] ∧ selectBestPatterns [] = .error (.notFound .finderFew) := by
  decide +kernel
/-- With room for one candidate the second one of S1's image ends the scan. -/
theorem witness_Finder_full : (findFinderScan imgS1.image 1 false).2 = some (.capacity .finderFull) ∧
    (findFinderScan imgS1.image 1 false).1.fcand.length = 1 ∧
    ({ imgS1 with params := { Params.qrd1 with maxFinderCand := 1 } } : State).imgDimsOk = true := by decide +kernel
theorem witness_Finder_white : ∀ x, x < (img 1 [0]).imgW.toNat → ∀ y, y < (img 1 [0]).imgH.toNat →
    (img 1 [0]).image.bit x y = false := by decide +kernel
theorem witness_Align_refused : State.reset.imgDimsOk = false ∧ imgAlign.imgDimsOk = true ∧
    (imgAlign.setFbits 46 0x7FF0000000000000 |>.fval 46).isFinite = false ∧
    F64.lt (F64.zero false) ((withF imgAlign 46 [0]).fval 46) = false ∧ 65535 < (args 0 0 65536 0).argNat 2 ∧
    (args 0 0 65535 0).argNat 2 ≤ 65535 := by decide +kernel
theorem witness_Align : (imgAlign.fval 46).isFinite = true ∧ F64.lt (F64.zero false) (imgAlign.fval 46) = true ∧
    alignInRegion imgAlign.image 64 [] (imgAlign.fval 46) 2 2 4 =
      ([⟨F64.ofRatio 5 2, F64.ofRatio 5 2, F64.ofNat 1⟩], .ok ⟨F64.ofRatio 5 2, F64.ofRatio 5 2, F64.ofNat 1⟩) := by
  decide +kernel
theorem witness_Align_none : alignInRegion (img 1 [0]).image 64 [] (F64.ofNat 1) 0 0 4 =
    ([], .error (.notFound .alignRegion)) := by decide +kernel
theorem witness_Order : (nanAt 23).finiteFrom 18 6 = false ∧ State.reset.finiteFrom 18 6 = true := by decide +kernel
/-- The two inputs of R256's example. -/
theorem witness_Order_example :
    orderPoints ((withF State.reset 18 [86, 30, 30, 86, 30, 30]).pt 18) ((withF State.reset 18 [86, 30, 30, 86, 30, 30]).pt 20)
      ((withF State.reset 18 [86, 30, 30, 86, 30, 30]).pt 22) = (1, 2, 0) ∧
    orderPoints ((withF State.reset 18 [30, 30, 86, 30, 30, 86]).pt 18) ((withF State.reset 18 [30, 30, 86, 30, 30, 86]).pt 20)
      ((withF State.reset 18 [30, 30, 86, 30, 30, 86]).pt 22) = (2, 0, 1) := by decide +kernel

/-! #### Parser -/

theorem witness_ParserChecks : State.reset.pstate.pinit = false ∧ (parsing 0 0).pstate.pinit = true ∧
    (parsing 0 21).gridW.toNat < 1 ∧ 177 < (parsing 178 178).gridW.toNat ∧ (parsing 21 25).gridW ≠ (parsing 21 25).gridH ∧
    (parsing 20 20).gridW.toNat < 21 ∧ (parsing 22 22).gridW.toNat % 4 ≠ 1 ∧ (parsing 177 177).gridW.toNat ≤ 177 := by decide +kernel
theorem witness_Parser : ∀ d ∈ [21, 177], (parsing (Word.ofNat d) (Word.ofNat d)).pstate.pinit = true ∧
    (parsing (Word.ofNat d) (Word.ofNat d)).gridW = (parsing (Word.ofNat d) (Word.ofNat d)).gridH ∧
    (parsing (Word.ofNat d) (Word.ofNat d)).gridW.toNat = d ∧ 21 ≤ d ∧ d ≤ 177 ∧ d % 4 = 1 := by decide
theorem witness_ReadFormat : gridS1.fmt = none ∧ ({ gridS1 with fmt := some 0 } : State).fmt.isSome = true ∧
    decodeFormat (gridS1.parser 21).b1 (gridS1.parser 21).b2 = .ok 0 := by decide +kernel

/-- A grid whose two format fields are both 0x000F, four bits from every entry. -/
def farFormat : State := onGrid 21 (fun x y => (x == 8 && decide (y < 4)) || (y == 8 && decide (17 ≤ x)))

theorem witness_ReadFormat_error : farFormat.fmt = none ∧ (farFormat.parser 21).b1 = 15 ∧ (farFormat.parser 21).b2 = 15 ∧
    decodeFormat 15 15 = .error (.format .formatInfo) := by decide +kernel

/-- A side-45 grid with the two given version fields, blank elsewhere. -/
def grid45 (f1 f2 : Nat) : State :=
  onGrid 45 (fun x y => (decide (34 ≤ x ∧ x ≤ 36 ∧ y < 6) && f1.testBit (3 * y + (x - 34))) ||
    (decide (34 ≤ y ∧ y ≤ 36 ∧ x < 6) && f2.testBit (3 * x + (y - 34))))

theorem witness_ReadVersion_side : ∀ d ∈ [21, 41], (parsing (Word.ofNat d) (Word.ofNat d)).version = none ∧
    (parsing (Word.ofNat d) (Word.ofNat d)).gridW.toNat ≤ 41 ∧
    ({ parsing (Word.ofNat d) (Word.ofNat d) with version := some 1 } : State).version.isSome = true := by decide
theorem witness_ReadVersion_first : (grid45 0x07C94 0).version = none ∧ 45 ≤ (grid45 0x07C94 0).gridW.toNat ∧
    decodeVersion ((grid45 0x07C94 0).parser 45).topRight = some 7 ∧ 17 + 4 * 7 = (grid45 0x07C94 0).gridW.toNat := by
  decide +kernel
theorem witness_ReadVersion_second : decodeVersion ((grid45 0 0x07C94).parser 45).topRight = none ∧
    decodeVersion ((grid45 0 0x07C94).parser 45).bottomLeft = some 7 := by decide +kernel
/-- The first field of another version, no second field. -/
theorem witness_ReadVersion_neither : decodeVersion ((grid45 0x085BC 0).parser 45).topRight = some 8 ∧
    decodeVersion ((grid45 0x085BC 0).parser 45).bottomLeft = none := by decide +kernel
theorem witness_FieldsCorrect : Sys2Proof.Machine.formatTable[31]? = some 0x2BED ∧ bitsDiff 0x2BED (0x2BEA : BitVec 15) ≤ 3 ∧
    bitsDiff 0x2BED (0x5BED : BitVec 15) ≤ 3 ∧ versionTable[33]? = some 0x28C69 ∧
    bitsDiff 0x28C69 (0x28C6E : BitVec 18) ≤ 3 := by decide

theorem witness_Unmask : (parsing 0 0).gridW.toNat < 1 ∧ 177 < (parsing 178 178).gridW.toNat ∧
    (parsing 1 2).gridW ≠ (parsing 1 2).gridH ∧ 1 ≤ (parsing 1 1).gridW.toNat ∧ (parsing 1 1).gridW = (parsing 1 1).gridH ∧
    (parsing 177 177).gridW.toNat ≤ 177 := by decide
theorem witness_FunctionPattern : (args 0 0 0 0).argNat 0 = 0 ∧ (args 41 0 0 0).argNat 0 = 41 ∧ (args 1 0 0 0).argNat 0 = 1 ∧
    (args 40 0 0 0).argNat 0 = 40 := by decide
theorem witness_Codewords_format_error : (farFormat.parser 21).readFormat = .error (.format .formatInfo) := by decide +kernel
theorem witness_Codewords_version_error : ((grid45 0 0).parser 45).readFormat = .ok 0 ∧
    ((grid45 0 0).parser 45).readVersion = .error (.format .versionInfo) := by decide +kernel
theorem witness_Codewords : (gridS1.parser 21).readFormat = .ok 0 ∧ (gridS1.parser 21).readVersion = .ok 1 ∧
    ((gridS1.parser 21).unmask 0).codewords 1 = .ok s1Codewords := by decide +kernel
theorem witness_GridCommands : exec (.unmask 7) gridS1 = .next (run (.unmask 7) gridS1) ∧
    exec (.unmask 7) (run (.unmask 7) gridS1) = .next (run (.unmask 7) (run (.unmask 7) gridS1)) ∧
    exec .mirror gridS1 = .next (run .mirror gridS1) ∧ exec .readCodewords gridS1 = .next (run .readCodewords gridS1) ∧
    exec .remask (run .readCodewords gridS1) = .next (run .remask (run .readCodewords gridS1)) :=
  ⟨exec_run _ _, exec_run _ _, exec_run _ _, exec_run _ _, exec_run _ _⟩
theorem witness_GridCommands_succeeds : (run .readCodewords gridS1).errcode = 0 := by decide +kernel

/-- The operands of `BLOCK_DECODE` for S1, with given codewords. -/
def blockS1 (cw : List Byte) : State := (args 1 0 26 0).putBytes 0x4000 cw

theorem witness_Blocks_refused : (args 41 0 0 0).argNat 0 = 41 ∧ 3 < (args 1 4 0 0).argNat 1 ∧
    4096 < (args 1 0 4097 0).argNat 2 ∧ (args 40 3 4096 0).argNat 2 ≠ totalCodewords ((args 40 3 4096 0).argNat 0) := by
  decide +kernel
theorem witness_Blocks : (blockS1 s1Codewords).argNat 2 ≤ 4096 ∧
    dataBlocks ((blockS1 s1Codewords).bytes 0x4000 26) 1 (levelOf 0) = .ok [(16, s1Codewords)] ∧
    decodeBlocks [(16, s1Codewords)] = .ok (s1Codewords.take 16, 0) := by decide +kernel
/-- Six changed codewords of S1 (95_test_vectors.md table T3). -/
def sixErrors : List Byte := correctWord s1Codewords ([0, 3, 6, 9, 12, 15].map (fun (k : Nat) => (k, 0xFF)))

theorem witness_Blocks_error : dataBlocks ((blockS1 sixErrors).bytes 0x4000 26) 1 (levelOf 0) = .ok [(16, sixErrors)] ∧
    decodeBlocks [(16, sixErrors)] = .error (.checksum .sigma0Zero) := by decide +kernel
theorem witness_Decode : gridS1.gridW = gridS1.gridH ∧ gridS1.gridW.toNat = 21 ∧
    decodeGrid 21 gridS1.grid.bit = .ok (⟨s1Codewords.take 16, 0, 1, 0⟩, false) := ⟨rfl, rfl, test_decode_grid⟩
theorem witness_Decode_error : decodeGrid 21 farFormat.grid.bit = .error (.format .formatInfo) := by decide +kernel
theorem witness_Decode_again : exec .decode gridS1 = .next (run .decode gridS1) := exec_run _ _

/-! #### The whole detector, step by step on S1's image -/

/-- After the finder step. -/
def foundS1 : State :=
  { ({ imgS1 with fcand := candsS1, hasSkipped := true, findNcand := 3 } : State).setFs 34
      [.ofRatio 7 2, .ofRatio 35 2, .ofNat 1, .ofRatio 7 2, .ofRatio 7 2, .ofNat 1, .ofRatio 35 2, .ofRatio 7 2, .ofNat 1] with
    fpcBl := 2
    fpcTl := 3
    fpcTr := 2 }

/-- The transform of S1's image: 196 times the identity. -/
def xformS1 : Xform where
  a11 := .ofNat 196
  a21 := .ofNat 0
  a31 := .ofNat 0
  a12 := .ofNat 0
  a22 := .ofNat 196
  a32 := .ofNat 0
  a13 := .ofNat 0
  a23 := .ofNat 0
  a33 := .ofNat 196

/-- The rows of S1 as numbers, bit `x` of a row for column `x` (95_test_vectors.md section 3). -/
def rowWordsS1 : List Nat :=
  [0x1FCE7F, 0x104D41, 0x17445D, 0x174C5D, 0x17555D, 0x105641, 0x1FD57F, 0x1A00, 0x90A55, 0x84615, 0x1F1660, 0x846B5, 0x556E6,
    0xCAD00, 0x1CE87F, 0x1BC41, 0x1CED5D, 0xCC25D, 0x15155D, 0x94641, 0x1CD57F]

/-- Row `y` of S1. -/
def rowS1 (y : Nat) : List Bool := (List.range 21).map (fun x => (rowWordsS1.getD y 0).testBit x)

/-- The rows of S1. -/
def rowsS1 : List (List Bool) := (List.range 21).map rowS1

/-- The module centres of row `y`. -/
def centres (y : Nat) : List (F64 × F64) := (List.range 21).map (fun x => (halfPast x, halfPast y))

/-- After the alignment step, which finds version 1 and looks for nothing. -/
def alignedS1 : State := { foundS1.setF 46 (.ofNat 1) with dim := 21, pver := 1, apValid := false }

/-- After the last step. -/
def detectedS1 : State := (alignedS1.setFs 0 xformS1.list).putGrid 21 21 rowsS1

theorem witness_Detect_finder : finderStep imgS1 = (foundS1, none) := by decide +kernel
theorem witness_Detect_size :
    checkedModuleSize imgS1.params.bresenham imgS1.image (foundS1.pt 37) (foundS1.pt 40) (foundS1.pt 34) =
      .ok (.ofNat 1) := by decide +kernel
theorem witness_Detect_dimension :
    dimensionAndVersion (foundS1.pt 37) (foundS1.pt 40) (foundS1.pt 34) (.ofNat 1) = .ok (21, 1) := by decide +kernel
theorem witness_Detect_align :
    alignStep (.ofNat 1) 21 1 { foundS1.setF 46 (.ofNat 1) with dim := 21, pver := 1 } = (alignedS1, none) := by decide +kernel
theorem witness_Detect_xform :
    createTransform (foundS1.pt 37) (foundS1.pt 40) (foundS1.pt 34)
      (if alignedS1.apValid then some (alignedS1.pt 43) else none) 21 = .ok xformS1 := by decide +kernel
theorem transformPoints_fixed (t : Xform) (ps : List (F64 × F64)) (h : ∀ p ∈ ps, transformPoint t p.1 p.2 = .ok p) :
    transformPoints t ps = .ok ps := by
  induction ps with
  | nil => rfl
  | cons p ps ih =>
    rw [transformPoints, h p List.mem_cons_self]
    simp only [bind, Except.bind, ih (fun q hq => h q (List.mem_cons_of_mem _ hq))]

/-- The products with 0, the sums with 0, and the division by 196, at each half past a number below 21. -/
theorem scaled_centres : ∀ n ∈ List.range 21, F64.mul (.ofNat 0) (halfPast n) = .zero false ∧
    F64.add (F64.add (F64.mul (.ofNat 196) (halfPast n)) (.zero false)) (.ofNat 0) = F64.mul (.ofNat 196) (halfPast n) ∧
    F64.add (F64.add (.zero false) (F64.mul (.ofNat 196) (halfPast n))) (.ofNat 0) = F64.mul (.ofNat 196) (halfPast n) ∧
    fdiv (F64.mul (.ofNat 196) (halfPast n)) (.ofNat 196) = .ok (halfPast n) := by decide +kernel

theorem centre_stays (x y : Nat) (hx : x ∈ List.range 21) (hy : y ∈ List.range 21) :
    transformPoint xformS1 (halfPast x) (halfPast y) = .ok (halfPast x, halfPast y) := by
  obtain ⟨x1, x2, _, x4⟩ := scaled_centres x hx
  obtain ⟨y1, _, y3, y4⟩ := scaled_centres y hy
  have hw : F64.add (F64.add (.zero false) (.zero false)) (.ofNat 196) = .ofNat 196 := by decide +kernel
  simp only [transformPoint, xformS1, x1, y1, hw, x2, y3, x4, y4, bind, Except.bind]

theorem centres_stay (y : Nat) (hy : y ∈ List.range 21) : transformPoints xformS1 (centres y) = .ok (centres y) := by
  refine transformPoints_fixed xformS1 (centres y) (fun p hp => ?_)
  obtain ⟨x, hx, rfl⟩ := List.mem_map.1 hp
  exact centre_stays x y hx hy

theorem centres_inside : ∀ y ∈ List.range 21, checkAndNudge 21 21 (centres y) = .ok (centres y) := by decide +kernel
theorem pixels_of_centres : ∀ y ∈ List.range 21, samplePixels imgS1.image (centres y) = .ok (rowS1 y) := by decide +kernel
theorem sampleRows_ok (im : BitMatrix) (n : Nat) (t : Xform) (row : Nat → List Bool) (ys : List Nat)
    (h : ∀ y ∈ ys, sampleRow im n t y = .ok (row y)) : sampleRows im n t ys = .ok (ys.map row) := by
  induction ys with
  | nil => rfl
  | cons y ys ih =>
    rw [sampleRows, h y List.mem_cons_self]
    simp only [bind, Except.bind, ih (fun z hz => h z (List.mem_cons_of_mem _ hz)), List.map_cons]
theorem witness_Detect_sample : sampleGrid imgS1.image 21 21 xformS1 = .ok rowsS1 := by
  refine sampleRows_ok imgS1.image 21 xformS1 rowS1 (List.range 21) (fun y hy => ?_)
  have h1 : transformPoints xformS1 ((List.range 21).map (fun x => (halfPast x, halfPast y))) = .ok (centres y) :=
    centres_stay y hy
  have h2 : checkAndNudge imgS1.image.w imgS1.image.h (centres y) = .ok (centres y) := centres_inside y hy
  simp only [sampleRow, h1, h2, bind, Except.bind, pixels_of_centres y hy]
theorem witness_Detect : imgS1.imgDimsOk = true ∧ finderStep imgS1 = (foundS1, none) ∧
    checkedModuleSize imgS1.params.bresenham imgS1.image (foundS1.pt 37) (foundS1.pt 40) (foundS1.pt 34) =
      .ok (.ofNat 1) ∧
    dimensionAndVersion (foundS1.pt 37) (foundS1.pt 40) (foundS1.pt 34) (.ofNat 1) = .ok (21, 1) ∧
    alignStep (.ofNat 1) 21 1 { foundS1.setF 46 (.ofNat 1) with dim := BitVec.ofNat 32 21, pver := BitVec.ofNat 6 1 } =
      (alignedS1, none) ∧
    createTransform (foundS1.pt 37) (foundS1.pt 40) (foundS1.pt 34)
      (if alignedS1.apValid then some (alignedS1.pt 43) else none) 21 = .ok xformS1 ∧
    sampleGrid imgS1.image 21 21 xformS1 = .ok rowsS1 :=
  ⟨by decide, witness_Detect_finder, witness_Detect_size, witness_Detect_dimension, witness_Detect_align,
    witness_Detect_xform, witness_Detect_sample⟩

/-- `DETECT` on S1's image ends without an error, as `detectedS1`. -/
theorem detect_imgS1 : detect imgS1 = (detectedS1, none) := by
  have hs : checkedModuleSize foundS1.params.bresenham foundS1.image (foundS1.pt fTL) (foundS1.pt fTR) (foundS1.pt fBL) =
      .ok (.ofNat 1) := witness_Detect_size
  have hd : dimensionAndVersion ((foundS1.setF fMS (.ofNat 1)).pt fTL) ((foundS1.setF fMS (.ofNat 1)).pt fTR)
      ((foundS1.setF fMS (.ofNat 1)).pt fBL) (.ofNat 1) = .ok (21, 1) := by decide +kernel
  have ha : alignStep (.ofNat 1) 21 1 { foundS1.setF fMS (.ofNat 1) with dim := Word.ofNat 21, pver := BitVec.ofNat 6 1 } =
      (alignedS1, none) := witness_Detect_align
  have hx : createTransform (alignedS1.pt fTL) (alignedS1.pt fTR) (alignedS1.pt fBL) alignedS1.alignPt 21 = .ok xformS1 := by
    decide +kernel
  have hg : sampleGrid (alignedS1.setFs fTA xformS1.list).image 21 21 xformS1 = .ok rowsS1 := witness_Detect_sample
  unfold detect
  rw [if_neg (by decide), witness_Detect_finder, andThen_none, hs, computing_ok]
  dsimp only
  rw [hd, computing_ok]
  dsimp only
  rw [ha, andThen_none, hx, computing_ok]
  rw [hg, computing_ok]
  rfl

/-- With room for one candidate `DETECT` fails at its first step. -/
theorem witness_Detect_fails : State.reset.imgDimsOk = false ∧
    (finderStep { imgS1 with params := { Params.qrd1 with maxFinderCand := 1 } }).2 = some (.capacity .finderFull) := by
  decide +kernel

theorem witness_Scan_finished : exec .detect imgS1 = .next (run .detect imgS1) ∧
    exec .detect State.reset = .next (run .detect State.reset) ∧ (run .detect State.reset).errcode ≠ 0 :=
  ⟨exec_run _ _, exec_run _ _, by decide⟩
theorem grid_of_detectedS1 : detectedS1.gridCheck = .ok 21 ∧
    decodeGrid 21 detectedS1.grid.bit = .ok (⟨s1Codewords.take 16, 0, 1, 0⟩, false) := by decide +kernel
theorem witness_Scan_decodes : detect imgS1 = (detectedS1, none) ∧ detectedS1.gridCheck = .ok 21 ∧
    decodeGrid 21 detectedS1.grid.bit = .ok (⟨s1Codewords.take 16, 0, 1, 0⟩, false) :=
  ⟨detect_imgS1, grid_of_detectedS1.1, grid_of_detectedS1.2⟩
theorem witness_Scan_succeeds : exec .detect imgS1 = .next detectedS1.finished ∧ detectedS1.finished.errcode = 0 :=
  ⟨by rw [← endCommand_none, ← detect_imgS1]; rfl, rfl⟩

end Sys2Proof.Tests
end

section
/-! PROOFS, family 00_scope (O14). Every command is a rule, which writes neither the control registers nor its own inputs,
followed by `endCommand`, which writes the flags (R90, R331). The first half is `ruleOf_fixed`, the second
`endCommand_flags`. -/

namespace Sys2Proof.Machine

/-! ### What no rule writes -/

/-- The parts of the state that no command's rule writes: the host's side, the registers that only a command's start and
end write, and the inputs (R26, R71, R90). -/
structure Fixed where
  params : Params
  host : List HostEvent
  resp : BusResp
  epoch : Nat
  running : Option Word
  ctrl : Ctrl
  status : Status
  errcode : BitVec 4
  errdetail : BitVec 8
  arg : Vector Word 4
  imgW : Word
  imgH : Word
  rsN : Word
  rsTwos : Word

/-- Those parts of a state. -/
def State.fixed (s : State) : Fixed where
  params := s.params
  host := s.host
  resp := s.resp
  epoch := s.epoch
  running := s.running
  ctrl := s.ctrl
  status := s.status
  errcode := s.errcode
  errdetail := s.errdetail
  arg := s.arg
  imgW := s.imgW
  imgH := s.imgH
  rsN := s.rsN
  rsTwos := s.rsTwos

theorem setF_fixed (s : State) (k : Nat) (v : F64) : (s.setF k v).fixed = s.fixed := by
  obtain ⟨b, n, e⟩ := setF_cases s k v
  rw [e]; rfl

theorem setFs_fixed (s : State) (k : Nat) (vs : List F64) : (s.setFs k vs).fixed = s.fixed := by
  obtain ⟨g, n, e⟩ := setFs_cases vs s k
  rw [e]; rfl

theorem copyF_fixed (s : State) (dst src n : Nat) : (s.copyF dst src n).fixed = s.fixed :=
  List.foldlRecOn (motive := fun t : State => t.fixed = s.fixed) (List.range n) _ rfl fun _ ht _ _ => ht

theorem putGrid_fixed (s : State) (w h : Nat) (rows : List (List Bool)) : (s.putGrid w h rows).fixed = s.fixed := rfl

theorem putAlign_fixed (s : State) (c : AlignCand) : (s.putAlign c).fixed = s.fixed := by
  obtain ⟨g, n, e, -⟩ := putAlign_cases s c
  rw [e]; rfl

theorem versionFields_fixed (p : Parser) (s : State) : (versionFields p s).fixed = s.fixed := by
  unfold versionFields
  split
  · rfl
  · dsimp only
    split <;> rfl

/-! ### Rules that write all or nothing -/

/-- The rule `v`, if it succeeds, leaves a state with the fixed parts of `s`. -/
def KeepsFixed (s : State) (v : Except Raise State) : Prop := ∀ t, v = .ok t → t.fixed = s.fixed

namespace KeepsFixed

variable {s : State}

theorem error {e : Raise} : KeepsFixed s (.error e) := fun _ h => nomatch h

theorem ok {t : State} (h : t.fixed = s.fixed) : KeepsFixed s (.ok t) := fun _ e => by cases e; exact h

theorem ite {c : Prop} [Decidable c] {v w : Except Raise State} (hv : KeepsFixed s v) (hw : KeepsFixed s w) :
    KeepsFixed s (if c then v else w) := by
  split
  · exact hv
  · exact hw

theorem bind {α : Type} {x : Except Raise α} {f : α → Except Raise State} (h : ∀ a, KeepsFixed s (f a)) :
    KeepsFixed s (x >>= f) := fun t e => by
  obtain ⟨a, -, ha⟩ := bind_ok e
  exact h a t ha

end KeepsFixed

theorem setPoly_keepsFixed (s : State) (k : Nat) (p : List Byte) : KeepsFixed s (s.setPoly k p) := .ite .error (.ok rfl)

theorem gfAdd_keepsFixed (s : State) : KeepsFixed s (gfAdd s) := .ite .error (.ok rfl)
theorem gfMul_keepsFixed (s : State) : KeepsFixed s (gfMul s) := .ite .error (.ok rfl)
theorem gfInv_keepsFixed (s : State) : KeepsFixed s (gfInv s) := .ite .error (.bind fun _ => .ok rfl)
theorem gfExp_keepsFixed (s : State) : KeepsFixed s (gfExp s) := .ite .error (.ok rfl)
theorem gfLog_keepsFixed (s : State) : KeepsFixed s (gfLog s) := .ite .error (.bind fun _ => .ok rfl)

theorem polyBinary_keepsFixed (op : Poly → Poly → Poly) (d : Nat) (s : State) : KeepsFixed s (polyBinary op d s) :=
  .ite .error (.ite .error (.bind fun _ => .bind fun _ => setPoly_keepsFixed _ _ _))
theorem polyScale_keepsFixed (d : Nat) (s : State) : KeepsFixed s (polyScale d s) :=
  .ite .error (.ite .error (.bind fun _ => setPoly_keepsFixed _ _ _))
theorem polyMulMono_keepsFixed (d : Nat) (s : State) : KeepsFixed s (polyMulMono d s) :=
  .ite .error (.ite .error (.bind fun _ => setPoly_keepsFixed _ _ _))
theorem polyMono_keepsFixed (d : Nat) (s : State) : KeepsFixed s (polyMono d s) :=
  .ite .error (.ite .error (setPoly_keepsFixed _ _ _))
theorem polyEval_keepsFixed (k : Nat) (s : State) : KeepsFixed s (polyEval k s) :=
  .ite .error (.ite .error (.bind fun _ => .ok rfl))

theorem syndStep_keepsFixed (s : State) : KeepsFixed s (syndStep s) := setPoly_keepsFixed _ _ _
theorem euclidStep_keepsFixed (s : State) : KeepsFixed s (euclidStep s) := fun t h => by
  obtain ⟨m, v, rfl, -⟩ := euclidStep_ok s t h
  rfl
theorem chienStep_keepsFixed (s : State) : KeepsFixed s (chienStep s) := .bind fun _ => .bind fun _ => .ok rfl
theorem forneyStep_keepsFixed (s : State) : KeepsFixed s (forneyStep s) := .bind fun _ => .bind fun _ => .ok rfl
theorem rsSynd_keepsFixed (s : State) : KeepsFixed s (rsSynd s) := .bind fun _ => fun t h => by
  obtain ⟨u, hu, ht⟩ := bind_ok h
  cases ht
  exact syndStep_keepsFixed s u hu
theorem rsEuclid_keepsFixed (s : State) : KeepsFixed s (rsEuclid s) := .ite .error (euclidStep_keepsFixed s)

theorem ptSq2q_keepsFixed (s : State) : KeepsFixed s (ptSq2q s) := .ite .error (.bind fun _ => .ok (setFs_fixed _ _ _))
theorem ptQ2sq_keepsFixed (s : State) : KeepsFixed s (ptQ2sq s) := .ite .error (.bind fun _ => .ok (setFs_fixed _ _ _))
theorem ptQ2q_keepsFixed (s : State) : KeepsFixed s (ptQ2q s) := .ite .error (.bind fun _ => .ok (setFs_fixed _ _ _))
theorem ptAdj_keepsFixed (s : State) : KeepsFixed s (ptAdj s) := .ite .error (.ok (setFs_fixed _ _ _))
theorem ptTimes_keepsFixed (s : State) : KeepsFixed s (ptTimes s) := .ite .error (.ok (setFs_fixed _ _ _))
theorem ptXform_keepsFixed (m : Nat) (s : State) : KeepsFixed s (ptXform m s) :=
  .ite .error (.ite .error (.bind fun _ => .ok (setFs_fixed _ _ _)))
theorem ptCopy_keepsFixed (dir : Nat) (s : State) : KeepsFixed s (ptCopy dir s) :=
  .ite (.ok (copyF_fixed _ _ _ _)) (.ite (.ok (copyF_fixed _ _ _ _)) .error)
theorem gridSample_keepsFixed (s : State) : KeepsFixed s (gridSample s) :=
  .ite .error (.ite .error (.ite .error (.bind fun _ => .ok rfl)))
theorem moduleSizeCmd_keepsFixed (s : State) : KeepsFixed s (moduleSizeCmd s) :=
  .ite .error (.ite .error (.bind fun _ => .bind fun _ => .bind fun _ => .bind fun _ => .ok (setF_fixed _ _ _)))
theorem dimensionCmd_keepsFixed (s : State) : KeepsFixed s (dimensionCmd s) := .ite .error (.bind fun _ => .ok rfl)
theorem createXform_keepsFixed (s : State) : KeepsFixed s (createXform s) :=
  .ite .error (.ite .error (.bind fun _ => .ok (setFs_fixed _ _ _)))
theorem order3_keepsFixed (s : State) : KeepsFixed s (order3 s) := by
  unfold order3
  obtain ⟨a, b, c⟩ := orderPoints (s.pt fQ) (s.pt (fQ + 2)) (s.pt (fQ + 4))
  exact .ite .error (.ok (by simp [State.fixed]))

theorem unmaskCmd_keepsFixed (m : Nat) (s : State) : KeepsFixed s (unmaskCmd m s) :=
  .ite .error (.ite .error (.ite .error (.ok rfl)))
theorem buildFnpat_keepsFixed (s : State) : KeepsFixed s (buildFnpat s) := .ite .error (.ok rfl)
theorem blockDecode_keepsFixed (s : State) : KeepsFixed s (blockDecode s) :=
  .ite .error (.bind fun _ => .bind fun _ => .ok rfl)
theorem mirrorCmd_keepsFixed (s : State) : KeepsFixed s (mirrorCmd s) := .bind fun _ => .ok rfl
theorem setMirror_keepsFixed (m : Nat) (s : State) : KeepsFixed s (setMirror m s) := .ite .error (.bind fun _ => .ok rfl)
theorem remaskCmd_keepsFixed (s : State) : KeepsFixed s (remaskCmd s) := .bind fun d => by
  cases s.fmt with
  | none => exact .ok rfl
  | some info => exact .ok rfl
theorem decodeCmd_keepsFixed (s : State) : KeepsFixed s (decodeCmd s) := .bind fun _ => .bind fun _ => .ok rfl

/-! ### Composite rules -/

theorem single_fixed {s : State} {v : Except Raise State} (h : KeepsFixed s v) : (single s v).1.fixed = s.fixed :=
  single_induct (P := fun t => t.fixed = s.fixed) s v rfl h

theorem andThen_fixed {s : State} {r : Ended} {k : State → Ended} (hr : r.1.fixed = s.fixed)
    (hk : ∀ t, (k t).1.fixed = t.fixed) : (r.andThen k).1.fixed = s.fixed :=
  andThen_induct (P := fun t => t.fixed = s.fixed) r k hr fun t e => by
    subst e
    exact (hk t).trans hr

theorem computing_fixed {α : Type} {s t : State} {v : Except Raise α} {k : α → Ended} (ht : t.fixed = s.fixed)
    (hk : ∀ a, (k a).1.fixed = s.fixed) : (computing t v k).1.fixed = s.fixed :=
  computing_induct (P := fun t => t.fixed = s.fixed) t v k ht fun a _ => hk a

theorem ite_fixed {c : Prop} [Decidable c] {s : State} {r q : Ended} (hr : r.1.fixed = s.fixed) (hq : q.1.fixed = s.fixed) :
    (if c then r else q).1.fixed = s.fixed := by
  split
  · exact hr
  · exact hq

theorem correctStep_fixed (s : State) : (correctStep s).1.fixed = s.fixed := by
  obtain ⟨m, r, e, -⟩ := correctStep_cases s
  rw [e]; rfl

theorem rsCorrect_fixed (s : State) : (rsCorrect s).1.fixed = s.fixed := ite_fixed rfl (correctStep_fixed s)

theorem rsDecode_fixed (s : State) : (rsDecode s).1.fixed = s.fixed :=
  computing_fixed rfl fun _ => andThen_fixed (single_fixed (syndStep_keepsFixed s)) fun t =>
    ite_fixed rfl <|
      andThen_fixed (single_fixed (euclidStep_keepsFixed t)) fun t =>
      andThen_fixed (single_fixed (chienStep_keepsFixed t)) fun t =>
      andThen_fixed (single_fixed (forneyStep_keepsFixed t)) correctStep_fixed

theorem parserInit_fixed (s : State) : (parserInit s).1.fixed = s.fixed := computing_fixed rfl fun _ => rfl

theorem readFormat_fixed (s : State) : (readFormat s).1.fixed = s.fixed :=
  computing_fixed rfl fun _ => ite_fixed rfl (computing_fixed rfl fun _ => rfl)

theorem readVersion_fixed (s : State) : (readVersion s).1.fixed = s.fixed :=
  computing_fixed rfl fun _ => computing_fixed (versionFields_fixed _ s) fun _ => versionFields_fixed _ s

theorem readCodewords_fixed (s : State) : (readCodewords s).1.fixed = s.fixed := by
  unfold readCodewords
  refine computing_fixed rfl fun d => computing_fixed rfl fun info => computing_fixed rfl fun v => ?_
  exact computing_fixed (by simp [State.fixed]) fun out => by simp [State.fixed]

theorem finderStep_fixed (s : State) : (finderStep s).1.fixed = s.fixed := by
  obtain ⟨_, _, _, _, _, _, _, _, e, -⟩ := finderStep_cases s
  rw [e]; rfl

theorem findFinder_fixed (s : State) : (findFinder s).1.fixed = s.fixed := ite_fixed rfl (finderStep_fixed s)

theorem findAlignCmd_fixed (s : State) : (findAlignCmd s).1.fixed = s.fixed := by
  unfold findAlignCmd
  exact ite_fixed rfl (ite_fixed rfl (ite_fixed rfl (computing_fixed rfl fun c => putAlign_fixed _ c)))

theorem alignStep_fixed (ms : F64) (d v : Nat) (s : State) : (alignStep ms d v s).1.fixed = s.fixed := by
  obtain ⟨_, _, _, _, e, -⟩ := alignStep_cases ms d v s
  rw [e]; rfl

theorem detect_fixed (s : State) : (detect s).1.fixed = s.fixed := by
  unfold detect
  refine ite_fixed rfl (andThen_fixed (finderStep_fixed s) fun t => ?_)
  refine computing_fixed rfl fun ms => computing_fixed (setF_fixed t fMS ms) fun dv => ?_
  refine andThen_fixed ((alignStep_fixed ms dv.1 dv.2 _).trans (setF_fixed t fMS ms)) fun u => ?_
  refine computing_fixed rfl fun x => computing_fixed (setFs_fixed u fTA x.list) fun rows => ?_
  exact (putGrid_fixed _ dv.1 dv.1 rows).trans (setFs_fixed u fTA x.list)

theorem scan_fixed (s : State) : (scan s).1.fixed = s.fixed :=
  andThen_fixed (detect_fixed s) fun t => single_fixed (decodeCmd_keepsFixed t)

/-! ### Every command's rule -/

/-- What the rule of a command comes to, before the command's end is recorded. -/
def ruleOf (s : State) : Instr → Ended
  | .nop => (s, none)
  | .clear => (cleared s, none)
  | .gfAdd => single s (gfAdd s)
  | .gfMul => single s (gfMul s)
  | .gfInv => single s (gfInv s)
  | .gfExp => single s (gfExp s)
  | .gfLog => single s (gfLog s)
  | .pAdd sel => single s (polyBinary padd sel s)
  | .pMul sel => single s (polyBinary pmul sel s)
  | .pScale sel => single s (polyScale sel s)
  | .pMulmono sel => single s (polyMulMono sel s)
  | .pMono sel => single s (polyMono sel s)
  | .pEval sel => single s (polyEval sel s)
  | .rsSynd => single s (rsSynd s)
  | .rsEuclid => single s (rsEuclid s)
  | .rsChien => single s (chienStep s)
  | .rsForney => single s (forneyStep s)
  | .rsCorrect => rsCorrect s
  | .rsDecode => rsDecode s
  | .ptSq2q => single s (ptSq2q s)
  | .ptQ2sq => single s (ptQ2sq s)
  | .ptQ2q => single s (ptQ2q s)
  | .ptAdj => single s (ptAdj s)
  | .ptTimes => single s (ptTimes s)
  | .ptXform sel => single s (ptXform sel s)
  | .ptCopy sel => single s (ptCopy sel s)
  | .gridSample => single s (gridSample s)
  | .moduleSize => single s (moduleSizeCmd s)
  | .dimension => single s (dimensionCmd s)
  | .createXform => single s (createXform s)
  | .detect => detect s
  | .findFinder => findFinder s
  | .findAlign => findAlignCmd s
  | .order3 => single s (order3 s)
  | .parserInit => parserInit s
  | .readFormat => readFormat s
  | .readVersion => readVersion s
  | .unmask sel => single s (unmaskCmd sel s)
  | .buildFnpat => single s (buildFnpat s)
  | .readCodewords => readCodewords s
  | .blockDecode => single s (blockDecode s)
  | .mirror => single s (mirrorCmd s)
  | .setMirror sel => single s (setMirror sel s)
  | .remask => single s (remaskCmd s)
  | .decode => single s (decodeCmd s)
  | .scan => scan s

/-- A command is its rule and then the one way a command ends (R90, R331). -/
theorem exec_eq_endCommand (i : Instr) (s : State) : exec i s = endCommand (ruleOf s i) := by
  cases i <;> rfl

/-- No command's rule writes the host's side, the control registers or an input (R26, R71). -/
theorem ruleOf_fixed (i : Instr) (s : State) : (ruleOf s i).1.fixed = s.fixed := by
  cases i with
  | nop => rfl
  | clear => rfl
  | gfAdd => exact single_fixed (gfAdd_keepsFixed s)
  | gfMul => exact single_fixed (gfMul_keepsFixed s)
  | gfInv => exact single_fixed (gfInv_keepsFixed s)
  | gfExp => exact single_fixed (gfExp_keepsFixed s)
  | gfLog => exact single_fixed (gfLog_keepsFixed s)
  | pAdd sel => exact single_fixed (polyBinary_keepsFixed padd sel s)
  | pMul sel => exact single_fixed (polyBinary_keepsFixed pmul sel s)
  | pScale sel => exact single_fixed (polyScale_keepsFixed sel s)
  | pMulmono sel => exact single_fixed (polyMulMono_keepsFixed sel s)
  | pMono sel => exact single_fixed (polyMono_keepsFixed sel s)
  | pEval sel => exact single_fixed (polyEval_keepsFixed sel s)
  | rsSynd => exact single_fixed (rsSynd_keepsFixed s)
  | rsEuclid => exact single_fixed (rsEuclid_keepsFixed s)
  | rsChien => exact single_fixed (chienStep_keepsFixed s)
  | rsForney => exact single_fixed (forneyStep_keepsFixed s)
  | rsCorrect => exact rsCorrect_fixed s
  | rsDecode => exact rsDecode_fixed s
  | ptSq2q => exact single_fixed (ptSq2q_keepsFixed s)
  | ptQ2sq => exact single_fixed (ptQ2sq_keepsFixed s)
  | ptQ2q => exact single_fixed (ptQ2q_keepsFixed s)
  | ptAdj => exact single_fixed (ptAdj_keepsFixed s)
  | ptTimes => exact single_fixed (ptTimes_keepsFixed s)
  | ptXform sel => exact single_fixed (ptXform_keepsFixed sel s)
  | ptCopy sel => exact single_fixed (ptCopy_keepsFixed sel s)
  | gridSample => exact single_fixed (gridSample_keepsFixed s)
  | moduleSize => exact single_fixed (moduleSizeCmd_keepsFixed s)
  | dimension => exact single_fixed (dimensionCmd_keepsFixed s)
  | createXform => exact single_fixed (createXform_keepsFixed s)
  | detect => exact detect_fixed s
  | findFinder => exact findFinder_fixed s
  | findAlign => exact findAlignCmd_fixed s
  | order3 => exact single_fixed (order3_keepsFixed s)
  | parserInit => exact parserInit_fixed s
  | readFormat => exact readFormat_fixed s
  | readVersion => exact readVersion_fixed s
  | unmask sel => exact single_fixed (unmaskCmd_keepsFixed sel s)
  | buildFnpat => exact single_fixed (buildFnpat_keepsFixed s)
  | readCodewords => exact readCodewords_fixed s
  | blockDecode => exact single_fixed (blockDecode_keepsFixed s)
  | mirror => exact single_fixed (mirrorCmd_keepsFixed s)
  | setMirror sel => exact single_fixed (setMirror_keepsFixed sel s)
  | remask => exact single_fixed (remaskCmd_keepsFixed s)
  | decode => exact single_fixed (decodeCmd_keepsFixed s)
  | scan => exact scan_fixed s

theorem ruleOf_status (i : Instr) (s : State) : (ruleOf s i).1.status = s.status :=
  congrArg Fixed.status (ruleOf_fixed i s)

/-! ### The flags at a command's end -/

/-- Error code 0 is no raise's: it is kept for "no error" (R330). -/
theorem Raise.code_ne_zero (e : Raise) : e.code ≠ 0 := by
  cases e <;> simp [Raise.code]

/-- The flags `endCommand` leaves, with or without an error (R90, R331). -/
theorem endCommand_flags (r : Ended) :
    ∃ t, endCommand r = .next t ∧ t.status.busy = false ∧ t.status.done = true ∧ t.status.ovr = r.1.status.ovr ∧
      (t.status.err = true ↔ t.errcode ≠ 0) ∧ t.running = none := by
  obtain ⟨u, e⟩ := r
  cases e with
  | none => exact ⟨u.finished, endCommand_none u, rfl, rfl, rfl, by simp, rfl⟩
  | some e =>
    refine ⟨u.failed e.code.toNat e.detail.toNat, endCommand_some u e, rfl, rfl, rfl, ?_, rfl⟩
    simpa using e.code_ne_zero

/-- Settles O14: a command is its rule and then `endCommand`, and the rule left `STATUS` alone. -/
theorem everyCommandEnds : Obligations.EveryCommandEnds := by
  intro i s
  rw [exec_eq_endCommand, ← ruleOf_status i s]
  exact endCommand_flags (ruleOf s i)

end Sys2Proof.Machine
end

section
/-! PROOFS, family 10_state, frames (O16, O17). `Frame ps gs s t` says that `t` differs from `s` only in the parts
`ps`, the binary64 groups `gs`, memory and the registers a command's end writes. It is reflexive, transitive and
monotone, each write of the model has one, and `ruleOf_frame` puts them together along each command's rule. -/

namespace Sys2Proof.Machine

/-! ### Rules that succeed -/

/-- The rule `v`, if it succeeds, leaves a state with property `P`; `KeepsFixed` is the case of one such property. -/
def Yields (v : Except Raise State) (P : State → Prop) : Prop := ∀ t, v = .ok t → P t

namespace Yields

variable {P : State → Prop}

theorem error {e : Raise} : Yields (.error e) P := fun _ h => nomatch h

theorem ok {t : State} (h : P t) : Yields (.ok t) P := fun _ e => by cases e; exact h

theorem ite {c : Prop} [Decidable c] {v w : Except Raise State} (hv : c → Yields v P) (hw : ¬ c → Yields w P) :
    Yields (if c then v else w) P := by
  split
  · exact hv ‹_›
  · exact hw ‹_›

/-- The usual shape of an operand check. -/
theorem check {c : Prop} [Decidable c] {e : Raise} {w : Except Raise State} (hw : ¬ c → Yields w P) :
    Yields (if c then .error e else w) P := ite (fun _ => error) hw

theorem bind {α : Type} {x : Except Raise α} {f : α → Except Raise State} (h : ∀ a, x = .ok a → Yields (f a) P) :
    Yields (x >>= f) P := fun t e => by
  obtain ⟨a, hx, ha⟩ := bind_ok e
  exact h a hx t ha

theorem single {s : State} {v : Except Raise State} (h : P s) (hv : Yields v P) : P (single s v).1 :=
  single_induct s v h hv

end Yields

theorem ite_induct {P : State → Prop} {c : Prop} [Decidable c] {r q : Ended} (hr : c → P r.1) (hq : ¬ c → P q.1) :
    P (if c then r else q).1 := by
  split
  · exact hr ‹_›
  · exact hq ‹_›

/-! ### Frames -/

theorem Part.same_refl (p : Part) (s : State) : p.same s s := by
  cases p <;> simp [Part.same]

theorem Part.same_trans {p : Part} {s t u : State} (h : p.same s t) (h' : p.same t u) : p.same s u := by
  cases p <;> simp_all [Part.same]

theorem outsideGroups_singleton {k a n : Nat} : outsideGroups k [(a, n)] ↔ k < a ∨ a + n ≤ k := by
  simp [outsideGroups]

theorem outsideGroups_mono {gs gs' : List (Nat × Nat)} (hg : gs ⊆ gs') {k : Nat} (h : outsideGroups k gs') :
    outsideGroups k gs := fun g hm => h g (hg hm)

/-- `t` reads as `s` in every part outside `ps` and in every binary64 register outside the groups `gs`. -/
structure Frame (ps : List Part) (gs : List (Nat × Nat)) (s t : State) : Prop where
  parts : ∀ p, p ∉ ps → p.same s t
  floats : ∀ k, outsideGroups k gs → t.fbits k = s.fbits k

namespace Frame

variable {ps ps' : List Part} {gs gs' : List (Nat × Nat)} {s t u : State}

theorem refl : Frame ps gs s s := ⟨fun p _ => p.same_refl s, fun _ _ => rfl⟩

theorem trans (h : Frame ps gs s t) (h' : Frame ps gs t u) : Frame ps gs s u :=
  ⟨fun p hp => Part.same_trans (h.parts p hp) (h'.parts p hp), fun k hk => (h'.floats k hk).trans (h.floats k hk)⟩

theorem mono (h : Frame ps gs s t) (hp : ps ⊆ ps') (hg : ∀ k, outsideGroups k gs' → outsideGroups k gs) :
    Frame ps' gs' s t :=
  ⟨fun p hq => h.parts p fun hm => hq (hp hm), fun k hk => h.floats k (hg k hk)⟩

/-- A frame within larger lists of parts and groups. -/
theorem weaken (h : Frame ps gs s t) (hp : ps ⊆ ps' := by simp) (hg : gs ⊆ gs' := by simp) : Frame ps' gs' s t :=
  h.mono hp fun _ hk => outsideGroups_mono hg hk

/-- An update of registers and lists that leaves `f` alone. -/
theorem of_parts (h : ∀ p, p ∈ ps ∨ p.same s t) (hf : t.f = s.f) : Frame ps [] s t :=
  ⟨fun p hp => (h p).resolve_left hp, fun k _ => by simp only [State.fbits, hf]⟩

/-- An update of `f`, `draws` and nothing else. -/
theorem of_floats {g : Vector Bits64 48} {n : Nat} (e : t = { s with f := g, draws := n })
    (h : ∀ k, outsideGroups k gs → t.fbits k = s.fbits k) : Frame [] gs s t :=
  ⟨fun p _ => by subst e; cases p <;> simp [Part.same], h⟩

theorem andThen {r : Ended} {k : State → Ended} (hr : Frame ps gs s r.1) (hk : ∀ t, Frame ps gs t (k t).1) :
    Frame ps gs s (r.andThen k).1 :=
  andThen_induct (P := Frame ps gs s) r k hr fun t e => by
    subst e
    exact hr.trans (hk t)

theorem single {v : Except Raise State} (hv : Yields v (Frame ps gs s)) : Frame ps gs s (single s v).1 :=
  Yields.single .refl hv

theorem computing {α : Type} {v : Except Raise α} {k : α → Ended} (ht : Frame ps gs s t)
    (hk : ∀ a, Frame ps gs s (k a).1) : Frame ps gs s (computing t v k).1 :=
  computing_induct t v k ht fun a _ => hk a

theorem ite {c : Prop} [Decidable c] {r q : Ended} (hr : Frame ps gs s r.1) (hq : Frame ps gs s q.1) :
    Frame ps gs s (if c then r else q).1 := ite_induct (fun _ => hr) fun _ => hq

end Frame

/-! ### The frame of each write -/

theorem mem_frame (s : State) (m : List Host.Cell) : Frame [] [] s { s with mem := m } :=
  .of_parts (fun p => by cases p <;> simp [Part.same]) rfl

theorem putBytes_frame (s : State) (a : Nat) (bs : List Byte) : Frame [] [] s (s.putBytes a bs) := mem_frame s _

theorem putMatrix_frame (s : State) (a w h : Nat) (g : Nat → Nat → Bool) : Frame [] [] s (s.putMatrix a w h g) :=
  mem_frame s _

theorem unmaskGrid_frame (s : State) (d m : Nat) : Frame [] [] s (s.unmaskGrid d m) := mem_frame s _

theorem setRes0_frame (s : State) (n : Nat) : Frame [.res0] [] s (s.setRes0 n) :=
  .of_parts (fun p => by cases p <;> simp [Part.same, State.setRes0]) rfl

theorem memPlen_frame (s : State) (m : List Host.Cell) (v : Vector Word 8) :
    Frame [.plen] [] s { s with mem := m, plen := v } :=
  .of_parts (fun p => by cases p <;> simp [Part.same]) rfl

theorem putPoly_frame (s : State) (k : Nat) (p : List Byte) : Frame [.plen] [] s (s.putPoly k p) := memPlen_frame s _ _

theorem setF_frame (s : State) (k : Nat) (v : F64) : Frame [] [(k, 1)] s (s.setF k v) := by
  obtain ⟨b, n, e⟩ := setF_cases s k v
  refine .of_floats e fun j hj => fbits_setF_other s k j v ?_
  have := outsideGroups_singleton.1 hj
  omega

theorem setFs_frame (s : State) (k : Nat) (vs : List F64) : Frame [] [(k, vs.length)] s (s.setFs k vs) := by
  obtain ⟨g, n, e⟩ := setFs_cases vs s k
  exact .of_floats e fun j hj => fbits_setFs_outside vs s k j (outsideGroups_singleton.1 hj)

theorem setFbits_frame (s : State) (k : Nat) (b : Bits64) : Frame [] [(k, 1)] s (s.setFbits k b) := by
  refine .of_floats (n := s.draws) rfl fun j hj => ?_
  have := outsideGroups_singleton.1 hj
  rw [fbits_setFbits, if_neg (by omega)]

/-- A transform is nine registers (R41). -/
theorem setXform_frame (s : State) (t : Xform) : Frame [] [(fTA, 9)] s (s.setFs fTA t.list) := setFs_frame s fTA t.list

theorem copyF_frame (s : State) (dst src n : Nat) : Frame [] [(dst, n)] s (s.copyF dst src n) :=
  List.foldlRecOn (motive := Frame [] [(dst, n)] s) (List.range n) _ .refl fun t ht i hi => by
    refine ht.trans ((setFbits_frame t (dst + i) _).mono (List.Subset.refl _) fun k hk => ?_)
    have := List.mem_range.1 hi
    rw [outsideGroups_singleton] at hk ⊢
    omega

theorem putGrid_frame (s : State) (w h : Nat) (rows : List (List Bool)) : Frame [.gridDims] [] s (s.putGrid w h rows) :=
  .of_parts (fun p => by cases p <;> simp [Part.same]) rfl

theorem putAlign_frame (s : State) (c : AlignCand) : Frame [.apValid] [(fAP, 3)] s (s.putAlign c) := by
  have hset : Frame [.apValid] [(fAP, 3)] s (s.setFs fAP [c.x, c.y, c.ms]) :=
    (setFs_frame s fAP [c.x, c.y, c.ms]).weaken
  refine hset.trans (Frame.weaken (ps := [.apValid]) (gs := []) ?_)
  exact .of_parts (fun p => by cases p <;> simp [Part.same, State.putAlign]) rfl

theorem putFnpat_frame (s : State) (v d : Nat) : Frame [.fndim] [] s (s.putFnpat v d) :=
  .of_parts (fun p => by cases p <;> simp [Part.same]) rfl

theorem putCw_frame (s : State) (out : List Byte) : Frame [.numCw] [] s (s.putCw out) :=
  .of_parts (fun p => by cases p <;> simp [Part.same]) rfl

theorem putData_frame (s : State) (data : List Byte) (n : Nat) : Frame [.numData, .errsCorr] [] s (s.putData data n) :=
  .of_parts (fun p => by cases p <;> simp [Part.same]) rfl

theorem fmt_frame (s : State) (x : Option (BitVec 5)) : Frame [.fmt] [] s { s with fmt := x } :=
  .of_parts (fun p => by cases p <;> simp [Part.same]) rfl

theorem version_frame (s : State) (x : Option (BitVec 6)) : Frame [.version] [] s { s with version := x } :=
  .of_parts (fun p => by cases p <;> simp [Part.same]) rfl

theorem parserRegs_frame (s : State) (x : Option (BitVec 6)) (y : Option (BitVec 5)) (z : PState) :
    Frame [.version, .fmt, .pstate] [] s { s with version := x, fmt := y, pstate := z } :=
  .of_parts (fun p => by cases p <;> simp [Part.same]) rfl

theorem results_frame (s : State) (x y : Word) : Frame [.res0, .res1] [] s { s with res0 := x, res1 := y } :=
  .of_parts (fun p => by cases p <;> simp [Part.same]) rfl

theorem versionFields_frame (p : Parser) (s : State) : Frame [.res0, .res1] [] s (versionFields p s) := by
  unfold versionFields
  split
  · exact .refl
  · dsimp only
    split
    · exact results_frame s _ s.res1
    · exact results_frame s _ _

theorem dimension_frame (s : State) (d : Word) (v : BitVec 6) :
    Frame [.dim, .pver] [] s { s with dim := d, pver := v } :=
  .of_parts (fun p => by cases p <;> simp [Part.same]) rfl

theorem acand_frame (s : State) (l : List AlignCand) : Frame [.acand] [] s { s with acand := l } :=
  .of_parts (fun p => by cases p <;> simp [Part.same]) rfl

theorem cleared_frame (s : State) : Frame (partsWritten .clear) [] s (cleared s) :=
  .of_parts (fun p => by cases p <;> simp [Part.same, partsWritten, cleared]) rfl

/-! ### Rules that write all or nothing -/

theorem setPoly_frame (s : State) (k : Nat) (p : List Byte) : Yields (s.setPoly k p) (Frame [.plen] [] s) :=
  .check fun _ => .ok (putPoly_frame s k p)

theorem gfAdd_frame (s : State) : Yields (gfAdd s) (Frame [.res0] [] s) := .check fun _ => .ok (setRes0_frame s _)
theorem gfMul_frame (s : State) : Yields (gfMul s) (Frame [.res0] [] s) := .check fun _ => .ok (setRes0_frame s _)
theorem gfInv_frame (s : State) : Yields (gfInv s) (Frame [.res0] [] s) :=
  .check fun _ => .bind fun _ _ => .ok (setRes0_frame s _)
theorem gfExp_frame (s : State) : Yields (gfExp s) (Frame [.res0] [] s) := .check fun _ => .ok (setRes0_frame s _)
theorem gfLog_frame (s : State) : Yields (gfLog s) (Frame [.res0] [] s) :=
  .check fun _ => .bind fun _ _ => .ok (setRes0_frame s _)

theorem polyBinary_frame (op : Poly → Poly → Poly) (d : Nat) (s : State) :
    Yields (polyBinary op d s) (Frame [.plen] [] s) :=
  .check fun _ => .check fun _ => .bind fun _ _ => .bind fun _ _ => setPoly_frame s d _
theorem polyScale_frame (d : Nat) (s : State) : Yields (polyScale d s) (Frame [.plen] [] s) :=
  .check fun _ => .check fun _ => .bind fun _ _ => setPoly_frame s d _
theorem polyMulMono_frame (d : Nat) (s : State) : Yields (polyMulMono d s) (Frame [.plen] [] s) :=
  .check fun _ => .check fun _ => .bind fun _ _ => setPoly_frame s d _
theorem polyMono_frame (d : Nat) (s : State) : Yields (polyMono d s) (Frame [.plen] [] s) :=
  .check fun _ => .check fun _ => setPoly_frame s d _
theorem polyEval_frame (k : Nat) (s : State) : Yields (polyEval k s) (Frame [.res0] [] s) :=
  .check fun _ => .check fun _ => .bind fun _ _ => .ok (setRes0_frame s _)

theorem euclidStep_frame (s : State) : Yields (euclidStep s) (Frame [.plen] [] s) := fun t h => by
  obtain ⟨m, v, rfl, -⟩ := euclidStep_ok s t h
  exact memPlen_frame s m v
theorem chienStep_frame (s : State) : Yields (chienStep s) (Frame [.rsNerr] [] s) :=
  .bind fun _ _ => .bind fun _ _ => .ok (.of_parts (fun p => by cases p <;> simp [Part.same]) rfl)
theorem forneyStep_frame (s : State) : Yields (forneyStep s) (Frame [] [] s) :=
  .bind fun _ _ => .bind fun _ _ => .ok (putBytes_frame s _ _)
theorem rsSynd_frame (s : State) : Yields (rsSynd s) (Frame [.plen, .res0] [] s) :=
  .bind fun _ _ => .bind fun t ht => .ok ((setPoly_frame s 0 _ t ht).weaken.trans (setRes0_frame t _).weaken)
theorem rsEuclid_frame (s : State) : Yields (rsEuclid s) (Frame [.plen] [] s) := .check fun _ => euclidStep_frame s

theorem ptSq2q_frame (s : State) : Yields (ptSq2q s) (Frame [] [(fTA, 9)] s) :=
  .check fun _ => .bind fun t _ => .ok (setXform_frame s t)
theorem ptQ2sq_frame (s : State) : Yields (ptQ2sq s) (Frame [] [(fTA, 9)] s) :=
  .check fun _ => .bind fun t _ => .ok (setXform_frame s t)
theorem ptQ2q_frame (s : State) : Yields (ptQ2q s) (Frame [] [(fTA, 9)] s) :=
  .check fun _ => .bind fun t _ => .ok (setXform_frame s t)
theorem ptAdj_frame (s : State) : Yields (ptAdj s) (Frame [] [(fTA, 9)] s) := .check fun _ => .ok (setXform_frame s _)
theorem ptTimes_frame (s : State) : Yields (ptTimes s) (Frame [] [(fTA, 9)] s) :=
  .check fun _ => .ok (setXform_frame s _)
theorem createXform_frame (s : State) : Yields (createXform s) (Frame [] [(fTA, 9)] s) :=
  .check fun _ => .check fun _ => .bind fun t _ => .ok (setXform_frame s t)

/-- The transform of a list of pairs is as long as the list (R185). -/
theorem length_transformPoints (t : Xform) (ps qs : List (F64 × F64)) (h : transformPoints t ps = .ok qs) :
    qs.length = ps.length := by
  induction ps generalizing qs with
  | nil => cases h; rfl
  | cons p ps ih =>
    obtain ⟨q, -, h⟩ := bind_ok h
    obtain ⟨rs, hr, h⟩ := bind_ok h
    cases h
    simp [ih rs hr]

theorem length_unpairs (ps : List (F64 × F64)) : (unpairs ps).length = 2 * ps.length := by
  simp [unpairs, List.length_flatMap, Nat.mul_comm]

theorem two_mul_length_pairsOf_le : ∀ vs : List F64, 2 * (pairsOf vs).length ≤ vs.length
  | [] => by simp [pairsOf]
  | [_] => by simp [pairsOf]
  | _ :: _ :: rest => by
    have := two_mul_length_pairsOf_le rest
    simp only [pairsOf, List.length_cons]
    omega

/-- `PT_XFORM` writes at most the `m` pairs it read (R195). -/
theorem ptXform_frame (m : Nat) (s : State) : Yields (ptXform m s) (Frame [] [(fQ, 2 * m)] s) :=
  .check fun _ => .check fun _ => .bind fun ps hps => .ok <| by
    have hlen : (unpairs ps).length ≤ 2 * m := by
      have hread := two_mul_length_pairsOf_le (s.fvals fQ (2 * m))
      rw [length_unpairs, length_transformPoints _ _ ps hps]
      simpa [State.fvals] using hread
    refine (setFs_frame s fQ (unpairs ps)).mono (List.Subset.refl _) fun k hk => ?_
    rw [outsideGroups_singleton] at hk ⊢
    omega

theorem ptCopy_frame (dir : Nat) (s : State) :
    Yields (ptCopy dir s) (Frame [] (if dir = 0 then [(fTB, 9)] else [(fTA, 9)]) s) := by
  unfold ptCopy
  split
  · exact .ok (copyF_frame s fTB fTA 9)
  · exact .ite (fun _ => .ok (copyF_frame s fTA fTB 9)) fun _ => .error

theorem gridSample_frame (s : State) : Yields (gridSample s) (Frame [.gridDims] [] s) :=
  .check fun _ => .check fun _ => .check fun _ => .bind fun _ _ => .ok (putGrid_frame s _ _ _)
theorem moduleSizeCmd_frame (s : State) : Yields (moduleSizeCmd s) (Frame [] [(fMS, 1)] s) :=
  .check fun _ => .check fun _ => .bind fun _ _ => .bind fun _ _ => .bind fun _ _ => .bind fun _ _ =>
    .ok (setF_frame s fMS _)
theorem dimensionCmd_frame (s : State) : Yields (dimensionCmd s) (Frame [.dim, .pver] [] s) :=
  .check fun _ => .bind fun _ _ => .ok (dimension_frame s _ _)

/-- One pair of registers written, of the three pairs from `Q` on (R256). -/
theorem setPair_frame (s : State) (d : Nat) (x y : Bits64) (hd : d < 3) :
    Frame [.res0] [(fQ, 6)] s ((s.setFbits (fQ + 2 * d) x).setFbits (fQ + 2 * d + 1) y) := by
  have hone (t : State) (k : Nat) (b : Bits64) (h : k = fQ + 2 * d ∨ k = fQ + 2 * d + 1) :
      Frame [.res0] [(fQ, 6)] t (t.setFbits k b) :=
    (setFbits_frame t k b).mono (List.nil_subset _) fun j hj => by
      rw [outsideGroups_singleton] at hj ⊢
      omega
  exact (hone s _ x (.inl rfl)).trans (hone _ _ y (.inr rfl))

theorem order3_frame (s : State) : Yields (order3 s) (Frame [.res0] [(fQ, 6)] s) := by
  unfold order3
  obtain ⟨a, b, c⟩ := orderPoints (s.pt fQ) (s.pt (fQ + 2)) (s.pt (fQ + 4))
  refine .check fun _ => .ok ?_
  have hcopies := ((setPair_frame s 0 (s.fbits (fQ + 2 * a)) (s.fbits (fQ + 2 * a + 1)) (by omega)).trans
    (setPair_frame _ 1 (s.fbits (fQ + 2 * b)) (s.fbits (fQ + 2 * b + 1)) (by omega))).trans
    (setPair_frame _ 2 (s.fbits (fQ + 2 * c)) (s.fbits (fQ + 2 * c + 1)) (by omega))
  exact hcopies.trans (setRes0_frame _ _).weaken

theorem unmaskCmd_frame (m : Nat) (s : State) : Yields (unmaskCmd m s) (Frame [] [] s) :=
  .check fun _ => .check fun _ => .check fun _ => .ok (unmaskGrid_frame s _ m)
theorem buildFnpat_frame (s : State) : Yields (buildFnpat s) (Frame [.fndim] [] s) :=
  .check fun _ => .ok (putFnpat_frame s _ _)
theorem blockDecode_frame (s : State) : Yields (blockDecode s) (Frame [.numData, .errsCorr] [] s) :=
  .check fun _ => .bind fun _ _ => .bind fun _ _ => .ok (putData_frame s _ _)
theorem mirrorCmd_frame (s : State) : Yields (mirrorCmd s) (Frame [] [] s) :=
  .bind fun _ _ => .ok (putMatrix_frame s _ _ _ _)
theorem setMirror_frame (m : Nat) (s : State) : Yields (setMirror m s) (Frame [.version, .fmt, .pstate] [] s) :=
  .check fun _ => .bind fun _ _ => .ok (parserRegs_frame s _ _ _)
theorem remaskCmd_frame (s : State) : Yields (remaskCmd s) (Frame [] [] s) := .bind fun d _ => by
  cases s.fmt with
  | none => exact .ok .refl
  | some info => exact .ok (unmaskGrid_frame s d _)
theorem decodeCmd_frame (s : State) :
    Yields (decodeCmd s) (Frame [.res0, .res1, .numData, .errsCorr, .pstate] [] s) :=
  .bind fun _ _ => .bind fun _ _ => .ok (.of_parts (fun p => by cases p <;> simp [Part.same]) rfl)

/-! ### Composite rules -/

theorem correctStep_frame (s : State) : Frame [.res0] [] s (correctStep s).1 := by
  obtain ⟨m, r, e, -⟩ := correctStep_cases s
  rw [e]
  exact .of_parts (fun p => by cases p <;> simp [Part.same]) rfl

theorem rsCorrect_frame (s : State) : Frame [.res0] [] s (rsCorrect s).1 := .ite .refl (correctStep_frame s)

theorem rsDecode_frame (s : State) : Frame [.plen, .res0, .rsNerr] [] s (rsDecode s).1 :=
  .computing .refl fun _ => .andThen (.single fun t ht => (setPoly_frame s 0 _ t ht).weaken) fun t =>
    .ite (.of_parts (fun p => by cases p <;> simp [Part.same]) rfl) <|
      .andThen (.single fun u hu => (euclidStep_frame t u hu).weaken) fun t =>
      .andThen (.single fun u hu => (chienStep_frame t u hu).weaken) fun t =>
      .andThen (.single fun u hu => (forneyStep_frame t u hu).weaken) fun t => (correctStep_frame t).weaken

theorem parserInit_frame (s : State) : Frame [.version, .fmt, .pstate] [] s (parserInit s).1 :=
  .computing (parserRegs_frame s _ _ _) fun _ => parserRegs_frame s _ _ _

theorem readFormat_frame (s : State) : Frame [.res0, .res1, .fmt] [] s (readFormat s).1 :=
  .computing .refl fun _ => .ite .refl <|
    .computing (results_frame s _ _).weaken fun _ => (results_frame s _ _).weaken.trans (fmt_frame _ _).weaken

theorem readVersion_frame (s : State) : Frame [.res0, .res1, .version] [] s (readVersion s).1 :=
  .computing .refl fun _ => .computing (versionFields_frame _ s).weaken fun _ =>
    (versionFields_frame _ s).weaken.trans (version_frame _ _).weaken

theorem readCodewords_frame (s : State) : Frame [.version, .fmt, .fndim, .numCw] [] s (readCodewords s).1 := by
  unfold readCodewords
  refine .computing .refl fun d => .computing .refl fun info => .computing (fmt_frame s _).weaken fun v => ?_
  have hgrid : Frame [.version, .fmt, .fndim, .numCw] [] s
      ((({ s with fmt := some info, version := some v } : State).unmaskGrid d (infoMask info)).putFnpat v.toNat d) :=
    .of_parts (fun p => by cases p <;> simp [Part.same]) rfl
  exact .computing hgrid fun out => hgrid.trans (putCw_frame _ out).weaken

theorem finderStep_frame (s : State) : Frame [.fpc, .findNcand, .fcand] [(fBL, 9)] s (finderStep s).1 := by
  obtain ⟨l, b, n, g, k, w1, w2, w3, e, -, hf⟩ := finderStep_cases s
  refine ⟨fun p hp => ?_, fun k hk => hf k (outsideGroups_singleton.1 hk)⟩
  rw [e]
  cases p <;> simp_all [Part.same]

theorem findFinder_frame (s : State) : Frame [.fpc, .findNcand, .fcand] [(fBL, 9)] s (findFinder s).1 :=
  .ite .refl (finderStep_frame s)

theorem findAlignCmd_frame (s : State) : Frame [.apValid, .acand] [(fAP, 3)] s (findAlignCmd s).1 := by
  unfold findAlignCmd
  exact .ite .refl <| .ite .refl <| .ite .refl <| .computing (acand_frame s _).weaken fun c =>
    (acand_frame s _).weaken.trans (putAlign_frame _ c).weaken

theorem alignStep_frame (ms : F64) (d v : Nat) (s : State) :
    Frame [.apValid, .acand] [(fAP, 3)] s (alignStep ms d v s).1 := by
  obtain ⟨l, g, n, b, e, -, hf⟩ := alignStep_cases ms d v s
  refine ⟨fun p hp => ?_, fun k hk => hf k (outsideGroups_singleton.1 hk)⟩
  rw [e]
  cases p <;> simp_all [Part.same]

theorem detect_frame (s : State) : Frame (partsWritten .detect) (floatsWritten .detect) s (detect s).1 := by
  unfold detect partsWritten floatsWritten
  refine .ite .refl <| .andThen (finderStep_frame s).weaken fun t => ?_
  refine .computing .refl fun ms => ?_
  have hms := (setF_frame t fMS ms).weaken (ps' := partsWritten .detect) (gs' := floatsWritten .detect) (by simp)
    (by simp [floatsWritten])
  refine .computing hms fun dv => ?_
  have hdim := hms.trans ((dimension_frame (t.setF fMS ms) (Word.ofNat dv.1) (BitVec.ofNat 6 dv.2)).weaken
    (by simp [partsWritten]) (by simp))
  refine .andThen (hdim.trans ((alignStep_frame ms dv.1 dv.2 _).weaken (by simp [partsWritten])
    (by simp [floatsWritten]))) fun u => ?_
  refine .computing .refl fun x => ?_
  have hx := (setXform_frame u x).weaken (ps' := partsWritten .detect) (gs' := floatsWritten .detect) (by simp)
    (by simp [floatsWritten])
  exact .computing hx fun rows => hx.trans ((putGrid_frame _ dv.1 dv.1 rows).weaken (by simp [partsWritten]) (by simp))

theorem scan_frame (s : State) : Frame (partsWritten .scan) (floatsWritten .scan) s (scan s).1 :=
  .andThen ((detect_frame s).weaken (by simp [partsWritten]) (by simp [floatsWritten])) fun t =>
    .single fun u hu => (decodeCmd_frame t u hu).weaken (by simp [partsWritten])

/-! ### Every command -/

/-- The rule of a command writes the parts and the binary64 groups it names, and no others (R71). -/
theorem ruleOf_frame (i : Instr) (s : State) : Frame (partsWritten i) (floatsWritten i) s (ruleOf s i).1 := by
  cases i with
  | nop => exact .refl
  | clear => exact cleared_frame s
  | gfAdd => exact .single (gfAdd_frame s)
  | gfMul => exact .single (gfMul_frame s)
  | gfInv => exact .single (gfInv_frame s)
  | gfExp => exact .single (gfExp_frame s)
  | gfLog => exact .single (gfLog_frame s)
  | pAdd sel => exact .single (polyBinary_frame padd sel s)
  | pMul sel => exact .single (polyBinary_frame pmul sel s)
  | pScale sel => exact .single (polyScale_frame sel s)
  | pMulmono sel => exact .single (polyMulMono_frame sel s)
  | pMono sel => exact .single (polyMono_frame sel s)
  | pEval sel => exact .single (polyEval_frame sel s)
  | rsSynd => exact .single (rsSynd_frame s)
  | rsEuclid => exact .single (rsEuclid_frame s)
  | rsChien => exact .single (chienStep_frame s)
  | rsForney => exact .single (forneyStep_frame s)
  | rsCorrect => exact rsCorrect_frame s
  | rsDecode => exact rsDecode_frame s
  | ptSq2q => exact .single (ptSq2q_frame s)
  | ptQ2sq => exact .single (ptQ2sq_frame s)
  | ptQ2q => exact .single (ptQ2q_frame s)
  | ptAdj => exact .single (ptAdj_frame s)
  | ptTimes => exact .single (ptTimes_frame s)
  | ptXform m => exact .single (ptXform_frame m s)
  | ptCopy dir => exact .single (ptCopy_frame dir s)
  | gridSample => exact .single (gridSample_frame s)
  | moduleSize => exact .single (moduleSizeCmd_frame s)
  | dimension => exact .single (dimensionCmd_frame s)
  | createXform => exact .single (createXform_frame s)
  | detect => exact detect_frame s
  | findFinder => exact findFinder_frame s
  | findAlign => exact findAlignCmd_frame s
  | order3 => exact .single (order3_frame s)
  | parserInit => exact parserInit_frame s
  | readFormat => exact readFormat_frame s
  | readVersion => exact readVersion_frame s
  | unmask sel => exact .single (unmaskCmd_frame sel s)
  | buildFnpat => exact .single (buildFnpat_frame s)
  | readCodewords => exact readCodewords_frame s
  | blockDecode => exact .single (blockDecode_frame s)
  | mirror => exact .single (mirrorCmd_frame s)
  | setMirror sel => exact .single (setMirror_frame sel s)
  | remask => exact .single (remaskCmd_frame s)
  | decode => exact .single (decodeCmd_frame s)
  | scan => exact scan_frame s

/-- A command's end writes none of the parts and no binary64 register (R90). -/
theorem endCommand_frame {r : Ended} {t : State} (h : endCommand r = .next t) : Frame [] [] r.1 t := by
  cases h
  exact .of_parts (fun p => by cases p <;> simp [Part.same]) rfl

theorem exec_frame {i : Instr} {s t : State} (h : exec i s = .next t) :
    Frame (partsWritten i) (floatsWritten i) s t := by
  rw [exec_eq_endCommand] at h
  exact (ruleOf_frame i s).trans (endCommand_frame h).weaken

/-- Settles O16: each write in a command's rule frames every part but its own (`exec_frame`). -/
theorem commandsWriteOnlyTheirRegisters : Obligations.CommandsWriteOnlyTheirRegisters :=
  fun _ _ _ p h hp => (exec_frame h).parts p hp

/-- Settles O17: each write in a command's rule frames every binary64 register outside its group (`exec_frame`). -/
theorem commandsWriteOnlyTheirFloats : Obligations.CommandsWriteOnlyTheirFloats :=
  fun _ _ _ k h hk => (exec_frame h).floats k hk

end Sys2Proof.Machine
end

section
/-! PROOFS, family 10_state, what a step can do and the control registers (O20). `step_next` is the one inversion
of `step`: each invariant then goes through its five cases. -/

namespace Sys2Proof.Machine

/-! ### What a step can do -/

/-- What a command word comes to, before the command's end is recorded: the rule of its command, or `ILLEGAL_CMD`
(R80). -/
def wordRule (s : State) (w : Word) : Ended :=
  match decode w with
  | .ok i => ruleOf s i
  | .error e => (s, some (.illegalCmd e))

theorem runCommand_eq_endCommand (s : State) (w : Word) : runCommand s w = endCommand (wordRule s w) := by
  unfold runCommand wordRule
  cases decode w with
  | ok i => exact exec_eq_endCommand i s
  | error e => rfl

/-- A property that every rule keeps is kept by what any command word comes to. -/
theorem wordRule_induct {P : State → Prop} {s : State} (w : Word) (h : P s) (hrule : ∀ i, P (ruleOf s i).1) :
    P (wordRule s w).1 := by
  unfold wordRule
  cases decode w with
  | ok i => exact hrule i
  | error e => exact h

/-- The state with the first host event consumed. -/
def State.popHost (s : State) : State := { s with host := s.host.tail }

theorem popHost_of_host {s : State} {e : HostEvent} {rest : List HostEvent} (h : s.host = e :: rest) :
    s.popHost = { s with host := rest } := by
  simp [State.popHost, h]

theorem popHost_of_nil {s : State} (h : s.host = []) : s.popHost = s := by
  cases s
  cases h
  rfl

/-- The core's turn does nothing, or runs the command in progress to its end. -/
theorem coreTurn_next {s t : State} (h : coreTurn s = .next t) :
    t = s ∨ ∃ w, endCommand (wordRule s w) = .next t := by
  unfold coreTurn at h
  cases hrun : s.running with
  | none =>
    rw [hrun] at h
    cases h
    exact .inl rfl
  | some w =>
    rw [hrun] at h
    exact .inr ⟨w, (runCommand_eq_endCommand s w).symm.trans h⟩

/-- A host read answers, and changes nothing else but the count of free values drawn (R65, R372). -/
theorem hostRead_cases (s : State) (off : Nat) :
    ∃ v n, hostRead s off = { s with resp := .data v, draws := n } := by
  unfold hostRead
  split
  · exact ⟨_, _, rfl⟩
  · exact ⟨_, s.draws, rfl⟩

/-- Everything a step can do, once it has consumed its host event: nothing, a command's end, an answer to the host, a
host write, or a reset. -/
theorem step_next {s t : State} (h : step s = .next t) :
    t = s.popHost ∨ (∃ w, endCommand (wordRule s.popHost w) = .next t) ∨
      (∃ r n, t = { s.popHost with resp := r, draws := n }) ∨ (∃ off v, t = hostWrite s.popHost off v) ∨
      t = resetPulse s.popHost := by
  unfold step at h
  cases hhost : s.host with
  | nil =>
    rw [hhost] at h
    rw [popHost_of_nil hhost]
    exact (coreTurn_next h).imp_right .inl
  | cons e rest =>
    rw [hhost] at h
    rw [popHost_of_host hhost]
    cases e with
    | coreTurn => exact (coreTurn_next h).imp_right .inl
    | read addr width =>
      refine .inr (.inr (.inl ?_))
      rcases hostAccess_next h with rfl | ⟨off, -, -, -, -, rfl⟩
      · exact ⟨.busError, s.draws, rfl⟩
      · obtain ⟨v, n, e⟩ := hostRead_cases { s with host := rest } off
        exact ⟨.data v, n, e⟩
    | write addr width v =>
      rcases hostAccess_next h with rfl | ⟨off, -, -, -, -, rfl⟩
      · exact .inr (.inr (.inl ⟨.busError, s.draws, rfl⟩))
      · exact .inr (.inr (.inr (.inl ⟨off, v, rfl⟩)))
    | reset =>
      cases h
      exact .inr (.inr (.inr (.inr rfl)))

/-! ### What a host write can do -/

/-- What a write of an idle core leaves: a command started (R24), the flags of `STATUS` cleared (R23), or the control
registers as they were, with a host's register or a byte of memory written. -/
theorem writeIdle_cases (s : State) (off : Nat) (v : Word) :
    s.writeIdle off v = startCommand s v ∨ s.writeIdle off v = { s with status := s.status.w1c v } ∨
      ∃ c a w h gw gh n t p f m, s.writeIdle off v = { s with
        ctrl := c, arg := a, imgW := w, imgH := h, gridW := gw, gridH := gh, rsN := n, rsTwos := t, plen := p, f := f,
        mem := m } := by
  have hsame : ∃ c a w h gw gh n t p f m, s = { s with
      ctrl := c, arg := a, imgW := w, imgH := h, gridW := gw, gridH := gh, rsN := n, rsTwos := t, plen := p, f := f,
      mem := m } :=
    ⟨s.ctrl, s.arg, s.imgW, s.imgH, s.gridW, s.gridH, s.rsN, s.rsTwos, s.plen, s.f, s.mem, rfl⟩
  unfold State.writeIdle
  cases targetAt off with
  | reg r =>
    cases r with
    | cmd => exact .inl rfl
    | status => exact .inr (.inl rfl)
    | _ => exact .inr (.inr ⟨_, _, _, _, _, _, _, _, _, _, _, rfl⟩)
  | window w =>
    dsimp only
    split
    · exact .inr (.inr ⟨_, _, _, _, _, _, _, _, _, _, _, rfl⟩)
    · exact .inr (.inr hsame)
  | reserved => exact .inr (.inr hsame)

/-- A property that no host register, answer or flag takes part in is kept by every host write. -/
theorem hostWrite_induct {P : State → Prop} {s : State} (off : Nat) (v : Word)
    (hwrite : ∀ r st run c a w h gw gh n t p f m, P { s with
      resp := r, status := st, running := run, ctrl := c, arg := a, imgW := w, imgH := h, gridW := gw, gridH := gh,
      rsN := n, rsTwos := t, plen := p, f := f, mem := m }) : P (hostWrite s off v) := by
  unfold hostWrite
  split
  · split <;> exact hwrite _ _ _ _ _ _ _ _ _ _ _ _ _ _
  · rcases writeIdle_cases s off v with e | e | ⟨c, a, w, h, gw, gh, n, t, p, f, m, e⟩ <;>
      (rw [e]; exact hwrite _ _ _ _ _ _ _ _ _ _ _ _ _ _)

/-! ### The control registers -/

theorem finish_controlInv {r : Ended} {t : State} (h : endCommand r = .next t) : t.controlInv := by
  cases h
  refine ⟨rfl, (nomatch ·), fun _ => ?_, r.2, rfl, rfl⟩
  obtain ⟨u, e⟩ := r
  cases e with
  | none => simp [Status.finish]
  | some e => simpa [Status.finish] using e.code_ne_zero

theorem startCommand_controlInv {s : State} (w : Word) (h : s.controlInv) : (startCommand s w).controlInv where
  busy := rfl
  flags _ := ⟨rfl, rfl⟩
  err hidle := nomatch hidle
  codes := h.codes

/-- `STATUS` bits that only fall, with `BUSY` and `ERR` kept, leave the agreement (R23). -/
theorem State.controlInv.withStatus {s t : State} (h : s.controlInv) (hrun : t.running = s.running)
    (hcode : t.errcode = s.errcode) (hdetail : t.errdetail = s.errdetail) (hbusy : t.status.busy = s.status.busy)
    (herr : t.status.err = s.status.err) (hdone : t.status.done = true → s.status.done = true) : t.controlInv where
  busy := by rw [hbusy, hrun, h.busy]
  flags hb := by
    obtain ⟨hd, he⟩ := h.flags (hbusy ▸ hb)
    exact ⟨by cases hd' : t.status.done <;> simp_all, by rw [herr, he]⟩
  err hb := by rw [herr, hcode]; exact h.err (hbusy ▸ hb)
  codes := by rw [hcode, hdetail]; exact h.codes

theorem w1c_done {t : Status} {v : Word} (h : (t.w1c v).done = true) : t.done = true := by
  simp only [Status.w1c, Bool.and_eq_true] at h
  exact h.1

theorem hostWrite_controlInv {s : State} (off : Nat) (v : Word) (h : s.controlInv) :
    (hostWrite s off v).controlInv := by
  unfold hostWrite
  split
  · split
    · exact h.withStatus rfl rfl rfl rfl rfl w1c_done
    · exact h.withStatus rfl rfl rfl rfl rfl id
  · rcases writeIdle_cases s off v with e | e | ⟨_, _, _, _, _, _, _, _, _, _, _, e⟩
    · rw [e]
      exact (startCommand_controlInv v h).withStatus rfl rfl rfl rfl rfl id
    · rw [e]
      exact h.withStatus rfl rfl rfl rfl rfl w1c_done
    · rw [e]
      exact h.withStatus rfl rfl rfl rfl rfl id

theorem reset_controlInv : State.reset.controlInv :=
  ⟨rfl, (nomatch ·), fun _ => by simp [State.reset], none, rfl, rfl⟩

/-- Settles O20: a command's end writes all four registers together, a command's start and a write of `STATUS` keep the
agreement, and no other step writes them. -/
theorem stepKeepsControlInvariant : Obligations.StepKeepsControlInvariant := by
  intro s t h hstep
  have hpop : s.popHost.controlInv := h.withStatus rfl rfl rfl rfl rfl id
  rcases step_next hstep with rfl | ⟨w, hend⟩ | ⟨r, n, rfl⟩ | ⟨off, v, rfl⟩ | rfl
  · exact hpop
  · exact finish_controlInv hend
  · exact hpop.withStatus rfl rfl rfl rfl rfl id
  · exact hostWrite_controlInv off v hpop
  · exact reset_controlInv.withStatus rfl rfl rfl rfl rfl id

end Sys2Proof.Machine
end

section
/-! PROOFS, family 10_state, the parser's and the results' invariants (O22, O23). A command that writes none of an
invariant's parts keeps it by its frame; the few others are walked through, write by write. -/

namespace Sys2Proof.Machine

/-! ### Properties kept along a rule -/

theorem andThen_keeps {P : State → Prop} {r : Ended} {k : State → Ended} (hr : P r.1) (hk : ∀ t, P t → P (k t).1) :
    P (r.andThen k).1 :=
  andThen_induct r k hr fun t e => by
    subst e
    exact hk t hr

/-- A property that every rule, a command's end, a host's access, a host's write and a reset keep is kept by every
step. -/
theorem step_keeps {P : State → Prop} {s t : State} (h : P s) (hstep : step s = .next t)
    (hrule : ∀ u i, P u → P (ruleOf u i).1)
    (hhost : ∀ u r n e, P u → P { u with host := e, resp := r, draws := n })
    (hend : ∀ r t, endCommand r = .next t → P r.1 → P t)
    (hwrite : ∀ u off v, P u → P (hostWrite u off v))
    (hreset : ∀ u, P u → P (resetPulse u)) : P t := by
  have hpop : P s.popHost := hhost s s.resp s.draws s.host.tail h
  rcases step_next hstep with rfl | ⟨w, he⟩ | ⟨r, n, rfl⟩ | ⟨off, v, rfl⟩ | rfl
  · exact hpop
  · exact hend _ t he (wordRule_induct w hpop fun i => hrule _ i hpop)
  · exact hhost _ r n _ hpop
  · exact hwrite _ off v hpop
  · exact hreset _ hpop

/-! ### The checks of the parser's commands -/

/-- A grid that passes the parser's check is square, of a side that a version has (R270). -/
theorem gridCheck_ok {s : State} {d : Nat} (h : s.gridCheck = .ok d) : 21 ≤ d ∧ d ≤ 177 ∧ d % 4 = 1 := by
  unfold State.gridCheck at h
  split at h
  · cases h
  · rename_i hdims
    split at h
    · cases h
      simp only [State.gridDimsOk, maxGrid, Bool.not_eq_true, Bool.not_eq_false', Bool.and_eq_true, decide_eq_true_eq]
        at hdims
      omega
    · cases h

theorem parserCheck_ok {s : State} {d : Nat} (h : s.parserCheck = .ok d) :
    s.pstate.pinit = true ∧ s.gridCheck = .ok d := by
  unfold State.parserCheck at h
  split at h
  · cases h
  · rename_i hinit
    exact ⟨by simpa using hinit, h⟩

/-- The version a parser command reads, from the cache or from the grid, is one of 1..40 (R283). -/
theorem parser_readVersion_range {s : State} {d : Nat} {v : BitVec 6} (h : s.parserInv) (hcheck : s.gridCheck = .ok d)
    (hv : (s.parser d).readVersion = .ok v) : 1 ≤ v.toNat ∧ v.toNat ≤ 40 := by
  obtain ⟨hlo, hhi, hmod⟩ := gridCheck_ok hcheck
  cases hcache : s.version with
  | none =>
    obtain ⟨h1, h40, -⟩ := readVersion_range (s.parser d) v hlo hhi hmod hcache hv
    exact ⟨h1, h40⟩
  | some w =>
    have : (s.parser d).readVersion = .ok w := by simp [Parser.readVersion, State.parser, hcache]
    rw [this] at hv
    cases hv
    exact h.range _ hcache

/-! ### The parser's invariant -/

/-- The parts the parser's invariant speaks of. -/
def parserParts : List Part := [.version, .fmt, .pstate]

theorem Frame.parserInv {ps : List Part} {gs : List (Nat × Nat)} {s t : State} (hf : Frame ps gs s t)
    (hps : ∀ p ∈ parserParts, p ∉ ps) (h : s.parserInv) : t.parserInv := by
  have hversion : t.version = s.version := hf.parts .version (hps _ (by simp [parserParts]))
  have hfmt : t.fmt = s.fmt := hf.parts .fmt (hps _ (by simp [parserParts]))
  have hpstate : t.pstate = s.pstate := hf.parts .pstate (hps _ (by simp [parserParts]))
  constructor
  · rw [hpstate]; exact h.mirror
  · rw [hversion, hpstate]; exact h.version
  · rw [hfmt, hpstate]; exact h.fmt
  · rw [hversion]; exact h.range

/-- With nothing cached and the flag clear the invariant says nothing. -/
theorem parserInv_of_empty {s : State} (hmirror : s.pstate.mirror = false) (hversion : s.version = none)
    (hfmt : s.fmt = none) : s.parserInv := by
  constructor <;> simp [hmirror, hversion, hfmt]

/-- On an accepted grid only the range of the cached version is left to show. -/
theorem parserInv_of_pinit {s : State} (hinit : s.pstate.pinit = true)
    (hrange : ∀ v, s.version = some v → 1 ≤ v.toNat ∧ v.toNat ≤ 40) : s.parserInv :=
  ⟨fun _ => hinit, fun _ => hinit, fun _ => hinit, hrange⟩

theorem parserInit_parserInv (s : State) : (parserInit s).1.parserInv :=
  computing_induct (P := State.parserInv) _ _ _ (parserInv_of_empty rfl rfl rfl) fun _ _ =>
    parserInv_of_empty rfl rfl rfl

theorem readFormat_parserInv {s : State} (h : s.parserInv) : (readFormat s).1.parserInv := by
  refine computing_induct (P := State.parserInv) _ _ _ h fun d hd => ite_induct (fun _ => h) fun _ => ?_
  exact computing_induct (P := State.parserInv) _ _ _ { h with } fun info _ =>
    parserInv_of_pinit (parserCheck_ok hd).1 h.range

theorem readVersion_parserInv {s : State} (h : s.parserInv) : (readVersion s).1.parserInv := by
  refine computing_induct (P := State.parserInv) _ _ _ h fun d hd => ?_
  obtain ⟨hinit, hgrid⟩ := parserCheck_ok hd
  have hfields := versionFields_frame (s.parser d) s
  have hpstate : (versionFields (s.parser d) s).pstate = s.pstate := hfields.parts .pstate (by simp)
  refine computing_induct (P := State.parserInv) _ _ _ (hfields.parserInv (by simp [parserParts]) h) fun v hv => ?_
  refine parserInv_of_pinit (by rw [← hinit, ← hpstate]) fun w hw => ?_
  cases hw
  exact parser_readVersion_range h hgrid hv

theorem readCodewords_parserInv {s : State} (h : s.parserInv) : (readCodewords s).1.parserInv := by
  refine computing_induct (P := State.parserInv) _ _ _ h fun d hd => ?_
  obtain ⟨hinit, hgrid⟩ := parserCheck_ok hd
  refine computing_induct (P := State.parserInv) _ _ _ h fun info _ => ?_
  have hfmt : ({ s with fmt := some info } : State).parserInv := parserInv_of_pinit hinit h.range
  refine computing_induct (P := State.parserInv) _ _ _ hfmt fun v hv => ?_
  have hversion : ({ s with fmt := some info, version := some v } : State).parserInv := by
    refine parserInv_of_pinit hinit fun w hw => ?_
    cases hw
    exact parser_readVersion_range hfmt hgrid hv
  have hfnpat := (putFnpat_frame _ v.toNat d).parserInv (by simp [parserParts])
    ((unmaskGrid_frame _ d (infoMask info)).parserInv (by simp) hversion)
  exact computing_induct (P := State.parserInv) _ _ _ hfnpat fun out _ =>
    (putCw_frame _ out).parserInv (by simp [parserParts]) hfnpat

theorem setMirror_parserInv (m : Nat) (s : State) : Yields (setMirror m s) State.parserInv :=
  .check fun _ => .bind fun _ hd => .ok (parserInv_of_pinit (parserCheck_ok hd).1 fun _ hv => nomatch hv)

theorem decodeCmd_parserInv {s : State} (h : s.parserInv) : Yields (decodeCmd s) State.parserInv :=
  .bind fun _ _ => .bind fun _ _ => .ok { h with }

theorem ruleOf_parserInv (i : Instr) {s : State} (h : s.parserInv) : (ruleOf s i).1.parserInv := by
  cases i with
  | clear => exact parserInv_of_empty rfl rfl rfl
  | parserInit => exact parserInit_parserInv s
  | readFormat => exact readFormat_parserInv h
  | readVersion => exact readVersion_parserInv h
  | readCodewords => exact readCodewords_parserInv h
  | setMirror sel => exact (setMirror_parserInv sel s).single h
  | decode => exact (decodeCmd_parserInv h).single h
  | scan =>
    refine andThen_keeps ((detect_frame s).parserInv (by simp [parserParts, partsWritten]) h) fun t ht => ?_
    exact (decodeCmd_parserInv ht).single ht
  | _ => exact (ruleOf_frame _ s).parserInv (by simp [parserParts, partsWritten]) h

/-- Settles O22: the commands that write a cache or `PSTATE` do so on an accepted grid, or clear both caches and the
flag; no other command and no host event writes them. -/
theorem stepKeepsParserInvariant : Obligations.StepKeepsParserInvariant := fun _ _ h hstep =>
  step_keeps h hstep (fun _ i hu => ruleOf_parserInv i hu) (fun _ _ _ _ hu => { hu with })
    (fun _ _ he hr => (endCommand_frame he).parserInv (by simp) hr)
    (fun _ off v hu => hostWrite_induct off v (by intros; exact { hu with }))
    (fun _ _ => parserInv_of_empty rfl rfl rfl)

/-! ### The results' invariant -/

/-- The parts the results' invariant speaks of; the capacities are parameters, on the host's side. -/
def resultParts : List Part := [.hostSide, .fcand, .acand, .rsNerr, .pver, .dim, .fndim, .numCw, .numData]

theorem Frame.resultInv {ps : List Part} {gs : List (Nat × Nat)} {s t : State} (hf : Frame ps gs s t)
    (hps : ∀ p ∈ resultParts, p ∉ ps) (h : s.resultInv) : t.resultInv := by
  have hsame (p : Part) (hp : p ∈ resultParts) : p.same s t := hf.parts p (hps p hp)
  obtain ⟨-, -, hparams, -⟩ := hsame .hostSide (by simp [resultParts])
  obtain ⟨hfcand, -⟩ := hsame .fcand (by simp [resultParts])
  have hacand : t.acand = s.acand := hsame .acand (by simp [resultParts])
  have hnerr : t.rsNerr = s.rsNerr := hsame .rsNerr (by simp [resultParts])
  have hpver : t.pver = s.pver := hsame .pver (by simp [resultParts])
  have hdim : t.dim = s.dim := hsame .dim (by simp [resultParts])
  have hfndim : t.fndim = s.fndim := hsame .fndim (by simp [resultParts])
  have hnumCw : t.numCw = s.numCw := hsame .numCw (by simp [resultParts])
  have hnumData : t.numData = s.numData := hsame .numData (by simp [resultParts])
  constructor
  · rw [hfcand, hparams]; exact h.fcand
  · rw [hfcand]; exact h.count
  · rw [hacand, hparams]; exact h.acand
  · rw [hnerr]; exact h.rsNerr
  · rw [hpver]; exact h.pver
  · rw [hdim]; exact h.dim
  · rw [hfndim]; exact h.fndim
  · rw [hnumCw]; exact h.numCw
  · rw [hnumData]; exact h.numData

/-- With the lists empty and the registers 0 the invariant holds (R53, R92). -/
theorem resultInv_of_empty {s : State} (hfcand : s.fcand = []) (hacand : s.acand = []) (hnerr : s.rsNerr = 0)
    (hpver : s.pver = 0) (hdim : s.dim = 0) (hfndim : s.fndim = 0) (hnumCw : s.numCw = 0) (hnumData : s.numData = 0) :
    s.resultInv := by
  constructor <;> simp [*]

theorem toNat_wordOfNat_le {n b : Nat} (h : n ≤ b) : (Word.ofNat n).toNat ≤ b := by
  rw [BitVec.toNat_ofNat]
  exact (Nat.mod_le _ _).trans h

/-- The side of a symbol, as a register holds it. -/
theorem side_word {d : Nat} (hlo : 21 ≤ d) (hhi : d ≤ 177) (hmod : d % 4 = 1) :
    21 ≤ (Word.ofNat d).toNat ∧ (Word.ofNat d).toNat ≤ 177 ∧ (Word.ofNat d).toNat % 4 = 1 := by
  have : (Word.ofNat d).toNat = d := by rw [BitVec.toNat_ofNat]; omega
  omega

theorem chienStep_resultInv {s : State} (h : s.resultInv) : Yields (chienStep s) State.resultInv := fun t ht => by
  obtain ⟨m, n, rfl, hn, -⟩ := chienStep_ok s t ht
  exact { h with rsNerr := toNat_wordOfNat_le hn }

theorem rsDecode_resultInv {s : State} (h : s.resultInv) : (rsDecode s).1.resultInv := by
  refine computing_induct (P := State.resultInv) _ _ _ h fun _ _ => ?_
  refine andThen_keeps (Yields.single h fun t ht => (setPoly_frame s 0 _ t ht).resultInv (by simp [resultParts]) h)
    fun t h => ite_induct (fun _ => { h with rsNerr := by simp }) fun _ => ?_
  refine andThen_keeps (Yields.single h fun u hu => (euclidStep_frame t u hu).resultInv (by simp [resultParts]) h)
    fun t h => ?_
  refine andThen_keeps ((chienStep_resultInv h).single h) fun t h => ?_
  refine andThen_keeps (Yields.single h fun u hu => (forneyStep_frame t u hu).resultInv (by simp) h) fun t h => ?_
  exact (correctStep_frame t).resultInv (by simp [resultParts]) h

theorem dimension_resultInv {s : State} {tl tr bl : Pt} {ms : F64} {d v : Nat} (h : s.resultInv)
    (hdv : dimensionAndVersion tl tr bl ms = .ok (d, v)) :
    ({ s with dim := Word.ofNat d, pver := BitVec.ofNat 6 v } : State).resultInv := by
  obtain ⟨h1, h40, rfl⟩ := dimensionAndVersion_ok tl tr bl ms d v hdv
  refine { h with dim := .inr (side_word (by omega) (by omega) (by omega)), pver := ?_ }
  rw [BitVec.toNat_ofNat]
  omega

theorem dimensionCmd_resultInv {s : State} (h : s.resultInv) : Yields (dimensionCmd s) State.resultInv :=
  .check fun _ => .bind fun _ hdv => .ok (dimension_resultInv h hdv)

theorem finderStep_resultInv {s : State} (h : s.resultInv) : (finderStep s).1.resultInv := by
  obtain ⟨l, b, n, g, k, w1, w2, w3, e, ⟨hlen, hcount⟩, -⟩ := finderStep_cases s
  rw [e]
  exact { h with fcand := hlen, count := hcount }

theorem alignStep_resultInv (ms : F64) (d v : Nat) {s : State} (h : s.resultInv) :
    (alignStep ms d v s).1.resultInv := by
  obtain ⟨l, g, n, b, e, hlen, -⟩ := alignStep_cases ms d v s
  rw [e]
  exact { h with acand := hlen h.acand }

theorem findAlignCmd_resultInv {s : State} (h : s.resultInv) : (findAlignCmd s).1.resultInv := by
  unfold findAlignCmd
  refine ite_induct (fun _ => h) fun _ => ite_induct (fun _ => h) fun _ => ite_induct (fun _ => h) fun _ => ?_
  have hsearch : ({ s with
      acand := (s.alignSearch (s.fval fMS) (s.argInt 0) (s.argInt 1) (s.argNat 2)).1 } : State).resultInv :=
    { h with acand := alignInRegion_ok s.image s.params.maxAlignCand s.acand _ _ _ _ h.acand }
  exact computing_induct (P := State.resultInv) _ _ _ hsearch fun c _ =>
    (putAlign_frame _ c).resultInv (by simp [resultParts]) hsearch

theorem detect_resultInv {s : State} (h : s.resultInv) : (detect s).1.resultInv := by
  refine ite_induct (fun _ => h) fun _ => andThen_keeps (finderStep_resultInv h) fun t h => ?_
  refine computing_induct (P := State.resultInv) _ _ _ h fun ms _ => ?_
  have hms := (setF_frame t fMS ms).resultInv (by simp) h
  refine computing_induct (P := State.resultInv) _ _ _ hms fun dv hdv => ?_
  refine andThen_keeps (alignStep_resultInv ms dv.1 dv.2 (dimension_resultInv hms hdv)) fun u h => ?_
  refine computing_induct (P := State.resultInv) _ _ _ h fun x _ => ?_
  have hx := (setXform_frame u x).resultInv (by simp) h
  exact computing_induct (P := State.resultInv) _ _ _ hx fun rows _ =>
    (putGrid_frame _ dv.1 dv.1 rows).resultInv (by simp [resultParts]) hx

theorem putFnpat_resultInv {s : State} (v : Nat) {d : Nat} (h : s.resultInv) (hlo : 21 ≤ d) (hhi : d ≤ 177)
    (hmod : d % 4 = 1) : (s.putFnpat v d).resultInv :=
  { h with fndim := .inr (side_word hlo hhi hmod) }

theorem buildFnpat_resultInv {s : State} (h : s.resultInv) : Yields (buildFnpat s) State.resultInv :=
  .check fun hv => .ok (putFnpat_resultInv _ h (by simp only [sideOf]; omega) (by simp only [sideOf]; omega)
    (by simp only [sideOf]; omega))

theorem readCodewords_resultInv {s : State} (h : s.resultInv) : (readCodewords s).1.resultInv := by
  refine computing_induct (P := State.resultInv) _ _ _ h fun d hd => ?_
  obtain ⟨hlo, hhi, hmod⟩ := gridCheck_ok (parserCheck_ok hd).2
  refine computing_induct (P := State.resultInv) _ _ _ h fun info _ => ?_
  refine computing_induct (P := State.resultInv) _ _ _ { h with } fun v _ => ?_
  have hfnpat : ((({ s with fmt := some info, version := some v } : State).unmaskGrid d (infoMask info)).putFnpat
      v.toNat d).resultInv := putFnpat_resultInv _ { h with } hlo hhi hmod
  refine computing_induct (P := State.resultInv) _ _ _ hfnpat fun out hout => ?_
  have hlen : out.length ≤ 3706 := (codewords_ok _ _ out hout).2 ▸ totalCodewords_le _
  exact { hfnpat with numCw := toNat_wordOfNat_le hlen }

/-- What the blocks of a version and level hold is no more than a symbol's codewords. -/
theorem length_decodedBlocks_le {raw : List Byte} {v : Nat} {level : EcLevel} {blocks : List (Nat × List Byte)}
    {data : List Byte} {n : Nat} (hblocks : dataBlocks raw v level = .ok blocks)
    (hdata : decodeBlocks blocks = .ok (data, n)) : data.length ≤ 3706 := by
  have hsum := (dataBlocks_ok raw v level blocks hblocks).2 ▸ sum_blockSizes_le v level
  rcases decodeBlocks_cases blocks with ⟨data', n', e, hlen⟩ | ⟨e', e⟩
  · rw [e] at hdata
    cases hdata
    exact hlen.trans hsum
  · rw [e] at hdata
    cases hdata

theorem decodeParsed_data_le {p : Parser} {r : Decoded} (h : p.decodeParsed.2 = .ok r) : r.data.length ≤ 3706 := by
  unfold Parser.decodeParsed at h
  split at h
  · cases h
  · dsimp only at h
    split at h
    · cases h
    · obtain ⟨raw, -, h⟩ := bind_ok h
      obtain ⟨blocks, hblocks, h⟩ := bind_ok h
      obtain ⟨⟨data, n⟩, hdata, h⟩ := bind_ok h
      cases h
      exact length_decodedBlocks_le hblocks hdata

theorem retry_data_le {p : Parser} {r : Decoded} (h : p.retry = .ok r) : r.data.length ≤ 3706 := by
  obtain ⟨v, -, h⟩ := bind_ok h
  obtain ⟨info, -, h⟩ := bind_ok h
  exact decodeParsed_data_le h

/-- The whole decoder's data, from its first attempt or from its retry (R300). -/
theorem decodeGrid_data_le {d : Nat} {g : Nat → Nat → Bool} {r : Decoded} {b : Bool}
    (h : decodeGrid d g = .ok (r, b)) : r.data.length ≤ 3706 := by
  unfold decodeGrid at h
  split at h
  · rename_i q r' hfirst
    cases h
    exact decodeParsed_data_le (congrArg Prod.snd hfirst)
  · split at h
    · cases h
    · split at h
      · rename_i r' hretry
        cases h
        exact retry_data_le hretry
      · split at h <;> cases h

theorem blockDecode_resultInv {s : State} (h : s.resultInv) : Yields (blockDecode s) State.resultInv :=
  .check fun _ => .bind fun _ hblocks => .bind fun _ hdata =>
    .ok { h with numData := toNat_wordOfNat_le (length_decodedBlocks_le hblocks hdata) }

theorem decodeCmd_resultInv {s : State} (h : s.resultInv) : Yields (decodeCmd s) State.resultInv :=
  .bind fun _ _ => .bind fun _ hr => .ok { h with numData := toNat_wordOfNat_le (decodeGrid_data_le hr) }

theorem ruleOf_resultInv (i : Instr) {s : State} (h : s.resultInv) : (ruleOf s i).1.resultInv := by
  cases i with
  | clear => exact resultInv_of_empty rfl rfl rfl rfl rfl rfl rfl rfl
  | rsChien => exact (chienStep_resultInv h).single h
  | rsDecode => exact rsDecode_resultInv h
  | dimension => exact (dimensionCmd_resultInv h).single h
  | detect => exact detect_resultInv h
  | findFinder => exact ite_induct (fun _ => h) fun _ => finderStep_resultInv h
  | findAlign => exact findAlignCmd_resultInv h
  | buildFnpat => exact (buildFnpat_resultInv h).single h
  | readCodewords => exact readCodewords_resultInv h
  | blockDecode => exact (blockDecode_resultInv h).single h
  | decode => exact (decodeCmd_resultInv h).single h
  | scan => exact andThen_keeps (detect_resultInv h) fun t ht => (decodeCmd_resultInv ht).single ht
  | _ => exact (ruleOf_frame _ s).resultInv (by simp [resultParts, partsWritten]) h

/-- Settles O23: twelve commands write a result, each within its range; no other command writes one, no host event but
reset does, and no step writes the capacities. -/
theorem stepKeepsResultInvariant : Obligations.StepKeepsResultInvariant := fun _ _ h hstep =>
  step_keeps h hstep (fun _ i hu => ruleOf_resultInv i hu) (fun _ _ _ _ hu => { hu with })
    (fun _ _ he hr => (endCommand_frame he).resultInv (by simp) hr)
    (fun _ off v hu => hostWrite_induct off v (by intros; exact { hu with }))
    (fun _ _ => resultInv_of_empty rfl rfl rfl rfl rfl rfl rfl rfl)

end Sys2Proof.Machine
end

section
/-! PROOFS, family 10_state, reset, the start of a command and the interrupt (O6, O12, O13, O15, O19). -/

namespace Sys2Proof.Machine

/-! ### Host writes of the control registers -/

/-- A write of an idle core's word (R65). -/
theorem step_write_idle {s : State} {rest : List HostEvent} {off : Nat} {v : Word} (hidle : s.status.busy = false)
    (hlt : off < 0x200000) (h4 : off % 4 = 0) (hhost : s.host = .write (s.base + off) 32 v :: rest) :
    step s = .next { ({ s with host := rest } : State).writeIdle off v with resp := .written } := by
  rw [step_write s rest off v hlt h4 hhost]
  simp [hostWrite, hidle]

/-- A read of an idle core's word (R65). -/
theorem step_read_idle {s : State} {rest : List HostEvent} {off : Nat} (hidle : s.status.busy = false)
    (hlt : off < 0x200000) (h4 : off % 4 = 0) (hhost : s.host = .read (s.base + off) 32 :: rest) :
    step s = .next { s with host := rest, resp := .data (s.readIdle off) } := by
  rw [step_read s rest off hlt h4 hhost]
  simp only [hostRead, hidle, Bool.false_and, Bool.false_eq_true, if_false]
  rfl

theorem targetAt_ctrl : targetAt 0x004 = .reg .ctrl := rfl
theorem targetAt_cmd : targetAt 0x00C = .reg .cmd := rfl
theorem targetAt_status_offset : targetAt 0x008 = .reg .status := rfl

/-- Settles O6: the accepted write is `startCommand`, and the answer. -/
theorem cmdWriteStartsCommand : Obligations.CmdWriteStartsCommand := by
  intro s rest v hidle hhost
  rw [step_write_idle hidle (by omega) (by omega) hhost]
  simp only [State.writeIdle, targetAt_cmd, State.writeReg, startCommand, Status.start]

/-- A write of `CTRL` to an idle core stores its two bits (R22). -/
theorem step_write_ctrl {s : State} {rest : List HostEvent} {v : Word} (hidle : s.status.busy = false)
    (hhost : s.host = .write (s.base + 0x004) 32 v :: rest) :
    step s = .next { s with host := rest, resp := .written, ctrl := ⟨v.getLsbD 0, v.getLsbD 1⟩ } := by
  rw [step_write_idle hidle (by omega) (by omega) hhost]
  simp only [State.writeIdle, targetAt_ctrl, State.writeReg, Ctrl.ofWord]

/-- A write of `STATUS` acts on its write-1-to-clear bits, whether a command runs or not (R23, R373). -/
theorem step_write_status {s : State} {rest : List HostEvent} {v : Word}
    (hhost : s.host = .write (s.base + 0x008) 32 v :: rest) :
    step s = .next { s with host := rest, resp := .written, status := s.status.w1c v } := by
  rw [step_write s rest 0x008 v (by omega) (by omega) hhost]
  unfold hostWrite
  split
  · rw [if_pos targetAt_status_offset]
  · simp only [State.writeIdle, targetAt_status_offset, State.writeReg]

/-! ### The interrupt -/

/-- A command's end sets `DONE` and leaves `CTRL`, so `irq` is `IE` (R90, R340). -/
theorem exec_irq {i : Instr} {s t : State} (h : exec i s = .next t) : t.irq = s.ctrl.ie := by
  have hctrl : t.ctrl = s.ctrl := (exec_frame h).parts .ctrl (by cases i <;> simp [partsWritten])
  obtain ⟨u, hu, -, hdone, -⟩ := everyCommandEnds i s
  rw [h] at hu
  cases hu
  simp [State.irq, hdone, hctrl]

/-- Settles O15: `irq` reads `DONE` and `IE`, and each of the four steps writes them as said. -/
theorem interruptFollowsDone : Obligations.InterruptFollowsDone := by
  refine ⟨fun i s t => exec_irq, fun s rest v hidle hhost => ?_, fun s rest v hidle hhost => ?_,
    fun s rest v hhost => ?_⟩
  · exact ⟨_, cmdWriteStartsCommand s rest v hidle hhost, rfl⟩
  · exact ⟨_, step_write_ctrl hidle hhost, rfl⟩
  · refine ⟨_, step_write_status hhost, rfl, fun hclear => ?_⟩
    simp [State.irq, Status.w1c, hclear]

/-! ### Reset -/

/-- Settles O13: the pulse keeps the parameters and the host's events, and no byte is listed any more. -/
theorem resetPulseAbandonsEverything : Obligations.ResetPulseAbandonsEverything := by
  intro s rest hhost
  exact ⟨_, by simp only [step, hhost]; rfl, rfl, rfl, fun _ => rfl, rfl, rfl⟩

/-- Settles O19: nothing runs, nothing is cached, listed or written. -/
theorem resetMeetsInvariants : Obligations.ResetMeetsInvariants :=
  ⟨reset_controlInv, ⟨.nil, fun _ hc => nomatch hc⟩, parserInv_of_empty rfl rfl rfl,
    resultInv_of_empty rfl rfl rfl rfl rfl rfl rfl rfl⟩

/-- A bank of zero registers reads 0 at every index. -/
theorem getD_replicate_zero {w : Nat} (n k : Nat) : (Vector.replicate n (0 : BitVec w)).toList.getD k 0 = 0 := by
  rw [Vector.toList_replicate, List.getD_eq_getElem?_getD, List.getElem?_replicate]
  split <;> rfl

theorem reset_argNat (k : Nat) : State.reset.argNat k = 0 := congrArg BitVec.toNat (getD_replicate_zero 4 k)

theorem reset_plenOf (k : Nat) : State.reset.plenOf k = 0 := congrArg BitVec.toNat (getD_replicate_zero 8 k)

theorem reset_fbits (k : Nat) : State.reset.fbits k = 0 := getD_replicate_zero 48 k

/-- Settles O12: the indexed registers by `reset_argNat`, `reset_plenOf` and `reset_fbits`, every other item by the
definition of reset. -/
theorem resetValues : Obligations.ResetValues := by
  have hfval (k : Nat) : State.reset.fval k = F64.zero false := by
    rw [State.fval, reset_fbits]
    decide
  refine ⟨rfl, rfl, rfl, rfl, rfl, fun k _ => reset_argNat k, rfl, rfl, rfl, rfl, rfl, rfl, rfl, rfl, rfl, rfl, rfl,
    rfl, rfl, rfl, rfl, rfl, rfl, rfl, rfl, rfl, rfl, rfl, fun k _ => reset_plenOf k, rfl, fun k _ => hfval k,
    rfl, rfl, rfl, rfl, rfl⟩

end Sys2Proof.Machine
end

section
/-! PROOFS, family 10_state, the address map from the host's side (O10, O11): which register or window an offset
names, what an idle core answers there, and what a write there leaves to be read. -/

namespace Sys2Proof.Machine

/-! ### The offsets of the registers -/

/-- The offset of a register (R21 to R40). -/
def Reg.offset : Reg → Nat
  | .id => 0x000
  | .ctrl => 0x004
  | .status => 0x008
  | .cmd => 0x00C
  | .errcode => 0x010
  | .errdetail => 0x014
  | .arg k => 0x018 + 4 * k
  | .res0 => 0x028
  | .res1 => 0x02C
  | .imgW => 0x030
  | .imgH => 0x034
  | .gridW => 0x038
  | .gridH => 0x03C
  | .version => 0x040
  | .pver => 0x044
  | .fmt => 0x048
  | .pstate => 0x04C
  | .numCw => 0x050
  | .numData => 0x054
  | .errsCorr => 0x058
  | .rsN => 0x05C
  | .rsTwos => 0x060
  | .rsNerr => 0x064
  | .dim => 0x068
  | .fpcBl => 0x06C
  | .fpcTl => 0x070
  | .fpcTr => 0x074
  | .apValid => 0x078
  | .findNcand => 0x07C
  | .plen k => 0x080 + 4 * k
  | .fndim => 0x0A0
  | .fword k hi => 0x100 + 8 * k + if hi then 4 else 0

theorem regAt_offset {off : Nat} {r : Reg} (h4 : off % 4 = 0) (h : regAt off = some r) : off = r.offset := by
  unfold regAt at h
  split at h
  · cases h
    simp only [Reg.offset]
    omega
  · split at h
    · cases h
      by_cases hhi : off % 8 = 4
      · simp only [Reg.offset, hhi, decide_true, if_true]
        omega
      · simp only [Reg.offset, hhi, decide_false, Bool.false_eq_true, if_false]
        omega
    · unfold fixedReg at h
      split at h <;> cases h <;> rfl

theorem targetAt_of_regAt {off : Nat} {r : Reg} (h : regAt off = some r) : targetAt off = .reg r := by
  simp only [targetAt, h]

theorem regAt_of_targetAt {off : Nat} {r : Reg} (h : targetAt off = .reg r) : regAt off = some r := by
  unfold targetAt at h
  split at h
  · rename_i r' hr
    cases h
    exact hr
  · split at h <;> cases h

theorem targetAt_arg {k : Nat} (hk : k < 4) : targetAt (0x018 + 4 * k) = .reg (.arg k) := by
  interval_cases k <;> rfl

theorem targetAt_plen {k : Nat} (hk : k < 8) : targetAt (0x080 + 4 * k) = .reg (.plen k) := by
  refine targetAt_of_regAt ?_
  rw [regAt, if_pos (by omega), show (0x080 + 4 * k - 0x080) / 4 = k by omega]

theorem targetAt_fword_low {k : Nat} (hk : k < 48) : targetAt (0x100 + 8 * k) = .reg (.fword k false) := by
  refine targetAt_of_regAt ?_
  rw [regAt, if_neg (by omega), if_pos (by omega), show (0x100 + 8 * k - 0x100) / 8 = k by omega,
    decide_eq_false (by omega)]

theorem targetAt_fword_high {k : Nat} (hk : k < 48) : targetAt (0x104 + 8 * k) = .reg (.fword k true) := by
  refine targetAt_of_regAt ?_
  rw [regAt, if_neg (by omega), if_pos (by omega), show (0x104 + 8 * k - 0x100) / 8 = k by omega,
    decide_eq_true (by omega)]

/-- A window that holds an offset, or the offset is reserved (R61). -/
theorem targetAt_past_registers {off : Nat} (h : (0xA4 ≤ off ∧ off < 0x100) ∨ 0x280 ≤ off) :
    (∃ w : Window, w.base ≤ off ∧ off < w.base + w.size ∧ targetAt off = .window w) ∨ targetAt off = .reserved := by
  by_cases hw : ∃ w : Window, w.base ≤ off ∧ off < w.base + w.size
  · obtain ⟨w, hlo, hhi⟩ := hw
    exact .inl ⟨w, hlo, hhi, targetAt_window off w hlo hhi⟩
  · refine .inr (targetAt_reserved off h fun w => ?_)
    have := not_and.1 (not_exists.1 hw w)
    omega

theorem targetAt_reservedOffset {off : Nat} (h : reservedOffset off) : targetAt off = .reserved := by
  unfold reservedOffset at h
  refine targetAt_reserved off (by omega) fun w => ?_
  cases w <;> simp only [Window.base, Window.size] <;> omega

/-! ### What an idle core answers -/

theorem readIdle_reg {s : State} {off : Nat} {r : Reg} (h : targetAt off = .reg r) : s.readIdle off = s.readReg r := by
  simp only [State.readIdle, h]

theorem readIdle_window {s : State} {off : Nat} {w : Window} (h : targetAt off = .window w) :
    s.readIdle off = s.word off := by
  simp only [State.readIdle, h]

theorem readIdle_reserved {s : State} {off : Nat} (h : targetAt off = .reserved) : s.readIdle off = 0 := by
  simp only [State.readIdle, h]

/-- A word holds its four bytes, lowest first (R64). -/
theorem toNat_word (s : State) (a : Nat) : (s.word a).toNat = (s.byte a).toNat + 2 ^ 8 * (s.byte (a + 1)).toNat +
    2 ^ 16 * (s.byte (a + 2)).toNat + 2 ^ 24 * (s.byte (a + 3)).toNat := by
  have h0 := (s.byte a).isLt
  have h1 := (s.byte (a + 1)).isLt
  have h2 := (s.byte (a + 2)).isLt
  have h3 := (s.byte (a + 3)).isLt
  rw [State.word, BitVec.toNat_ofNat]
  omega

theorem word_eq_ofNat (x : Word) : x = BitVec.ofNat 32 x.toNat := by simp

theorem setWidth_eq_ofNat {w : Nat} (x : BitVec w) : x.setWidth 32 = BitVec.ofNat 32 x.toNat := by simp

theorem ctrl_word_eq (c : Ctrl) : c.word = BitVec.ofNat 32 (flagAt c.ie 0 + flagAt c.tryHarder 1) := by
  obtain ⟨ie, th⟩ := c
  cases ie <;> cases th <;> rfl

theorem status_word_idle {t : Status} (h : t.busy = false) :
    t.word = BitVec.ofNat 32 (flagAt t.done 1 + flagAt t.err 2 + flagAt t.ovr 3) := by
  obtain ⟨busy, done, err, ovr⟩ := t
  cases h
  cases done <;> cases err <;> cases ovr <;> rfl

theorem pstate_word_eq (p : PState) :
    p.word = BitVec.ofNat 32 (flagAt p.mirror 0 + flagAt p.mirrored 1 + flagAt p.pinit 2) := by
  obtain ⟨mirror, mirrored, pinit⟩ := p
  cases mirror <;> cases mirrored <;> cases pinit <;> rfl

theorem versionWord_eq (v : Option (BitVec 6)) : versionWord v = BitVec.ofNat 32 (withValid (v.map BitVec.toNat)) := by
  cases v <;> rfl

theorem fmtWord_eq (v : Option (BitVec 5)) : fmtWord v = BitVec.ofNat 32 (withValid (v.map BitVec.toNat)) := by
  cases v <;> rfl

theorem apValid_word_eq (b : Bool) : Word.ofNat (bitNat b) = BitVec.ofNat 32 (flagAt b 0) := by
  cases b <;> rfl

/-- The table of `registerWords` is what an idle core answers. -/
theorem readIdle_registerWords {s : State} (hidle : s.status.busy = false) :
    ∀ r ∈ registerWords s, s.readIdle r.1 = BitVec.ofNat 32 r.2 := by
  simp only [registerWords, List.cons_append, List.nil_append, List.forall_mem_cons]
  exact ⟨rfl, ctrl_word_eq s.ctrl, status_word_idle hidle, rfl, setWidth_eq_ofNat s.errcode,
    setWidth_eq_ofNat s.errdetail, word_eq_ofNat s.res0, word_eq_ofNat s.res1, word_eq_ofNat s.imgW,
    word_eq_ofNat s.imgH, word_eq_ofNat s.gridW, word_eq_ofNat s.gridH, versionWord_eq s.version,
    setWidth_eq_ofNat s.pver, fmtWord_eq s.fmt, pstate_word_eq s.pstate, word_eq_ofNat s.numCw,
    word_eq_ofNat s.numData, word_eq_ofNat s.errsCorr, word_eq_ofNat s.rsN, word_eq_ofNat s.rsTwos,
    word_eq_ofNat s.rsNerr, word_eq_ofNat s.dim, word_eq_ofNat s.fpcBl, word_eq_ofNat s.fpcTl,
    word_eq_ofNat s.fpcTr, apValid_word_eq s.apValid, word_eq_ofNat s.findNcand,
    word_eq_ofNat s.fndim, fun _ h => nomatch h⟩

theorem low_word_eq (b : Bits64) : b.extractLsb' 0 32 = BitVec.ofNat 32 (b.toNat % 2 ^ 32) := by
  apply BitVec.eq_of_toNat_eq
  simp [BitVec.extractLsb'_toNat]

theorem high_word_eq (b : Bits64) : b.extractLsb' 32 32 = BitVec.ofNat 32 (b.toNat / 2 ^ 32) := by
  apply BitVec.eq_of_toNat_eq
  simp [BitVec.extractLsb'_toNat, Nat.shiftRight_eq_div_pow]

/-- Settles O10: a read of an idle core answers `readIdle`, which goes by what the offset names. -/
theorem idleReads : Obligations.IdleReads := by
  intro s rest off hidle hlt h4 hhost
  have hstep := step_read_idle hidle hlt h4 hhost
  have hread {x : Word} (h : s.readIdle off = x) : step s = .next { s with host := rest, resp := .data x } := h ▸ hstep
  refine ⟨⟨_, hstep⟩, fun w hlo hhi => ?_, fun r hr hoff => ?_, fun k hk hoff => ?_, fun k hk hoff => ?_,
    fun k hk => ⟨fun hoff => ?_, fun hoff => ?_⟩, fun hres => ?_⟩
  · exact ⟨s.word off, hread (readIdle_window (targetAt_window off w hlo hhi)), toNat_word s off⟩
  · exact hread (hoff ▸ readIdle_registerWords hidle r hr)
  · exact hread (hoff ▸ (readIdle_reg (targetAt_arg hk)).trans (word_eq_ofNat _))
  · exact hread (hoff ▸ (readIdle_reg (targetAt_plen hk)).trans (word_eq_ofNat _))
  · exact hread (hoff ▸ (readIdle_reg (targetAt_fword_low hk)).trans (low_word_eq _))
  · exact hread (hoff ▸ (readIdle_reg (targetAt_fword_high hk)).trans (high_word_eq _))
  · exact hread (readIdle_reserved (targetAt_reservedOffset hres))

end Sys2Proof.Machine
end

section
/-! PROOFS, family 10_state, host writes read back (O11). A read-write register is written alone (`readReg_writeReg`),
and two offsets name different registers, or words without a common byte. -/

namespace Sys2Proof.Machine

/-! ### Registers that hold what the host writes -/

/-- The read-write registers that hold whole words, with the indices they have (R26, R28, R29, R35, R36, R40). -/
def Reg.readWrite : Reg → Bool
  | .arg k => decide (k < 4)
  | .imgW => true
  | .imgH => true
  | .gridW => true
  | .gridH => true
  | .rsN => true
  | .rsTwos => true
  | .plen k => decide (k < 8)
  | .fword k _ => decide (k < 48)
  | _ => false

/-- What a bank of registers reads after a write of one. -/
theorem getD_toList_setIfInBounds {α : Type} {n : Nat} (v : Vector α n) (k j : Nat) (b d : α) :
    (v.setIfInBounds k b).toList.getD j d = if j = k ∧ k < n then b else v.toList.getD j d := by
  by_cases hj : j < n
  · by_cases h : j = k
    · subst h
      simp [List.getD, hj]
    · have h' : ¬ k = j := fun e => h e.symm
      simp [List.getD, h, h', hj]
  · have hk : ¬ (j = k ∧ k < n) := by omega
    simp [List.getD, hj, hk]

/-- One half of a binary64 register, as the host reads it (R40). -/
def halfWord (b : Bits64) (hi : Bool) : Word := if hi then b.extractLsb' 32 32 else b.extractLsb' 0 32

/-- The word written is read back, and the other half stays (R40). -/
theorem halfWord_replaceWord (b : Bits64) (hi hi' : Bool) (v : Word) :
    halfWord (replaceWord b hi v) hi' = if hi' = hi then v else halfWord b hi' := by
  cases hi <;> cases hi'
  · exact BitVec.extractLsb'_append_eq_right
  · exact BitVec.extractLsb'_append_eq_left
  · exact BitVec.extractLsb'_append_eq_right
  · exact BitVec.extractLsb'_append_eq_left

theorem readReg_fword (s : State) (k : Nat) (hi : Bool) : s.readReg (.fword k hi) = halfWord (s.fbits k) hi := rfl

/-- A write of a read-write register is read back there, and nowhere else. -/
theorem readReg_writeReg (s : State) (r r' : Reg) (v : Word) (hr : r.readWrite = true) :
    (s.writeReg r v).readReg r' = if r' = r then v else s.readReg r' := by
  cases r with
  | arg k =>
    have hk : k < 4 := by simpa [Reg.readWrite] using hr
    cases r' with
    | arg j =>
      have := getD_toList_setIfInBounds s.arg k j v 0
      simpa [State.readReg, State.writeReg, hk] using this
    | _ => rfl
  | plen k =>
    have hk : k < 8 := by simpa [Reg.readWrite] using hr
    cases r' with
    | plen j =>
      have := getD_toList_setIfInBounds s.plen k j v 0
      simpa [State.readReg, State.writeReg, hk] using this
    | _ => rfl
  | fword k hi =>
    have hk : k < 48 := by simpa [Reg.readWrite] using hr
    cases r' with
    | fword j hi' =>
      have hset : (s.writeReg (.fword k hi) v).fbits j = if j = k ∧ k < 48 then replaceWord (s.fbits k) hi v
          else s.fbits j := fbits_setFbits s k j _
      rw [readReg_fword, readReg_fword, hset]
      by_cases hj : j = k
      · subst hj
        simp [hk, halfWord_replaceWord]
      · simp [hj]
    | _ => rfl
  | imgW | imgH | gridW | gridH | rsN | rsTwos => cases r' <;> simp [State.readReg, State.writeReg, State.fbits]
  | _ => exact absurd hr (by simp [Reg.readWrite])

theorem writeReg_word (s : State) (r : Reg) (v : Word) (a : Nat) : (s.writeReg r v).word a = s.word a := by
  cases r <;> rfl

/-! ### Words of a window -/

theorem byte_putWord_same (s : State) (a i : Nat) (v : Word) (hi : i < 4) :
    (s.putBytes a (wordBytes v)).byte (a + i) = v.extractLsb' (8 * i) 8 := by
  rw [byte_putBytes_inside _ _ _ _ (by simpa [wordBytes] using hi)]
  interval_cases i <;> rfl

theorem word_putWord_same (s : State) (a : Nat) (v : Word) : (s.putBytes a (wordBytes v)).word a = v := by
  apply BitVec.eq_of_toNat_eq
  rw [toNat_word, byte_putWord_same s a 1 v (by omega), byte_putWord_same s a 2 v (by omega),
    byte_putWord_same s a 3 v (by omega), show (s.putBytes a (wordBytes v)).byte a = _ from
      byte_putWord_same s a 0 v (by omega)]
  simp only [BitVec.extractLsb'_toNat, Nat.shiftRight_eq_div_pow]
  omega

/-- Two aligned words at different offsets have no byte in common. -/
theorem word_putWord_other (s : State) (a b : Nat) (v : Word) (ha : a % 4 = 0) (hb : b % 4 = 0) (h : b ≠ a) :
    (s.putBytes a (wordBytes v)).word b = s.word b := by
  have hbyte (i : Nat) (hi : i < 4) : (s.putBytes a (wordBytes v)).byte (b + i) = s.byte (b + i) :=
    byte_putBytes_outside s a (wordBytes v) (b + i) (by simp only [wordBytes, List.length_cons, List.length_nil]; omega)
  simp only [State.word, hbyte 1 (by omega), hbyte 2 (by omega), hbyte 3 (by omega), show
    (s.putBytes a (wordBytes v)).byte b = s.byte b from hbyte 0 (by omega)]

/-! ### Offsets that hold what the host writes -/

/-- What an offset of `holdsWord` names. -/
theorem targetAt_holdsWord {off : Nat} (h4 : off % 4 = 0) (h : holdsWord off) :
    (∃ r : Reg, targetAt off = .reg r ∧ r.readWrite = true) ∨
      ∃ w : Window, targetAt off = .window w ∧ w.hostWritable = true := by
  have hwindow (w : Window) (hlo : w.base ≤ off) (hhi : off < w.base + w.size) (hw : w.hostWritable = true) :
      ∃ w : Window, targetAt off = .window w ∧ w.hostWritable = true := ⟨w, targetAt_window off w hlo hhi, hw⟩
  rcases h with h | ⟨hlo, hhi⟩ | ⟨hlo, hhi⟩ | ⟨hlo, hhi⟩ | ⟨hlo, hhi⟩ | ⟨hlo, hhi⟩ | ⟨hlo, hhi⟩ | ⟨hlo, hhi⟩
  · simp only [List.mem_cons, List.not_mem_nil, or_false] at h
    rcases h with rfl | rfl | rfl | rfl | rfl | rfl | rfl | rfl | rfl | rfl <;> exact .inl ⟨_, rfl, rfl⟩
  · obtain ⟨k, rfl⟩ : ∃ k, off = 0x080 + 4 * k := ⟨(off - 0x080) / 4, by omega⟩
    have hk : k < 8 := by omega
    exact .inl ⟨_, targetAt_plen hk, by simp [Reg.readWrite, hk]⟩
  · obtain ⟨k, hk, rfl | rfl⟩ : ∃ k < 48, off = 0x100 + 8 * k ∨ off = 0x104 + 8 * k :=
      ⟨(off - 0x100) / 8, by omega, by omega⟩
    · exact .inl ⟨_, targetAt_fword_low hk, by simp [Reg.readWrite, hk]⟩
    · exact .inl ⟨_, targetAt_fword_high hk, by simp [Reg.readWrite, hk]⟩
  · exact .inr (hwindow .rsbuf hlo hhi rfl)
  · exact .inr (hwindow .pram hlo hhi rfl)
  · exact .inr (hwindow .cw hlo hhi rfl)
  · exact .inr (hwindow .grid hlo hhi rfl)
  · exact .inr (hwindow .img hlo hhi rfl)

theorem writeIdle_reg {s : State} {off : Nat} {r : Reg} (v : Word) (h : targetAt off = .reg r) :
    s.writeIdle off v = s.writeReg r v := by
  simp only [State.writeIdle, h]

theorem writeIdle_window {s : State} {off : Nat} {w : Window} (v : Word) (h : targetAt off = .window w) :
    s.writeIdle off v = if w.hostWritable then s.putBytes off (wordBytes v) else s := by
  simp only [State.writeIdle, h]

/-- What an aligned offset reads after a write of one that holds its words (R65). -/
theorem readIdle_writeIdle {s : State} {off off' : Nat} {v : Word} (h4 : off % 4 = 0) (h4' : off' % 4 = 0)
    (h : holdsWord off) : (s.writeIdle off v).readIdle off' = if off' = off then v else s.readIdle off' := by
  rcases targetAt_holdsWord h4 h with ⟨r, htarget, hr⟩ | ⟨w, htarget, hw⟩
  · rw [writeIdle_reg v htarget]
    split
    · rename_i heq
      subst heq
      rw [readIdle_reg htarget, readReg_writeReg s r r v hr, if_pos rfl]
    · rename_i hne
      cases htarget' : targetAt off' with
      | reg r' =>
        have hr' : r' ≠ r := fun e => hne <| by
          rw [regAt_offset h4' (regAt_of_targetAt htarget'), regAt_offset h4 (regAt_of_targetAt htarget), e]
        rw [readIdle_reg htarget', readIdle_reg htarget', readReg_writeReg s r r' v hr, if_neg hr']
      | window w => rw [readIdle_window htarget', readIdle_window htarget', writeReg_word]
      | reserved => rw [readIdle_reserved htarget', readIdle_reserved htarget']
  · rw [writeIdle_window v htarget, if_pos hw]
    split
    · rename_i heq
      subst heq
      rw [readIdle_window htarget, word_putWord_same]
    · rename_i hne
      cases htarget' : targetAt off' with
      | reg r' =>
        rw [readIdle_reg htarget', readIdle_reg htarget']
        cases r' <;> rfl
      | window w' => rw [readIdle_window htarget', readIdle_window htarget', word_putWord_other s off off' v h4 h4' hne]
      | reserved => rw [readIdle_reserved htarget', readIdle_reserved htarget']

/-- Such a write is no command and leaves the host's side and `STATUS`. -/
theorem writeIdle_keeps {s : State} {off : Nat} {v : Word} (h4 : off % 4 = 0) (h : holdsWord off) :
    (s.writeIdle off v).host = s.host ∧ (s.writeIdle off v).base = s.base ∧ (s.writeIdle off v).status = s.status := by
  rcases targetAt_holdsWord h4 h with ⟨r, htarget, hr⟩ | ⟨w, htarget, hw⟩
  · rw [writeIdle_reg v htarget]
    cases r with
    | ctrl | status | cmd => exact absurd hr (by simp [Reg.readWrite])
    | _ => exact ⟨rfl, rfl, rfl⟩
  · rw [writeIdle_window v htarget, if_pos hw]
    exact ⟨rfl, rfl, rfl⟩

/-! ### Offsets that ignore writes -/

/-- Past the registers a write is ignored, unless it falls into a window the host may write (R61, R65). -/
theorem writeIdle_past_registers {s : State} {off : Nat} {v : Word} (h : (0xA4 ≤ off ∧ off < 0x100) ∨ 0x280 ≤ off)
    (hw : ∀ w : Window, w.hostWritable = true → off < w.base ∨ w.base + w.size ≤ off) : s.writeIdle off v = s := by
  rcases targetAt_past_registers h with ⟨w, hlo, hhi, htarget⟩ | htarget
  · rw [writeIdle_window v htarget, if_neg]
    intro hwrite
    have := hw w hwrite
    omega
  · simp only [State.writeIdle, htarget]

theorem writeIdle_ignored {s : State} {off : Nat} {v : Word} (h : ignoresWrites off) : s.writeIdle off v = s := by
  rcases h with h | h
  · simp only [List.mem_cons, List.not_mem_nil, or_false] at h
    rcases h with rfl | rfl | rfl | rfl | rfl | rfl | rfl | rfl | rfl | rfl | rfl | rfl | rfl | rfl | rfl | rfl | rfl |
      rfl | rfl | rfl <;> rfl
  · refine writeIdle_past_registers (by omega) fun w hw => ?_
    cases w <;> simp only [Window.hostWritable, Bool.false_eq_true] at hw <;>
      simp only [Window.base, Window.size] <;> omega

theorem lt_of_holdsWord {off : Nat} (h : holdsWord off) : off < 0x200000 := by
  simp only [holdsWord, List.mem_cons, List.not_mem_nil, or_false] at h
  omega

theorem lt_of_ignoresWrites {off : Nat} (h : ignoresWrites off) : off < 0x200000 := by
  simp only [ignoresWrites, List.mem_cons, List.not_mem_nil, or_false] at h
  omega

/-! ### The steps -/

/-- A write of an offset that holds its words, then a read of it. -/
theorem written_word_reads_back {s : State} {rest : List HostEvent} {off : Nat} {v : Word}
    (hidle : s.status.busy = false) (h4 : off % 4 = 0) (hword : holdsWord off)
    (hhost : s.host = .write (s.base + off) 32 v :: .read (s.base + off) 32 :: rest) :
    ∃ t u, step s = .next t ∧ step t = .next u ∧ u.resp = .data v ∧
      ∀ off', off' % 4 = 0 → off' < 0x200000 → off' ≠ off → u.readIdle off' = s.readIdle off' := by
  have hlt := lt_of_holdsWord hword
  have hwrite := step_write_idle hidle hlt h4 hhost
  obtain ⟨hrest, hbase, hstatus⟩ := writeIdle_keeps (v := v) h4 hword
    (s := { s with host := .read (s.base + off) 32 :: rest })
  have hread (off' : Nat) (h4' : off' % 4 = 0) :
      (({ s with host := .read (s.base + off) 32 :: rest } : State).writeIdle off v).readIdle off' =
        if off' = off then v else s.readIdle off' := readIdle_writeIdle h4 h4' hword
  generalize ({ s with host := .read (s.base + off) 32 :: rest } : State).writeIdle off v = w at *
  have hanswer : w.readIdle off = v := (hread off h4).trans (if_pos rfl)
  have hhost' : w.host = .read (w.base + off) 32 :: rest := by rw [hbase]; exact hrest
  have hback : step { w with resp := .written } = .next { w with host := rest, resp := .data (w.readIdle off) } :=
    step_read_idle (s := { w with resp := .written }) (hstatus ▸ hidle) hlt h4 hhost'
  exact ⟨_, _, hwrite, hback, congrArg BusResp.data hanswer, fun off' h4' _ hne => (hread off' h4').trans (if_neg hne)⟩

theorem step_read_ctrl {s : State} {rest : List HostEvent} (hidle : s.status.busy = false)
    (hhost : s.host = .read (s.base + 0x004) 32 :: rest) :
    step s = .next { s with host := rest, resp := .data s.ctrl.word } :=
  step_read_idle hidle (by omega) (by omega) hhost

/-- The two low bits of a word, as `CTRL` stores and reads them (R22). -/
theorem ctrl_word_ofWord (v : Word) : Ctrl.word ⟨v.getLsbD 0, v.getLsbD 1⟩ = BitVec.ofNat 32 (v.toNat % 4) := by
  have hbit (k : Nat) : bitNat (v.getLsbD k) = v.toNat / 2 ^ k % 2 := by
    rw [BitVec.getLsbD, Nat.testBit_eq_decide_div_mod_eq, bitNat]
    split <;> simp_all
  simp only [Ctrl.word, hbit]
  congr 1
  omega

/-- Settles O11: the three kinds of offset, by `written_word_reads_back`, `writeIdle_ignored` and `step_write_ctrl`. -/
theorem writtenWordsReadBack : Obligations.WrittenWordsReadBack := by
  intro s rest off v hidle h4
  refine ⟨fun hword hhost => written_word_reads_back hidle h4 hword hhost, fun hignored hhost => ?_, fun hhost => ?_⟩
  · rw [step_write_idle hidle (lt_of_ignoresWrites hignored) h4 hhost, writeIdle_ignored hignored]
  · refine ⟨_, step_write_ctrl hidle hhost, rfl, ?_⟩
    rw [← ctrl_word_ofWord]
    exact step_read_ctrl hidle rfl

end Sys2Proof.Machine
end

section
/-! PROOFS, family 20_memory, what the commands write to memory (O18). `WritesIn ws s t` says that the memory of `t` is
that of `s` with writes inside the windows `ws` only. It is reflexive, transitive and monotone, each memory write of the
model has one (from `MemWrote`), and `ruleOf_writes` puts them together along each command's rule. -/

namespace Sys2Proof.Machine

/-! ### Writes inside windows -/

/-- The memory of `t` is that of `s` with writes inside the windows `ws` only: it keeps the canonical form, lists no byte
elsewhere that `s` did not list, and reads as `s` elsewhere. -/
structure WritesIn (ws : List Window) (s t : State) : Prop where
  wf : Memory.wf s.mem → Memory.wf t.mem
  listed : ∀ c ∈ t.mem, c ∈ s.mem ∨ ∃ w ∈ ws, w.base ≤ c.1 ∧ c.1 < w.base + w.size
  same : ∀ a, (∀ w ∈ ws, ¬(w.base ≤ a ∧ a < w.base + w.size)) → memGet t.mem a = memGet s.mem a

namespace WritesIn

variable {ws ws' : List Window} {s t u : State}

theorem of_mem (h : t.mem = s.mem) : WritesIn ws s t :=
  ⟨fun hw => h ▸ hw, fun _ hc => .inl (h ▸ hc), fun _ _ => by rw [h]⟩

theorem refl : WritesIn ws s s := of_mem rfl

/-- A write of registers after the writes of memory. -/
theorem congr (h : WritesIn ws s t) (e : u.mem = t.mem) : WritesIn ws s u :=
  ⟨fun hw => e ▸ h.wf hw, fun c hc => h.listed c (e ▸ hc), fun a ha => e ▸ h.same a ha⟩

theorem trans (h : WritesIn ws s t) (h' : WritesIn ws t u) : WritesIn ws s u :=
  ⟨fun hw => h'.wf (h.wf hw), fun c hc => (h'.listed c hc).elim (h.listed c) .inr,
    fun a ha => (h'.same a ha).trans (h.same a ha)⟩

theorem weaken (h : WritesIn ws s t) (hws : ws ⊆ ws' := by simp) : WritesIn ws' s t :=
  ⟨h.wf, fun c hc => (h.listed c hc).imp_right fun ⟨w, hw, hin⟩ => ⟨w, hws hw, hin⟩,
    fun a ha => h.same a fun w hw => ha w (hws hw)⟩

/-- A write to one stretch of memory is one to a window that contains the stretch. -/
theorem of_wrote {w : Window} {lo n : Nat} (h : MemWrote s.mem t.mem lo n) (hlo : w.base ≤ lo)
    (hhi : lo + n ≤ w.base + w.size) : WritesIn [w] s t :=
  have hw := h.mono hlo hhi
  ⟨hw.wf, fun c hc => (hw.listed c hc).imp_right fun hin => ⟨w, by simp, hin⟩,
    fun a ha => hw.same a <| by
      have := ha w (by simp)
      omega⟩

theorem andThen {r : Ended} {k : State → Ended} (hr : WritesIn ws s r.1) (hk : ∀ t, WritesIn ws t (k t).1) :
    WritesIn ws s (r.andThen k).1 :=
  andThen_keeps (P := WritesIn ws s) hr fun t ht => ht.trans (hk t)

theorem single {v : Except Raise State} (hv : Yields v (WritesIn ws s)) : WritesIn ws s (single s v).1 :=
  Yields.single .refl hv

theorem computing {α : Type} {v : Except Raise α} {k : α → Ended} (ht : WritesIn ws s t)
    (hk : ∀ a, v = .ok a → WritesIn ws s (k a).1) : WritesIn ws s (computing t v k).1 :=
  computing_induct t v k ht hk

theorem ite {c : Prop} [Decidable c] {r q : Ended} (hr : WritesIn ws s r.1) (hq : WritesIn ws s q.1) :
    WritesIn ws s (if c then r else q).1 := ite_induct (fun _ => hr) fun _ => hq

end WritesIn

/-! ### The writes of memory and of the binary64 registers -/

theorem putBytes_writes (s : State) (w : Window) {bs : List Byte} (h : bs.length ≤ w.size) :
    WritesIn [w] s (s.putBytes w.base bs) :=
  .of_wrote (memPut_wrote s.mem w.base bs) le_rfl (Nat.add_le_add_left h _)

/-- A matrix of a side up to 177 fits the windows of 4096 bytes (R46, R50). -/
theorem putMatrix_writes (s : State) (w : Window) {x y : Nat} (g : Nat → Nat → Bool) (hsize : w.size = 4096)
    (hx : x ≤ 177) (hy : y ≤ 177) : WritesIn [w] s (s.putMatrix w.base x y g) :=
  .of_wrote (putMatrix_wrote s w.base x y g hx hy) le_rfl (by rw [hsize])

theorem unmaskGrid_writes (s : State) {d : Nat} (m : Nat) (hd : d ≤ 177) : WritesIn [.grid] s (s.unmaskGrid d m) :=
  putMatrix_writes s .grid _ rfl hd hd

theorem putGrid_writes (s : State) {x y : Nat} (rows : List (List Bool)) (hx : x ≤ 177) (hy : y ≤ 177) :
    WritesIn [.grid] s (s.putGrid x y rows) := by
  obtain ⟨m, e, hm⟩ := putGrid_cases s x y rows hx hy
  rw [e]
  exact .of_wrote hm le_rfl le_rfl

theorem putFnpat_writes (s : State) (v : Nat) {d : Nat} (hd : d ≤ 177) : WritesIn [.fnpat] s (s.putFnpat v d) :=
  (putMatrix_writes s .fnpat (functionPattern v) rfl hd hd).congr rfl

theorem putData_writes (s : State) {data : List Byte} (n : Nat) (h : data.length ≤ 3706) :
    WritesIn [.data] s (s.putData data n) :=
  (putBytes_writes s .data (h.trans (by decide))).congr rfl

theorem putCw_writes (s : State) {out : List Byte} (h : out.length ≤ 3706) : WritesIn [.cw] s (s.putCw out) :=
  (putBytes_writes s .cw (h.trans (by decide))).congr rfl

theorem setPoly_writes (s : State) {k : Nat} (p : List Byte) (hk : k ≤ 7) :
    Yields (s.setPoly k p) (WritesIn [.pram] s) := fun t ht => by
  obtain ⟨m, v, rfl, hm⟩ := setPoly_ok s t k p hk ht
  exact .of_wrote hm le_rfl le_rfl

theorem setF_mem (s : State) (k : Nat) (v : F64) : (s.setF k v).mem = s.mem := by
  obtain ⟨b, n, e⟩ := setF_cases s k v
  rw [e]

theorem setFs_mem (s : State) (k : Nat) (vs : List F64) : (s.setFs k vs).mem = s.mem := by
  obtain ⟨g, n, e⟩ := setFs_cases vs s k
  rw [e]

/-- A transform is written to registers, not to memory (R41). -/
theorem setXform_writes (s : State) (t : Xform) : WritesIn [] s (s.setFs fTA t.list) := .of_mem (setFs_mem s fTA t.list)

theorem copyF_mem (s : State) (dst src n : Nat) : (s.copyF dst src n).mem = s.mem :=
  List.foldlRecOn (motive := fun t : State => t.mem = s.mem) (List.range n) _ rfl fun _ ht _ _ => ht

theorem versionFields_mem (p : Parser) (s : State) : (versionFields p s).mem = s.mem := by
  unfold versionFields
  split
  · rfl
  · dsimp only
    split <;> rfl

/-! ### Rules that write one window -/

theorem polyBinary_writes (op : Poly → Poly → Poly) (d : Nat) (s : State) :
    Yields (polyBinary op d s) (WritesIn [.pram] s) :=
  .check fun hd => .check fun _ => .bind fun _ _ => .bind fun _ _ => setPoly_writes s _ (not_lt.1 hd)
theorem polyScale_writes (d : Nat) (s : State) : Yields (polyScale d s) (WritesIn [.pram] s) :=
  .check fun hd => .check fun _ => .bind fun _ _ => setPoly_writes s _ (not_lt.1 hd)
theorem polyMulMono_writes (d : Nat) (s : State) : Yields (polyMulMono d s) (WritesIn [.pram] s) :=
  .check fun hd => .check fun _ => .bind fun _ _ => setPoly_writes s _ (not_lt.1 hd)
theorem polyMono_writes (d : Nat) (s : State) : Yields (polyMono d s) (WritesIn [.pram] s) :=
  .check fun hd => .check fun _ => setPoly_writes s _ (not_lt.1 hd)

theorem syndStep_writes (s : State) : Yields (syndStep s) (WritesIn [.pram] s) := setPoly_writes s _ (Nat.zero_le 7)

theorem rsSynd_writes (s : State) : Yields (rsSynd s) (WritesIn [.pram] s) :=
  .bind fun _ _ => .bind fun t ht => .ok ((syndStep_writes s t ht).congr rfl)

theorem euclidStep_writes (s : State) : Yields (euclidStep s) (WritesIn [.pram] s) := fun t ht => by
  obtain ⟨m, v, rfl, hm⟩ := euclidStep_ok s t ht
  exact .of_wrote hm le_rfl le_rfl

theorem chienStep_writes (s : State) : Yields (chienStep s) (WritesIn [.loc] s) := fun t ht => by
  obtain ⟨m, n, rfl, -, hm⟩ := chienStep_ok s t ht
  exact .of_wrote hm le_rfl le_rfl

/-- There is one magnitude for each of the `RS_NERR` locations, and `MAG` holds 256 (R145). -/
theorem forneyStep_writes {s : State} (hnerr : s.rsNerr.toNat ≤ 255) : Yields (forneyStep s) (WritesIn [.mag] s) :=
  fun t ht => by
    obtain ⟨m, rfl, hm⟩ := forneyStep_ok s t ht
    exact .of_wrote hm le_rfl (Nat.add_le_add_left (hnerr.trans (by decide)) _)

/-- The corrections lie in the `RS_N` bytes of the word (R146). -/
theorem correctStep_writes {s : State} (hn : s.rsN.toNat ≤ 255) : WritesIn [.rsbuf] s (correctStep s).1 := by
  obtain ⟨m, r, e, hm⟩ := correctStep_cases s
  rw [e]
  exact .of_wrote hm le_rfl (Nat.add_le_add_left (hn.trans (by decide)) _)

theorem rsNOk_le {s : State} (h : s.rsNOk = true) : s.rsN.toNat ≤ 255 := by
  simp only [State.rsNOk, Bool.and_eq_true, decide_eq_true_eq] at h
  exact h.2

theorem rsCorrect_writes (s : State) : WritesIn [.rsbuf] s (rsCorrect s).1 :=
  ite_induct (fun _ => .refl) fun h => correctStep_writes (rsNOk_le (by simpa using h))

theorem gridSample_writes (s : State) : Yields (gridSample s) (WritesIn [.grid] s) :=
  .check fun _ => .check fun h => .check fun _ => .bind fun _ _ => .ok <| by
    simp only [maxGrid] at h
    exact putGrid_writes s _ (by omega) (by omega)

theorem gridDimsOk_le {s : State} (h : s.gridDimsOk = true) : s.gridW.toNat ≤ 177 := by
  simp only [State.gridDimsOk, maxGrid, Bool.and_eq_true, decide_eq_true_eq] at h
  omega

theorem parserCheck_le {s : State} {d : Nat} (h : s.parserCheck = .ok d) : d ≤ 177 :=
  (gridCheck_ok (parserCheck_ok h).2).2.1

theorem unmaskCmd_writes (m : Nat) (s : State) : Yields (unmaskCmd m s) (WritesIn [.grid] s) :=
  .check fun _ => .check fun h => .check fun _ => .ok (unmaskGrid_writes s m (gridDimsOk_le (by simpa using h)))

theorem buildFnpat_writes (s : State) : Yields (buildFnpat s) (WritesIn [.fnpat] s) :=
  .check fun h => .ok <| putFnpat_writes s _ <| by
    simp only [sideOf]
    omega

theorem mirrorCmd_writes (s : State) : Yields (mirrorCmd s) (WritesIn [.grid] s) :=
  .bind fun _ hd => .ok (putMatrix_writes s .grid _ rfl (parserCheck_le hd) (parserCheck_le hd))

theorem remaskCmd_writes (s : State) : Yields (remaskCmd s) (WritesIn [.grid] s) := .bind fun d hd => by
  cases s.fmt with
  | none => exact .ok .refl
  | some info => exact .ok (unmaskGrid_writes s _ (parserCheck_le hd))

theorem blockDecode_writes (s : State) : Yields (blockDecode s) (WritesIn [.data] s) :=
  .check fun _ => .bind fun _ hblocks => .bind fun _ hdata =>
    .ok (putData_writes s _ (length_decodedBlocks_le hblocks hdata))

theorem decodeCmd_writes (s : State) : Yields (decodeCmd s) (WritesIn [.data] s) :=
  .bind fun _ _ => .bind fun q hr => .ok ((putData_writes s q.1.corrected (decodeGrid_data_le hr)).congr rfl)

theorem order3_writes (s : State) : Yields (order3 s) (WritesIn [] s) := by
  unfold order3
  obtain ⟨a, b, c⟩ := orderPoints (s.pt fQ) (s.pt (fQ + 2)) (s.pt (fQ + 4))
  exact .check fun _ => .ok (.of_mem (by simp only [setFbits_mem]))

/-! ### `RS_DECODE` -/

/-- `RS_N` and `RS_NERR` count no more bytes than `RSBUF` and `MAG` hold: what the last steps of `RS_DECODE` rest on. -/
structure State.rsInRange (s : State) : Prop where
  rsN : s.rsN.toNat ≤ 255
  rsNerr : s.rsNerr.toNat ≤ 255

/-- `RS_DECODE`, begun in `s`, has come to `t` (R155): it has written its windows only, and the counts are in range. -/
structure RsProgress (s t : State) : Prop where
  writes : WritesIn (windowsWritten .rsDecode) s t
  range : t.rsInRange

theorem rsCheck_ok {s : State} {u : Unit} (h : s.rsCheck = .ok u) : s.rsN.toNat ≤ 255 := by
  unfold State.rsCheck at h
  split at h
  · rename_i hok
    exact rsNOk_le (Bool.and_eq_true_iff.1 hok).1
  · cases h

namespace RsProgress

variable {s t u : State}

/-- A step that writes its own windows and neither `RS_N` nor `RS_NERR`. -/
theorem step {ws : List Window} {ps : List Part} (h : RsProgress s t) (hw : WritesIn ws t u) (hf : Frame ps [] t u)
    (hws : ws ⊆ windowsWritten .rsDecode := by simp [windowsWritten]) (hn : .rsIn ∉ ps := by simp)
    (hnerr : .rsNerr ∉ ps := by simp) : RsProgress s u := by
  obtain ⟨hrsN, -⟩ := hf.parts .rsIn hn
  have hrsNerr : u.rsNerr = t.rsNerr := hf.parts .rsNerr hnerr
  exact ⟨h.writes.trans (hw.weaken hws), ⟨hrsN ▸ h.range.rsN, hrsNerr ▸ h.range.rsNerr⟩⟩

/-- The Chien step writes `RS_NERR` anew, and finds at most 255 locations (R144). -/
theorem chien (h : RsProgress s t) : Yields (chienStep t) (RsProgress s) := fun u hu => by
  have hw := h.writes.trans ((chienStep_writes t u hu).weaken (by simp [windowsWritten]))
  obtain ⟨m, n, rfl, hn, -⟩ := chienStep_ok t u hu
  exact ⟨hw, ⟨h.range.rsN, toNat_wordOfNat_le hn⟩⟩

end RsProgress

theorem rsDecode_writes {s : State} (hnerr : s.rsNerr.toNat ≤ 255) :
    WritesIn (windowsWritten .rsDecode) s (rsDecode s).1 := by
  refine .computing .refl fun _ hcheck => RsProgress.writes ?_
  have h : RsProgress s s := ⟨.refl, ⟨rsCheck_ok hcheck, hnerr⟩⟩
  refine andThen_keeps (P := RsProgress s) (Yields.single h fun t ht =>
    h.step (syndStep_writes s t ht) (setPoly_frame s 0 _ t ht)) fun t h => ?_
  refine ite_induct (P := RsProgress s) (fun _ => ⟨h.writes.congr rfl, ⟨h.range.rsN, by simp⟩⟩) fun _ => ?_
  refine andThen_keeps (Yields.single h fun u hu => h.step (euclidStep_writes t u hu) (euclidStep_frame t u hu))
    fun t h => ?_
  refine andThen_keeps (h.chien.single h) fun t h => ?_
  refine andThen_keeps (Yields.single h fun u hu =>
    h.step (forneyStep_writes h.range.rsNerr u hu) (forneyStep_frame t u hu)) fun t h => ?_
  exact h.step (correctStep_writes h.range.rsN) (correctStep_frame t)

/-! ### The other composite rules -/

theorem parserInit_writes (s : State) : WritesIn [] s (parserInit s).1 := .computing (.of_mem rfl) fun _ _ => .of_mem rfl

theorem readFormat_writes (s : State) : WritesIn [] s (readFormat s).1 :=
  .computing .refl fun _ _ => .ite .refl <| .computing (.of_mem rfl) fun _ _ => .of_mem rfl

theorem readVersion_writes (s : State) : WritesIn [] s (readVersion s).1 :=
  .computing .refl fun _ _ => .computing (.of_mem (versionFields_mem _ s)) fun _ _ => .of_mem (versionFields_mem _ s)

theorem readCodewords_writes (s : State) : WritesIn [.grid, .fnpat, .cw] s (readCodewords s).1 := by
  unfold readCodewords
  refine .computing .refl fun d hd => .computing .refl fun info _ => .computing (.of_mem rfl) fun v _ => ?_
  have hside := parserCheck_le hd
  have hcaches : WritesIn [.grid, .fnpat, .cw] s { s with fmt := some info, version := some v } := .of_mem rfl
  have hgrid := (hcaches.trans (unmaskGrid_writes _ (infoMask info) hside).weaken).trans
    (putFnpat_writes _ v.toNat hside).weaken
  refine .computing hgrid fun out hout => hgrid.trans (putCw_writes _ ?_).weaken
  exact (codewords_ok _ _ out hout).2 ▸ totalCodewords_le _

theorem finderStep_mem (s : State) : (finderStep s).1.mem = s.mem := by
  obtain ⟨l, b, n, g, k, w1, w2, w3, e, -⟩ := finderStep_cases s
  rw [e]

theorem alignStep_mem (ms : F64) (d v : Nat) (s : State) : (alignStep ms d v s).1.mem = s.mem := by
  obtain ⟨l, g, n, b, e, -⟩ := alignStep_cases ms d v s
  rw [e]

theorem findAlignCmd_writes (s : State) : WritesIn [] s (findAlignCmd s).1 := by
  unfold findAlignCmd
  exact .ite .refl <| .ite .refl <| .ite .refl <| .computing (.of_mem rfl) fun c _ =>
    .of_mem (setFs_mem _ fAP [c.x, c.y, c.ms])

/-- `DETECT` writes the grid it samples, of the side of a version (R201). -/
theorem detect_writes (s : State) : WritesIn [.grid] s (detect s).1 := by
  refine .ite .refl <| .andThen (.of_mem (finderStep_mem s)) fun t => .computing .refl fun ms _ => ?_
  refine .computing (.of_mem (setF_mem t fMS ms)) fun dv hdv => ?_
  have hside : dv.1 ≤ 177 := by
    have := dimensionAndVersion_ok _ _ _ _ dv.1 dv.2 hdv
    omega
  refine .andThen (.of_mem ((alignStep_mem _ _ _ _).trans (setF_mem t fMS ms))) fun u => .computing .refl fun x _ => ?_
  have hx : WritesIn [.grid] u (u.setFs fTA x.list) := .of_mem (setFs_mem u fTA x.list)
  exact .computing hx fun rows _ => hx.trans (putGrid_writes _ rows hside hside)

theorem scan_writes (s : State) : WritesIn [.grid, .data] s (scan s).1 :=
  .andThen (detect_writes s).weaken fun t => .single fun u hu => (decodeCmd_writes t u hu).weaken

/-! ### Every command -/

/-- The rule of a command writes memory in the windows it names, and nowhere else (R71). -/
theorem ruleOf_writes (i : Instr) {s : State} (h : s.resultInv) : WritesIn (windowsWritten i) s (ruleOf s i).1 := by
  cases i with
  | nop => exact .refl
  | clear => exact .of_mem rfl
  | gfAdd => exact .single (.check fun _ => .ok (.of_mem rfl))
  | gfMul => exact .single (.check fun _ => .ok (.of_mem rfl))
  | gfInv => exact .single (.check fun _ => .bind fun _ _ => .ok (.of_mem rfl))
  | gfExp => exact .single (.check fun _ => .ok (.of_mem rfl))
  | gfLog => exact .single (.check fun _ => .bind fun _ _ => .ok (.of_mem rfl))
  | pAdd sel => exact .single (polyBinary_writes padd sel s)
  | pMul sel => exact .single (polyBinary_writes pmul sel s)
  | pScale sel => exact .single (polyScale_writes sel s)
  | pMulmono sel => exact .single (polyMulMono_writes sel s)
  | pMono sel => exact .single (polyMono_writes sel s)
  | pEval sel => exact .single (.check fun _ => .check fun _ => .bind fun _ _ => .ok (.of_mem rfl))
  | rsSynd => exact .single (rsSynd_writes s)
  | rsEuclid => exact .single (.check fun _ => euclidStep_writes s)
  | rsChien => exact .single (chienStep_writes s)
  | rsForney => exact .single (forneyStep_writes h.rsNerr)
  | rsCorrect => exact rsCorrect_writes s
  | rsDecode => exact rsDecode_writes h.rsNerr
  | ptSq2q => exact .single (.check fun _ => .bind fun t _ => .ok (setXform_writes s t))
  | ptQ2sq => exact .single (.check fun _ => .bind fun t _ => .ok (setXform_writes s t))
  | ptQ2q => exact .single (.check fun _ => .bind fun t _ => .ok (setXform_writes s t))
  | ptAdj => exact .single (.check fun _ => .ok (setXform_writes s _))
  | ptTimes => exact .single (.check fun _ => .ok (setXform_writes s _))
  | ptXform m => exact .single (.check fun _ => .check fun _ => .bind fun _ _ => .ok (.of_mem (setFs_mem s fQ _)))
  | ptCopy dir =>
    exact .single <| .ite (fun _ => .ok (.of_mem (copyF_mem s _ _ _))) fun _ =>
      .ite (fun _ => .ok (.of_mem (copyF_mem s _ _ _))) fun _ => .error
  | gridSample => exact .single (gridSample_writes s)
  | moduleSize =>
    exact .single <| .check fun _ => .check fun _ => .bind fun _ _ => .bind fun _ _ => .bind fun _ _ => .bind fun _ _ =>
      .ok (.of_mem (setF_mem s fMS _))
  | dimension => exact .single (.check fun _ => .bind fun _ _ => .ok (.of_mem rfl))
  | createXform =>
    exact .single (.check fun _ => .check fun _ => .bind fun t _ => .ok (setXform_writes s t))
  | detect => exact detect_writes s
  | findFinder => exact .ite .refl (.of_mem (finderStep_mem s))
  | findAlign => exact findAlignCmd_writes s
  | order3 => exact .single (order3_writes s)
  | parserInit => exact parserInit_writes s
  | readFormat => exact readFormat_writes s
  | readVersion => exact readVersion_writes s
  | unmask sel => exact .single (unmaskCmd_writes sel s)
  | buildFnpat => exact .single (buildFnpat_writes s)
  | readCodewords => exact readCodewords_writes s
  | blockDecode => exact .single (blockDecode_writes s)
  | mirror => exact .single (mirrorCmd_writes s)
  | setMirror sel => exact .single (.check fun _ => .bind fun _ _ => .ok (.of_mem rfl))
  | remask => exact .single (remaskCmd_writes s)
  | decode => exact .single (decodeCmd_writes s)
  | scan => exact scan_writes s

theorem endCommand_mem {r : Ended} {t : State} (h : endCommand r = .next t) : t.mem = r.1.mem := by
  cases h
  rfl

theorem exec_writes {i : Instr} {s t : State} (hinv : s.resultInv) (h : exec i s = .next t) :
    WritesIn (windowsWritten i) s t := by
  rw [exec_eq_endCommand] at h
  exact (ruleOf_writes i hinv).congr (endCommand_mem h)

/-- No command draws fresh values for the bytes not written since reset (log 6). -/
theorem exec_epoch {i : Instr} {s t : State} (h : exec i s = .next t) : t.epoch = s.epoch := by
  obtain ⟨-, -, -, hepoch⟩ := (exec_frame h).parts .hostSide (by cases i <;> simp [partsWritten])
  exact hepoch

/-- Settles O18: each memory write in a command's rule stays inside a window the rule names (`exec_writes`). -/
theorem commandsWriteOnlyTheirWindows : Obligations.CommandsWriteOnlyTheirWindows := by
  intro i s t a hinv h hout
  simp only [State.byte, (exec_writes hinv h).same a hout, exec_epoch h]

end Sys2Proof.Machine
end

section
/-! PROOFS, family 20_memory, the canonical form of memory and the refused accesses (O9, O21). -/

namespace Sys2Proof.Machine

/-! ### What a step does to memory -/

theorem writeReg_mem (s : State) (r : Reg) (v : Word) : (s.writeReg r v).mem = s.mem := by
  cases r <;> rfl

theorem windowAt_of_targetAt {off : Nat} {w : Window} (h : targetAt off = .window w) : windowAt off = some w := by
  unfold targetAt at h
  cases hreg : regAt off with
  | some r => simp [hreg] at h
  | none => cases hwin : windowAt off <;> simp_all

/-- A host's write of an aligned word lies inside one window, or writes no memory (R61, R64). -/
theorem writeIdle_writes (s : State) {off : Nat} (v : Word) (h4 : off % 4 = 0) :
    WritesIn Window.all s (s.writeIdle off v) := by
  cases htarget : targetAt off with
  | reg r => exact .of_mem (by rw [writeIdle_reg v htarget, writeReg_mem])
  | window w =>
    obtain ⟨hlo, hhi⟩ := windowAt_aligned off w (windowAt_of_targetAt htarget) h4
    rw [writeIdle_window v htarget]
    split
    · exact (WritesIn.of_wrote (memPut_wrote s.mem off (wordBytes v)) hlo hhi).weaken (by cases w <;> simp [Window.all])
    · exact .refl
  | reserved => exact .of_mem (by simp only [State.writeIdle, htarget])

theorem hostWrite_writes (s : State) {off : Nat} (v : Word) (h4 : off % 4 = 0) :
    WritesIn Window.all s (hostWrite s off v) := by
  unfold hostWrite
  split
  · split <;> exact .of_mem rfl
  · exact (writeIdle_writes s v h4).congr rfl

/-- What a command word comes to writes memory inside the windows. -/
theorem wordRule_writes {s : State} (w : Word) (h : s.resultInv) : WritesIn Window.all s (wordRule s w).1 :=
  wordRule_induct w .refl fun i => (ruleOf_writes i h).weaken fun w _ => by cases w <;> simp [Window.all]

theorem coreTurn_writes {s t : State} (hinv : s.resultInv) (h : coreTurn s = .next t) : WritesIn Window.all s t := by
  rcases coreTurn_next h with rfl | ⟨w, hend⟩
  · exact .refl
  · exact (wordRule_writes w hinv).congr (endCommand_mem hend)

/-- Every step writes memory inside the windows, or empties it (R61, R360). The inversion `step_next` does not serve here:
it forgets that a host's write is aligned. -/
theorem step_writes {s t : State} (hinv : s.resultInv) (h : step s = .next t) :
    WritesIn Window.all s t ∨ t.mem = [] := by
  cases hhost : s.host with
  | nil =>
    simp only [step, hhost] at h
    exact .inl (coreTurn_writes hinv h)
  | cons e rest =>
    have hpop : WritesIn Window.all s { s with host := rest } := .of_mem rfl
    simp only [step, hhost] at h
    cases e with
    | coreTurn => exact .inl (hpop.trans (coreTurn_writes { hinv with } h))
    | read addr width =>
      rcases hostAccess_next h with rfl | ⟨off, -, -, -, -, rfl⟩
      · exact .inl (.of_mem rfl)
      · obtain ⟨v, n, e⟩ := hostRead_cases { s with host := rest } off
        exact .inl (.of_mem (by rw [e]))
    | write addr width v =>
      rcases hostAccess_next h with rfl | ⟨off, -, h4, -, -, rfl⟩
      · exact .inl (.of_mem rfl)
      · exact .inl (hpop.trans (hostWrite_writes _ v h4))
    | reset =>
      cases h
      exact .inr rfl

/-! ### The canonical form -/

/-- A byte written inside a window is a byte of the windows (R61). -/
theorem WritesIn.memoryInv {ws : List Window} {s t : State} (hw : WritesIn ws s t) (h : s.memoryInv) : t.memoryInv where
  wf := hw.wf h.wf
  mapped c hc := by
    rcases hw.listed c hc with hold | ⟨w, -, hlo, hhi⟩
    · exact h.mapped c hold
    · simp [windowAt_inside c.1 w hlo hhi]

theorem memoryInv_of_empty {s : State} (h : s.mem = []) : s.memoryInv := by
  constructor <;> simp [h]

/-- Settles O21: a step writes inside the windows or empties memory (`step_writes`). -/
theorem stepKeepsMemoryInvariant : Obligations.StepKeepsMemoryInvariant := fun _ _ h hinv hstep =>
  (step_writes hinv hstep).elim (·.memoryInv h) memoryInv_of_empty

/-! ### Refused accesses -/

/-- An access of another width or alignment inside the block gets a bus error (R63). -/
theorem hostAccess_busError {s : State} {addr width : Nat} (k : Nat → State) (hlo : s.base ≤ addr)
    (hhi : addr < s.base + 0x200000) (hform : width ≠ 32 ∨ (addr - s.base) % 4 ≠ 0) :
    hostAccess s addr width k = .next { s with resp := .busError } := by
  have hsize : blockSize = 0x200000 := rfl
  unfold hostAccess
  rw [if_neg (by omega), if_pos hform]

/-- An access outside the block faults (log 4). -/
theorem hostAccess_outside {s : State} {addr width : Nat} (k : Nat → State)
    (h : addr < s.base ∨ s.base + 0x200000 ≤ addr) : hostAccess s addr width k = .fault (.outsideBlock addr) := if_pos h

/-- A step whose event is an access is that access, whatever it would do inside the block. -/
theorem step_access {s : State} {rest : List HostEvent} {e : HostEvent} {addr width : Nat} {v : Word}
    (hhost : s.host = e :: rest) (he : e = .read addr width ∨ e = .write addr width v) :
    ∃ k, step s = hostAccess { s with host := rest } addr width k := by
  rcases he with rfl | rfl
  · exact ⟨hostRead { s with host := rest }, by simp only [step, hhost]⟩
  · exact ⟨fun off => hostWrite { s with host := rest } off v, by simp only [step, hhost]⟩

/-- Settles O9: the two ways `hostAccess` refuses, before it looks at what the access would do. -/
theorem refusedAccesses : Obligations.RefusedAccesses := by
  intro s rest e addr width v hhost he
  obtain ⟨k, hstep⟩ := step_access hhost he
  rw [hstep]
  exact ⟨fun hlo hhi hform => hostAccess_busError k hlo hhi hform, fun hout => hostAccess_outside k hout⟩

end Sys2Proof.Machine
end

section
/-! PROOFS, family 30_encoding (O1 to O4). `decode` has one equation per kind of row of the opcode map. A round trip then
needs two facts: which row an opcode has (R79), and what the fields of a word and of an encoding are (R76). -/

namespace Sys2Proof.Machine

/-! ### The opcode map -/

/-- The row of an opcode of format C0 is the command that has this opcode. -/
theorem opcode_of_opcodeRow_c0 {op : Nat} {i : Instr} (h : opcodeRow op = some (.c0 i)) :
    i.opcode = op ∧ i.sel? = none := by
  unfold opcodeRow at h
  split at h <;> cases h <;> exact ⟨rfl, rfl⟩

/-- The row of an opcode of format C1 makes, from each selector, the command that has this opcode and selector. -/
theorem opcode_of_opcodeRow_c1 {op : Nat} {mk : Nat → Instr} (h : opcodeRow op = some (.c1 mk)) (sel : Nat) :
    (mk sel).opcode = op ∧ (mk sel).sel? = some sel := by
  unfold opcodeRow at h
  split at h <;> cases h <;> exact ⟨rfl, rfl⟩

/-- A command without a selector is the row of its opcode. -/
theorem opcodeRow_opcode_c0 {i : Instr} (h : i.sel? = none) : opcodeRow i.opcode = some (.c0 i) := by
  cases i <;> cases h <;> rfl

/-- A command with a selector is made by the row of its opcode. -/
theorem opcodeRow_opcode_c1 {i : Instr} {sel : Nat} (h : i.sel? = some sel) :
    ∃ mk, opcodeRow i.opcode = some (.c1 mk) ∧ mk sel = i := by
  cases i <;> cases h <;> exact ⟨_, rfl, rfl⟩

theorem opcodeRow_of_c0Opcodes : ∀ op ∈ c0Opcodes, ∃ i, opcodeRow op = some (.c0 i) := by
  simp [c0Opcodes, opcodeRow]

theorem opcodeRow_of_c1Opcodes : ∀ op ∈ c1Opcodes, ∃ mk, opcodeRow op = some (.c1 mk) := by
  simp [c1Opcodes, opcodeRow]

theorem opcodeRow_of_unlisted {op : Nat} (h : op ∉ c0Opcodes ++ c1Opcodes) : opcodeRow op = none := by
  unfold opcodeRow
  split
  case h_47 => rfl
  all_goals exact absurd (by decide) h

/-! ### The fields of a word (R76) -/

theorem opField_toNat (w : Word) : (w.extractLsb' 0 8).toNat = w.toNat % 256 := by
  simp [BitVec.extractLsb'_toNat]

theorem selField_toNat (w : Word) : (w.extractLsb' 8 4).toNat = w.toNat / 256 % 16 := by
  simp [BitVec.extractLsb'_toNat, Nat.shiftRight_eq_div_pow]

theorem reservedField_toNat (w : Word) : (w.extractLsb' 12 20).toNat = w.toNat / 4096 := by
  have := w.isLt
  simp only [BitVec.extractLsb'_toNat, Nat.shiftRight_eq_div_pow]
  omega

theorem encode_toNat (i : Instr) : (encode i).toNat = i.sel?.getD 0 % 16 * 256 + i.opcode := by
  have := Laws.opcode_lt i
  simp only [encode, BitVec.toNat_ofNat]
  omega

theorem encode_opField (i : Instr) : (encode i).toNat % 256 = i.opcode := by
  have := Laws.opcode_lt i
  rw [encode_toNat]
  omega

theorem encode_selField (i : Instr) : (encode i).toNat / 256 % 16 = i.sel?.getD 0 % 16 := by
  have := Laws.opcode_lt i
  rw [encode_toNat]
  omega

theorem encode_reservedField (i : Instr) : (encode i).toNat / 4096 = 0 := Nat.div_eq_of_lt (Laws.encode_lt i)

/-- A word is the encoding of the command its fields name. -/
theorem encode_eq_of_fields {i : Instr} {w : Word} (hop : i.opcode = w.toNat % 256)
    (hsel : i.sel?.getD 0 = w.toNat / 256 % 16) (hrsvd : w.toNat / 4096 = 0) : encode i = w := by
  apply BitVec.eq_of_toNat_eq
  rw [encode_toNat]
  omega

theorem wellFormed_of_sel {i : Instr} {sel : Nat} (h : i.sel? = some sel) : i.wellFormed = true ↔ sel < 16 := by
  simp [Instr.wellFormed, h]

theorem wellFormed_of_no_sel {i : Instr} (h : i.sel? = none) : i.wellFormed = true := by
  simp [Instr.wellFormed, h]

/-! ### `decode`, by the row of the opcode (R80) -/

section Rows

variable {w : Word}

theorem decode_of_no_row (h : opcodeRow (w.toNat % 256) = none) : decode w = .error .undefOp := by
  simp only [decode, opField_toNat, h]

theorem decode_of_c0 {i : Instr} (h : opcodeRow (w.toNat % 256) = some (.c0 i)) :
    decode w = if w.toNat / 4096 = 0 ∧ w.toNat / 256 % 16 = 0 then .ok i else .error .rsvdBits := by
  simp only [decode, opField_toNat, selField_toNat, reservedField_toNat, h, ite_not,
    ite_and]

theorem decode_of_c1 {mk : Nat → Instr} (h : opcodeRow (w.toNat % 256) = some (.c1 mk)) :
    decode w = if w.toNat / 4096 = 0 then .ok (mk (w.toNat / 256 % 16)) else .error .rsvdBits := by
  simp only [decode, opField_toNat, selField_toNat, reservedField_toNat, h, ite_not]

theorem decode_of_reservedBits (hop : w.toNat % 256 ∈ c0Opcodes ++ c1Opcodes) (h : w.toNat / 4096 ≠ 0) :
    decode w = .error .rsvdBits := by
  rcases List.mem_append.mp hop with h0 | h1
  · obtain ⟨i, hrow⟩ := opcodeRow_of_c0Opcodes _ h0
    rw [decode_of_c0 hrow, if_neg fun hz => h hz.1]
  · obtain ⟨mk, hrow⟩ := opcodeRow_of_c1Opcodes _ h1
    rw [decode_of_c1 hrow, if_neg h]

theorem decode_of_c0_selector (hop : w.toNat % 256 ∈ c0Opcodes) (h : w.toNat / 256 % 16 ≠ 0) :
    decode w = .error .rsvdBits := by
  obtain ⟨i, hrow⟩ := opcodeRow_of_c0Opcodes _ hop
  rw [decode_of_c0 hrow, if_neg fun hz => h hz.2]

end Rows

/-! ### The round trips -/

/-- Settles O1: the opcode field of the encoding leads to the command's own row, and a selector below 16 fits its
field. -/
theorem decodeReadsEncodedCommand : Obligations.DecodeReadsEncodedCommand := by
  intro i hwf
  cases hsel : i.sel? with
  | none =>
    have hrow := opcodeRow_opcode_c0 hsel
    rw [← encode_opField] at hrow
    rw [decode_of_c0 hrow, if_pos ⟨encode_reservedField i, by simp [encode_selField, hsel]⟩]
  | some sel =>
    obtain ⟨mk, hrow, hmk⟩ := opcodeRow_opcode_c1 hsel
    have hlt : sel < 16 := (wellFormed_of_sel hsel).mp hwf
    rw [← encode_opField] at hrow
    rw [decode_of_c1 hrow, if_pos (encode_reservedField i), encode_selField, hsel, Option.getD_some,
      Nat.mod_eq_of_lt hlt, hmk]

/-- Settles O2: a word decodes only if its reserved bits are zero, and then its opcode and selector fields are those of
the command its row gives. -/
theorem commandWordsAreEncodings : Obligations.CommandWordsAreEncodings := by
  intro w i h
  match hrow : opcodeRow (w.toNat % 256) with
  | none =>
    rw [decode_of_no_row hrow] at h
    cases h
  | some (.c0 j) =>
    obtain ⟨hop, hnone⟩ := opcode_of_opcodeRow_c0 hrow
    rw [decode_of_c0 hrow] at h
    split at h <;> cases h
    next hz => exact ⟨wellFormed_of_no_sel hnone, encode_eq_of_fields hop (by rw [hnone, hz.2]; rfl) hz.1⟩
  | some (.c1 mk) =>
    obtain ⟨hop, hsome⟩ := opcode_of_opcodeRow_c1 hrow (w.toNat / 256 % 16)
    rw [decode_of_c1 hrow] at h
    split at h <;> cases h
    next hz =>
      exact ⟨(wellFormed_of_sel hsome).mpr (Nat.mod_lt _ (by decide)), encode_eq_of_fields hop (by rw [hsome]; rfl) hz⟩

/-- Settles O3: each of the nine words is the encoding of its command, so O1 reads it back. -/
theorem decodeOfWrittenWords : Obligations.DecodeOfWrittenWords :=
  have read {i : Instr} {w : Word} (hwf : i.wellFormed = true) (hw : encode i = w) : decode w = .ok i :=
    hw ▸ decodeReadsEncodedCommand i hwf
  ⟨read rfl rfl, read rfl rfl, read rfl rfl, read rfl rfl, read rfl rfl, read rfl rfl, read rfl rfl, read rfl rfl,
    read rfl rfl⟩

/-! ### Illegal words -/

/-- The core's turn on a word that is no command: `ILLEGAL_CMD` with the detail of `decode`'s answer, and no other
effect (R80, R331). -/
theorem step_of_illegalWord {s : State} {w : Word} {e : IllegalWord} (hhost : s.host = [])
    (hrun : s.running = some w) (h : decode w = .error e) : step s = .next (s.failed 5 (illegalCode e)) := by
  have hturn : step s = endCommand (s, some (.illegalCmd e)) := by
    simp only [step, coreTurn, runCommand, hhost, hrun, h]
  rw [hturn, endCommand_some]
  cases e <;> rfl

/-- Settles O4: the three ways `decode` refuses a word, each ended by `step_of_illegalWord`. -/
theorem illegalWordsEndAsIllegalCmd : Obligations.IllegalWordsEndAsIllegalCmd := fun _ _ hhost hrun =>
  ⟨fun hop => step_of_illegalWord hhost hrun (decode_of_no_row (opcodeRow_of_unlisted hop)),
    fun hop hrsvd => step_of_illegalWord hhost hrun (decode_of_reservedBits hop hrsvd),
    fun hop hsel => step_of_illegalWord hhost hrun (decode_of_c0_selector hop hsel)⟩

end Sys2Proof.Machine
end

section
/-! PROOFS, family 40_control (O5, O24). A step reaches the core's turn by one of two host queues, and the turn of a core
with a legal command in progress is that command (R90). `NOP` and `CLEAR` are their rules, which raise nothing, and then
the end of a command (R91, R92). -/

namespace Sys2Proof.Machine

/-! ### The core's turn -/

/-- With no host event left, the step is the core's turn. -/
theorem step_of_host_nil {s : State} (hhost : s.host = []) : step s = coreTurn s := by
  simp only [step, hhost]

/-- The core's turn may come as an event of its own, which the step consumes. -/
theorem step_of_host_coreTurn {s : State} {rest : List HostEvent} (hhost : s.host = .coreTurn :: rest) :
    step s = coreTurn { s with host := rest } := by
  simp only [step, hhost]

/-- The core's turn with a legal command in progress is that command (R80, R90). -/
theorem coreTurn_of_decode {s : State} {w : Word} {i : Instr} (hrun : s.running = some w) (hdec : decode w = .ok i) :
    coreTurn s = exec i s := by
  simp only [coreTurn, runCommand, hrun, hdec]

/-- Settles O5: the two ways a step is the core's turn, each followed by `coreTurn_of_decode`; consuming the event
leaves the command in progress. -/
theorem stepRunsCommandInProgress : Obligations.StepRunsCommandInProgress := fun _ _ _ hrun hdec =>
  ⟨fun hhost => (step_of_host_nil hhost).trans (coreTurn_of_decode hrun hdec),
    fun _ hhost => (step_of_host_coreTurn hhost).trans (coreTurn_of_decode hrun hdec)⟩

/-! ### Control commands -/

/-- `NOP` only ends (R91). -/
theorem exec_nop (s : State) : exec .nop s = .next s.finished :=
  (exec_eq_endCommand .nop s).trans (endCommand_none s)

/-- `CLEAR` writes the derived state and ends (R92). -/
theorem exec_clear (s : State) : exec .clear s = .next (cleared s).finished :=
  (exec_eq_endCommand .clear s).trans (endCommand_none (cleared s))

/-- Settles O24: both encodings by evaluation, the next states by `exec_nop` and `exec_clear`; the writes of R92 are
those of `cleared`. -/
theorem nopAndClear : Obligations.NopAndClear := ⟨rfl, rfl, exec_nop, exec_clear⟩

end Sys2Proof.Machine
end

section
/-! PROOFS, family 41_gf, the field (O25, O26). Every element other than 0 is a power of the generator
(`timesZn_logOf`), and multiplying by that power is multiplying by `z` so many times: `gmul_eq_timesZn` for the
tables of R101, `fieldProduct_timesZn` for the polynomial product of R102. `timesZn n` is additive, so the laws of the
field follow without a table of products. -/

namespace Sys2Proof.Machine

/-! ### Multiplying by `z` -/

theorem timesZ_xor (a b : Byte) : timesZ (a ^^^ b) = timesZ a ^^^ timesZ b := by
  cases ha : a[7] <;> cases hb : b[7] <;> simp [timesZ, BitVec.shiftLeft_xor_distrib, ha, hb]
  case false.true | true.false => ac_rfl
  case true.true =>
    calc a <<< 1 ^^^ b <<< 1 = a <<< 1 ^^^ b <<< 1 ^^^ (0x1D#8 ^^^ 0x1D#8) := by simp
      _ = a <<< 1 ^^^ 0x1D#8 ^^^ (b <<< 1 ^^^ 0x1D#8) := by ac_rfl

theorem timesZn_eq_iterate (n : Nat) (a : Byte) : timesZn n a = timesZ^[n] a := by
  induction n generalizing a with
  | zero => rfl
  | succ n ih => exact ih (timesZ a)

theorem timesZn_add (m n : Nat) (a : Byte) : timesZn (m + n) a = timesZn m (timesZn n a) := by
  simp only [timesZn_eq_iterate, Function.iterate_add_apply]

theorem timesZn_succ (n : Nat) (a : Byte) : timesZn (n + 1) a = timesZ (timesZn n a) := by
  simp only [timesZn_eq_iterate, Function.iterate_succ_apply']

theorem timesZn_xor (n : Nat) (a b : Byte) : timesZn n (a ^^^ b) = timesZn n a ^^^ timesZn n b := by
  induction n with
  | zero => rfl
  | succ n ih => simp only [timesZn_succ, ih, timesZ_xor]

@[simp] theorem timesZn_zero (n : Nat) : timesZn n 0#8 = 0#8 := by
  induction n with
  | zero => rfl
  | succ n ih => exact ih

/-! ### The tables of R101 -/

/-- Each entry of `EXP` is `z` times the entry before it (R100). -/
theorem gexp_succ : ∀ e < 255, gexp (e + 1) = timesZ (gexp e) := by decide +kernel

/-- `EXP` holds the powers of the generator (R100). -/
theorem gexp_eq_timesZn {e : Nat} (he : e ≤ 255) : gexp e = timesZn e 1 := by
  induction e with
  | zero => rfl
  | succ e ih => rw [gexp_succ e he, ih (Nat.le_of_succ_le he), timesZn_succ]

/-- `LOG` inverts `EXP` away from 0 (R100). -/
theorem gexp_logOf_ofNat : ∀ n < 256, n ≠ 0 → logOf (BitVec.ofNat 8 n) < 255 ∧
    gexp (logOf (BitVec.ofNat 8 n)) = BitVec.ofNat 8 n := by decide +kernel

theorem logOf_spec {a : Byte} (ha : a ≠ 0) : logOf a < 255 ∧ gexp (logOf a) = a := by
  have h := gexp_logOf_ofNat a.toNat a.isLt (fun h0 => ha (BitVec.eq_of_toNat_eq h0))
  rwa [BitVec.ofNat_toNat, BitVec.setWidth_eq] at h

/-- An element other than 0 is the power of the generator that its logarithm says (R100). -/
theorem timesZn_logOf {a : Byte} (ha : a ≠ 0) : timesZn (logOf a) 1 = a := by
  obtain ⟨hlt, hexp⟩ := logOf_spec ha
  rw [← gexp_eq_timesZn hlt.le, hexp]

/-- The generator has order 255: multiplying by `z` that often changes no element. -/
theorem timesZn_order (a : Byte) : timesZn 255 a = a := by
  have hone : timesZn 255 1 = 1 := (gexp_eq_timesZn le_rfl).symm
  by_cases ha : a = 0
  · simp [ha]
  · calc timesZn 255 a = timesZn 255 (timesZn (logOf a) 1) := by rw [timesZn_logOf ha]
      _ = timesZn (logOf a) (timesZn 255 1) := by rw [← timesZn_add, Nat.add_comm, timesZn_add]
      _ = a := by rw [hone, timesZn_logOf ha]

theorem timesZn_mod (n : Nat) (a : Byte) : timesZn (n % 255) a = timesZn n a := by
  have hperiod : Function.IsPeriodicPt timesZ 255 a := (timesZn_eq_iterate 255 a).symm.trans (timesZn_order a)
  simp only [timesZn_eq_iterate, hperiod.iterate_mod_apply]

/-! ### The two products -/

/-- A product by the tables (R101) multiplies by `z` as often as the logarithm says. -/
theorem gmul_eq_timesZn {a : Byte} (ha : a ≠ 0) (b : Byte) : gmul a b = timesZn (logOf a) b := by
  by_cases hb : b = 0
  · simp [gmul, hb]
  · calc gmul a b = gexp ((logOf a + logOf b) % 255) := if_neg (not_or.mpr ⟨ha, hb⟩)
      _ = timesZn (logOf a + logOf b) 1 := by rw [gexp_eq_timesZn (Nat.mod_lt _ (by decide)).le, timesZn_mod]
      _ = timesZn (logOf a) b := by rw [timesZn_add, timesZn_logOf hb]

/-- One summand of the polynomial product: bit `k` of `b` adds `z^k` times `a` (R102). -/
def addMultiple (a b acc : Byte) (k : Nat) : Byte := if b.getLsbD k then acc ^^^ timesZn k a else acc

theorem fieldProduct_eq_foldl (a b : Byte) : fieldProduct a b = (List.range 8).foldl (addMultiple a b) 0 := rfl

theorem addMultiple_zero (b acc : Byte) (k : Nat) : addMultiple 0 b acc k = acc := by
  simp [addMultiple]

theorem addMultiple_timesZ (a b acc : Byte) (k : Nat) :
    addMultiple (timesZ a) b (timesZ acc) k = timesZ (addMultiple a b acc k) := by
  have hk : timesZn k (timesZ a) = timesZ (timesZn k a) := timesZn_succ k a
  simp only [addMultiple, hk, ← timesZ_xor, apply_ite timesZ]

theorem fieldProduct_zero (b : Byte) : fieldProduct 0 b = 0 :=
  List.foldlRecOn (motive := (· = 0)) (List.range 8) (addMultiple 0 b) rfl
    fun acc hacc k _ => (addMultiple_zero b acc k).trans hacc

/-- The polynomial product with 1 adds up the bits of the other operand. -/
theorem fieldProduct_one (b : Byte) : fieldProduct 1 b = b := by
  have h : ∀ n < 256, fieldProduct 1 (BitVec.ofNat 8 n) = BitVec.ofNat 8 n := by decide +kernel
  simpa using h b.toNat b.isLt

/-- Multiplying the left operand by `z` multiplies every summand of the polynomial product, and so the product. -/
theorem fieldProduct_timesZ (a b : Byte) : fieldProduct (timesZ a) b = timesZ (fieldProduct a b) := by
  rw [fieldProduct_eq_foldl, fieldProduct_eq_foldl,
    ← List.foldl_hom timesZ (g₂ := addMultiple (timesZ a) b) fun acc k => addMultiple_timesZ a b acc k]
  rfl

theorem fieldProduct_timesZn (n : Nat) (b : Byte) : fieldProduct (timesZn n 1) b = timesZn n b := by
  induction n with
  | zero => exact fieldProduct_one b
  | succ n ih => rw [timesZn_succ, fieldProduct_timesZ, ih, timesZn_succ]

/-- The product by the tables is the product of polynomials (R102). -/
theorem gmul_eq_fieldProduct (a b : Byte) : gmul a b = fieldProduct a b := by
  by_cases ha : a = 0
  · rw [gmul, if_pos (.inl ha), ha, fieldProduct_zero]
  · calc gmul a b = timesZn (logOf a) b := gmul_eq_timesZn ha b
      _ = fieldProduct (timesZn (logOf a) 1) b := (fieldProduct_timesZn _ b).symm
      _ = fieldProduct a b := by rw [timesZn_logOf ha]

/-! ### The laws of the field -/

theorem gmul_comm (a b : Byte) : gmul a b = gmul b a := by
  simp only [gmul, or_comm, Nat.add_comm]

@[simp] theorem zero_gmul (a : Byte) : gmul 0#8 a = 0#8 := if_pos (.inl rfl)

@[simp] theorem gmul_zero (a : Byte) : gmul a 0#8 = 0#8 := if_pos (.inr rfl)

@[simp] theorem one_gmul (a : Byte) : gmul 1#8 a = a := (gmul_eq_fieldProduct 1 a).trans (fieldProduct_one a)

@[simp] theorem gmul_one (a : Byte) : gmul a 1#8 = a := (gmul_comm a 1).trans (one_gmul a)

@[simp] theorem zero_gadd (a : Byte) : gadd 0#8 a = a := BitVec.zero_xor

@[simp] theorem gadd_zero (a : Byte) : gadd a 0#8 = a := BitVec.xor_zero

theorem gadd_gadd_gadd_comm (a b c d : Byte) : gadd (gadd a b) (gadd c d) = gadd (gadd a c) (gadd b d) := by
  unfold gadd
  ac_rfl

theorem gmul_gadd (a b c : Byte) : gmul a (gadd b c) = gadd (gmul a b) (gmul a c) := by
  by_cases ha : a = 0
  · simp [ha]
  · simp only [gmul_eq_timesZn ha, gadd, timesZn_xor]

theorem gadd_gmul (a b c : Byte) : gmul (gadd a b) c = gadd (gmul a c) (gmul b c) := by
  simp only [gmul_comm _ c, gmul_gadd]

theorem gmul_timesZn (n : Nat) (a b : Byte) : gmul (timesZn n a) b = timesZn n (gmul a b) := by
  induction n with
  | zero => rfl
  | succ n ih =>
    rw [timesZn_succ, gmul_eq_fieldProduct, fieldProduct_timesZ, ← gmul_eq_fieldProduct, ih, timesZn_succ]

theorem gmul_assoc (a b c : Byte) : gmul (gmul a b) c = gmul a (gmul b c) := by
  by_cases ha : a = 0
  · simp [ha]
  · simp only [gmul_eq_timesZn ha, gmul_timesZn]

theorem gmul_right_comm (a b c : Byte) : gmul (gmul a b) c = gmul (gmul a c) b := by
  rw [gmul_assoc, gmul_comm b, ← gmul_assoc]

/-- The inverse by the tables (R101) is an inverse for the product. -/
theorem gmul_gexp_inverse {a : Byte} (ha : a ≠ 0) : gmul a (gexp (255 - logOf a)) = 1 := by
  obtain ⟨hlt, -⟩ := logOf_spec ha
  calc gmul a (gexp (255 - logOf a)) = timesZn (logOf a) (timesZn (255 - logOf a) 1) := by
        rw [gmul_eq_timesZn ha, gexp_eq_timesZn (Nat.sub_le _ _)]
    _ = 1 := by rw [← timesZn_add, Nat.add_sub_cancel' hlt.le, timesZn_order]

end Sys2Proof.Machine
end

section
/-! PROOFS, family 41_gf, evaluation (O28). The three ways of `peval` are one (R104), Horner's rule over all
coefficients: `peval_eq_foldl`. Its one law is `peval_append`, and the value of each operation of R104 follows from it
along the recursion of that operation. -/

namespace Sys2Proof.Machine

/-! ### Horner's rule -/

/-- One step of Horner's rule. -/
def hornerStep (x r c : Byte) : Byte := gadd (gmul x r) c

theorem foldl_hornerStep_zero (p : Poly) (r : Byte) : p.foldl (hornerStep 0) r = p.getLastD r := by
  induction p generalizing r with
  | nil => rfl
  | cons c p ih =>
    have hstep : hornerStep 0 r c = c := by simp [hornerStep]
    rw [List.foldl_cons, hstep, ih, List.getLastD_cons]

/-- Evaluation is Horner's rule at every point, 0 and 1 included (R104). -/
theorem peval_eq_foldl (p : Poly) (x : Byte) : peval p x = p.foldl (hornerStep x) 0 := by
  have hone : hornerStep 1 = gadd := by
    funext r c
    exact congrArg (gadd · c) (one_gmul r)
  unfold peval
  split
  case isTrue hx =>
    rw [hx, foldl_hornerStep_zero]
    simp [pCoef, List.getLastD_eq_getLast?, List.getLast?_eq_getElem?]
  split
  case isTrue hx => rw [hx, hone]
  case isFalse =>
    cases p with
    | nil => rfl
    | cons c p =>
      have hfirst : hornerStep x 0 c = c := by simp [hornerStep]
      rw [List.foldl_cons, hfirst]
      rfl

@[simp] theorem peval_nil (x : Byte) : peval [] x = 0#8 := peval_eq_foldl [] x

theorem peval_concat (p : Poly) (c x : Byte) : peval (p ++ [c]) x = gadd (gmul x (peval p x)) c := by
  simp only [peval_eq_foldl, List.foldl_append, List.foldl_cons, List.foldl_nil, hornerStep]

@[simp] theorem peval_singleton (c x : Byte) : peval [c] x = c := by
  simpa using peval_concat [] c x

/-- The high coefficients count times a power of the point. -/
theorem peval_append (p q : Poly) (x : Byte) :
    peval (p ++ q) x = gadd (gmul (peval p x) (fieldPower x q.length)) (peval q x) := by
  induction q using List.reverseRecOn with
  | nil => simp [fieldPower]
  | append_singleton q c ih =>
    rw [← List.append_assoc, peval_concat, peval_concat, ih, gmul_gadd, List.length_append, List.length_singleton,
      fieldPower, gmul_comm x, gmul_assoc]
    simp only [gadd, BitVec.xor_assoc]

theorem peval_cons (c : Byte) (p : Poly) (x : Byte) :
    peval (c :: p) x = gadd (gmul c (fieldPower x p.length)) (peval p x) := by
  simpa using peval_append [c] p x

@[simp] theorem peval_zero_cons (p : Poly) (x : Byte) : peval (0#8 :: p) x = peval p x := by
  simp [peval_cons]

@[simp] theorem peval_replicate_zero (n : Nat) (x : Byte) : peval (List.replicate n 0#8) x = 0#8 := by
  induction n with
  | zero => simp
  | succ n ih => rw [List.replicate_succ, peval_zero_cons, ih]

@[simp] theorem peval_trim (p : Poly) (x : Byte) : peval (trim p) x = peval p x := by
  induction p using trim.induct with
  | case1 => simp [trim]
  | case2 c => rfl
  | case3 c cs ih => rw [trim, if_pos rfl, ih]; exact (peval_zero_cons (c :: cs) x).symm
  | case4 c d cs hc => rw [trim, if_neg hc]

theorem peval_map_gmul (p : Poly) (c x : Byte) : peval (p.map fun a => gmul a c) x = gmul (peval p x) c := by
  induction p using List.reverseRecOn with
  | nil => simp
  | append_singleton p a ih =>
    rw [List.map_append, List.map_singleton, peval_concat, peval_concat, ih, gadd_gmul, gmul_assoc]

theorem peval_zipWith_gadd (p q : Poly) (x : Byte) (h : p.length = q.length) :
    peval (List.zipWith gadd p q) x = gadd (peval p x) (peval q x) := by
  induction p generalizing q with
  | nil => cases List.length_eq_zero_iff.mp h.symm; simp
  | cons a p ih =>
    obtain ⟨b, q, rfl⟩ := List.exists_cons_of_length_eq_add_one h.symm
    have hlen : p.length = q.length := by simpa using h
    rw [List.zipWith_cons_cons, peval_cons, peval_cons, peval_cons, ih q hlen, List.length_zipWith, hlen, min_self,
      gadd_gmul, gadd_gadd_gadd_comm]

/-! ### The operations of R104 -/

/-- The canonical polynomial whose first coefficient is 0 is the zero polynomial (R103). -/
theorem eq_zero_of_pIsZero {p : Poly} (hp : canonical p) (h : pIsZero p = true) : p = [0] := by
  unfold canonical at hp
  match p with
  | [] => exact hp.symm
  | [c] => simpa [pIsZero] using h
  | c :: d :: cs =>
    have hc : c = 0 := by simpa [pIsZero] using h
    rw [trim, if_pos hc] at hp
    have hlen := length_trim_le (d :: cs) (List.cons_ne_nil d cs)
    rw [hp, List.length_cons] at hlen
    omega

theorem peval_addAligned (l s : Poly) (x : Byte) (h : s.length ≤ l.length) :
    peval (addAligned l s) x = gadd (peval l x) (peval s x) := by
  have hlow : (l.drop (l.length - s.length)).length = s.length := by
    rw [List.length_drop]
    omega
  have hl := peval_append (l.take (l.length - s.length)) (l.drop (l.length - s.length)) x
  rw [List.take_append_drop, hlow] at hl
  rw [addAligned, peval_append, List.length_zipWith, hlow, min_self, peval_zipWith_gadd _ _ _ hlow, hl]
  simp only [gadd, BitVec.xor_assoc]

theorem peval_padd {a b : Poly} (x : Byte) (ha : canonical a) (hb : canonical b) :
    peval (padd a b) x = gadd (peval a x) (peval b x) := by
  unfold padd
  split
  case isTrue hz => simp [eq_zero_of_pIsZero ha hz]
  split
  case isTrue hz => simp [eq_zero_of_pIsZero hb hz]
  split
  case isTrue hlt => rw [peval_trim, peval_addAligned b a x hlt.le, gadd, gadd, BitVec.xor_comm]
  case isFalse hge => rw [peval_trim, peval_addAligned a b x (not_lt.mp hge)]

theorem length_convolve (x : Byte) (as b : Poly) : (convolve (x :: as) b).length = as.length + b.length := by
  induction as generalizing x with
  | nil => simp [convolve]
  | cons y as ih =>
    simp only [convolve, List.length_zipWith, List.length_append, List.length_map, List.length_replicate,
      List.length_cons, ih]
    omega

theorem peval_convolve (a b : Poly) (x : Byte) : peval (convolve a b) x = gmul (peval a x) (peval b x) := by
  have hrow : ∀ c, peval (b.map (gmul c)) x = gmul c (peval b x) := fun c => by
    simpa only [gmul_comm _ c] using peval_map_gmul b c x
  induction a with
  | nil => simp [convolve]
  | cons c as ih =>
    cases as with
    | nil => rw [convolve, hrow, peval_singleton]
    | cons d as =>
      have hlen : (b.map (gmul c) ++ List.replicate (as.length + 1) 0).length =
          (0 :: convolve (d :: as) b).length := by
        simp only [List.length_append, List.length_map, List.length_replicate, List.length_cons, length_convolve]
        omega
      calc peval (convolve (c :: d :: as) b) x
          = gadd (gmul (gmul c (peval b x)) (fieldPower x (as.length + 1))) (peval (convolve (d :: as) b) x) := by
            rw [convolve, peval_zipWith_gadd _ _ x hlen]
            simp [peval_append, hrow]
        _ = gadd (gmul (gmul c (fieldPower x (as.length + 1))) (peval b x)) (gmul (peval (d :: as) x) (peval b x)) := by
            rw [ih, gmul_right_comm]
        _ = gmul (peval (c :: d :: as) x) (peval b x) := by
            rw [← gadd_gmul, peval_cons c (d :: as), List.length_cons]

theorem peval_pmul {a b : Poly} (x : Byte) (ha : canonical a) (hb : canonical b) :
    peval (pmul a b) x = gmul (peval a x) (peval b x) := by
  unfold pmul
  split
  case isTrue hz =>
    rcases (Bool.or_eq_true _ _).mp hz with h | h
    · simp [eq_zero_of_pIsZero ha h]
    · simp [eq_zero_of_pIsZero hb h]
  case isFalse => rw [peval_trim, peval_convolve]

theorem peval_pscale (a : Poly) (c x : Byte) : peval (pscale a c) x = gmul (peval a x) c := by
  unfold pscale
  split
  case isTrue hc => simp [hc]
  split
  case isTrue hc => simp [hc]
  case isFalse => exact peval_map_gmul a c x

theorem peval_pmulmono (a : Poly) (d : Nat) (c x : Byte) :
    peval (pmulmono a d c) x = gmul (gmul (peval a x) c) (fieldPower x d) := by
  unfold pmulmono
  split
  case isTrue hc => simp [hc]
  case isFalse => simp [peval_append, peval_map_gmul]

/-- Settles O28: one evaluation lemma for each operation. -/
theorem polynomialsEvaluateAsFieldElements : Obligations.PolynomialsEvaluateAsFieldElements := fun a _ x c d ha hb =>
  ⟨peval_padd x ha hb, peval_pmul x ha hb, peval_pscale a c x, peval_pmulmono a d c x⟩

end Sys2Proof.Machine
end

section
/-! PROOFS, family 41_gf, the commands (O25, O26, O27, O29, O30, O31). A GF or polynomial command is one rule, so its
next state is what the rule answers (`exec_of_ok`, `exec_of_error`); each rule is a chain of checks, then the reads of
its source registers, then one write. -/

namespace Sys2Proof.Machine

/-! ### Commands that are one rule -/

section Rule

variable {i : Instr} {s : State} {v : Except Raise State}

theorem exec_of_ok {t : State} (hrule : ruleOf s i = single s v) (h : v = .ok t) : exec i s = .next t.finished := by
  rw [exec_eq_endCommand, hrule, h, single_ok, endCommand_none]

theorem exec_of_error (e : Raise) (hrule : ruleOf s i = single s v) (h : v = .error e) :
    exec i s = .next (s.failed e.code.toNat e.detail.toNat) := by
  rw [exec_eq_endCommand, hrule, h, single_error, endCommand_some]

end Rule

/-! ### Operands that are field elements (R78) -/

theorem argNat_eq_toNat (s : State) {k : Nat} (hk : k < 4) : s.argNat k = s.arg[k].toNat := by
  simp [State.argNat, List.getD, hk]

theorem argByte_eq_setWidth (s : State) {k : Nat} (hk : k < 4) : s.argByte k = s.arg[k].setWidth 8 := by
  rw [State.argByte, argNat_eq_toNat s hk, BitVec.ofNat_toNat]

/-- An operand up to 255 is its low byte. -/
theorem setWidth_argByte (s : State) {k : Nat} (hk : k < 4) (h : s.argNat k ≤ 255) :
    (s.argByte k).setWidth 32 = s.arg[k] := by
  apply BitVec.eq_of_toNat_eq
  rw [argNat_eq_toNat s hk] at h
  rw [argByte_eq_setWidth s hk, BitVec.toNat_setWidth, BitVec.toNat_setWidth]
  omega

theorem argByte_eq_zero_iff {s : State} {k : Nat} (h : s.argNat k ≤ 255) : s.argByte k = 0 ↔ s.argNat k = 0 := by
  rw [State.argByte, ← BitVec.toNat_inj, BitVec.toNat_ofNat, Nat.mod_eq_of_lt (Nat.lt_succ_of_le h)]
  rfl

/-- A field element in `RES0` (R110 to R113). -/
theorem setRes0_toNat (s : State) (r : Byte) : s.setRes0 r.toNat = { s with res0 := r.setWidth 32 } := by
  rw [State.setRes0, Word.ofNat, BitVec.ofNat_toNat]

/-! ### The GF(256) commands -/

section Gf

variable {s : State}

theorem gfAdd_ok (h0 : s.argNat 0 ≤ 255) (h1 : s.argNat 1 ≤ 255) :
    gfAdd s = .ok { s with res0 := (gadd (s.argByte 0) (s.argByte 1)).setWidth 32 } := by
  rw [← setRes0_toNat]
  exact if_neg (by omega)

theorem gfMul_ok (h0 : s.argNat 0 ≤ 255) (h1 : s.argNat 1 ≤ 255) :
    gfMul s = .ok { s with res0 := (gmul (s.argByte 0) (s.argByte 1)).setWidth 32 } := by
  rw [← setRes0_toNat]
  exact if_neg (by omega)

theorem gfExp_ok (h : s.argNat 0 ≤ 255) : gfExp s = .ok { s with res0 := (gexp (s.argNat 0)).setWidth 32 } := by
  rw [← setRes0_toNat]
  exact if_neg h.not_gt

/-- `GF_INV` reports the answer of `ginv` (R112). -/
theorem gfInv_eq (h : s.argNat 0 ≤ 255) :
    gfInv s = (liftRs (ginv (s.argByte 0))).map fun r => { s with res0 := r.setWidth 32 } := by
  simp only [gfInv, if_neg h.not_gt, setRes0_toNat]
  cases ginv (s.argByte 0) <;> rfl

/-- `GF_LOG` reports the answer of `glog` (R114). -/
theorem gfLog_eq (h : s.argNat 0 ≤ 255) :
    gfLog s = (liftRs (glog (s.argByte 0))).map fun e => { s with res0 := BitVec.ofNat 32 e } := by
  simp only [gfLog, if_neg h.not_gt]
  cases glog (s.argByte 0) <;> rfl

end Gf

theorem ginv_zero : ginv 0 = .error .invZero := if_pos rfl

theorem glog_zero : glog 0 = .error .logZero := if_pos rfl

theorem glog_ne_zero {a : Byte} (ha : a ≠ 0) : glog a = .ok (logOf a) := if_neg ha

/-- Settles O25: the rules by `gfAdd_ok` and `gfMul_ok`, and the product of the tables by `gmul_eq_fieldProduct`. -/
theorem gfSumAndProduct : Obligations.GfSumAndProduct := by
  refine ⟨rfl, rfl, fun s => ⟨fun h => ⟨?_, ?_⟩, fun h0 h1 => ⟨?_, ?_⟩⟩⟩
  · exact exec_of_error (.argRange .arg) rfl (if_pos h)
  · exact exec_of_error (.argRange .arg) rfl (if_pos h)
  · rw [exec_of_ok rfl (gfAdd_ok h0 h1), gadd, BitVec.setWidth_xor, setWidth_argByte s (by decide) h0,
      setWidth_argByte s (by decide) h1]
  · rw [exec_of_ok rfl (gfMul_ok h0 h1), gmul_eq_fieldProduct, argByte_eq_setWidth s (by decide),
      argByte_eq_setWidth s (by decide)]

/-- Settles O26: the inverse of the tables multiplies to 1 (`gmul_gexp_inverse`), and their exponents are those of the
loop of R100 (`gexp_eq_timesZn`, `timesZn_logOf`). -/
theorem gfInverseExponentLogarithm : Obligations.GfInverseExponentLogarithm := by
  refine ⟨rfl, rfl, rfl, fun s => ⟨fun h => ?range, fun h0 => ?zero, fun hle => ?exp, fun hpos hle => ?nonzero⟩⟩
  case range =>
    exact ⟨exec_of_error (.argRange .arg) rfl (if_pos h), exec_of_error (.argRange .arg) rfl (if_pos h),
      exec_of_error (.argRange .arg) rfl (if_pos h)⟩
  case zero =>
    have hle : s.argNat 0 ≤ 255 := by omega
    have hb := (argByte_eq_zero_iff hle).mpr h0
    exact ⟨exec_of_error (.rsInternal .invZero) rfl (by rw [gfInv_eq hle, hb, ginv_zero]; rfl),
      exec_of_error (.rsInternal .logZero) rfl (by rw [gfLog_eq hle, hb, glog_zero]; rfl)⟩
  case exp => rw [exec_of_ok rfl (gfExp_ok hle), gexp_eq_timesZn hle]
  case nonzero =>
    have hb : s.argByte 0 ≠ 0 := fun h => by
      rw [argByte_eq_zero_iff hle] at h
      omega
    rw [← argByte_eq_setWidth s (by decide)]
    refine ⟨⟨gexp (255 - logOf (s.argByte 0)), exec_of_ok rfl ?_, ?_⟩,
      ⟨logOf (s.argByte 0), (logOf_spec hb).1, exec_of_ok rfl ?_, timesZn_logOf hb⟩⟩
    · rw [gfInv_eq hle, ginv_ne_zero _ hb]
      rfl
    · rw [← gmul_eq_fieldProduct, gmul_gexp_inverse hb]
    · rw [gfLog_eq hle, glog_ne_zero hb]
      rfl

/-! ### Polynomial registers (R103) -/

theorem plenOf_putPoly (s : State) {k : Nat} (j : Nat) {p : Poly} (hk : k ≤ 7) (hp : p.length ≤ 512) :
    (s.putPoly k p).plenOf j = if j = k then p.length else s.plenOf j := by
  have hlen : p.length % 4294967296 = p.length := Nat.mod_eq_of_lt (by omega)
  by_cases hj : j = k
  · subst hj
    simp [State.plenOf, List.getD, Nat.lt_succ_of_le hk, hlen]
  · simp [State.plenOf, List.getD, hj, Ne.symm hj]

theorem poly_putPoly_same (s : State) {k : Nat} {p : Poly} (hk : k ≤ 7) (hcan : canonical p) (hp : p.length ≤ 512) :
    (s.putPoly k p).poly k = .ok p := by
  have hpos : 1 ≤ p.length := List.length_pos_iff.mpr (hcan ▸ trim_ne_nil p)
  have hread : (s.putPoly k p).bytes (polyBase k) p.length = p := bytes_putBytes s (polyBase k) p
  rw [State.poly, plenOf_putPoly s k hk hp, if_pos rfl, if_neg (by simp only [polyMaxLen]; omega), hread, hcan]

/-- The registers' stretches of memory are disjoint (R47). -/
theorem poly_putPoly_other (s : State) {j k : Nat} {p : Poly} (hjk : j ≠ k) (hk : k ≤ 7) (hp : p.length ≤ 512) :
    (s.putPoly k p).poly j = s.poly j := by
  unfold State.poly
  rw [plenOf_putPoly s j hk hp, if_neg hjk]
  split
  case isTrue => rfl
  case isFalse hlen =>
    have hread : (s.putPoly k p).bytes (polyBase j) (s.plenOf j) = s.bytes (polyBase j) (s.plenOf j) :=
      bytes_putBytes_outside s (polyBase k) p _ _ (by simp only [polyBase, polyMaxLen] at *; omega)
    rw [hread]

/-- Settles O27: the length register and the bytes of `Pk` are what was written, and a write leaves the other bytes. -/
theorem setPolyReadsBack : Obligations.SetPolyReadsBack := fun s k p hk hcan hp =>
  ⟨poly_putPoly_same s hk hcan hp, (plenOf_putPoly s k hk hp).trans (if_pos rfl),
    fun _ _ hjk => poly_putPoly_other s hjk hk hp, fun a ha => byte_putBytes_outside s (polyBase k) p a ha⟩

theorem poly_of_badLength {s : State} {k : Nat} (h : s.plenOf k < 1 ∨ 512 < s.plenOf k) :
    s.poly k = .error (.argRange .polyLen) := if_pos h

theorem setPoly_of_fits (s : State) (k : Nat) {p : Poly} (h : p.length ≤ 512) : s.setPoly k p = .ok (s.putPoly k p) :=
  if_neg h.not_gt

theorem setPoly_of_overflows (s : State) (k : Nat) {p : Poly} (h : 512 < p.length) :
    s.setPoly k p = .error (.capacity .polyLen) := if_pos h

/-! ### Lengths -/

theorem length_trim_le_of_le {p : Poly} {n : Nat} (hn : 1 ≤ n) (h : p.length ≤ n) : (trim p).length ≤ n := by
  by_cases hp : p = []
  · simpa [hp, trim] using hn
  · exact (length_trim_le p hp).trans h

/-- A polynomial register holds at most 512 coefficients (R103). -/
theorem length_poly_le {s : State} {k : Nat} {p : Poly} (h : s.poly k = .ok p) : p.length ≤ 512 := by
  rcases poly_cases s k with ⟨-, e⟩ | ⟨-, hle, e⟩
  · rw [e] at h
    cases h
  · rw [e] at h
    cases h
    exact length_trim_le_of_le (by decide) (by rwa [length_bytes])

theorem length_addAligned_le (l s : Poly) : (addAligned l s).length ≤ l.length := by
  simp only [addAligned, List.length_append, List.length_take, List.length_zipWith, List.length_drop]
  omega

/-- A sum is no longer than the longer of its operands. -/
theorem length_padd_le {a b : Poly} {n : Nat} (hn : 1 ≤ n) (ha : a.length ≤ n) (hb : b.length ≤ n) :
    (padd a b).length ≤ n := by
  unfold padd
  split
  · exact hb
  split
  · exact ha
  split
  · exact length_trim_le_of_le hn ((length_addAligned_le b a).trans hb)
  · exact length_trim_le_of_le hn ((length_addAligned_le a b).trans ha)

theorem length_pscale_le {a : Poly} {n : Nat} (c : Byte) (hn : 1 ≤ n) (ha : a.length ≤ n) :
    (pscale a c).length ≤ n := by
  unfold pscale
  split
  · exact hn
  split
  · exact ha
  · rwa [List.length_map]

theorem length_pmono_le (d : Nat) (c : Byte) : (pmono d c).length ≤ d + 1 := by
  unfold pmono
  split <;> simp

/-! ### The rules of the polynomial commands, past their checks -/

section Poly

variable {s : State} {d : Nat}

/-- A rule that reads a register of a bad length raises `ARG_RANGE(POLY_LEN)` (R103). -/
theorem poly_bind_of_badLength {k : Nat} (f : Poly → Except Raise State) (h : s.plenOf k < 1 ∨ 512 < s.plenOf k) :
    s.poly k >>= f = .error (.argRange .polyLen) := by
  rw [poly_of_badLength h]
  rfl

theorem poly_bind_of_ok {k : Nat} {p : Poly} (f : Poly → Except Raise State) (h : s.poly k = .ok p) :
    s.poly k >>= f = f p := by
  rw [h]
  rfl

theorem polyBinary_eq (op : Poly → Poly → Poly) (hd : d ≤ 7) (h0 : s.argNat 0 ≤ 7) (h1 : s.argNat 1 ≤ 7) :
    polyBinary op d s = s.poly (s.argNat 0) >>= fun pa => s.poly (s.argNat 1) >>= fun pb => s.setPoly d (op pa pb) :=
  (if_neg hd.not_gt).trans (if_neg (by omega))

theorem polyScale_eq (hd : d ≤ 7) (h0 : s.argNat 0 ≤ 7) (h1 : s.argNat 1 ≤ 255) :
    polyScale d s = s.poly (s.argNat 0) >>= fun pa => s.setPoly d (pscale pa (s.argByte 1)) :=
  (if_neg hd.not_gt).trans (if_neg (by omega))

theorem polyMulMono_eq (hd : d ≤ 7) (h0 : s.argNat 0 ≤ 7) (h1 : s.argNat 1 ≤ 511) (h2 : s.argNat 2 ≤ 255) :
    polyMulMono d s = s.poly (s.argNat 0) >>= fun pa => s.setPoly d (pmulmono pa (s.argNat 1) (s.argByte 2)) :=
  (if_neg hd.not_gt).trans (if_neg (by omega))

theorem polyMono_eq (hd : d ≤ 7) (h0 : s.argNat 0 ≤ 511) (h1 : s.argNat 1 ≤ 255) :
    polyMono d s = s.setPoly d (pmono (s.argNat 0) (s.argByte 1)) :=
  (if_neg hd.not_gt).trans (if_neg (by omega))

theorem polyEval_eq (hd : d ≤ 7) (h0 : s.argNat 0 ≤ 255) :
    polyEval d s = s.poly d >>= fun p => .ok (s.setRes0 (peval p (s.argByte 0)).toNat) :=
  (if_neg hd.not_gt).trans (if_neg h0.not_gt)

/-- The sources are checked in order, so a bad length of either is the same error (R120, R121). -/
theorem polyBinary_of_badLength (op : Poly → Poly → Poly) (hd : d ≤ 7) (h0 : s.argNat 0 ≤ 7) (h1 : s.argNat 1 ≤ 7)
    (hlen : s.plenOf (s.argNat 0) < 1 ∨ 512 < s.plenOf (s.argNat 0) ∨
      s.plenOf (s.argNat 1) < 1 ∨ 512 < s.plenOf (s.argNat 1)) :
    polyBinary op d s = .error (.argRange .polyLen) := by
  rw [polyBinary_eq op hd h0 h1]
  rcases poly_cases s (s.argNat 0) with ⟨hbad, -⟩ | ⟨hlo, hhi, hok⟩
  · exact poly_bind_of_badLength _ hbad
  · exact (poly_bind_of_ok _ hok).trans (poly_bind_of_badLength _ (by omega))

theorem polyBinary_of_ok (op : Poly → Poly → Poly) {pa pb : Poly} (hd : d ≤ 7) (h0 : s.argNat 0 ≤ 7)
    (h1 : s.argNat 1 ≤ 7) (ha : s.poly (s.argNat 0) = .ok pa) (hb : s.poly (s.argNat 1) = .ok pb) :
    polyBinary op d s = s.setPoly d (op pa pb) :=
  (polyBinary_eq op hd h0 h1).trans ((poly_bind_of_ok _ ha).trans (poly_bind_of_ok _ hb))

end Poly

/-! ### The polynomial commands -/

/-- Settles O29: the checks in order, then the write, which a sum always fits. -/
theorem polynomialSumAndProduct : Obligations.PolynomialSumAndProduct := by
  refine fun s d => ⟨fun hd => ?sel, fun hd harg => ?arg, fun hd h0 h1 hlen => ?length,
    fun pa pb hd h0 h1 ha hb => ?write⟩
  case sel =>
    exact ⟨exec_of_error (.argRange .sel) rfl (if_pos hd),
      exec_of_error (.argRange .sel) rfl (if_pos hd)⟩
  case arg =>
    have hrule (op : Poly → Poly → Poly) : polyBinary op d s = .error (.argRange .arg) :=
      (if_neg hd.not_gt).trans (if_pos harg)
    exact ⟨exec_of_error (.argRange .arg) rfl (hrule padd), exec_of_error (.argRange .arg) rfl (hrule pmul)⟩
  case length =>
    exact ⟨exec_of_error (.argRange .polyLen) rfl (polyBinary_of_badLength padd hd h0 h1 hlen),
      exec_of_error (.argRange .polyLen) rfl (polyBinary_of_badLength pmul hd h0 h1 hlen)⟩
  case write =>
    have hrule (op : Poly → Poly → Poly) : polyBinary op d s = s.setPoly d (op pa pb) :=
      polyBinary_of_ok op hd h0 h1 ha hb
    have hsum := length_padd_le (by decide) (length_poly_le ha) (length_poly_le hb)
    exact ⟨exec_of_ok rfl ((hrule padd).trans (setPoly_of_fits s d hsum)),
      fun hfits => exec_of_ok rfl ((hrule pmul).trans (setPoly_of_fits s d hfits)),
      fun hover => exec_of_error (.capacity .polyLen) rfl ((hrule pmul).trans (setPoly_of_overflows s d hover))⟩

/-- Settles O30: the checks in order, then the write, which a scaled polynomial and a monomial always fit. -/
theorem polynomialScalings : Obligations.PolynomialScalings := by
  refine fun s d => ⟨fun hd => ?sel, fun hd harg => ?scaleArg, fun hd harg => ?mulmonoArg, fun hd harg => ?monoArg,
    fun hd h0 hlen => ⟨fun h1 => ?scaleLength, fun h1 h2 => ?mulmonoLength⟩, fun pa hd h0 h1 ha => ?scale,
    fun pa hd h0 h1 h2 ha => ?mulmono, fun hd h0 h1 => ?mono⟩
  case sel =>
    exact ⟨exec_of_error (.argRange .sel) rfl (if_pos hd), exec_of_error (.argRange .sel) rfl (if_pos hd),
      exec_of_error (.argRange .sel) rfl (if_pos hd)⟩
  case scaleArg => exact exec_of_error (.argRange .arg) rfl ((if_neg hd.not_gt).trans (if_pos harg))
  case mulmonoArg => exact exec_of_error (.argRange .arg) rfl ((if_neg hd.not_gt).trans (if_pos harg))
  case monoArg => exact exec_of_error (.argRange .arg) rfl ((if_neg hd.not_gt).trans (if_pos harg))
  case scaleLength =>
    exact exec_of_error (.argRange .polyLen) rfl ((polyScale_eq hd h0 h1).trans (poly_bind_of_badLength _ hlen))
  case mulmonoLength =>
    exact exec_of_error (.argRange .polyLen) rfl ((polyMulMono_eq hd h0 h1 h2).trans (poly_bind_of_badLength _ hlen))
  case scale =>
    have hfits := length_pscale_le (s.argByte 1) (by decide) (length_poly_le ha)
    exact exec_of_ok rfl ((polyScale_eq hd h0 h1).trans ((poly_bind_of_ok _ ha).trans (setPoly_of_fits s d hfits)))
  case mulmono =>
    have hrule := (polyMulMono_eq hd h0 h1 h2).trans (poly_bind_of_ok _ ha)
    exact ⟨fun hfits => exec_of_ok rfl (hrule.trans (setPoly_of_fits s d hfits)),
      fun hover => exec_of_error (.capacity .polyLen) rfl (hrule.trans (setPoly_of_overflows s d hover))⟩
  case mono =>
    have hfits : (pmono (s.argNat 0) (s.argByte 1)).length ≤ 512 :=
      (length_pmono_le (s.argNat 0) (s.argByte 1)).trans (Nat.succ_le_succ h0)
    rw [exec_of_ok rfl ((polyMono_eq hd h0 h1).trans (setPoly_of_fits s d hfits)), pmono]
    simp only [argByte_eq_zero_iff h1]

/-- Evaluation is Horner's rule with the polynomial product of R102. -/
theorem peval_eq_horner (p : Poly) (x : Byte) : peval p x = horner p x := by
  have hstep : hornerStep x = fun r c => fieldProduct x r ^^^ c := by
    funext r c
    rw [hornerStep, gmul_eq_fieldProduct, gadd]
  rw [peval_eq_foldl, hstep, horner]

/-- Settles O31: the checks in order, then the value, by `peval_eq_horner`. -/
theorem polynomialEvaluation : Obligations.PolynomialEvaluation := by
  refine fun s k => ⟨fun hk => ?sel, fun hk harg => ?arg, fun hk h0 hlen => ?length, fun p hk h0 hp => ?value⟩
  case sel => exact exec_of_error (.argRange .sel) rfl (if_pos hk)
  case arg => exact exec_of_error (.argRange .arg) rfl ((if_neg hk.not_gt).trans (if_pos harg))
  case length =>
    exact exec_of_error (.argRange .polyLen) rfl ((polyEval_eq hk h0).trans (poly_bind_of_badLength _ hlen))
  case value => rw [exec_of_ok rfl ((polyEval_eq hk h0).trans (poly_bind_of_ok _ hp)), setRes0_toNat, peval_eq_horner]

end Sys2Proof.Machine
end

section
/-! PROOFS, family 42_rs, the single-step commands (O32, O34, O35). Each is one rule: its checks, then what the solver
answers, then its writes. The answers of the solver are those of `chien_cases`, `invAll_mem` and `forneyFrom_cases`. -/

namespace Sys2Proof.Machine

/-! ### Ends of the RS commands -/

theorem rsErr_detail (e : RsErr) : (Raise.rsInternal e).detail.toNat = e.code := by cases e <;> rfl

/-- A rule that raises an error of the solver ends the command with that error (R330, R332). -/
theorem exec_of_rsError {i : Instr} {s : State} {v : Except Raise State} (e : RsErr)
    (hrule : ruleOf s i = single s v) (h : v = .error (.rsInternal e)) : exec i s = .next (s.failed 4 e.code) := by
  rw [exec_of_error (.rsInternal e) hrule h, rsErr_detail]
  rfl

theorem rsNOk_iff (s : State) : s.rsNOk = true ↔ 1 ≤ s.rsN.toNat ∧ s.rsN.toNat ≤ 255 := by
  simp [State.rsNOk]

theorem rsTwosOk_iff (s : State) : s.rsTwosOk = true ↔ s.rsTwos.toNat ≤ 255 := by
  simp [State.rsTwosOk]

theorem rsCheck_of_bad {s : State} (h : s.rsN.toNat < 1 ∨ 255 < s.rsN.toNat ∨ 255 < s.rsTwos.toNat) :
    s.rsCheck = .error (.argRange .arg) :=
  if_neg fun hok => by
    rw [Bool.and_eq_true, rsNOk_iff, rsTwosOk_iff] at hok
    omega

theorem rsCheck_of_good {s : State} (h1 : 1 ≤ s.rsN.toNat) (h2 : s.rsN.toNat ≤ 255) (h3 : s.rsTwos.toNat ≤ 255) :
    s.rsCheck = .ok () :=
  if_pos (by rw [Bool.and_eq_true, rsNOk_iff, rsTwosOk_iff]; exact ⟨⟨h1, h2⟩, h3⟩)

/-! ### Syndromes (R141) -/

theorem length_syndromes_le {twoS : Nat} (received : List Byte) (h : twoS ≤ 255) :
    (syndromes received twoS).1.length ≤ 512 :=
  length_trim_le_of_le (by decide) <| by
    simp only [syndromeList, List.length_reverse, List.length_map, List.length_range]
    omega

/-- The syndrome step always fits `P0`. -/
theorem syndStep_eq {s : State} (h : s.rsTwos.toNat ≤ 255) :
    syndStep s = .ok (s.putPoly 0 (syndromes s.received s.rsTwos.toNat).1) :=
  setPoly_of_fits s 0 (length_syndromes_le s.received h)

theorem syndromes_eq_trim_map (received : List Byte) (twoS : Nat) :
    (syndromes received twoS).1 = trim ((List.range twoS).reverse.map fun i => peval (trim received) (gexp i)) := by
  rw [List.map_reverse]
  rfl

/-- The flag says that every syndrome is 0. -/
theorem noError_iff (s : State) :
    s.noError = true ↔ ∀ i < s.rsTwos.toNat, peval (trim s.received) (gexp i) = 0 := by
  simp [State.noError, syndromes, syndromeList]

/-- `RS_SYND` past its checks (R150). -/
theorem rsSynd_eq {s : State} (h1 : 1 ≤ s.rsN.toNat) (h2 : s.rsN.toNat ≤ 255) (h3 : s.rsTwos.toNat ≤ 255) :
    rsSynd s = .ok ((s.putPoly 0 (syndromes s.received s.rsTwos.toNat).1).setRes0 (bitNat s.noError)) := by
  rw [rsSynd, rsCheck_of_good h1 h2 h3, syndStep_eq h3]
  rfl

theorem rsSynd_of_bad {s : State} (h : s.rsN.toNat < 1 ∨ 255 < s.rsN.toNat ∨ 255 < s.rsTwos.toNat) :
    rsSynd s = .error (.argRange .arg) := by
  rw [rsSynd, rsCheck_of_bad h]
  rfl

theorem bitNat_word_cases (b : Bool) :
    (Word.ofNat (bitNat b) = 0 ∨ Word.ofNat (bitNat b) = 1) ∧ (Word.ofNat (bitNat b) = 1 ↔ b = true) := by
  cases b <;> decide

/-- Settles O32: the range checks by `rsSynd_of_bad`, the writes by `rsSynd_eq`, the flag by `noError_iff`. -/
theorem syndromesOfReceivedWord : Obligations.SyndromesOfReceivedWord := by
  refine fun s => ⟨fun h => exec_of_error (.argRange .arg) rfl (rsSynd_of_bad h), fun h1 h2 h3 => ?_⟩
  obtain ⟨hbit, hone⟩ := bitNat_word_cases s.noError
  refine ⟨_, exec_of_ok rfl (rsSynd_eq h1 h2 h3), ?_, hbit, hone.trans (noError_iff s)⟩
  rw [syndromes_eq_trim_map]
  rfl

/-! ### Locations (R144) -/

/-- Every element of a list of inverses is the inverse of an element of the list. -/
theorem invAll_mem {l r : List Byte} (h : invAll l = .ok r) : ∀ x ∈ r, ∃ a ∈ l, a ≠ 0 ∧ gmul x a = 1 := by
  induction l generalizing r with
  | nil =>
    cases h
    simp
  | cons a as ih =>
    obtain ⟨i, hi, h⟩ := bind_ok h
    obtain ⟨is, his, h⟩ := bind_ok h
    cases h
    have ha : a ≠ 0 := fun h0 => by
      rw [h0, ginv_zero] at hi
      cases hi
    rw [ginv_ne_zero a ha] at hi
    cases hi
    intro x hx
    rcases List.mem_cons.mp hx with rfl | hx
    · exact ⟨a, List.mem_cons_self, ha, (gmul_comm _ a).trans (gmul_gexp_inverse ha)⟩
    · obtain ⟨b, hb, hinv⟩ := ih his x hx
      exact ⟨b, List.mem_cons_of_mem a hb, hinv⟩

/-- `chien` lists as many locations as the degree; away from the shortcut each is the inverse of a root. -/
theorem chien_ok {sigma loc : List Byte} (h : chien sigma = .ok loc) :
    loc.length = pDeg sigma ∧ (pDeg sigma = 1 → loc = [pCoef sigma 1]) ∧
      (pDeg sigma ≠ 1 → ∀ x ∈ loc, ∃ r, r ≠ 0 ∧ peval sigma r = 0 ∧ gmul x r = 1) := by
  rcases chien_cases sigma with ⟨h1, hc⟩ | ⟨h1, r, hinv, -, ⟨hlen, hc⟩ | ⟨-, hc⟩⟩ <;> rw [hc] at h <;> cases h
  · exact ⟨h1.symm, fun _ => rfl, fun hne => absurd h1 hne⟩
  · refine ⟨hlen, fun he => absurd he h1, fun _ x hx => ?_⟩
    obtain ⟨a, ha, hne, hmul⟩ := invAll_mem hinv x hx
    have hroot := (List.mem_filter.mp (List.mem_of_mem_take ha)).2
    exact ⟨a, hne, by simpa using hroot, hmul⟩

/-- Too few roots is the only error of `chien`. -/
theorem chien_error {sigma : Poly} {e : RsErr} (h : chien sigma = .error e) : e = .rootCount := by
  rcases chien_cases sigma with ⟨-, hc⟩ | ⟨-, r, -, -, ⟨-, hc⟩ | ⟨-, hc⟩⟩ <;> rw [hc] at h <;> cases h
  rfl

/-- Settles O34: the answers of `chien` by `chien_ok` and `chien_error`; degree 1 is length 2. -/
theorem chienFindsInverseRoots : Obligations.ChienFindsInverseRoots := by
  refine fun s => ⟨fun h => exec_of_error (.argRange .polyLen) rfl (poly_bind_of_badLength _ h),
    fun sigma hp => ⟨fun e he => ?error, fun loc hloc => ?ok⟩⟩
  case error =>
    cases chien_error he
    exact ⟨rfl, exec_of_rsError .rootCount rfl ((poly_bind_of_ok _ hp).trans (by rw [he]; rfl))⟩
  case ok =>
    obtain ⟨hlen, hshort, hroots⟩ := chien_ok hloc
    refine ⟨exec_of_ok rfl ((poly_bind_of_ok _ hp).trans (by rw [hloc]; rfl)), hlen, fun h2 => ?_,
      fun hne => hroots fun h1 => hne (by unfold pDeg at h1; omega)⟩
    obtain ⟨c, d, rfl⟩ := List.length_eq_two.mp h2
    exact hshort rfl

/-! ### Magnitudes and corrections (R145, R146) -/

theorem forney_ok {omega loc mag : List Byte} (h : forney omega loc = .ok mag) : mag.length = loc.length := by
  rcases forneyFrom_cases omega loc 0 loc with ⟨m, hm, hlen⟩ | hm
  · cases hm.symm.trans h
    exact hlen
  · cases hm.symm.trans h

/-- The inverse of 0 is the only error of `forney`. -/
theorem forney_error {omega loc : List Byte} {e : RsErr} (h : forney omega loc = .error e) : e = .invZero := by
  rcases forneyFrom_cases omega loc 0 loc with ⟨m, hm, -⟩ | hm <;> cases hm.symm.trans h
  rfl

theorem rsForney_ok {s : State} {omega mag : Poly} (hp : s.poly 2 = .ok omega) (h : forney omega s.locs = .ok mag) :
    exec .rsForney s = .next (s.putBytes 0x1200 mag).finished :=
  exec_of_ok rfl ((poly_bind_of_ok _ hp).trans (by rw [h]; rfl))

theorem rsForney_error {s : State} {omega : Poly} {e : RsErr} (hp : s.poly 2 = .ok omega)
    (h : forney omega s.locs = .error e) : exec .rsForney s = .next (s.failed 4 e.code) :=
  exec_of_rsError e rfl ((poly_bind_of_ok _ hp).trans (by rw [h]; rfl))

/-- Corrections inside the word change no byte outside it. -/
theorem correctRsbuf_sameBytes (s : State) {n : Nat} {cs : List (Nat × Byte)} (h : ∀ c ∈ cs, c.1 < n) :
    sameBytesOutside s (s.correctRsbuf cs) 0x1000 n := fun a ha => by
  obtain ⟨m, e, hm⟩ := correctRsbuf_cases s n cs h
  rw [e, State.byte, hm.same a ha, State.byte]

/-- `RS_CORRECT` past its check (R154). -/
theorem rsCorrect_of_good {s : State} (h1 : 1 ≤ s.rsN.toNat) (h2 : s.rsN.toNat ≤ 255) : rsCorrect s = correctStep s :=
  if_neg (by simp [(rsNOk_iff s).mpr ⟨h1, h2⟩])

theorem rsCorrect_of_bad {s : State} (h : s.rsN.toNat < 1 ∨ 255 < s.rsN.toNat) :
    rsCorrect s = (s, some (.argRange .arg)) :=
  if_pos (by
    rw [Bool.not_eq_true', Bool.eq_false_iff, ne_eq, rsNOk_iff]
    omega)

theorem exec_rsCorrect {s : State} (h1 : 1 ≤ s.rsN.toNat) (h2 : s.rsN.toNat ≤ 255) :
    exec .rsCorrect s = endCommand (correctStep s) := by
  rw [exec_eq_endCommand, ruleOf, rsCorrect_of_good h1 h2]

section Correct

variable {s : State} {cs : List (Nat × Byte)}

theorem correctStep_none (h : corrections s.rsN.toNat (s.locs.zip s.mags) = (cs, none)) :
    correctStep s = ({ s.correctRsbuf cs with res0 := s.rsNerr }, none) := by
  simp only [correctStep, h, State.setRes0, Word.ofNat, BitVec.ofNat_toNat, BitVec.setWidth_eq]

theorem correctStep_some {e : RsErr} (h : corrections s.rsN.toNat (s.locs.zip s.mags) = (cs, some e)) :
    correctStep s = (s.correctRsbuf cs, some (.rsInternal e)) := by
  simp only [correctStep, h]

end Correct

/-- Settles O35: the answers of `forney`, and the correction step by how its entries end. -/
theorem forneyThenCorrect : Obligations.ForneyThenCorrect := by
  refine fun s => ⟨fun h => exec_of_error (.argRange .polyLen) rfl (poly_bind_of_badLength _ h),
    fun omega hp => ⟨fun e he => ?forneyError, fun mag hmag => ?forneyOk⟩, fun h => ?range,
    fun h1 h2 cs r hcs => ?correct⟩
  case forneyError =>
    cases forney_error he
    exact ⟨rfl, rsForney_error hp he⟩
  case forneyOk => exact ⟨(forney_ok hmag).trans (length_bytes s _ _), rsForney_ok hp hmag⟩
  case range =>
    rw [exec_eq_endCommand, ruleOf, rsCorrect_of_bad h, endCommand_some]
    rfl
  case correct =>
    have hread : corrections s.rsN.toNat (s.locs.zip s.mags) = (cs, r) := hcs
    have hb := corrections_bounds s.rsN.toNat (s.locs.zip s.mags)
    rw [hread] at hb
    refine ⟨hb, correctRsbuf_sameBytes s hb, fun hr => ?_, fun e hr => ?_⟩
    · rw [exec_rsCorrect h1 h2, correctStep_none (hread.trans (by rw [hr])), endCommand_none]
    · rw [exec_rsCorrect h1 h2, correctStep_some (hread.trans (by rw [hr])), endCommand_some, rsErr_detail]
      rfl

end Sys2Proof.Machine
end

section
/-! PROOFS, family 42_rs, the whole decoder (O36). The single-step commands leave the state that `RS_DECODE` is in at
that point, but for `RES0` and what a command's end writes: `State.stepped`. No step reads either, so every step
commutes with it (`FollowsStepped`), and `andThen_lockstep` moves both sides on by one command. -/

namespace Sys2Proof.Machine

/-! ### A word without errors -/

theorem trim_eq_zero {l : List Byte} (h : ∀ c ∈ l, c = 0) : trim l = [0] := by
  induction l using trim.induct with
  | case1 => rfl
  | case2 c => rw [trim, h c List.mem_cons_self]
  | case3 c cs ih => exact ih fun x hx => h x (List.mem_cons_of_mem _ hx)
  | case4 c d cs hc => exact absurd (h c List.mem_cons_self) hc

theorem syndromes_of_noError {s : State} (h : s.noError = true) : (syndromes s.received s.rsTwos.toNat).1 = [0] :=
  trim_eq_zero fun _ hc => eq_of_beq (List.all_eq_true.mp h _ hc)

/-- `RS_DECODE` past its checks (R155). -/
theorem rsDecode_eq {s : State} (h1 : 1 ≤ s.rsN.toNat) (h2 : s.rsN.toNat ≤ 255) (h3 : s.rsTwos.toNat ≤ 255) :
    rsDecode s = if s.noError then
        ({ s.putPoly 0 (syndromes s.received s.rsTwos.toNat).1 with rsNerr := 0, res0 := 0 }, none)
      else
        let t := s.putPoly 0 (syndromes s.received s.rsTwos.toNat).1
        (single t (euclidStep t)).andThen fun t =>
        (single t (chienStep t)).andThen fun t =>
        (single t (forneyStep t)).andThen correctStep := by
  rw [rsDecode, rsCheck_of_good h1 h2 h3, syndStep_eq h3]
  rfl

/-! ### `RS_DECODE` and the single steps -/

/-- `RS_EUCLID` past its check (R151). -/
theorem rsEuclid_of_good {s : State} (h1 : 1 ≤ s.rsTwos.toNat) (h2 : s.rsTwos.toNat ≤ 255) :
    rsEuclid s = euclidStep s :=
  if_neg (by omega)

/-- What the single-step commands leave where `RS_DECODE` is at `t`: `RES0` is 0 since `RS_SYND`, and the last command
has ended without error. -/
def State.stepped (t : State) : State := ({ t with res0 := 0 } : State).finished

/-- A step of the decoder that reads neither `RES0` nor what a command's end writes, and leaves `RES0` alone. -/
structure FollowsStepped (v : State → Except Raise State) : Prop where
  commutes : ∀ t, v t.stepped = (v t).map State.stepped
  res0 : ∀ t, Yields (v t) fun u => u.res0 = t.res0

theorem poly_stepped (t : State) (k : Nat) : t.stepped.poly k = t.poly k := rfl

theorem setPoly_stepped (t : State) (k : Nat) (p : Poly) :
    t.stepped.setPoly k p = (t.setPoly k p).map State.stepped := by
  unfold State.setPoly
  split <;> rfl

theorem euclidStep_followsStepped : FollowsStepped euclidStep where
  commutes t := by
    unfold euclidStep
    rw [poly_stepped]
    cases t.poly 0 with
    | error e => rfl
    | ok syn =>
      simp only [bind, Except.bind]
      rw [show t.stepped.rsTwos = t.rsTwos from rfl]
      cases liftRs (euclid syn t.rsTwos.toNat) with
      | error e => rfl
      | ok r =>
        simp only [setPoly_stepped]
        cases t.setPoly 1 r.1 with
        | error e => rfl
        | ok u => exact setPoly_stepped u 2 r.2
  res0 t u h := by
    obtain ⟨m, v, rfl, -⟩ := euclidStep_ok t u h
    rfl

theorem chienStep_followsStepped : FollowsStepped chienStep where
  commutes t := by
    unfold chienStep
    rw [poly_stepped]
    cases t.poly 1 with
    | error e => rfl
    | ok sigma =>
      simp only [bind, Except.bind]
      cases liftRs (chien sigma) <;> rfl
  res0 t u h := by
    obtain ⟨m, n, rfl, -⟩ := chienStep_ok t u h
    rfl

theorem forneyStep_followsStepped : FollowsStepped forneyStep where
  commutes t := by
    unfold forneyStep
    rw [poly_stepped, show t.stepped.locs = t.locs from rfl]
    cases t.poly 2 with
    | error e => rfl
    | ok omega =>
      simp only [bind, Except.bind]
      cases liftRs (forney omega t.locs) <;> rfl
  res0 t u h := by
    obtain ⟨m, rfl, -⟩ := forneyStep_ok t u h
    rfl

theorem errcode_failed_ne_zero (t : State) (e : Raise) (d : Nat) : (t.failed e.code.toNat d).errcode ≠ 0 := by
  rw [failed_errcode]
  cases e <;> simp [Raise.code]

/-- The state a single-step command leaves, by the answer of its rule. -/
theorem after_of_ok {i : Instr} {s t : State} {v : Except Raise State} (hrule : ruleOf s i = single s v)
    (h : v = .ok t) : s.after i = t.finished := by
  rw [State.after, exec_of_ok hrule h]

theorem after_of_error {i : Instr} {s : State} {v : Except Raise State} {e : Raise} (hrule : ruleOf s i = single s v)
    (h : v = .error e) : s.after i = s.failed e.code.toNat e.detail.toNat := by
  rw [State.after, exec_of_error e hrule h]

/-- A state with another `RES0`. -/
def State.withRes0 (t : State) (r : Word) : State := { t with res0 := r }

/-- One single-step command and then the rest. After an error the rest is left out, and `RES0` is put back to `r`
(log 21). -/
def State.goOn (t : State) (i : Instr) (r : Word) (rest : State → State) : State :=
  if (t.after i).errcode ≠ 0 then (t.after i).withRes0 r else rest (t.after i)

/-- One step of `RS_DECODE` and then its rest, beside the step's command and then the rest of the commands. -/
theorem andThen_lockstep {i : Instr} {v : State → Except Raise State} {t : State} {k : State → Ended}
    {rest : State → State} (hv : FollowsStepped v) (hrule : ruleOf t.stepped i = single t.stepped (v t.stepped))
    (hk : ∀ u, v t = .ok u → u.res0 = t.res0 → endCommand (k u) = .next (rest u.stepped)) :
    endCommand ((single t (v t)).andThen k) = .next (t.stepped.goOn i t.res0 rest) := by
  have hcomm := hv.commutes t
  unfold State.goOn
  cases h : v t with
  | ok u =>
    have hafter : t.stepped.after i = u.stepped := after_of_ok (t := u.stepped) hrule (by rw [hcomm, h]; rfl)
    rw [single_ok, andThen_none, hk u h (hv.res0 t u h), hafter]
    rfl
  | error e =>
    have hafter := after_of_error (e := e) hrule (by rw [hcomm, h]; rfl)
    rw [single_error, andThen_some, hafter, if_pos (errcode_failed_ne_zero _ _ _), endCommand_some]
    rfl

theorem correctRsbuf_stepped (t : State) (cs : List (Nat × Byte)) :
    t.stepped.correctRsbuf cs = (t.correctRsbuf cs).stepped := by
  induction cs generalizing t with
  | nil => rfl
  | cons c cs ih => exact ih (t.putBytes (Window.rsbuf.base + c.1) [gadd (t.byte (Window.rsbuf.base + c.1)) c.2])

theorem correctRsbuf_res0 (t : State) (cs : List (Nat × Byte)) : (t.correctRsbuf cs).res0 = t.res0 :=
  List.foldlRecOn (motive := fun u : State => u.res0 = t.res0) cs _ rfl fun _ hu _ _ => hu

/-- The correction step beside `RS_CORRECT`: success writes `RES0`, a raise leaves it. -/
theorem correctStep_lockstep {t : State} (h1 : 1 ≤ t.rsN.toNat) (h2 : t.rsN.toNat ≤ 255) :
    endCommand (correctStep t) = .next (t.stepped.goOn .rsCorrect t.res0 id) := by
  rw [State.goOn, State.after, exec_rsCorrect (s := t.stepped) h1 h2]
  cases hcs : corrections t.rsN.toNat (t.locs.zip t.mags) with
  | mk cs r =>
    cases r with
    | none =>
      rw [correctStep_none hcs, correctStep_none (s := t.stepped) hcs, correctRsbuf_stepped]
      rfl
    | some e =>
      rw [correctStep_some hcs, correctStep_some (s := t.stepped) hcs, correctRsbuf_stepped, endCommand_some,
        endCommand_some, if_pos (errcode_failed_ne_zero _ _ _), ← correctRsbuf_res0 t cs]
      rfl

/-- The four steps of `RS_DECODE` after the syndromes, beside their commands. -/
theorem stepsFrom_lockstep {t : State} (hn1 : 1 ≤ t.rsN.toNat) (hn2 : t.rsN.toNat ≤ 255) (ht1 : 1 ≤ t.rsTwos.toNat)
    (ht2 : t.rsTwos.toNat ≤ 255) :
    endCommand ((single t (euclidStep t)).andThen fun t =>
      (single t (chienStep t)).andThen fun t =>
      (single t (forneyStep t)).andThen correctStep) = .next
      (t.stepped.goOn .rsEuclid t.res0 fun t2 => t2.goOn .rsChien t.res0 fun t3 =>
        t3.goOn .rsForney t.res0 fun t4 => t4.goOn .rsCorrect t.res0 id) := by
  have hrule : ruleOf t.stepped .rsEuclid = single t.stepped (euclidStep t.stepped) :=
    congrArg (single t.stepped) (rsEuclid_of_good (s := t.stepped) ht1 ht2)
  refine andThen_lockstep euclidStep_followsStepped hrule fun u hu hu0 => ?_
  rw [← hu0]
  refine andThen_lockstep chienStep_followsStepped rfl fun w hw hw0 => ?_
  rw [← hw0]
  refine andThen_lockstep forneyStep_followsStepped rfl fun x hx hx0 => ?_
  have hn : x.rsN = t.rsN := congrArg Fixed.rsN <|
    ((forneyStep_keepsFixed w x hx).trans (chienStep_keepsFixed u w hw)).trans (euclidStep_keepsFixed t u hu)
  rw [← hx0]
  exact correctStep_lockstep (by rwa [hn]) (by rwa [hn])

/-- Settles O36: the checks and the word without errors by `rsDecode_eq`; then the four steps in lockstep with their
commands. -/
theorem rsDecodeIsItsSteps : Obligations.RsDecodeIsItsSteps := by
  refine ⟨fun s => ⟨fun h => ?range, fun h1 h2 h3 hzero => ?noError⟩, ?steps⟩
  case range =>
    rw [exec_eq_endCommand, ruleOf, rsDecode, rsCheck_of_bad h, computing_error, endCommand_some]
    rfl
  case noError =>
    have hno := (noError_iff s).mpr hzero
    rw [exec_eq_endCommand, ruleOf, rsDecode_eq h1 h2 h3, if_pos hno, syndromes_of_noError hno, endCommand_none]
  case steps =>
    rintro s s1 s2 s3 s4 s5 rfl rfl rfl rfl rfl h1 h2 h3 ⟨i, hi, hne⟩
    have hno : s.noError = false := Bool.eq_false_iff.mpr fun h => hne ((noError_iff s).mp h i hi)
    have hsynd : s.after .rsSynd = (s.putPoly 0 (syndromes s.received s.rsTwos.toNat).1).stepped := by
      rw [after_of_ok rfl (rsSynd_eq h1 h2 h3), hno]
      rfl
    refine ⟨by rw [hsynd]; rfl, by rw [hsynd]; rfl, ?_⟩
    rw [hsynd, exec_eq_endCommand, ruleOf, rsDecode_eq h1 h2 h3, if_neg (by simp [hno])]
    exact stepsFrom_lockstep (t := s.putPoly 0 _) h1 h2 (Nat.one_le_of_lt hi) h3

end Sys2Proof.Machine
end

section
/-! PROOFS, family 42_rs, polynomials over the field (O33). A congruence modulo `x^n` is about coefficients, which the
values at 256 points (O28) do not determine. So the lists of R103 are read as polynomials over a ring that holds the
field (`GfRing.poly`), such as bytes with the sum and product of R101 (`gfCommRing`); each operation of R104 is then the
operation of its name, and `coeff_poly` leads back to the coefficients. -/

namespace Sys2Proof.Machine

open Polynomial (C X)

/-! ### The ring of R101 -/

/-- Bytes with the sum and product of R101; every element is its own negative. -/
@[reducible] def gfCommRing : CommRing Byte :=
  @CommRing.ofMinimalAxioms Byte ⟨gadd⟩ ⟨gmul⟩ ⟨id⟩ ⟨0⟩ ⟨1⟩ BitVec.xor_assoc zero_gadd (fun _ => BitVec.xor_self)
    gmul_assoc gmul_comm one_gmul gmul_gadd

/-- A commutative ring that holds the elements of the field, with their sums and products. -/
structure GfRing (R : Type) [CommRing R] where
  elem : Byte → R
  elem_zero : elem 0#8 = 0
  elem_one : elem 1#8 = 1
  elem_gadd : ∀ a b, elem (gadd a b) = elem a + elem b
  elem_gmul : ∀ a b, elem (gmul a b) = elem a * elem b
  injective : Function.Injective elem

/-- The ring of R101 itself is one. -/
def gfRing : @GfRing Byte gfCommRing :=
  @GfRing.mk Byte gfCommRing id rfl rfl (fun _ _ => rfl) (fun _ _ => rfl) Function.injective_id

/-! ### Coefficients -/

/-- Above the degree every coefficient is 0. -/
theorem coefficient_of_length_le {p : Poly} {k : Nat} (h : p.length ≤ k) : coefficient p k = 0#8 :=
  List.getD_eq_default _ _ (by rwa [List.length_reverse])

theorem coefficient_cons (c : Byte) (p : Poly) (k : Nat) :
    coefficient (c :: p) k = if k = p.length then c else coefficient p k := by
  unfold coefficient
  rw [List.reverse_cons]
  rcases lt_trichotomy k p.length with hlt | rfl | hgt
  · rw [if_neg hlt.ne, List.getD_append _ _ _ _ (by rwa [List.length_reverse])]
  · simp
  · rw [if_neg hgt.ne', List.getD_eq_default _ _ (by simpa using hgt), List.getD_eq_default _ _ (by simpa using hgt.le)]

namespace GfRing

variable {R : Type} [CommRing R] (φ : GfRing R)


/-! ### Lists as polynomials (R103) -/

/-- A list of coefficients, highest degree first, as a polynomial. -/
noncomputable def poly : Poly → Polynomial R
  | [] => 0
  | c :: p => C (φ.elem c) * X ^ p.length + poly p

@[simp] theorem poly_nil : φ.poly [] = 0 := rfl

theorem poly_cons (c : Byte) (p : Poly) : φ.poly (c :: p) = C (φ.elem c) * X ^ p.length + φ.poly p := rfl

@[simp] theorem poly_zero_cons (p : Poly) : φ.poly (0#8 :: p) = φ.poly p := by
  rw [poly_cons, φ.elem_zero, map_zero, zero_mul, zero_add]

@[simp] theorem poly_one : φ.poly [1#8] = 1 := by
  rw [poly_cons, φ.elem_one]
  simp

theorem poly_append (p q : Poly) : φ.poly (p ++ q) = φ.poly p * X ^ q.length + φ.poly q := by
  induction p with
  | nil => simp
  | cons c p ih =>
    rw [List.cons_append, poly_cons, poly_cons, ih, List.length_append]
    ring

@[simp] theorem poly_replicate_zero (n : Nat) : φ.poly (List.replicate n 0#8) = 0 := by
  induction n with
  | zero => rfl
  | succ n ih => rw [List.replicate_succ, poly_zero_cons, ih]

@[simp] theorem poly_trim (p : Poly) : φ.poly (trim p) = φ.poly p := by
  induction p using trim.induct with
  | case1 => exact φ.poly_zero_cons []
  | case2 c => rfl
  | case3 c cs ih => rw [trim, if_pos rfl, ih]; exact (φ.poly_zero_cons (c :: cs)).symm
  | case4 c d cs hc => rw [trim, if_neg hc]

theorem poly_map_gmul (p : Poly) (c : Byte) : φ.poly (p.map fun a => gmul a c) = φ.poly p * C (φ.elem c) := by
  induction p with
  | nil => simp
  | cons a p ih =>
    rw [List.map_cons, poly_cons, poly_cons, ih, φ.elem_gmul, map_mul, List.length_map]
    ring

theorem poly_zipWith_gadd (p q : Poly) (h : p.length = q.length) :
    φ.poly (List.zipWith gadd p q) = φ.poly p + φ.poly q := by
  induction p generalizing q with
  | nil =>
    cases List.length_eq_zero_iff.mp h.symm
    simp
  | cons a p ih =>
    obtain ⟨b, q, rfl⟩ := List.exists_cons_of_length_eq_add_one h.symm
    have hlen : p.length = q.length := by simpa using h
    rw [List.zipWith_cons_cons, poly_cons, poly_cons, poly_cons, ih q hlen, List.length_zipWith, hlen, min_self,
      φ.elem_gadd, map_add]
    ring

/-- The coefficients are those of the list. -/
theorem coeff_poly (p : Poly) (k : Nat) : (φ.poly p).coeff k = φ.elem (coefficient p k) := by
  induction p with
  | nil => simp [coefficient, φ.elem_zero]
  | cons c p ih =>
    rw [poly_cons, Polynomial.coeff_add, Polynomial.coeff_C_mul_X_pow, ih, coefficient_cons]
    split
    case isTrue hk => rw [coefficient_of_length_le hk.ge, φ.elem_zero, add_zero]
    case isFalse => rw [zero_add]

/-! ### The operations of R104 -/

theorem poly_addAligned (l s : Poly) (h : s.length ≤ l.length) : φ.poly (addAligned l s) = φ.poly l + φ.poly s := by
  have hlow : (l.drop (l.length - s.length)).length = s.length := by
    rw [List.length_drop]
    omega
  have hl := φ.poly_append (l.take (l.length - s.length)) (l.drop (l.length - s.length))
  rw [List.take_append_drop, hlow] at hl
  rw [addAligned, poly_append, List.length_zipWith, hlow, min_self, φ.poly_zipWith_gadd _ _ hlow, hl, add_assoc]

theorem poly_padd {a b : Poly} (ha : canonical a) (hb : canonical b) : φ.poly (padd a b) = φ.poly a + φ.poly b := by
  unfold padd
  split
  case isTrue hz => simp [eq_zero_of_pIsZero ha hz]
  split
  case isTrue hz => simp [eq_zero_of_pIsZero hb hz]
  split
  case isTrue hlt => rw [poly_trim, φ.poly_addAligned b a hlt.le, add_comm]
  case isFalse hge => rw [poly_trim, φ.poly_addAligned a b (not_lt.mp hge)]

theorem poly_convolve (a b : Poly) : φ.poly (convolve a b) = φ.poly a * φ.poly b := by
  have hrow (c : Byte) : φ.poly (b.map (gmul c)) = C (φ.elem c) * φ.poly b := by
    simpa only [gmul_comm _ c, mul_comm] using φ.poly_map_gmul b c
  induction a with
  | nil => simp [convolve]
  | cons c as ih =>
    cases as with
    | nil => simp [convolve, hrow, poly_cons]
    | cons d as =>
      have hlen : (b.map (gmul c) ++ List.replicate (as.length + 1) 0).length =
          (0 :: convolve (d :: as) b).length := by
        simp only [List.length_append, List.length_map, List.length_replicate, List.length_cons, length_convolve]
        omega
      have hhigh : φ.poly (List.replicate (as.length + 1) 0) = 0 := φ.poly_replicate_zero _
      have hlow : φ.poly (0 :: convolve (d :: as) b) = φ.poly (d :: as) * φ.poly b := (φ.poly_zero_cons _).trans ih
      rw [convolve, φ.poly_zipWith_gadd _ _ hlen, poly_append, hrow, hhigh, hlow, poly_cons φ c, List.length_replicate,
        List.length_cons]
      ring

theorem poly_pmul {a b : Poly} (ha : canonical a) (hb : canonical b) : φ.poly (pmul a b) = φ.poly a * φ.poly b := by
  unfold pmul
  split
  case isTrue hz =>
    rcases (Bool.or_eq_true _ _).mp hz with h | h
    · simp [eq_zero_of_pIsZero ha h]
    · simp [eq_zero_of_pIsZero hb h]
  case isFalse => rw [poly_trim, poly_convolve]

theorem poly_pscale (a : Poly) (c : Byte) : φ.poly (pscale a c) = φ.poly a * C (φ.elem c) := by
  unfold pscale
  split
  case isTrue hc => simp [hc, φ.elem_zero]
  split
  case isTrue hc => simp [hc, φ.elem_one]
  case isFalse => exact φ.poly_map_gmul a c

theorem poly_pmulmono (a : Poly) (d : Nat) (c : Byte) : φ.poly (pmulmono a d c) = φ.poly a * C (φ.elem c) * X ^ d := by
  unfold pmulmono
  split
  case isTrue hc => simp [hc, φ.elem_zero]
  case isFalse => simp [poly_append, poly_map_gmul]

theorem poly_pmono (d : Nat) (c : Byte) : φ.poly (pmono d c) = C (φ.elem c) * X ^ d := by
  unfold pmono
  split
  case isTrue hc => simp [hc, φ.elem_zero]
  case isFalse => simp [poly_cons]

theorem poly_pmono_one (d : Nat) : φ.poly (pmono d 1) = X ^ d := by
  have hone : φ.elem 1 = 1 := φ.elem_one
  rw [poly_pmono, hone, map_one, one_mul]

end GfRing

end Sys2Proof.Machine
end

section
/-! PROOFS, family 42_rs, the Euclid step (O33). A round keeps that each remainder is its multiplier times the second
operand, modulo the first (`EuclidRow`), and that multiplier and remainder share the degrees of the first
(`EuclidInv`). The loop ends with such a row (`euclidLoop_ok`), and normalizing it keeps the congruence. -/

namespace Sys2Proof.Machine

open Polynomial (C X)

/-! ### Canonical polynomials (R103) -/

theorem canonical_trim (p : Poly) : canonical (trim p) := trim_trim p

theorem canonical_singleton (c : Byte) : canonical [c] := rfl

theorem canonical_cons_of_ne_zero {c : Byte} (hc : c ≠ 0) (p : Poly) : canonical (c :: p) := by
  cases p with
  | nil => rfl
  | cons d p => exact if_neg hc

theorem canonical_cases {p : Poly} (h : canonical p) : p = [0] ∨ ∃ c q, c ≠ 0 ∧ p = c :: q := by
  by_cases hz : pIsZero p = true
  · exact .inl (eq_zero_of_pIsZero h hz)
  · cases p with
    | nil => exact absurd h (trim_ne_nil [])
    | cons c q => exact .inr ⟨c, q, by simpa [pIsZero] using hz, rfl⟩

theorem length_pos_of_canonical {p : Poly} (h : canonical p) : 1 ≤ p.length := by
  rcases canonical_cases h with rfl | ⟨c, q, -, rfl⟩ <;> simp

/-- `POLY(k)` is canonical (R103). -/
theorem canonical_of_poly {s : State} {k : Nat} {p : Poly} (h : s.poly k = .ok p) : canonical p := by
  rcases poly_cases s k with ⟨-, e⟩ | ⟨-, -, e⟩ <;> cases e.symm.trans h
  exact canonical_trim _

theorem canonical_padd {a b : Poly} (ha : canonical a) (hb : canonical b) : canonical (padd a b) := by
  unfold padd
  split
  · exact hb
  split
  · exact ha
  split
  · exact canonical_trim _
  · exact canonical_trim _

theorem canonical_pmul (a b : Poly) : canonical (pmul a b) := by
  unfold pmul
  split
  · exact canonical_singleton 0
  · exact canonical_trim _

theorem canonical_pmulmono (a : Poly) (d : Nat) (c : Byte) : canonical (pmulmono a d c) := by
  unfold pmulmono
  split
  · exact canonical_singleton 0
  · exact canonical_trim _

theorem canonical_pmono (d : Nat) (c : Byte) : canonical (pmono d c) := by
  unfold pmono
  split
  · exact canonical_singleton 0
  · exact canonical_cons_of_ne_zero ‹_› _

/-- The field has no zero divisors. -/
theorem gmul_ne_zero {a b : Byte} (ha : a ≠ 0) (hb : b ≠ 0) : gmul a b ≠ 0 := fun h => ha <| by
  calc a = gmul a (gmul b (gexp (255 - logOf b))) := by rw [gmul_gexp_inverse hb]; exact (gmul_one a).symm
    _ = 0 := by rw [← gmul_assoc, h]; exact zero_gmul _

theorem canonical_pscale {p : Poly} (h : canonical p) (c : Byte) : canonical (pscale p c) := by
  unfold pscale
  split
  case isTrue => exact canonical_singleton 0
  split
  case isTrue => exact h
  case isFalse hc _ =>
    rcases canonical_cases h with rfl | ⟨a, q, ha, rfl⟩
    · exact canonical_singleton _
    · exact canonical_cons_of_ne_zero (gmul_ne_zero ha hc) _

/-! ### Lengths -/

theorem length_pmul_le {a b : Poly} {n : Nat} (hn : 1 ≤ n) (ha : 1 ≤ a.length) (h : a.length + b.length ≤ n + 1) :
    (pmul a b).length ≤ n := by
  unfold pmul
  split
  · exact hn
  · obtain ⟨x, as, rfl⟩ := List.exists_cons_of_length_pos ha
    rw [List.length_cons] at h
    exact length_trim_le_of_le hn (by rw [length_convolve]; omega)

theorem length_pmulmono_le {a : Poly} {d n : Nat} (c : Byte) (hn : 1 ≤ n) (h : a.length + d ≤ n) :
    (pmulmono a d c).length ≤ n := by
  unfold pmulmono
  split
  · exact hn
  · exact length_trim_le_of_le hn (by simpa using h)

/-! ### The division (R142, the inner loop) -/

section Euclid

variable {R : Type} [CommRing R] (φ : GfRing R)

/-- A division of `p` by `d` under way, with quotient `q` and remainder `r` so far. -/
structure Dividing (d p q r : Poly) : Prop where
  quotient : canonical q
  remainder : canonical r
  quotient_length : q.length + d.length ≤ p.length + 1
  remainder_length : r.length ≤ p.length
  value : φ.poly r = φ.poly p + φ.poly d * φ.poly q

theorem Dividing.start {d p : Poly} (hp : canonical p) (h : d.length ≤ p.length) : Dividing φ d p [0] p where
  quotient := canonical_singleton 0
  remainder := hp
  quotient_length := by simpa [Nat.add_comm] using h
  remainder_length := le_rfl
  value := by simp

variable {φ}

/-- One round: a monomial goes to the quotient, and its product with the divisor to the remainder. -/
theorem Dividing.round {d p q r : Poly} (c : Byte) (h : Dividing φ d p q r) (hd : 1 ≤ d.length)
    (hdeg : pDeg d ≤ pDeg r) :
    Dividing φ d p (padd q (pmono (pDeg r - pDeg d) c)) (padd r (pmulmono d (pDeg r - pDeg d) c)) := by
  obtain ⟨hq, hr, hql, hrl, hv⟩ := h
  have hr1 := length_pos_of_canonical hr
  unfold pDeg at *
  have hmono := length_pmono_le (r.length - 1 - (d.length - 1)) c
  have hquot := length_padd_le (a := q) (n := p.length + 1 - d.length) (by omega) (by omega) (hmono.trans (by omega))
  exact {
    quotient := canonical_padd hq (canonical_pmono _ _)
    remainder := canonical_padd hr (canonical_pmulmono _ _ _)
    quotient_length := by omega
    remainder_length := length_padd_le (by omega) hrl (length_pmulmono_le c (by omega) (by omega))
    value := by
      rw [φ.poly_padd hr (canonical_pmulmono _ _ _), φ.poly_padd hq (canonical_pmono _ _), φ.poly_pmulmono,
        φ.poly_pmono, hv]
      ring }

/-- The inner loop keeps the division, whatever its bound. -/
theorem Dividing.divide {d p : Poly} (dInv : Byte) (hd : 1 ≤ d.length) (n : Nat) {q r : Poly} (h : Dividing φ d p q r) :
    Dividing φ d p (euclidDivide d dInv n q r).1 (euclidDivide d dInv n q r).2 := by
  induction n generalizing q r with
  | zero => exact h
  | succ n ih =>
    unfold euclidDivide
    split
    case isTrue hcond => exact ih (h.round _ hd hcond.1)
    case isFalse => exact h

/-! ### The rounds (R142, the outer loop) -/

variable (φ)

/-- A remainder `r` of `a` and `b`, with its multiplier `t`: `r` is `t` times `b`, modulo `a`. -/
structure EuclidRow (a b r t : Poly) : Prop where
  remainder : canonical r
  multiplier : canonical t
  congruent : φ.poly a ∣ φ.poly r - φ.poly t * φ.poly b

/-- Two rows that follow each other in the Euclid step of `a` and `b`. -/
structure EuclidInv (a b rLL rL tLL tL : Poly) : Prop where
  before : EuclidRow φ a b rLL tLL
  last : EuclidRow φ a b rL tL
  falling : rL.length ≤ rLL.length
  room_before : tLL.length + rL.length ≤ a.length + 1
  room_last : tL.length + rLL.length ≤ a.length + 1

theorem EuclidInv.start {a b : Poly} (ha : canonical a) (hb : canonical b) (h : b.length ≤ a.length) :
    EuclidInv φ a b a b [0] [1] where
  before := ⟨ha, canonical_singleton 0, by simp⟩
  last := ⟨hb, canonical_singleton 1, by simp⟩
  falling := h
  room_before := by simpa [Nat.add_comm] using h
  room_last := by simp [Nat.add_comm]

variable {φ}

/-- A row plus a multiple of another is a row. -/
theorem EuclidRow.combine {a b r t r' t' q r'' : Poly} (h : EuclidRow φ a b r t) (h' : EuclidRow φ a b r' t')
    (hq : canonical q) (hr : canonical r'') (hv : φ.poly r'' = φ.poly r + φ.poly r' * φ.poly q) :
    EuclidRow φ a b r'' (padd (pmul q t') t) where
  remainder := hr
  multiplier := canonical_padd (canonical_pmul _ _) h.multiplier
  congruent := by
    have hsum := dvd_add h.congruent (h'.congruent.mul_left (φ.poly q))
    rw [φ.poly_padd (canonical_pmul _ _) h.multiplier, φ.poly_pmul hq h'.multiplier, hv]
    convert hsum using 1
    ring

/-- A round of the outer loop that lowers the degree of the remainder. -/
theorem EuclidInv.round {a b rLL rL tLL tL q r : Poly} (h : EuclidInv φ a b rLL rL tLL tL)
    (hdiv : Dividing φ rL rLL q r) (hlt : pDeg r < pDeg rL) :
    EuclidInv φ a b rL r tL (padd (pmul q tL) tLL) := by
  obtain ⟨hbefore, hlast, hfall, hroom, hroom'⟩ := h
  have hrL := length_pos_of_canonical hlast.remainder
  have htL := length_pos_of_canonical hlast.multiplier
  have hq := length_pos_of_canonical hdiv.quotient
  have hql := hdiv.quotient_length
  unfold pDeg at hlt
  have hmul := length_padd_le (n := a.length + 1 - rL.length) (by omega)
    (length_pmul_le (b := tL) (by omega) hq (by omega)) (show tLL.length ≤ _ by omega)
  exact {
    before := hlast
    last := hbefore.combine hlast hdiv.quotient hdiv.remainder hdiv.value
    falling := by omega
    room_before := by omega
    room_last := by omega }

theorem ginv_ok {a i : Byte} (h : ginv a = .ok i) : gmul a i = 1 := by
  by_cases ha : a = 0
  · rw [ha, ginv_zero] at h
    cases h
  · rw [ginv_ne_zero a ha] at h
    cases h
    exact gmul_gexp_inverse ha

/-- What a success of the outer loop can be: it is over, or one round went before it. -/
theorem euclidLoop_succ_ok {twoS n : Nat} {rLL rL tLL tL : Poly} {res : Poly × Poly}
    (h : euclidLoop twoS (n + 1) rLL rL tLL tL = .ok res) :
    (2 * pDeg rL < twoS ∧ res = (rL, tL)) ∨
    ∃ dInv, let d := euclidDivide rL dInv (rLL.length + 1) [0] rLL
      pDeg d.2 < pDeg rL ∧ euclidLoop twoS n rL d.2 tL (padd (pmul d.1 tL) tLL) = .ok res := by
  unfold euclidLoop at h
  split at h
  case isTrue hdeg => exact .inl ⟨hdeg, by cases h; rfl⟩
  split at h
  case isTrue => cases h
  cases hinv : ginv (pCoef rL (pDeg rL)) with
  | error e =>
    rw [hinv] at h
    cases h
  | ok dInv =>
    rw [hinv] at h
    dsimp only at h
    split at h
    case isTrue => cases h
    case isFalse hlt => exact .inr ⟨dInv, not_le.mp hlt, h⟩

/-- The bound on the rounds never cuts the loop short, so it ends with a row of low degree. -/
theorem euclidLoop_ok {a b : Poly} {twoS : Nat} (n : Nat) {rLL rL tLL tL r t : Poly} (hn : pDeg rL < n)
    (hinv : EuclidInv φ a b rLL rL tLL tL) (h : euclidLoop twoS n rLL rL tLL tL = .ok (r, t)) :
    2 * pDeg r < twoS ∧ t.length ≤ a.length ∧ EuclidRow φ a b r t := by
  induction n generalizing rLL rL tLL tL with
  | zero => omega
  | succ n ih =>
    rcases euclidLoop_succ_ok h with ⟨hdeg, hres⟩ | ⟨dInv, hlt, hloop⟩
    · cases hres
      have hrLL := length_pos_of_canonical hinv.before.remainder
      have hroom := hinv.room_last
      exact ⟨hdeg, by omega, hinv.last⟩
    · have hdiv := (Dividing.start φ hinv.before.remainder hinv.falling).divide dInv
        (length_pos_of_canonical hinv.last.remainder) (rLL.length + 1)
      exact ih (by omega) (hinv.round hdiv hlt) hloop

end Euclid

/-! ### The whole step (R142) -/

theorem length_pmono_one (d : Nat) : (pmono d 1).length = d + 1 := by
  simp [pmono]

/-- What a success of `euclid` comes from: the loop on the two operands, the longer first, and the inverse of the value
of the multiplier at 0. -/
theorem euclid_ok {syn sigma omega : Poly} {twoS : Nat} (h : euclid syn twoS = .ok (sigma, omega)) :
    ∃ a b r t inv,
      (a = syn ∧ b = pmono twoS 1 ∧ twoS + 1 < syn.length ∨ a = pmono twoS 1 ∧ b = syn ∧ syn.length ≤ twoS + 1) ∧
      euclidLoop twoS (a.length + b.length + 1) a b [0] [1] = .ok (r, t) ∧
      gmul (pCoef t 0) inv = 1 ∧ sigma = pscale t inv ∧ omega = pscale r inv := by
  have hlen := length_pmono_one twoS
  unfold euclid at h
  dsimp only at h
  generalize hab : (if pDeg (pmono twoS 1) < pDeg syn then (syn, pmono twoS 1) else (pmono twoS 1, syn)) = ab at h
  obtain ⟨a, b⟩ := ab
  obtain ⟨⟨r, t⟩, hloop, h⟩ := bind_ok h
  dsimp only at h
  split at h
  case isTrue => cases h
  obtain ⟨inv, hinv, h⟩ := bind_ok h
  cases h
  refine ⟨a, b, r, t, inv, ?_, hloop, ginv_ok hinv, rfl, rfl⟩
  unfold pDeg at hab
  split at hab <;> cases hab
  · exact .inl ⟨rfl, rfl, by omega⟩
  · exact .inr ⟨rfl, rfl, by omega⟩

/-- The key equation: the congruence of a row modulo `x^n`, coefficient by coefficient. -/
theorem coefficient_pmul_eq_of_dvd {R : Type} [CommRing R] (φ : GfRing R) {n : Nat} {sigma syn omega : Poly}
    (hsigma : canonical sigma) (hsyn : canonical syn)
    (h : (X : Polynomial R) ^ n ∣ φ.poly omega - φ.poly sigma * φ.poly syn) :
    ∀ k < n, coefficient (pmul sigma syn) k = coefficient omega k := fun k hk => by
  have hzero := Polynomial.X_pow_dvd_iff.mp h k hk
  rw [← φ.poly_pmul hsigma hsyn, Polynomial.coeff_sub, φ.coeff_poly, φ.coeff_poly, sub_eq_zero] at hzero
  exact (φ.injective hzero).symm

/-- The answer of `euclid`: the locator is 1 at 0, the evaluator has low degree, and both solve the key equation. -/
theorem euclid_spec {R : Type} [CommRing R] (φ : GfRing R) {syn sigma omega : Poly} {twoS : Nat} (hsyn : canonical syn)
    (h : euclid syn twoS = .ok (sigma, omega)) :
    peval sigma 0 = 1 ∧ 2 * (omega.length - 1) < twoS ∧ sigma.length ≤ max (twoS + 1) syn.length ∧
      (syn.length ≤ twoS + 1 → ∀ k < twoS, coefficient (pmul sigma syn) k = coefficient omega k) := by
  obtain ⟨a, b, r, t, inv, hab, hloop, hnorm, rfl, rfl⟩ := euclid_ok h
  have hlen := length_pmono_one twoS
  have hmono := canonical_pmono twoS 1
  have hstart : EuclidInv φ a b a b [0] [1] := by
    rcases hab with ⟨rfl, rfl, hlt⟩ | ⟨rfl, rfl, hle⟩
    · exact .start φ hsyn hmono (by omega)
    · exact .start φ hmono hsyn (by omega)
  obtain ⟨hdeg, htlen, hrow⟩ := euclidLoop_ok _ (by unfold pDeg; omega) hstart hloop
  have hrlen := length_pscale_le inv (length_pos_of_canonical hrow.remainder) le_rfl
  unfold pDeg at hdeg
  refine ⟨(peval_pscale t inv 0).trans hnorm, by omega, ?_, fun hle => ?_⟩
  · refine (length_pscale_le inv (length_pos_of_canonical hrow.multiplier) le_rfl).trans (htlen.trans ?_)
    rcases hab with ⟨rfl, -⟩ | ⟨rfl, -⟩ <;> omega
  · obtain ⟨-, -, hlt⟩ | ⟨rfl, rfl, -⟩ := hab
    · omega
    refine coefficient_pmul_eq_of_dvd φ (canonical_pscale hrow.multiplier inv) hsyn ?_
    have hdvd := hrow.congruent
    rw [φ.poly_pmono_one] at hdvd
    rw [φ.poly_pscale, φ.poly_pscale]
    convert hdvd.mul_right (C (φ.elem inv)) using 1
    ring

/-- `RS_EUCLID` past its checks: what it writes always fits (R151). -/
theorem rsEuclid_ok {s : State} {syn sigma omega : Poly} (h1 : 1 ≤ s.rsTwos.toNat) (h2 : s.rsTwos.toNat ≤ 255)
    (hp : s.poly 0 = .ok syn) (h : euclid syn s.rsTwos.toNat = .ok (sigma, omega)) (hs : sigma.length ≤ 512)
    (ho : omega.length ≤ 512) : rsEuclid s = .ok ((s.putPoly 1 sigma).putPoly 2 omega) := by
  rw [rsEuclid_of_good h1 h2, euclidStep, hp, ← setPoly_of_fits _ 2 ho]
  simp only [bind, Except.bind, h, liftRs, setPoly_of_fits s 1 hs]

/-- Settles O33: the checks in order, then the answer of `euclid` by `euclid_spec`, over the ring of R101. -/
theorem euclidNormalizesLocator : Obligations.EuclidNormalizesLocator := by
  refine fun s => ⟨fun h => exec_of_error (.argRange .arg) rfl (if_pos h), fun h1 h2 hlen => ?length,
    fun syn h1 h2 hp => ⟨fun e he => ?error, fun sigma omega hok => ?ok⟩⟩
  case length =>
    exact exec_of_error (.argRange .polyLen) rfl ((rsEuclid_of_good h1 h2).trans (poly_bind_of_badLength _ hlen))
  case error =>
    refine exec_of_rsError e rfl ((rsEuclid_of_good h1 h2).trans ((poly_bind_of_ok _ hp).trans ?_))
    rw [he]
    rfl
  case ok =>
    obtain ⟨hone, hdeg, hlen, hkey⟩ := @euclid_spec Byte gfCommRing gfRing _ _ _ _ (canonical_of_poly hp) hok
    have hsyn := length_poly_le hp
    exact ⟨hone, hdeg, hkey, exec_of_ok rfl (rsEuclid_ok h1 h2 hp hok (by omega) (by omega))⟩

end Sys2Proof.Machine
end

section
/-! PROOFS, family 43_geometry (O37 to O43). A geometry command is one rule: its operand checks, the computation of the
transform, the samples or the size, and one write. `DETECT` runs such computations one after another, and each finds
the image and the points as the finder step left them. -/

namespace Sys2Proof.Machine

/-! ### Checks and computations of a rule -/

section Rule

variable {α β : Type} {c : Bool} {e : Raise} {v : Except Raise α} {x : Except Raise β} {f : β → Except Raise α}

theorem check_of_false (h : c = false) : (if !c then .error e else v) = .error e := if_pos (by rw [h]; rfl)

theorem check_of_true (h : c = true) : (if !c then .error e else v) = v := if_neg (by rw [h]; decide)

theorem bind_of_ok {b : β} (h : x = .ok b) : x >>= f = f b := by rw [h]; rfl

theorem bind_of_error (h : x = .error e) : x >>= f = .error e := by rw [h]; rfl

end Rule

/-- The only error `x` can be is `e`. -/
def RaisesOnly {α : Type} (e : Raise) (x : Except Raise α) : Prop := ∀ e', x = .error e' → e' = e

namespace RaisesOnly

variable {α β : Type} {e : Raise}

theorem ok {a : α} : RaisesOnly e (.ok a : Except Raise α) := fun _ h => nomatch h

theorem error : RaisesOnly e (.error e : Except Raise α) := fun _ h => by cases h; rfl

theorem ite {c : Prop} [Decidable c] {v w : Except Raise α} (hv : RaisesOnly e v) (hw : RaisesOnly e w) :
    RaisesOnly e (if c then v else w) := by
  split
  · exact hv
  · exact hw

theorem bind {x : Except Raise α} {f : α → Except Raise β} (hx : RaisesOnly e x) (hf : ∀ a, RaisesOnly e (f a)) :
    RaisesOnly e (x >>= f) := by
  cases x with
  | ok a => exact hf a
  | error d => exact fun e' h => by cases h; exact hx d rfl

theorem eq {x : Except Raise α} {e' : Raise} (hx : RaisesOnly e x) (h : x = .error e') : x = .error e := by
  rw [h, hx e' h]

end RaisesOnly

/-! ### A zero divisor is the only error of the transforms (R171, R175, R179, R185) -/

theorem fdiv_raises (a b : F64) : RaisesOnly (.notFound .divZero) (fdiv a b) := .ite .error .ok

theorem squareToQuad_raises (q : Quad) : RaisesOnly (.notFound .divZero) (squareToQuad q) :=
  .ite .ok (.bind (fdiv_raises _ _) fun _ => .bind (fdiv_raises _ _) fun _ => .ok)

theorem quadToQuad_raises (src dst : Quad) : RaisesOnly (.notFound .divZero) (quadToQuad src dst) :=
  .bind (squareToQuad_raises dst) fun _ => .bind (.bind (squareToQuad_raises src) fun _ => .ok) fun _ => .ok

theorem transformPoint_raises (t : Xform) (x y : F64) : RaisesOnly (.notFound .divZero) (transformPoint t x y) :=
  .bind (fdiv_raises _ _) fun _ => .bind (fdiv_raises _ _) fun _ => .ok

theorem transformPoints_raises (t : Xform) (ps : List (F64 × F64)) :
    RaisesOnly (.notFound .divZero) (transformPoints t ps) := by
  induction ps with
  | nil => exact .ok
  | cons p ps ih => exact .bind (transformPoint_raises t p.1 p.2) fun _ => .bind ih fun _ => .ok

/-! ### The transform commands (R190 to R194) -/

theorem quadToSquare_of_ok {q : Quad} {t : Xform} (h : squareToQuad q = .ok t) : quadToSquare q = .ok (adjoint t) :=
  bind_of_ok h

theorem quadToQuad_of_ok {src dst : Quad} {d t : Xform} (hd : squareToQuad dst = .ok d) (ht : squareToQuad src = .ok t) :
    quadToQuad src dst = .ok (times d (adjoint t)) :=
  (bind_of_ok hd).trans (bind_of_ok (quadToSquare_of_ok ht))

/-- An error of either quadrilateral is an error of the map between them. -/
theorem quadToQuad_of_error {src dst : Quad} {e : Raise} (h : squareToQuad dst = .error e ∨ squareToQuad src = .error e) :
    quadToQuad src dst = .error (.notFound .divZero) := by
  cases hd : squareToQuad dst with
  | error e' => exact (quadToQuad_raises src dst).eq (bind_of_error hd)
  | ok d =>
    have hs : quadToSquare src = .error e := bind_of_error (h.resolve_left (by simp [hd]))
    exact (quadToQuad_raises src dst).eq ((bind_of_ok hd).trans (bind_of_error hs))

/-- Settles O37: each rule is its finite check, then its map, whose only error is a zero divisor. -/
theorem transformCommands : Obligations.TransformCommands := by
  refine fun s => ⟨fun h => ⟨?sq2qFloat, ?q2sqFloat⟩, fun h => ?q2qFloat, fun h => ?adjFloat, fun h => ?timesFloat,
    fun h => ⟨fun t ht => ⟨?sq2q, ?q2sq⟩, fun e he => ?squareDivZero⟩,
    fun h => ⟨fun d t hd ht => ?q2q, fun e he => ?q2qDivZero⟩, fun h => ?adj, fun h => ?times⟩
  case sq2qFloat => exact exec_of_error (.argRange .float) rfl (check_of_false h)
  case q2sqFloat => exact exec_of_error (.argRange .float) rfl (check_of_false h)
  case q2qFloat => exact exec_of_error (.argRange .float) rfl (check_of_false h)
  case adjFloat => exact exec_of_error (.argRange .float) rfl (check_of_false h)
  case timesFloat => exact exec_of_error (.argRange .float) rfl (check_of_false h)
  case sq2q => exact exec_of_ok rfl ((check_of_true h).trans (bind_of_ok ht))
  case q2sq => exact exec_of_ok rfl ((check_of_true h).trans (bind_of_ok (quadToSquare_of_ok ht)))
  case squareDivZero =>
    have hdiv := (squareToQuad_raises _).eq he
    exact ⟨exec_of_error (.notFound .divZero) rfl ((check_of_true h).trans (bind_of_error hdiv)),
      exec_of_error (.notFound .divZero) rfl ((check_of_true h).trans (bind_of_error (bind_of_error hdiv)))⟩
  case q2q => exact exec_of_ok rfl ((check_of_true h).trans (bind_of_ok (quadToQuad_of_ok hd ht)))
  case q2qDivZero =>
    exact exec_of_error (.notFound .divZero) rfl ((check_of_true h).trans (bind_of_error (quadToQuad_of_error he)))
  case adj => exact exec_of_ok rfl (check_of_true h)
  case times => exact exec_of_ok rfl (check_of_true h)

/-! ### `PT_XFORM` (R185, R195) -/

theorem length_pairsOf (m : Nat) (l : List F64) (h : l.length = 2 * m) : (pairsOf l).length = m := by
  induction m generalizing l with
  | zero => rw [List.eq_nil_of_length_eq_zero h]; rfl
  | succ m ih =>
    match l, h with
    | x :: y :: rest, h =>
      rw [pairsOf, List.length_cons, ih rest (by simp only [List.length_cons] at h; omega)]
    | [_], h => simp only [List.length_singleton] at h; omega

/-- `PT_XFORM` with a legal selector and finite operands. -/
theorem ptXform_eq {s : State} {m : Nat} (h1 : 1 ≤ m) (h8 : m ≤ 8) (hta : s.finiteFrom fTA 9 = true)
    (hq : s.finiteFrom fQ (2 * m) = true) :
    ptXform m s = (do
      let ps ← transformPoints (s.xform fTA) (pairsOf (s.fvals fQ (2 * m)))
      .ok (s.setFs fQ (unpairs ps))) :=
  (if_neg (by omega)).trans (check_of_true (by rw [hta, hq]; rfl))

/-- Settles O38: the checks in order, then `ptXform_eq`; a map of points keeps their number. -/
theorem transformOfPoints : Obligations.TransformOfPoints := by
  refine fun s m => ⟨fun hm => ?sel, fun h1 h8 hfin => ?float, fun h1 h8 hta hq => ⟨fun e he => ?divZero, fun ps hps => ?ok⟩⟩
  case sel => exact exec_of_error (.argRange .sel) rfl (if_pos hm)
  case float =>
    exact exec_of_error (.argRange .float) rfl
      ((if_neg (by omega)).trans (check_of_false (Bool.and_eq_false_iff.mpr hfin)))
  case divZero =>
    exact exec_of_error (.notFound .divZero) rfl
      ((ptXform_eq h1 h8 hta hq).trans (bind_of_error ((transformPoints_raises _ _).eq he)))
  case ok =>
    refine ⟨?_, exec_of_ok rfl ((ptXform_eq h1 h8 hta hq).trans (bind_of_ok hps))⟩
    rw [length_transformPoints _ _ _ hps, length_pairsOf m _ (by simp [State.fvals])]

/-! ### `PT_COPY` (R196) -/

/-- A copy changes `f` only. -/
theorem copyF_with_f (s : State) (dst src n : Nat) : { s.copyF dst src n with f := s.f } = s :=
  List.foldlRecOn (motive := fun t : State => { t with f := s.f } = s) (List.range n) _ rfl fun _ ht _ _ => ht

/-- Where a copied encoding is read. -/
theorem fbits_copyF (s : State) (dst src : Nat) {n k : Nat} (hk : k < n) (hdst : dst + n ≤ 48) :
    (s.copyF dst src n).fbits (dst + k) = s.fbits (src + k) := by
  induction n with
  | zero => omega
  | succ n ih =>
    have hlast : s.copyF dst src (n + 1) = (s.copyF dst src n).setFbits (dst + n) (s.fbits (src + n)) := by
      simp [State.copyF, List.range_succ]
    rw [hlast, fbits_setFbits]
    by_cases hkn : k = n
    · rw [if_pos (by omega), hkn]
    · rw [if_neg (by omega), ih (by omega) (by omega)]

theorem fbits_copyF_outside (s : State) (dst src n : Nat) {k : Nat} (h : k < dst ∨ dst + n ≤ k) :
    (s.copyF dst src n).fbits k = s.fbits k :=
  (copyF_frame s dst src n).floats k (outsideGroups_singleton.mpr h)

/-- Settles O39: `ptCopy` is `copyF` one way or the other. -/
theorem transformCopy : Obligations.TransformCopy := by
  refine ⟨fun s => ⟨s.copyF 9 0 9, exec_of_ok rfl rfl, copyF_with_f s 9 0 9, fun k hk => ?toTB, fun k hk => ?notTB⟩,
    fun s => ⟨s.copyF 0 9 9, exec_of_ok rfl rfl, copyF_with_f s 0 9 9, fun k hk => ?toTA, fun k hk => ?notTA⟩,
    fun s m hm => ?sel⟩
  case toTB => simpa using fbits_copyF s 9 0 hk (by decide)
  case notTB => exact fbits_copyF_outside s 9 0 9 (by omega)
  case toTA => simpa using fbits_copyF s 0 9 hk (by decide)
  case notTA => exact fbits_copyF_outside s 0 9 9 (by omega)
  case sel => exact exec_of_error (.argRange .sel) rfl ((if_neg (by omega)).trans (if_neg (by omega)))

/-! ### `GRID_SAMPLE` (R197) -/

theorem ofNat_argNat (s : State) {k : Nat} (hk : k < 4) : Word.ofNat (s.argNat k) = s.arg[k] := by
  rw [argNat_eq_toNat s hk, Word.ofNat, BitVec.ofNat_toNat, BitVec.setWidth_eq]

/-- A byte is read from the memory and the draw in force. -/
theorem byte_congr {s t : State} (hmem : t.mem = s.mem) (hepoch : t.epoch = s.epoch) (a : Nat) : t.byte a = s.byte a := by
  simp only [State.byte, hmem, hepoch]

theorem bit_congr {s t : State} (hmem : t.mem = s.mem) (hepoch : t.epoch = s.epoch) (base n : Nat) :
    t.bit base n = s.bit base n := by
  simp only [State.bit, byte_congr hmem hepoch]

theorem byte_putGrid (s : State) (w h : Nat) (rows : List (List Bool)) (a : Nat) :
    (s.putGrid w h rows).byte a =
      (s.putMatrix Window.grid.base w h fun x y => (rows.getD y []).getD x false).byte a := byte_congr rfl rfl a

theorem bit_putGrid (s : State) (w h : Nat) (rows : List (List Bool)) (base n : Nat) :
    (s.putGrid w h rows).bit base n =
      (s.putMatrix Window.grid.base w h fun x y => (rows.getD y []).getD x false).bit base n := bit_congr rfl rfl base n

/-- A sampled grid reads back by coordinates. -/
theorem bit_grid_putGrid (s : State) {w h x y : Nat} (rows : List (List Bool)) (hw : w < 2 ^ 32) (hx : x < w)
    (hy : y < h) : (s.putGrid w h rows).grid.bit x y = (rows.getD y []).getD x false := by
  have hside : (s.putGrid w h rows).gridW.toNat = w := by
    rw [putGrid_gridW, Word.ofNat, BitVec.toNat_ofNat, Nat.mod_eq_of_lt hw]
  change (s.putGrid w h rows).bit Window.grid.base (y * (s.putGrid w h rows).gridW.toNat + x) = _
  rw [hside, bit_putGrid, bit_putMatrix s _ w h _ x y hx hy]

theorem bit_putGrid_beyond (s : State) {w h n : Nat} (rows : List (List Bool)) (hn : w * h ≤ n) :
    (s.putGrid w h rows).bit 0x8000 n = s.bit 0x8000 n :=
  (bit_putGrid s w h rows _ n).trans ((bit_putBits s Window.grid.base (w * h) _ n).trans (if_neg hn.not_gt))

theorem putGrid_sameBytesOutside (s : State) (w h : Nat) (rows : List (List Bool)) :
    sameBytesOutside s (s.putGrid w h rows) 0x8000 ((w * h + 7) / 8) := fun a ha =>
  (byte_putGrid s w h rows a).trans (byte_putBits_outside s Window.grid.base (w * h) _ a ha)

/-- `GRID_SAMPLE` with legal sizes. -/
theorem gridSample_of_sizes {s : State} (himg : s.imgDimsOk = true) (h0 : 1 ≤ s.argNat 0 ∧ s.argNat 0 ≤ 177)
    (h1 : 1 ≤ s.argNat 1 ∧ s.argNat 1 ≤ 177) :
    gridSample s = if !s.finiteFrom fTA 9 then .error (.argRange .float) else (do
      let rows ← sampleGrid s.image (s.argNat 0) (s.argNat 1) (s.xform fTA)
      .ok (s.putGrid (s.argNat 0) (s.argNat 1) rows)) :=
  (check_of_true himg).trans (if_neg (by simp only [maxGrid]; omega))

/-- Settles O40: the checks by `gridSample_of_sizes`, the writes by the reading rules of `putGrid`. -/
theorem sampledGrid : Obligations.SampledGrid := by
  refine fun s => ⟨fun h => ?dims, fun himg h1 h2 h3 h4 => ?sizes⟩
  case dims =>
    refine exec_of_error (.argRange .dims) rfl ?_
    cases himg : s.imgDimsOk with
    | false => exact check_of_false himg
    | true => exact (check_of_true himg).trans (if_pos (h.resolve_left (by simp [himg])))
  case sizes =>
    have hrule := gridSample_of_sizes himg ⟨h1, h2⟩ ⟨h3, h4⟩
    refine ⟨fun hfin => ?float, fun hfin e he => ?error, fun hfin rows hrows => ?ok⟩
    case float => exact exec_of_error (.argRange .float) rfl (hrule.trans (check_of_false hfin))
    case error => exact exec_of_error e rfl (hrule.trans ((check_of_true hfin).trans (bind_of_error he)))
    case ok =>
      exact ⟨s.putGrid (s.argNat 0) (s.argNat 1) rows,
        exec_of_ok rfl (hrule.trans ((check_of_true hfin).trans (bind_of_ok hrows))), rfl,
        ofNat_argNat s (by decide), ofNat_argNat s (by decide),
        fun x y hx hy => bit_grid_putGrid s rows (by omega) hx hy, fun n hn => bit_putGrid_beyond s rows hn,
        putGrid_sameBytesOutside s _ _ rows⟩

/-! ### `MODULE_SIZE` and `CREATE_XFORM` (R198, R200) -/

/-- The module size with its points examined first, and no bound yet (R184, R198). -/
def State.measuredSize (s : State) : Except Raise F64 := do
  pointInside s.image (s.pt fTL)
  pointInside s.image (s.pt fTR)
  pointInside s.image (s.pt fBL)
  moduleSize s.params.bresenham s.image (s.pt fTL) (s.pt fTR) (s.pt fBL)

/-- The write of `MODULE_SIZE`, refused for a NaN and for a size below 1 (R198). -/
def State.putModuleSize (s : State) (ms : F64) : Except Raise State :=
  if F64.le (F64.ofNat 1) ms then .ok (s.setF fMS ms) else .error (.notFound .moduleSize)

/-- `MODULE_SIZE` past its operand checks: a size, then its bound and its write. -/
theorem moduleSizeCmd_eq {s : State} (himg : s.imgDimsOk = true) (hfin : s.cornersFinite = true) :
    moduleSizeCmd s = s.measuredSize >>= s.putModuleSize := by
  refine ((check_of_true himg).trans (check_of_true hfin)).trans ?_
  have hput : ∀ ms : F64, ((if F64.le (F64.ofNat 1) ms then .ok ms else .error (.notFound .moduleSize) : Except Raise F64)
      >>= fun ms => .ok (s.setF fMS ms)) = s.putModuleSize ms := fun ms => by
    unfold State.putModuleSize
    split <;> rfl
  simp only [State.measuredSize, checkedModuleSize, bind_assoc, hput]

theorem measuredSize_of_inside {s : State} (htl : pointInside s.image (s.pt fTL) = .ok ())
    (htr : pointInside s.image (s.pt fTR) = .ok ()) (hbl : pointInside s.image (s.pt fBL) = .ok ()) :
    s.measuredSize = moduleSize s.params.bresenham s.image (s.pt fTL) (s.pt fTR) (s.pt fBL) :=
  (bind_of_ok htl).trans ((bind_of_ok htr).trans (bind_of_ok hbl))

/-- The binary64 check of `CREATE_XFORM`. -/
theorem createXform_finite_iff (s : State) :
    (s.cornersFinite && (!s.apValid || s.finiteFrom fAP 2)) = true ↔
      s.cornersFinite = true ∧ (s.apValid = true → s.finiteFrom fAP 2 = true) := by
  cases s.apValid <;> simp

/-- Settles O41: `MODULE_SIZE` by `moduleSizeCmd_eq`; `CREATE_XFORM` is its two checks, then the transform. -/
theorem moduleSizeAndTransform : Obligations.ModuleSizeAndTransform := by
  refine fun s => ⟨fun himg => ?dims, fun himg hfin => ?float, fun himg hfin e he => ?error,
    fun himg hfin ms htl htr hbl hms => ⟨fun hle => ?size, fun hle => ?small⟩, fun h => ?xformFloat,
    fun hfin hap => ⟨fun hdim => ?dim, fun e h21 h177 he => ?xformError, fun t h21 h177 ht => ?xform⟩⟩
  case dims => exact exec_of_error (.argRange .dims) rfl (check_of_false himg)
  case float => exact exec_of_error (.argRange .float) rfl ((check_of_true himg).trans (check_of_false hfin))
  case error => exact exec_of_error e rfl ((moduleSizeCmd_eq himg hfin).trans (bind_of_error he))
  case size =>
    exact exec_of_ok rfl ((moduleSizeCmd_eq himg hfin).trans
      ((bind_of_ok ((measuredSize_of_inside htl htr hbl).trans hms)).trans (if_pos hle)))
  case small =>
    exact exec_of_error (.notFound .moduleSize) rfl ((moduleSizeCmd_eq himg hfin).trans
      ((bind_of_ok ((measuredSize_of_inside htl htr hbl).trans hms)).trans (if_neg (by simp [hle]))))
  case xformFloat =>
    refine exec_of_error (.argRange .float) rfl (check_of_false (Bool.eq_false_iff.mpr fun hok => ?_))
    obtain ⟨hfin, hap⟩ := (createXform_finite_iff s).mp hok
    rcases h with h | ⟨hv, h⟩
    · exact absurd (h.symm.trans hfin) (by decide)
    · exact absurd (h.symm.trans (hap hv)) (by decide)
  all_goals have hcheck := (createXform_finite_iff s).mpr ⟨hfin, hap⟩
  case dim => exact exec_of_error (.argRange .state) rfl ((check_of_true hcheck).trans (if_pos hdim))
  case xformError =>
    exact exec_of_error e rfl ((check_of_true hcheck).trans ((if_neg (by omega)).trans (bind_of_error he)))
  case xform =>
    exact exec_of_ok rfl ((check_of_true hcheck).trans ((if_neg (by omega)).trans (bind_of_ok ht)))

/-! ### `DIMENSION` (R199) -/

/-- Settles O42: the range of the answer is `dimensionAndVersion_ok`. -/
theorem dimensionIsOneModFour : Obligations.DimensionIsOneModFour := by
  refine fun s => ⟨fun h => ?float, fun hfin hms e he => ?error, fun hfin hms d v hdv => ?ok⟩
  case float => exact exec_of_error (.argRange .float) rfl (check_of_false (Bool.and_eq_false_iff.mpr h))
  all_goals have hcheck : (s.cornersFinite && s.finiteFrom fMS 1) = true := Bool.and_eq_true_iff.mpr ⟨hfin, hms⟩
  case error => exact exec_of_error e rfl ((check_of_true hcheck).trans (bind_of_error he))
  case ok =>
    obtain ⟨h1, h40, hd⟩ := dimensionAndVersion_ok _ _ _ _ d v hdv
    exact ⟨by omega, hd, h1, h40, exec_of_ok rfl ((check_of_true hcheck).trans (bind_of_ok hdv))⟩

/-! ### What the steps of `DETECT` leave to be read -/

/-- The image is read from the fixed parts and the memory. -/
theorem image_congr {s t : State} (hfixed : t.fixed = s.fixed) (hmem : t.mem = s.mem) : t.image = s.image := by
  have hw : t.imgW = s.imgW := congrArg Fixed.imgW hfixed
  have hh : t.imgH = s.imgH := congrArg Fixed.imgH hfixed
  have he : t.epoch = s.epoch := congrArg Fixed.epoch hfixed
  simp only [State.image, hw, hh, bit_congr hmem he]

theorem pt_congr {s t : State} {k : Nat} (h0 : t.fbits k = s.fbits k) (h1 : t.fbits (k + 1) = s.fbits (k + 1)) :
    t.pt k = s.pt k := by
  simp only [State.pt, State.fval, h0, h1]

theorem setF_image (s : State) (k : Nat) (v : F64) : (s.setF k v).image = s.image :=
  image_congr (setF_fixed s k v) (setF_mem s k v)

theorem setFs_image (s : State) (k : Nat) (vs : List F64) : (s.setFs k vs).image = s.image :=
  image_congr (setFs_fixed s k vs) (setFs_mem s k vs)

theorem finderStep_image (s : State) : (finderStep s).1.image = s.image :=
  image_congr (finderStep_fixed s) (finderStep_mem s)

theorem finderStep_params (s : State) : (finderStep s).1.params = s.params :=
  congrArg Fixed.params (finderStep_fixed s)

theorem alignStep_image (ms : F64) (d v : Nat) (s : State) : (alignStep ms d v s).1.image = s.image :=
  image_congr (alignStep_fixed ms d v s) (alignStep_mem ms d v s)

/-- The module size is written past the finder points. -/
theorem setF_ms_pt (s : State) (ms : F64) {k : Nat} (h : k < 43) : (s.setF fMS ms).pt k = s.pt k :=
  pt_congr (fbits_setF_other s 46 k ms (by omega)) (fbits_setF_other s 46 (k + 1) ms (by omega))

/-- The alignment step writes past the finder points. -/
theorem alignStep_pt (ms : F64) (d v : Nat) (s : State) {k : Nat} (h : k < 42) :
    (alignStep ms d v s).1.pt k = s.pt k := by
  obtain ⟨_, _, _, _, -, -, hfloats⟩ := alignStep_cases ms d v s
  exact pt_congr (hfloats k (.inl (by omega))) (hfloats (k + 1) (.inl (by omega)))

theorem alignStep_version_one (ms : F64) (d : Nat) (s : State) : (alignStep ms d 1 s).1.apValid = false := by
  rw [alignStep, if_pos (by decide)]

/-- What the size and dimension steps of `DETECT` write (R198, R199). -/
def State.putSize (s : State) (ms : F64) (d v : Nat) : State :=
  { s.setF fMS ms with dim := Word.ofNat d, pver := BitVec.ofNat 6 v }

/-- The finder points stand through the size, dimension and alignment steps. -/
theorem alignStep_putSize_pt {s t : State} {ms : F64} {d v k : Nat} {e : Option Raise}
    (h : alignStep ms d v (s.putSize ms d v) = (t, e)) (hk : k < 42) : t.pt k = s.pt k := by
  have halign := alignStep_pt ms d v (s.putSize ms d v) hk
  rw [h] at halign
  exact halign.trans (setF_ms_pt s ms (by omega))

/-- The image stands through the size, dimension and alignment steps. -/
theorem alignStep_putSize_image {s t : State} {ms : F64} {d v : Nat} {e : Option Raise}
    (h : alignStep ms d v (s.putSize ms d v) = (t, e)) : t.image = s.image := by
  have halign := alignStep_image ms d v (s.putSize ms d v)
  rw [h] at halign
  exact halign.trans (setF_image s fMS ms)

/-! ### `DETECT` (R189, R201) -/

/-- How a composite command ends: where its first step ends it, or as the rest ends it. -/
theorem endCommand_andThen {r : Ended} {k : State → Ended} {f : State → State} :
    (∀ t, r = (t, none) → endCommand (k t) = .next (f t)) →
    endCommand (r.andThen k) = .next (match r with
      | (t, some e) => t.failed e.code.toNat e.detail.toNat
      | (t, none) => f t) := by
  intro h
  obtain ⟨t, _ | e⟩ := r
  · exact h t rfl
  · exact endCommand_some t e

/-- Settles O43: along the steps of `detect`, each of which raises or goes on; the image is the command's and the points
are the finder step's at every step. -/
theorem detectWritesEachStep : Obligations.DetectWritesEachStep := by
  have hdims : ∀ s : State, s.imgDimsOk = false → exec .detect s = .next (s.failed 6 3) := fun s himg => by
    rw [exec_eq_endCommand, ruleOf, detect, if_pos (by simp [himg]), endCommand_some]
    rfl
  refine ⟨hdims, (fun hsteps => ⟨hsteps, fun s s1 s2 ms d v t rows himg h1 hms hdv h2 ht hrows => ⟨?ok, fun hv => ?one⟩⟩ :
    _ → _ ∧ _) fun s himg => ?steps⟩
  case ok =>
    rw [hsteps s himg]
    simp only [h1, hms, hdv, h2, ht, hrows]
  case one =>
    subst hv
    have halign := alignStep_version_one ms d (s1.putSize ms d 1)
    rwa [show alignStep ms d 1 (s1.putSize ms d 1) = (s2, none) from h2] at halign
  case steps =>
    rw [exec_eq_endCommand, ruleOf, detect, if_neg (by simp [himg])]
    refine endCommand_andThen fun s1 h1 => ?_
    have himage : s1.image = s.image := by rw [← finderStep_image s, h1]
    have hparams : s1.params = s.params := by rw [← finderStep_params s, h1]
    rw [himage, hparams]
    cases checkedModuleSize s.params.bresenham s.image (s1.pt 37) (s1.pt 40) (s1.pt 34) with
    | error e => exact endCommand_some s1 e
    | ok ms =>
    simp (disch := decide) only [computing_ok, setF_ms_pt]
    cases dimensionAndVersion (s1.pt 37) (s1.pt 40) (s1.pt 34) ms with
    | error e => exact endCommand_some (s1.setF fMS ms) e
    | ok dv =>
    obtain ⟨d, v⟩ := dv
    refine endCommand_andThen fun s2 (h2 : alignStep ms d v (s1.putSize ms d v) = (s2, none)) => ?_
    simp (disch := decide) only [alignStep_putSize_pt h2, setFs_image, alignStep_putSize_image h2, himage, State.alignPt]
    cases createTransform (s1.pt 37) (s1.pt 40) (s1.pt 34) (if s2.apValid then some (s2.pt 43) else none) d with
    | error e => exact endCommand_some s2 e
    | ok t =>
    simp only [computing_ok]
    cases sampleGrid s.image d d t with
    | error e => exact endCommand_some (s2.setFs fTA t.list) e
    | ok rows => exact endCommand_none _

end Sys2Proof.Machine
end

section
/-! PROOFS, family 44_patterns (O44 to O46). `ORDER3` is a case split on the longest side and the order laws of binary64.
`FIND_ALIGN` is its checks, then its search. `FIND_FINDER` is its scan, then its selection: an overflow of the scan can only
come from the one place that adds a candidate, and a row of white pixels never reaches the pattern test with a black run. -/

namespace Sys2Proof.Machine

/-! ### The three points of `orderBestPatterns` (R246) -/

/-- A point with finite coordinates. -/
def Pt.IsFinite (P : Pt) : Prop := P.x.isFinite = true ∧ P.y.isFinite = true

/-- The distance of two points (R174). -/
def Pt.dist (P Q : Pt) : F64 := distance P.x P.y Q.x Q.y

/-- The cross product whose sign orders the points (R246). -/
def cross (A B C : Pt) : F64 :=
  mulSub (F64.sub C.x B.x) (F64.sub A.y B.y) (F64.sub C.y B.y) (F64.sub A.x B.x)

/-- No side is longer than the one opposite the middle point `B`. -/
def MiddleOppositeLongest (A B C : Pt) : Prop :=
  F64.le (A.dist B) (A.dist C) = true ∧ F64.le (B.dist C) (A.dist C) = true

theorem Pt.dist_comm (P Q : Pt) : P.dist Q = Q.dist P := distance_comm _ _ _ _

theorem Pt.dist_not_nan {P Q : Pt} (hP : P.IsFinite) (hQ : Q.IsFinite) : (P.dist Q).isNaN = false :=
  distance_not_nan _ _ _ _ hP.1 hP.2 hQ.1 hQ.2

theorem MiddleOppositeLongest.swap {A B C : Pt} (h : MiddleOppositeLongest A B C) : MiddleOppositeLongest C B A := by
  obtain ⟨hAB, hBC⟩ := h
  unfold MiddleOppositeLongest
  rw [C.dist_comm B, C.dist_comm A, B.dist_comm A]
  exact ⟨hBC, hAB⟩

/-- With its outer points exchanged, a negative cross product is negative no more. -/
theorem cross_swap_not_neg {A B C : Pt} (h : F64.lt (cross A B C) (F64.zero false) = true) :
    F64.lt (cross C B A) (F64.zero false) = false := by
  have hswap := F64.sub_swap_not_neg _ _ h
  rwa [F64.mul_comm (F64.sub C.y B.y), F64.mul_comm (F64.sub C.x B.x)] at hswap

/-- Of three numbers, where neither the second nor the third is the largest, the first is. -/
theorem le_of_not_largest {x y z : F64} (hx : x.isNaN = false) (hy : y.isNaN = false) (hz : z.isNaN = false)
    (hnotY : ¬ (F64.le x y && F64.le z y) = true) (hnotZ : ¬ (F64.le y z && F64.le x z) = true) :
    F64.le z x = true ∧ F64.le y x = true := by
  rw [Bool.and_eq_true] at hnotY hnotZ
  rcases F64.le_total y x hy hx with hyx | hxy
  · rcases F64.le_total z x hz hx with hzx | hxz
    · exact ⟨hzx, hyx⟩
    · exact absurd ⟨F64.le_trans y x z hyx hxz, hxz⟩ hnotZ
  · rcases F64.le_total z y hz hy with hzy | hyz
    · exact absurd ⟨hxy, hzy⟩ hnotY
    · exact absurd ⟨hyz, F64.le_trans x y z hxy hyz⟩ hnotZ

/-- The points `a`, `b`, `c` with `b` in the middle, the outer two by the sign of the cross product. -/
def orient (p : Nat → Pt) (a b c : Nat) : Nat × Nat × Nat :=
  if F64.lt (cross (p a) (p b) (p c)) (F64.zero false) then (c, b, a) else (a, b, c)

theorem orderPoints_eq (p : Nat → Pt) :
    orderPoints (p 0) (p 1) (p 2) =
      if F64.le ((p 0).dist (p 1)) ((p 1).dist (p 2)) && F64.le ((p 0).dist (p 2)) ((p 1).dist (p 2)) then orient p 1 0 2
      else if F64.le ((p 1).dist (p 2)) ((p 0).dist (p 2)) && F64.le ((p 0).dist (p 1)) ((p 0).dist (p 2)) then
        orient p 0 1 2
      else orient p 0 2 1 := by
  unfold orderPoints Pt.dist
  dsimp only
  split
  · rfl
  · split <;> rfl

/-- `orderBestPatterns` puts the middle point opposite the longest side. -/
theorem orderPoints_middle {p : Nat → Pt} (hfin : ∀ k < 3, (p k).IsFinite) :
    ∃ a b c, orderPoints (p 0) (p 1) (p 2) = orient p a b c ∧ [a, b, c].Perm [0, 1, 2] ∧
      MiddleOppositeLongest (p a) (p b) (p c) := by
  have hnan (i j : Nat) (hi : i < 3) (hj : j < 3) : ((p i).dist (p j)).isNaN = false :=
    Pt.dist_not_nan (hfin i hi) (hfin j hj)
  rw [orderPoints_eq]
  split
  · next h12 =>
    obtain ⟨h01, h02⟩ := Bool.and_eq_true_iff.mp h12
    exact ⟨1, 0, 2, rfl, by decide, by rwa [(p 1).dist_comm], h02⟩
  · next hnot12 =>
    split
    · next h02 =>
      obtain ⟨h12, h01⟩ := Bool.and_eq_true_iff.mp h02
      exact ⟨0, 1, 2, rfl, by decide, h01, h12⟩
    · next hnot02 =>
      obtain ⟨h02, h12⟩ := le_of_not_largest (hnan 0 1 (by decide) (by decide)) (hnan 1 2 (by decide) (by decide))
        (hnan 0 2 (by decide) (by decide)) hnot12 hnot02
      exact ⟨0, 2, 1, rfl, by decide, h02, by rwa [(p 2).dist_comm]⟩

/-- `orderBestPatterns` in the geometry's words. -/
theorem orderPoints_ordered {p : Nat → Pt} (hfin : ∀ k < 3, (p k).IsFinite) :
    ∃ a b c, orderPoints (p 0) (p 1) (p 2) = (a, b, c) ∧ [a, b, c].Perm [0, 1, 2] ∧
      MiddleOppositeLongest (p a) (p b) (p c) ∧ F64.lt (cross (p a) (p b) (p c)) (F64.zero false) = false := by
  obtain ⟨a, b, c, heq, hperm, hmiddle⟩ := orderPoints_middle hfin
  cases hneg : F64.lt (cross (p a) (p b) (p c)) (F64.zero false) with
  | true =>
    exact ⟨c, b, a, heq.trans (if_pos hneg), (List.reverse_perm [a, b, c]).trans hperm, hmiddle.swap,
      cross_swap_not_neg hneg⟩
  | false => exact ⟨a, b, c, heq.trans (if_neg (by simp [hneg])), hperm, hmiddle, hneg⟩

/-! ### `ORDER3` (R256) -/

theorem finiteFrom_iff (s : State) (k n : Nat) :
    s.finiteFrom k n = true ↔ ∀ i < n, (s.fval (k + i)).isFinite = true := by
  simp [State.finiteFrom, State.fvals]

theorem pt_isFinite {s : State} {k n i : Nat} (h : s.finiteFrom k n = true) (hi : i + 1 < n) :
    (s.pt (k + i)).IsFinite :=
  ⟨(finiteFrom_iff s k n).mp h i (by omega), (finiteFrom_iff s k n).mp h (i + 1) hi⟩

/-- The pair of registers number `d` from `Q` on, written with the pair number `src` of `s`. -/
def State.copyPair (t s : State) (d src : Nat) : State :=
  (t.setFbits (18 + 2 * d) (s.fbits (18 + 2 * src))).setFbits (18 + 2 * d + 1) (s.fbits (18 + 2 * src + 1))

/-- What `ORDER3` writes. -/
def State.permutePairs (s : State) (a b c : Nat) : State :=
  (((s.copyPair s 0 a).copyPair s 1 b).copyPair s 2 c).setRes0 (a + 4 * b + 16 * c)

theorem fbits_setRes0 (s : State) (n k : Nat) : (s.setRes0 n).fbits k = s.fbits k := rfl

/-- A copied pair changes `f` only. -/
theorem copyPair_with_f (t s : State) (d src : Nat) (g : Vector Bits64 48) :
    { t.copyPair s d src with f := g } = { t with f := g } := rfl

theorem setRes0_with (s : State) (n : Nat) (g : Vector Bits64 48) (r : Word) :
    { s.setRes0 n with f := g, res0 := r } = ({ ({ s with f := g } : State) with res0 := r } : State) := rfl

theorem fbits_copyPair (t s : State) {d : Nat} (src k : Nat) (hd : d < 3) :
    (t.copyPair s d src).fbits k =
      if k = 18 + 2 * d then s.fbits (18 + 2 * src)
      else if k = 19 + 2 * d then s.fbits (19 + 2 * src) else t.fbits k := by
  have hodd (j : Nat) : 18 + 2 * j + 1 = 19 + 2 * j := by omega
  rw [State.copyPair, hodd, hodd, fbits_setFbits, fbits_setFbits]
  have hbound : 18 + 2 * d < 48 ∧ 19 + 2 * d < 48 := by omega
  by_cases heven : k = 18 + 2 * d
  · rw [if_neg (by omega), if_pos ⟨heven, hbound.1⟩, if_pos heven]
  · simp only [heven, hbound.2, and_true, false_and, if_false]

theorem fbits_permutePairs_outside (s : State) (a b c : Nat) {k : Nat} (h : k < 18 ∨ 24 ≤ k) :
    (s.permutePairs a b c).fbits k = s.fbits k := by
  simp (disch := omega) only [State.permutePairs, fbits_setRes0, fbits_copyPair, if_neg]

theorem permutePairs_with (s : State) (a b c : Nat) :
    { s.permutePairs a b c with f := s.f, res0 := s.res0 } = s := by
  rw [State.permutePairs, setRes0_with, copyPair_with_f, copyPair_with_f, copyPair_with_f]

theorem order3_eq {s : State} {a b c : Nat} (hfin : s.finiteFrom fQ 6 = true)
    (h : orderPoints (s.pt 18) (s.pt 20) (s.pt 22) = (a, b, c)) : order3 s = .ok (s.permutePairs a b c) := by
  refine (check_of_true hfin).trans ?_
  simp only [h]
  rfl

/-- Settles O46: the geometry by `orderPoints_ordered`, the writes by `fbits_copyPair`. -/
theorem orderIsPermutation : Obligations.OrderIsPermutation := by
  refine fun s => ⟨fun h => exec_of_error (.argRange .float) rfl (check_of_false h), fun hfin => ?_⟩
  obtain ⟨a, b, c, horder, hperm, ⟨hAB, hBC⟩, hcross⟩ :=
    orderPoints_ordered (p := fun k => s.pt (18 + 2 * k)) fun k hk => pt_isFinite hfin (by omega)
  refine ⟨s.permutePairs a b c, a, b, c, exec_of_ok rfl (order3_eq hfin horder), horder, hperm,
    permutePairs_with s a b c, rfl,
    ?_, ?_, ?_, ?_, ?_, ?_, fun k hk => fbits_permutePairs_outside s a b c hk,
    fun _ _ _ hA hB hC => by subst hA hB hC; exact ⟨hAB, hBC, hcross⟩⟩
  all_goals
    simp [State.permutePairs, fbits_setRes0, fbits_copyPair]

/-! ### Commands whose rule may write before it raises -/

theorem exec_of_ended {i : Instr} {s t : State} (h : ruleOf s i = (t, none)) : exec i s = .next t.finished := by
  rw [exec_eq_endCommand, h, endCommand_none]

theorem exec_of_raised {i : Instr} {s t : State} (e : Raise) (h : ruleOf s i = (t, some e)) :
    exec i s = .next (t.failed e.code.toNat e.detail.toNat) := by
  rw [exec_eq_endCommand, h, endCommand_some]

/-! ### `FIND_ALIGN` (R262, R266) -/

section FindAlign

variable {s : State} (himg : s.imgDimsOk = true)
include himg

theorem findAlignCmd_of_badSize (h : (s.fval fMS).isFinite = false ∨ F64.lt (F64.zero false) (s.fval fMS) = false) :
    findAlignCmd s = (s, some (.argRange .float)) :=
  (if_neg (by rw [himg]; decide)).trans (if_pos (by rw [Bool.and_eq_false_iff.mpr h]; rfl))

variable (hfin : (s.fval fMS).isFinite = true) (hpos : F64.lt (F64.zero false) (s.fval fMS) = true)
include hfin hpos

/-- `FIND_ALIGN` past its checks of the image and of `MS`. -/
theorem findAlignCmd_of_goodSize {l : List AlignCand} {r : Except Raise AlignCand}
    (hsearch : s.alignSearch (s.fval fMS) (s.argInt 0) (s.argInt 1) (s.argNat 2) = (l, r)) :
    findAlignCmd s = if 65535 < s.argNat 2 then (s, some (.argRange .arg)) else
      computing { s with acand := l } r fun c => (State.putAlign { s with acand := l } c, none) := by
  refine (if_neg (by rw [himg]; decide)).trans ((if_neg (by rw [hfin, hpos]; decide)).trans ?_)
  rw [hsearch]

theorem findAlignCmd_of_badArg (harg : 65535 < s.argNat 2) : findAlignCmd s = (s, some (.argRange .arg)) :=
  (findAlignCmd_of_goodSize himg hfin hpos rfl).trans (if_pos harg)

theorem findAlignCmd_of_search {l : List AlignCand} {r : Except Raise AlignCand} (harg : s.argNat 2 ≤ 65535)
    (hsearch : s.alignSearch (s.fval fMS) (s.argInt 0) (s.argInt 1) (s.argNat 2) = (l, r)) :
    findAlignCmd s = computing { s with acand := l } r fun c => (State.putAlign { s with acand := l } c, none) :=
  (findAlignCmd_of_goodSize himg hfin hpos hsearch).trans (if_neg harg.not_gt)

end FindAlign

/-- Settles O45: the checks in order, then what the search came to. -/
theorem alignmentWritesPattern : Obligations.AlignmentWritesPattern := by
  refine fun s => ⟨fun himg => ?dims, fun himg hms => ?float, fun himg hfin hpos =>
    ⟨fun harg => ?arg, fun harg l r hsearch => ⟨fun c hc => ?found, fun e he => ?error⟩⟩⟩
  case dims => exact exec_of_raised (.argRange .dims) (if_pos (by rw [himg]; rfl))
  case float => exact exec_of_raised (.argRange .float) (findAlignCmd_of_badSize himg hms)
  case arg => exact exec_of_raised (.argRange .arg) (findAlignCmd_of_badArg himg hfin hpos harg)
  case found =>
    subst hc
    exact exec_of_ended (findAlignCmd_of_search himg hfin hpos harg hsearch)
  case error =>
    subst he
    exact exec_of_raised e (findAlignCmd_of_search himg hfin hpos harg hsearch)

/-! ### Where an overflow of the finder's scan comes from (R251, R255) -/

/-- `x` is `CAPACITY(FINDER_FULL)` only where `p` holds. -/
def OverflowsOnlyIf {α : Type} (p : Prop) (x : Except Raise α) : Prop := x = .error (.capacity .finderFull) → p

namespace OverflowsOnlyIf

variable {α β : Type} {p : Prop}

theorem ok {a : α} : OverflowsOnlyIf p (.ok a : Except Raise α) := fun h => nomatch h

theorem of_raises {d : NotFound} {x : Except Raise α} (h : RaisesOnly (.notFound d) x) : OverflowsOnlyIf p x :=
  fun hx => nomatch h _ hx

theorem bind {x : Except Raise α} {f : α → Except Raise β} (hx : OverflowsOnlyIf p x)
    (hf : ∀ a, OverflowsOnlyIf p (f a)) : OverflowsOnlyIf p (x >>= f) := by
  cases x with
  | ok a => exact hf a
  | error e => exact fun h => hx (by cases h; rfl)

end OverflowsOnlyIf

theorem toInt_raises (v : F64) : RaisesOnly (.notFound .floatRange) (toInt v) := by
  unfold toInt
  split
  · exact .error
  · exact .ite .error .ok

theorem combineEstimate_raises (c : FinderCand) (i j ms : F64) :
    RaisesOnly (.notFound .divZero) (combineEstimate c i j ms) :=
  .bind (fdiv_raises _ _) fun _ => .bind (fdiv_raises _ _) fun _ => .bind (fdiv_raises _ _) fun _ => .ok

theorem findRowSkip_raises (l : List FinderCand) : RaisesOnly (.notFound .floatRange) (findRowSkip l) := by
  unfold findRowSkip
  split
  · exact .bind (toInt_raises _) fun _ => .ok
  · exact .ok
  · exact .ok

theorem haveMultiplyConfirmedCenters_raises (l : List FinderCand) :
    RaisesOnly (.notFound .divZero) (haveMultiplyConfirmedCenters l) :=
  .ite .ok (.bind (fdiv_raises _ _) fun _ => .ok)

/-- The one place that adds a candidate overflows only on a full list. -/
theorem mergeCand_overflows (cap : Nat) (i j ms : F64) (l : List FinderCand) :
    OverflowsOnlyIf (cap ≤ l.length) (mergeCand cap i j ms l) := by
  unfold mergeCand
  split
  · split
    · exact .bind (.of_raises (combineEstimate_raises _ _ _ _)) fun _ => .ok
    · exact .ok
  · split
    · exact .ok
    · next hfull => exact fun _ => Nat.le_of_not_lt hfull

theorem handlePossibleCenter_overflows (im : BitMatrix) (cap : Nat) (l : List FinderCand) (s : Runs5) (i j : Int) :
    OverflowsOnlyIf (cap ≤ l.length) (handlePossibleCenter im cap l s i j) := by
  refine .bind (.of_raises (toInt_raises _)) fun cJ0 => ?_
  split
  · exact .ok
  refine .bind (.of_raises (toInt_raises _)) fun cIi => ?_
  split
  · exact .ok
  refine .bind (.of_raises (toInt_raises _)) fun cJi => ?_
  split
  · exact .ok
  exact .bind (.of_raises (fdiv_raises _ _)) fun ms => .bind (mergeCand_overflows _ _ _ _ _) fun _ => .ok

theorem tryCentre_overflows (c : Scan) (im : BitMatrix) (cap : Nat) (j : Int) :
    OverflowsOnlyIf (cap ≤ c.fcand.length) (c.tryCentre im cap j) := by
  unfold Scan.tryCentre
  split
  · exact handlePossibleCenter_overflows _ _ _ _ _ _
  · exact .ok

theorem afterCentre_overflows (c : Scan) {p : Prop} : OverflowsOnlyIf p c.afterCentre := by
  refine .bind ?_ fun _ => .ok
  split
  · exact .bind (.of_raises (haveMultiplyConfirmedCenters_raises _)) fun _ => .ok
  · refine .bind (.of_raises (findRowSkip_raises _)) fun r => ?_
    dsimp only
    split <;> exact .ok

/-- A scan ended by `CAPACITY(FINDER_FULL)` leaves a full list. -/
def FullOnOverflow (cap : Nat) (r : ScanResult) : Prop := r.2 = some (.capacity .finderFull) → cap ≤ r.1.fcand.length

theorem FullOnOverflow.none {cap : Nat} {c : Scan} : FullOnOverflow cap (c, .none) := fun h => nomatch h

/-- A scan that ends with the error of a step overflows as that step does. -/
theorem OverflowsOnlyIf.fullOnOverflow {α : Type} {cap : Nat} {c : Scan} {x : Except Raise α} {e : Raise}
    (hx : OverflowsOnlyIf (cap ≤ c.fcand.length) x) (h : x = .error e) : FullOnOverflow cap (c, some e) :=
  fun he => hx (by cases he; exact h)

theorem pixel_fullOnOverflow (c : Scan) (im : BitMatrix) (cap j : Nat) : FullOnOverflow cap (c.pixel im cap j) := by
  unfold Scan.pixel
  split
  · exact .none
  split
  · exact .none
  split
  · exact .none
  split
  · next e h => exact (tryCentre_overflows c im cap j).fullOnOverflow h
  · next l h =>
    dsimp only
    split
    · next e h => exact (afterCentre_overflows _).fullOnOverflow h
    · exact .none
  · exact .none

theorem pixels_fullOnOverflow (im : BitMatrix) (cap n j : Nat) (c : Scan) :
    FullOnOverflow cap (Scan.pixels im cap n j c) := by
  induction n generalizing j c with
  | zero => exact .none
  | succ n ih =>
    have hpixel := pixel_fullOnOverflow c im cap j
    unfold Scan.pixels
    split
    · exact .none
    split
    · exact ih _ _
    · next h => rwa [h] at hpixel

theorem endOfRow_fullOnOverflow (c : Scan) (im : BitMatrix) (cap : Nat) : FullOnOverflow cap (c.endOfRow im cap) := by
  unfold Scan.endOfRow
  split
  · next e h => exact (tryCentre_overflows c im cap _).fullOnOverflow h
  · exact .none
  · dsimp only
    split
    · split
      · next e h => exact (OverflowsOnlyIf.of_raises (haveMultiplyConfirmedCenters_raises _)).fullOnOverflow h
      · exact .none
    · exact .none

theorem rows_fullOnOverflow (im : BitMatrix) (cap n : Nat) (c : Scan) : FullOnOverflow cap (Scan.rows im cap n c) := by
  induction n generalizing c with
  | zero => exact .none
  | succ n ih =>
    have hpixels := pixels_fullOnOverflow im cap im.w 0 { c with s := Runs5.zero, st := 0, rowOver := false }
    unfold Scan.rows
    split
    · exact .none
    split
    · next h => rwa [h] at hpixels
    · next d h =>
      have hend := endOfRow_fullOnOverflow d im cap
      split
      · next h => rwa [h] at hend
      · exact ih _

/-- The list a full scan leaves is exactly at its capacity. -/
theorem length_fcand_of_full {im : BitMatrix} {cap : Nat} {tryHarder : Bool} {c : Scan}
    (h : findFinderScan im cap tryHarder = (c, some (.capacity .finderFull))) : c.fcand.length = cap := by
  have hle : (findFinderScan im cap tryHarder).1.fcand.length ≤ cap := (findFinderScan_ok im cap tryHarder).1
  have hge : FullOnOverflow cap (findFinderScan im cap tryHarder) := rows_fullOnOverflow im cap im.h _
  rw [h] at hle hge
  exact hle.antisymm (hge rfl)

/-! ### The scan of a white image (R241) -/

/-- Every pixel is white. -/
def BitMatrix.White (im : BitMatrix) : Prop := ∀ x y, x < im.w → y < im.h → im.bit x y = false

theorem BitMatrix.White.px {im : BitMatrix} (h : im.White) (x y : Int) : im.px x y = false := by
  by_cases hin : 0 ≤ x ∧ x < im.w ∧ 0 ≤ y ∧ y < im.h
  · rw [BitMatrix.px, h x.toNat y.toNat (by omega) (by omega), Bool.and_false]
  · simp only [BitMatrix.px, Bool.and_eq_false_iff, decide_eq_false_iff_not]
    omega

/-- A scan that has met no black pixel: no candidate, and in the row at hand no black run and at most one white one. -/
structure Scan.Blank (c : Scan) : Prop where
  fcand : c.fcand = []
  hasSkipped : c.hasSkipped = false
  noBlack : c.s.s0 = 0
  early : c.st ≤ 1

/-- The pattern test asks for a black run first (R224). -/
theorem tryCentre_of_blank {c : Scan} (hc : c.Blank) (im : BitMatrix) (cap : Nat) (j : Int) :
    c.tryCentre im cap j = .ok none := by
  have hcross : foundPatternCross c.s = false := if_pos (.inl hc.noBlack)
  rw [Scan.tryCentre, hcross]
  rfl

theorem pixel_of_blank {im : BitMatrix} (him : im.White) {c : Scan} (hc : c.Blank) (cap j : Nat) :
    ∃ d, c.pixel im cap j = (d, none) ∧ d.Blank := by
  unfold Scan.pixel
  rw [if_neg (by simp [him.px])]
  rcases Nat.le_one_iff_eq_zero_or_eq_one.mp hc.early with hst | hst
  · exact ⟨{ c with st := 1, s := c.s.inc 1 }, by simp [hst], hc.fcand, hc.hasSkipped, hc.noBlack, le_rfl⟩
  · exact ⟨{ c with s := c.s.inc 1 }, by simp [hst], hc.fcand, hc.hasSkipped, hc.noBlack, hc.early⟩

theorem pixels_of_blank {im : BitMatrix} (him : im.White) {c : Scan} (hc : c.Blank) (cap n j : Nat) :
    ∃ d, Scan.pixels im cap n j c = (d, none) ∧ d.Blank := by
  induction n generalizing j c with
  | zero => exact ⟨c, rfl, hc⟩
  | succ n ih =>
    obtain ⟨d, hpixel, hd⟩ := pixel_of_blank him hc cap j
    unfold Scan.pixels
    split
    · exact ⟨c, rfl, hc⟩
    · rw [hpixel]
      exact ih hd _

theorem endOfRow_of_blank {c : Scan} (hc : c.Blank) (im : BitMatrix) (cap : Nat) : c.endOfRow im cap = (c, none) := by
  rw [Scan.endOfRow, tryCentre_of_blank hc]

theorem rows_of_blank {im : BitMatrix} (him : im.White) {c : Scan} (hc : c.Blank) (cap n : Nat) :
    ∃ d, Scan.rows im cap n c = (d, none) ∧ d.Blank := by
  induction n generalizing c with
  | zero => exact ⟨c, rfl, hc⟩
  | succ n ih =>
    have hstart : ({ c with s := Runs5.zero, st := 0, rowOver := false } : Scan).Blank :=
      ⟨hc.fcand, hc.hasSkipped, rfl, Nat.zero_le 1⟩
    obtain ⟨d, hpixels, hd⟩ := pixels_of_blank him hstart cap im.w 0
    unfold Scan.rows
    split
    · exact ⟨c, rfl, hc⟩
    · simp only [hpixels, endOfRow_of_blank hd]
      exact ih ⟨hd.fcand, hd.hasSkipped, hd.noBlack, hd.early⟩

/-- A white image has no candidate. -/
theorem findFinderScan_of_white {im : BitMatrix} (him : im.White) (cap : Nat) (tryHarder : Bool) :
    ∃ c, findFinderScan im cap tryHarder = (c, none) ∧ c.Blank :=
  rows_of_blank him ⟨rfl, rfl, rfl, Nat.zero_le 1⟩ cap im.h

/-! ### `FIND_FINDER` (R255) -/

/-- A selection that finds none is `NOT_FOUND(FINDER_FEW)` (R245). -/
theorem selectBestPatterns_raises (l : List FinderCand) : RaisesOnly (.notFound .finderFew) (selectBestPatterns l) := by
  unfold selectBestPatterns
  refine .ite .error ?_
  split
  · exact .error
  · exact .ok

theorem selectBestPatterns_nil : selectBestPatterns [] = .error (.notFound .finderFew) := rfl

/-- What the scan leaves when it ended, or ended full: its candidates and their number. -/
def State.scanned (s : State) (c : Scan) : State :=
  { s with fcand := c.fcand, hasSkipped := c.hasSkipped, findNcand := Word.ofNat c.fcand.length }

theorem findFinder_of_full {s : State} {c : Scan} (himg : s.imgDimsOk = true)
    (h : s.finderScan = (c, some (.capacity .finderFull))) :
    findFinder s = (s.scanned c, some (.capacity .finderFull)) := by
  rw [findFinder, if_neg (by simp [himg]), finderStep, h]
  rfl

theorem findFinder_of_scan {s : State} {c : Scan} (himg : s.imgDimsOk = true) (h : s.finderScan = (c, none)) :
    findFinder s = computing (s.scanned c) (selectBestPatterns c.fcand) fun t => ((s.scanned c).putFinder t, none) := by
  rw [findFinder, if_neg (by simp [himg]), finderStep, h]
  rfl

theorem exec_findFinder_of_few {s : State} {c : Scan} {e : Raise} (himg : s.imgDimsOk = true)
    (h : s.finderScan = (c, none)) (hselect : selectBestPatterns c.fcand = .error e) :
    exec .findFinder s = .next ((s.scanned c).failed 1 1) :=
  exec_of_raised (.notFound .finderFew) ((findFinder_of_scan himg h).trans
    (by rw [(selectBestPatterns_raises _).eq hselect, computing_error]))

/-- Settles O44: the scan ends with a selection, without one, full, or over a white image. -/
theorem finderWritesSelection : Obligations.FinderWritesSelection := by
  refine fun s => ⟨fun himg => ?dims, fun himg c hscan => ⟨fun bl tl tr hselect => ?selected, fun e hselect => ?few⟩,
    fun himg c hscan => ⟨length_fcand_of_full hscan, ?full⟩, fun himg hwhite => ?white⟩
  case dims => exact exec_of_raised (.argRange .dims) (if_pos (by rw [himg]; rfl))
  case selected => exact exec_of_ended ((findFinder_of_scan himg hscan).trans (by rw [hselect, computing_ok]; rfl))
  case few => exact exec_findFinder_of_few himg hscan hselect
  case full =>
    rw [← length_fcand_of_full hscan]
    exact exec_of_raised (.capacity .finderFull) (findFinder_of_full himg hscan)
  case white =>
    obtain ⟨c, hscan, hc⟩ := findFinderScan_of_white (im := s.image) hwhite s.params.maxFinderCand s.ctrl.tryHarder
    have hfew := exec_findFinder_of_few himg hscan (by rw [hc.fcand]; exact selectBestPatterns_nil)
    rwa [State.scanned, hc.fcand, hc.hasSkipped] at hfew

end Sys2Proof.Machine
end

section
/-! PROOFS, family 45_parser, the format and version fields (O51). The two searches are one (`tableSearch`). What a
search answers is what `closeEnough` makes of its best entry, and an entry more than three bits away does not change
that; two entries of a table differ in at least seven bits, so a field with three wrong bits is near its own entry
only. -/

namespace Sys2Proof.Machine

/-! ### The number of differing bits (R276) -/

theorem foldl_add_eq_sum (f : Nat → Nat) (n : Nat) :
    (List.range n).foldl (fun acc k => acc + f k) 0 = ∑ k ∈ Finset.range n, f k := by
  induction n with
  | zero => rfl
  | succ n ih => rw [List.range_succ, List.foldl_append, ih, Finset.sum_range_succ]; rfl

section Distance

variable {w : Nat}

theorem bitsDiff_eq_sum (a b : BitVec w) :
    bitsDiff a b = ∑ k ∈ Finset.range w, bitNat (a.getLsbD k ^^ b.getLsbD k) := by
  simp only [bitsDiff, foldl_add_eq_sum, BitVec.getLsbD_xor]

theorem bitsDiff_self (a : BitVec w) : bitsDiff a a = 0 := by simp [bitsDiff_eq_sum, bitNat]

theorem bitsDiff_comm (a b : BitVec w) : bitsDiff a b = bitsDiff b a := by
  simp only [bitsDiff_eq_sum, Bool.xor_comm]

theorem bitNat_xor_triangle (x y z : Bool) : bitNat (x ^^ z) ≤ bitNat (x ^^ y) + bitNat (y ^^ z) := by
  revert x y z
  decide

theorem bitsDiff_triangle (a b c : BitVec w) : bitsDiff a c ≤ bitsDiff a b + bitsDiff b c := by
  simp only [bitsDiff_eq_sum, ← Finset.sum_add_distrib]
  exact Finset.sum_le_sum fun k _ => bitNat_xor_triangle _ _ _

end Distance

/-! ### The best entry so far (R277, R278) -/

section Closer

variable {α : Type} {best : Option (Nat × α)} {k : Nat} {entry : α}

/-- An entry more than three bits away is of no account. -/
theorem closeEnough_closer_of_far (hk : 3 < k) : closeEnough (closer best k entry) = closeEnough best := by
  rcases best with _ | ⟨n, e⟩
  · exact if_neg hk.not_ge
  · simp only [closer]
    split
    · simp only [closeEnough]
      rw [if_neg (by omega), if_neg (by omega)]
    · rfl

/-- The first entry within three bits is the answer so far, and a second look at it does not change that. -/
theorem closeEnough_closer_of_near (hk : k ≤ 3) (h : closeEnough best = none ∨ closeEnough best = some entry) :
    closeEnough (closer best k entry) = some entry := by
  rcases best with _ | ⟨n, e⟩
  · exact if_pos hk
  · simp only [closer]
    split
    · exact if_pos hk
    · rename_i hn
      simp only [closeEnough] at h ⊢
      rw [if_pos (by omega)] at h ⊢
      exact h.resolve_left (by simp)

end Closer

/-! ### The searches (R277, R278) -/

section Search

variable {w : Nat}

/-- One round of R277: entry `t`, of number `k`, is compared with both fields, once where they are equal. -/
def searchRound (a b t : BitVec w) (k : Nat) (best : Option (Nat × Nat)) : Option (Nat × Nat) :=
  let best := closer best (bitsDiff a t) k
  if a = b then best else closer best (bitsDiff b t) k

/-- The loop of R277 for fields of any width; with one field it is the loop of R278. -/
def tableSearch (a b : BitVec w) : Nat → List (BitVec w) → Option (Nat × Nat) → Option Nat
  | _, [], best => closeEnough best
  | k, t :: ts, best =>
    if t = a ∨ t = b then some k else tableSearch a b (k + 1) ts (searchRound a b t k best)

variable {a b t : BitVec w} {ts : List (BitVec w)} {k : Nat} {best : Option (Nat × Nat)}

/-- Entry `t` is more than three bits from both fields. -/
def FarFrom (a b t : BitVec w) : Prop := 3 < bitsDiff a t ∧ 3 < bitsDiff b t

theorem FarFrom.not_exact (h : FarFrom a b t) : ¬(t = a ∨ t = b) := by
  rintro (rfl | rfl)
  · exact absurd h.1 (by simp [bitsDiff_self])
  · exact absurd h.2 (by simp [bitsDiff_self])

/-- A far entry leaves the answer so far as it is. -/
theorem closeEnough_searchRound_of_far (h : FarFrom a b t) :
    closeEnough (searchRound a b t k best) = closeEnough best := by
  simp only [searchRound]
  split
  · exact closeEnough_closer_of_far h.1
  · rw [closeEnough_closer_of_far h.2, closeEnough_closer_of_far h.1]

/-- A near entry becomes the answer, where there was none. -/
theorem closeEnough_searchRound_of_near (ha : bitsDiff a t ≤ 3) (hb : bitsDiff b t ≤ 3)
    (hbest : closeEnough best = none) :
    closeEnough (searchRound a b t k best) = some k := by
  have hfirst := closeEnough_closer_of_near (entry := k) ha (.inl hbest)
  simp only [searchRound]
  split
  · exact hfirst
  · exact closeEnough_closer_of_near hb (.inr hfirst)

theorem tableSearch_of_far (h : ∀ t ∈ ts, FarFrom a b t) : tableSearch a b k ts best = closeEnough best := by
  induction ts generalizing k best with
  | nil => rfl
  | cons t ts ih =>
    have ht := h t List.mem_cons_self
    rw [tableSearch, if_neg ht.not_exact, ih fun u hu => h u (List.mem_cons_of_mem _ hu)]
    exact closeEnough_searchRound_of_far ht

/-- The one entry near both fields is found. -/
theorem tableSearch_of_near {i : Nat} (hi : ts[i]? = some t) (ha : bitsDiff a t ≤ 3) (hb : bitsDiff b t ≤ 3)
    (hfar : ∀ (j : Nat) (u : BitVec w), ts[j]? = some u → j ≠ i → FarFrom a b u) (hbest : closeEnough best = none) :
    tableSearch a b k ts best = some (k + i) := by
  induction ts generalizing i k best with
  | nil => cases hi
  | cons u us ih =>
    rw [tableSearch]
    cases i with
    | zero =>
      cases hi
      split
      · rfl
      · rw [tableSearch_of_far]
        · exact closeEnough_searchRound_of_near ha hb hbest
        · intro v hv
          obtain ⟨j, hj⟩ := List.mem_iff_getElem?.mp hv
          exact hfar (j + 1) v hj (by omega)
    | succ i =>
      have hu : FarFrom a b u := hfar 0 u rfl (by omega)
      rw [if_neg hu.not_exact, ih hi (fun j v hj hne => hfar (j + 1) v hj (by omega))
        ((closeEnough_searchRound_of_far hu).trans hbest)]
      congr 1
      omega

/-- Two entries of the table differ in at least seven bits. -/
def Separated (ts : List (BitVec w)) : Prop := ts.Pairwise fun t u => 7 ≤ bitsDiff t u

theorem Separated.le {i j : Nat} {u : BitVec w} (h : Separated ts) (hi : ts[i]? = some t) (hj : ts[j]? = some u)
    (hne : j ≠ i) : 7 ≤ bitsDiff t u := by
  obtain ⟨hil, rfl⟩ := List.getElem?_eq_some_iff.mp hi
  obtain ⟨hjl, rfl⟩ := List.getElem?_eq_some_iff.mp hj
  have hpair := List.pairwise_iff_getElem.mp h
  rcases hne.lt_or_gt with hlt | hlt
  · rw [bitsDiff_comm]
    exact hpair j i hjl hil hlt
  · exact hpair i j hil hjl hlt

/-- A search of a separated table corrects three wrong bits in each field. -/
theorem tableSearch_corrects {i : Nat} (h : Separated ts) (hi : ts[i]? = some t) (ha : bitsDiff t a ≤ 3)
    (hb : bitsDiff t b ≤ 3) : tableSearch a b k ts none = some (k + i) := by
  refine tableSearch_of_near hi (bitsDiff_comm t a ▸ ha) (bitsDiff_comm t b ▸ hb) (fun j u hj hne => ?_) rfl
  have hsep := h.le hi hj hne
  have hviaA := bitsDiff_triangle t a u
  have hviaB := bitsDiff_triangle t b u
  exact ⟨by omega, by omega⟩

end Search

theorem formatSearch_eq_tableSearch (a b : BitVec 15) (k : Nat) (ts : List (BitVec 15)) (best : Option (Nat × Nat)) :
    formatSearch a b k ts best = tableSearch a b k ts best := by
  induction ts generalizing k best with
  | nil => rfl
  | cons t ts ih => simp only [formatSearch, tableSearch, searchRound, ih]

theorem versionSearch_eq_tableSearch (bits : BitVec 18) (k : Nat) (ts : List (BitVec 18)) (best : Option (Nat × Nat)) :
    versionSearch bits k ts best = tableSearch bits bits k ts best := by
  induction ts generalizing k best with
  | nil => rfl
  | cons t ts ih => simp only [versionSearch, tableSearch, searchRound, ih, or_self, if_true]

theorem formatTable_separated : Separated formatTable := by
  unfold Separated
  decide +kernel

theorem versionTable_separated : Separated versionTable := by
  unfold Separated
  decide +kernel

/-- Settles O51: both tables are separated, and a search of a separated table corrects three bits. -/
theorem fieldsCorrectThreeBits : Obligations.FieldsCorrectThreeBits := by
  refine ⟨fun info t w1 w2 ht h1 h2 => ?format, fun n t w ht h => ?version⟩
  case format =>
    have hfound : doDecodeFormat w1 w2 = some info := by
      rw [doDecodeFormat, formatSearch_eq_tableSearch, tableSearch_corrects formatTable_separated ht h1 h2,
        Nat.zero_add]
    rw [decodeFormat, hfound]
  case version =>
    rw [decodeVersion, versionSearch_eq_tableSearch, tableSearch_corrects versionTable_separated ht h h, Nat.add_comm]

end Sys2Proof.Machine
end

section
/-! PROOFS, family 45_parser, the checks and the caches (O47 to O50). A sub-command begins with the checks of section 4,
which are `parserCheck`; past them `READ_FORMAT` and `READ_VERSION` are case splits on what is cached and what the
fields decode to. -/

namespace Sys2Proof.Machine

/-! ### The grid's dimensions (R29, R270) -/

section Grid

variable {s : State}

theorem gridDimsOk_iff (s : State) :
    s.gridDimsOk = true ↔
      (1 ≤ s.gridW.toNat ∧ s.gridW.toNat ≤ 177) ∧ 1 ≤ s.gridH.toNat ∧ s.gridH.toNat ≤ 177 := by
  simp [State.gridDimsOk, maxGrid, and_assoc]

theorem gridDimsOk_of_bad (h : s.gridW.toNat < 1 ∨ 177 < s.gridW.toNat ∨ s.gridH.toNat < 1 ∨ 177 < s.gridH.toNat) :
    s.gridDimsOk = false := by
  rw [Bool.eq_false_iff, ne_eq, gridDimsOk_iff]
  omega

theorem gridCheck_of_badDims
    (h : s.gridW.toNat < 1 ∨ 177 < s.gridW.toNat ∨ s.gridH.toNat < 1 ∨ 177 < s.gridH.toNat) :
    s.gridCheck = .error (.argRange .dims) := check_of_false (gridDimsOk_of_bad h)

theorem gridCheck_of_badSide (hw1 : 1 ≤ s.gridW.toNat) (hw177 : s.gridW.toNat ≤ 177) (hh1 : 1 ≤ s.gridH.toNat)
    (hh177 : s.gridH.toNat ≤ 177) (h : s.gridW ≠ s.gridH ∨ s.gridW.toNat < 21 ∨ s.gridW.toNat % 4 ≠ 1) :
    s.gridCheck = .error (.format .dimInvalid) := by
  refine (check_of_true ((gridDimsOk_iff s).mpr ⟨⟨hw1, hw177⟩, hh1, hh177⟩)).trans (if_neg fun ⟨heq, h21, hmod⟩ => ?_)
  rcases h with h | h | h
  · exact h heq
  · omega
  · exact h hmod

theorem gridCheck_of_good (heq : s.gridW = s.gridH) (h21 : 21 ≤ s.gridW.toNat) (h177 : s.gridW.toNat ≤ 177)
    (hmod : s.gridW.toNat % 4 = 1) : s.gridCheck = .ok s.gridW.toNat :=
  (check_of_true ((gridDimsOk_iff s).mpr (by rw [← heq]; omega))).trans (if_pos ⟨heq, h21, hmod⟩)

theorem parserCheck_of_pinit (h : s.pstate.pinit = true) : s.parserCheck = s.gridCheck := check_of_true h

theorem parserCheck_of_good (hinit : s.pstate.pinit = true) (heq : s.gridW = s.gridH) (h21 : 21 ≤ s.gridW.toNat)
    (h177 : s.gridW.toNat ≤ 177) (hmod : s.gridW.toNat % 4 = 1) : s.parserCheck = .ok s.gridW.toNat :=
  (parserCheck_of_pinit hinit).trans (gridCheck_of_good heq h21 h177 hmod)

theorem parserCheck_of_side {d : Nat} (hinit : s.pstate.pinit = true) (hw : s.gridW.toNat = d) (hh : s.gridH.toNat = d)
    (h21 : 21 ≤ d) (h177 : d ≤ 177) (hmod : d % 4 = 1) : s.parserCheck = .ok d := by
  subst hw
  exact parserCheck_of_good hinit (BitVec.eq_of_toNat_eq hh.symm) h21 h177 hmod

end Grid

/-! ### The sub-commands (45_parser.md section 4) -/

/-- The sub-commands that begin with the common checks. -/
def checkedSubcommands : List Instr :=
  [.readFormat, .readVersion, .readCodewords, .mirror, .setMirror 0, .setMirror 1, .remask]

/-- A sub-command that fails a common check writes nothing. -/
theorem ruleOf_of_failedCheck {s : State} {i : Instr} {e : Raise} (hi : i ∈ checkedSubcommands)
    (h : s.parserCheck = .error e) : ruleOf s i = (s, some e) := by
  have hcomputing (k : Nat → Ended) : computing s s.parserCheck k = (s, some e) := by rw [h, computing_error]
  have hbind (f : Nat → Except Raise State) : single s (s.parserCheck >>= f) = (s, some e) := by
    rw [bind_of_error h, single_error]
  simp only [checkedSubcommands, List.mem_cons, List.not_mem_nil, or_false] at hi
  rcases hi with rfl | rfl | rfl | rfl | rfl | rfl | rfl
  · exact hcomputing _
  · exact hcomputing _
  · exact hcomputing _
  · exact hbind _
  · exact hbind _
  · exact hbind _
  · exact hbind _

/-- Settles O47: the checks in order are those of `parserCheck` (`ruleOf_of_failedCheck`). -/
theorem parserSubcommandChecks : Obligations.ParserSubcommandChecks := by
  refine fun s i hi => ⟨fun hinit => ?state, fun hinit => ⟨fun h => ?dims, fun hw1 hw177 hh1 hh177 h => ?side⟩⟩
  case state => exact exec_of_raised (.argRange .state) (ruleOf_of_failedCheck hi (check_of_false hinit))
  all_goals have hcheck := parserCheck_of_pinit hinit
  case dims =>
    exact exec_of_raised (.argRange .dims) (ruleOf_of_failedCheck hi (hcheck.trans (gridCheck_of_badDims h)))
  case side =>
    exact exec_of_raised (.format .dimInvalid)
      (ruleOf_of_failedCheck hi (hcheck.trans (gridCheck_of_badSide hw1 hw177 hh1 hh177 h)))

/-! ### `PARSER_INIT` and `SET_MIRROR` (R290, R298) -/

/-- What `PARSER_INIT` leaves before its grid check. -/
def State.parserReset (s : State) : State :=
  { s with version := none, fmt := none, pstate := ⟨false, s.pstate.mirrored, false⟩ }

/-- The grid check reads nothing that `PARSER_INIT` clears. -/
theorem parserInit_eq (s : State) :
    parserInit s = computing s.parserReset s.gridCheck fun _ =>
      ({ s.parserReset with pstate := ⟨false, s.pstate.mirrored, true⟩ }, none) := rfl

/-- Settles O48: each command is its checks, then its write. -/
theorem parserInitAndSetMirror : Obligations.ParserInitAndSetMirror := by
  refine ⟨fun s m => ⟨fun hm => ?sel, fun hm hinit heq h21 h177 hmod => ?mirror⟩,
    fun s => ⟨fun h => ?dims, fun hw1 hw177 hh1 hh177 h => ?side, fun heq h21 h177 hmod => ?accepted⟩⟩
  case sel => exact exec_of_error (.argRange .sel) rfl (if_pos hm)
  case mirror =>
    rw [← hinit]
    exact exec_of_ok rfl ((if_neg hm.not_gt).trans (bind_of_ok (parserCheck_of_good hinit heq h21 h177 hmod)))
  case dims =>
    exact exec_of_raised (.argRange .dims)
      ((parserInit_eq s).trans (by rw [gridCheck_of_badDims h, computing_error]; rfl))
  case side =>
    exact exec_of_raised (.format .dimInvalid)
      ((parserInit_eq s).trans (by rw [gridCheck_of_badSide hw1 hw177 hh1 hh177 h, computing_error]; rfl))
  case accepted =>
    exact exec_of_ended ((parserInit_eq s).trans (by rw [gridCheck_of_good heq h21 h177 hmod, computing_ok]; rfl))

/-! ### Reading the format (R282, R291) -/

theorem decodeFormat_raises (a b : BitVec 15) : RaisesOnly (.format .formatInfo) (decodeFormat a b) := by
  unfold decodeFormat
  split
  · exact .ok
  · split
    · exact .ok
    · exact .error

theorem Parser.readFormat_of_uncached {p : Parser} (h : p.fmt = none) : p.readFormat = decodeFormat p.b1 p.b2 := by
  rw [Parser.readFormat, h]

theorem Parser.readFormat_raises (p : Parser) : RaisesOnly (.format .formatInfo) p.readFormat := by
  unfold Parser.readFormat
  split
  · exact .ok
  · exact decodeFormat_raises _ _

section ReadFormat

variable {s : State} {d : Nat} (hcheck : s.parserCheck = .ok d)
include hcheck

theorem readFormat_of_cached (h : s.fmt.isSome = true) : readFormat s = (s, none) := by
  rw [readFormat, hcheck, computing_ok]
  exact if_pos h

theorem readFormat_of_uncached (h : s.fmt = none) :
    readFormat s = computing { s with res0 := (s.parser d).b1.setWidth 32, res1 := (s.parser d).b2.setWidth 32 }
      (decodeFormat (s.parser d).b1 (s.parser d).b2) fun info => ({ s with
        res0 := (s.parser d).b1.setWidth 32, res1 := (s.parser d).b2.setWidth 32, fmt := some info }, none) := by
  rw [readFormat, hcheck, computing_ok, ← Parser.readFormat_of_uncached (p := s.parser d) h]
  exact if_neg (by simp [h])

end ReadFormat

/-- Settles O49: a case split on the cache, and on what the two fields decode to. -/
theorem readFormatCaches : Obligations.ReadFormatCaches := by
  refine fun s hinit heq h21 h177 hmod => ?_
  have hcheck := parserCheck_of_good hinit heq h21 h177 hmod
  refine ⟨fun h => ?cached, fun h b1 b2 hb1 hb2 => ?fields⟩
  case cached => exact exec_of_ended (readFormat_of_cached hcheck h)
  case fields =>
    subst hb1 hb2
    have hrule := readFormat_of_uncached hcheck h
    refine ⟨fun info hinfo => exec_of_ended (hrule.trans (by rw [hinfo, computing_ok])), fun e he => ?_⟩
    exact exec_of_raised (.format .formatInfo)
      (hrule.trans (by rw [(decodeFormat_raises _ _).eq he, computing_error]))

/-! ### Reading the version (R283, R292) -/

section Fields

variable {p : Parser} {bits : BitVec 18}

theorem Parser.accept_of_side {v : Nat} (h : decodeVersion bits = some v) (hd : 17 + 4 * v = p.dim) :
    p.accept bits = some (BitVec.ofNat 6 v) := by
  rw [Parser.accept, h]
  exact if_pos hd

theorem Parser.accept_of_otherSide (h : ∀ v, decodeVersion bits = some v → 17 + 4 * v ≠ p.dim) :
    p.accept bits = none := by
  unfold Parser.accept
  split
  · rename_i v hv
    exact if_neg (h v hv)
  · rfl

theorem Parser.readVersion_of_cached {v : BitVec 6} (h : p.version = some v) : p.readVersion = .ok v := by
  rw [Parser.readVersion, h]

theorem Parser.readVersion_of_side (h : p.version = none) (hside : p.sideVersion ≤ 6) :
    p.readVersion = .ok (BitVec.ofNat 6 p.sideVersion) := by
  rw [Parser.readVersion, h]
  exact if_pos hside

theorem versionFields_of_unread (s : State) (h : p.version.isSome = true ∨ p.sideVersion ≤ 6) : versionFields p s = s :=
  if_pos h

section Above

variable (h : p.version = none) (hside : 6 < p.sideVersion)
include h hside

theorem Parser.readVersion_of_first {v : BitVec 6} (hfirst : p.accept p.topRight = some v) : p.readVersion = .ok v := by
  simp [Parser.readVersion, h, hside.not_ge, hfirst]

theorem Parser.readVersion_of_second {v : BitVec 6} (hfirst : p.accept p.topRight = none)
    (hsecond : p.accept p.bottomLeft = some v) : p.readVersion = .ok v := by
  simp [Parser.readVersion, h, hside.not_ge, hfirst, hsecond]

theorem Parser.readVersion_of_neither (hfirst : p.accept p.topRight = none) (hsecond : p.accept p.bottomLeft = none) :
    p.readVersion = .error (.format .versionInfo) := by
  simp [Parser.readVersion, h, hside.not_ge, hfirst, hsecond]

theorem versionFields_of_fields (s : State) :
    versionFields p s = if (p.accept p.topRight).isSome then { s with res0 := p.topRight.setWidth 32 }
      else { s with res0 := p.topRight.setWidth 32, res1 := p.bottomLeft.setWidth 32 } :=
  if_neg (by simp [h, hside])

end Above

theorem Parser.readVersion_raises (p : Parser) : RaisesOnly (.format .versionInfo) p.readVersion := by
  unfold Parser.readVersion
  split
  · exact .ok
  · refine .ite .ok ?_
    split
    · exact .ok
    · split
      · exact .ok
      · exact .error

end Fields

theorem readVersion_eq {s : State} {d : Nat} (hcheck : s.parserCheck = .ok d) :
    readVersion s = computing (versionFields (s.parser d) s) (s.parser d).readVersion fun v =>
      ({ versionFields (s.parser d) s with version := some v }, none) := by
  rw [readVersion, hcheck, computing_ok]

theorem with_version_self {s : State} {v : BitVec 6} (h : s.version = some v) : { s with version := some v } = s := by
  rw [← h]

/-- Settles O50: a case split on the cache, on the side, and on which field holds a version of this side. -/
theorem readVersionFromSideOrField : Obligations.ReadVersionFromSideOrField := by
  refine fun s hinit heq h21 h177 hmod => ?_
  have hrule := readVersion_eq (parserCheck_of_good hinit heq h21 h177 hmod)
  have hside : (s.parser s.gridW.toNat).sideVersion = (s.gridW.toNat - 17) / 4 := rfl
  refine ⟨fun h => ?cached, fun h h41 => ?side, fun h h45 f1 f2 hf1 hf2 => ?fields⟩
  case cached =>
    obtain ⟨v, hv⟩ := Option.isSome_iff_exists.mp h
    have hunread := versionFields_of_unread (p := s.parser s.gridW.toNat) s (.inl h)
    exact exec_of_ended (hrule.trans (by
      rw [hunread, Parser.readVersion_of_cached (p := s.parser s.gridW.toNat) hv, computing_ok, with_version_self hv]))
  case side =>
    have hle : (s.parser s.gridW.toNat).sideVersion ≤ 6 := by omega
    exact exec_of_ended (hrule.trans (by
      rw [versionFields_of_unread s (.inr hle), Parser.readVersion_of_side h hle, computing_ok, hside]))
  case fields =>
    subst hf1 hf2
    have hlt : 6 < (s.parser s.gridW.toNat).sideVersion := by omega
    rw [versionFields_of_fields h hlt] at hrule
    refine ⟨fun v hv hd => ?first, fun hother => ?_⟩
    case first =>
      have hfirst := Parser.accept_of_side (p := s.parser s.gridW.toNat) hv hd
      rw [hfirst, Parser.readVersion_of_first h hlt hfirst] at hrule
      exact exec_of_ended hrule
    have hfirst := Parser.accept_of_otherSide (p := s.parser s.gridW.toNat) hother
    rw [hfirst] at hrule
    refine ⟨fun v hv hd => ?second, fun hother2 => ?neither⟩
    case second =>
      rw [Parser.readVersion_of_second h hlt hfirst (Parser.accept_of_side hv hd)] at hrule
      exact exec_of_ended hrule
    case neither =>
      rw [Parser.readVersion_of_neither h hlt hfirst (Parser.accept_of_otherSide hother2)] at hrule
      exact exec_of_raised (.format .versionInfo) hrule

end Sys2Proof.Machine
end

section
/-! PROOFS, family 45_parser, the grid commands (O52 to O56). Each rewrites `GRID` or `FNPAT` as a bit matrix, and
`bit_unmaskGrid` and `bit_transposeGrid` say what every bit of `GRID` is afterwards; applied twice they give the bits
back. `READ_CODEWORDS` reads only modules inside the grid (`mem_zigzag`), which its other writes leave alone. -/

namespace Sys2Proof.Machine

/-! ### Bytes and bits that a write leaves alone -/

theorem WritesIn.byte_eq {ws : List Window} {s t : State} {a : Nat} (h : WritesIn ws s t) (hepoch : t.epoch = s.epoch)
    (ha : ∀ w ∈ ws, ¬(w.base ≤ a ∧ a < w.base + w.size)) : t.byte a = s.byte a := by
  simp only [State.byte, h.same a ha, hepoch]

theorem bit_congr_byte {s t : State} {base n : Nat} (h : t.byte (base + n / 8) = s.byte (base + n / 8)) :
    t.bit base n = s.bit base n := by
  simp only [State.bit, h]

/-- Bits that read the same make bytes that read the same. -/
theorem sameBytes_of_bits {s t : State} (base : Nat) (hlow : ∀ a < base, t.byte a = s.byte a)
    (hbits : ∀ n, t.bit base n = s.bit base n) : sameBytes s t := fun a => by
  rcases lt_or_ge a base with ha | ha
  · exact hlow a ha
  · obtain ⟨k, rfl⟩ := Nat.exists_eq_add_of_le ha
    exact byte_eq_of_bits s t base k fun n _ => hbits n

/-- Module `(x, y)` of a side-`d` grid is one of its `d * d` bits. -/
theorem module_lt {d x y : Nat} (hx : x < d) (hy : y < d) : y * d + x < d * d := by
  have : (y + 1) * d ≤ d * d := Nat.mul_le_mul_right d hy
  rw [Nat.succ_mul] at this
  omega

section Matrix

variable (s : State) (base d : Nat) (g : Nat → Nat → Bool)

theorem bit_putMatrix_eq (n : Nat) :
    (s.putMatrix base d d g).bit base n = if n < d * d then g (n % d) (n / d) else s.bit base n :=
  bit_putBits s base (d * d) _ n

theorem bit_putMatrix_beyond {n : Nat} (hn : d * d ≤ n) : (s.putMatrix base d d g).bit base n = s.bit base n :=
  (bit_putMatrix_eq s base d g n).trans (if_neg hn.not_gt)

theorem putMatrix_sameBytesOutside : sameBytesOutside s (s.putMatrix base d d g) base ((d * d + 7) / 8) :=
  fun a ha => byte_putBits_outside s base (d * d) _ a ha

theorem byte_putMatrix_below {a : Nat} (ha : a < base) : (s.putMatrix base d d g).byte a = s.byte a :=
  putMatrix_sameBytesOutside s base d g a (.inl ha)

end Matrix

/-- Bit `n` of `GRID` is a module of the grid. -/
theorem grid_bit_mod_div {s : State} {d : Nat} (hw : s.gridW.toNat = d) (n : Nat) :
    s.grid.bit (n % d) (n / d) = s.bit 0x8000 n := by
  change s.bit 0x8000 (n / d * s.gridW.toNat + n % d) = _
  rw [hw, Nat.div_add_mod']

/-- A module is read from the bits of the window and the width. -/
theorem grid_bit_congr {s t : State} {x y : Nat} (hw : t.gridW = s.gridW)
    (h : t.bit 0x8000 (y * s.gridW.toNat + x) = s.bit 0x8000 (y * s.gridW.toNat + x)) :
    t.grid.bit x y = s.grid.bit x y := by
  change t.bit 0x8000 (y * t.gridW.toNat + x) = _
  rw [hw]
  exact h

/-! ### Masks (R284, R285) -/

theorem masked_iff_flipped (m i j : Nat) : masked m i j = true ↔ flipped m i j := by
  match m with
  | 0 | 1 | 2 | 3 | 4 | 5 | 6 | _ + 7 => simp [masked, flipped]

section Unmask

variable {s : State} {d : Nat} (m : Nat) (hw : s.gridW.toNat = d)
include hw

/-- Every bit of `GRID` after `unmask(m)`. -/
theorem bit_unmaskGrid (n : Nat) :
    (s.unmaskGrid d m).bit 0x8000 n = ((decide (n < d * d) && masked m (n / d) (n % d)) ^^ s.bit 0x8000 n) := by
  refine (bit_putMatrix_eq s 0x8000 d _ n).trans ?_
  rw [unmaskedBit, grid_bit_mod_div hw]
  by_cases hn : n < d * d <;> cases hm : masked m (n / d) (n % d) <;> simp [hn]

/-- Every module after `unmask(m)`. -/
theorem grid_bit_unmaskGrid {x y : Nat} (hx : x < d) (hy : y < d) :
    (s.unmaskGrid d m).grid.bit x y = unmaskedBit m s.grid.bit x y := by
  change (s.unmaskGrid d m).bit Window.grid.base (y * s.gridW.toNat + x) = _
  rw [hw]
  exact bit_putMatrix s _ d d _ x y hx hy

theorem unmaskGrid_flips {x y : Nat} (hx : x < d) (hy : y < d) :
    (flipped m y x → (s.unmaskGrid d m).grid.bit x y = !s.grid.bit x y) ∧
      (¬flipped m y x → (s.unmaskGrid d m).grid.bit x y = s.grid.bit x y) := by
  rw [grid_bit_unmaskGrid m hw hx hy, ← masked_iff_flipped]
  exact ⟨fun h => if_pos h, fun h => if_neg h⟩

end Unmask

/-- `UNMASK` with a legal mask and a square grid. -/
theorem unmaskCmd_of_good {s : State} {m : Nat} (hm : m ≤ 7) (h1 : 1 ≤ s.gridW.toNat) (h177 : s.gridW.toNat ≤ 177)
    (heq : s.gridW = s.gridH) : unmaskCmd m s = .ok (s.unmaskGrid s.gridW.toNat m) :=
  (if_neg hm.not_gt).trans ((check_of_true ((gridDimsOk_iff s).mpr (by rw [← heq]; omega))).trans
    (if_neg (not_not.mpr heq)))

theorem unmaskCmd_of_badDims {s : State} {m : Nat} (hm : m ≤ 7) (h : s.gridW.toNat < 1 ∨ 177 < s.gridW.toNat ∨
    s.gridH.toNat < 1 ∨ 177 < s.gridH.toNat ∨ s.gridW ≠ s.gridH) : unmaskCmd m s = .error (.argRange .dims) := by
  refine (if_neg hm.not_gt).trans ?_
  cases hok : s.gridDimsOk with
  | false => exact check_of_false rfl
  | true =>
    rw [gridDimsOk_iff] at hok
    refine (check_of_true rfl).trans (if_pos fun heq => ?_)
    rcases h with h | h | h | h | h
    · omega
    · omega
    · omega
    · omega
    · exact h heq

/-- Settles O52: the checks in order, then `unmaskGrid_flips`. -/
theorem unmaskFlipsMaskedModules : Obligations.UnmaskFlipsMaskedModules := by
  refine fun s m => ⟨fun hm => ?sel, fun hm h => ?dims, fun hm h1 h177 heq => ?ok⟩
  case sel => exact exec_of_error (.argRange .sel) rfl (if_pos hm)
  case dims => exact exec_of_error (.argRange .dims) rfl (unmaskCmd_of_badDims hm h)
  case ok =>
    exact ⟨s.unmaskGrid s.gridW.toNat m, exec_of_ok rfl (unmaskCmd_of_good hm h1 h177 heq), rfl,
      fun x y hx hy => unmaskGrid_flips m rfl hx hy, fun n hn => bit_putMatrix_beyond s 0x8000 _ _ hn,
      putMatrix_sameBytesOutside s 0x8000 _ _⟩

/-! ### `MIRROR` and `REMASK` (R297, R299) -/

/-- `GRID` transposed (R297). -/
def State.transposeGrid (s : State) (d : Nat) : State := s.putMatrix Window.grid.base d d fun x y => s.grid.bit y x

theorem mirrorCmd_eq (s : State) : mirrorCmd s = s.parserCheck >>= fun d => .ok (s.transposeGrid d) := rfl

/-- What `REMASK` does to a side-`d` grid (R299). -/
def State.remaskGrid (s : State) (d : Nat) : State :=
  match s.fmt with
  | some info => s.unmaskGrid d (infoMask info)
  | none => s

theorem remaskGrid_of_some {s : State} {info : BitVec 5} (d : Nat) (h : s.fmt = some info) :
    s.remaskGrid d = s.unmaskGrid d (infoMask info) := by
  rw [State.remaskGrid, h]

theorem remaskGrid_of_none {s : State} (d : Nat) (h : s.fmt = none) : s.remaskGrid d = s := by
  rw [State.remaskGrid, h]

theorem remaskCmd_eq (s : State) : remaskCmd s = s.parserCheck >>= fun d => .ok (s.remaskGrid d) := by
  unfold remaskCmd State.remaskGrid
  cases s.fmt <;> rfl

/-- Every bit of `GRID` after `MIRROR`. -/
theorem bit_transposeGrid {s : State} {d : Nat} (hw : s.gridW.toNat = d) (n : Nat) :
    (s.transposeGrid d).bit 0x8000 n = if n < d * d then s.bit 0x8000 (n % d * d + n / d) else s.bit 0x8000 n := by
  refine (bit_putMatrix_eq s 0x8000 d _ n).trans ?_
  rw [← hw]
  rfl

theorem grid_bit_transposeGrid {s : State} {d x y : Nat} (hw : s.gridW.toNat = d) (hx : x < d) (hy : y < d) :
    (s.transposeGrid d).grid.bit x y = s.grid.bit y x := by
  change (s.transposeGrid d).bit Window.grid.base (y * s.gridW.toNat + x) = _
  rw [hw]
  exact bit_putMatrix s _ d d _ x y hx hy

/-- Settles O53: past the common checks `MIRROR` is `transposeGrid` and `REMASK` is `remaskGrid`. -/
theorem mirrorAndRemask : Obligations.MirrorAndRemask := by
  refine fun s d hinit hw hh h21 h177 hmod => ?_
  have hcheck := parserCheck_of_side hinit hw hh h21 h177 hmod
  refine ⟨?mirror, fun h => ?uncached, fun info h => ?cached⟩
  case mirror =>
    exact ⟨s.transposeGrid d, exec_of_ok rfl (bind_of_ok hcheck), rfl,
      fun x y hx hy => grid_bit_transposeGrid hw hx hy, fun n hn => bit_putMatrix_beyond s 0x8000 _ _ hn,
      putMatrix_sameBytesOutside s 0x8000 _ _⟩
  case uncached =>
    exact exec_of_ok rfl ((remaskCmd_eq s).trans ((bind_of_ok hcheck).trans (by rw [remaskGrid_of_none d h])))
  case cached =>
    exact ⟨s.unmaskGrid d (infoMask info),
      exec_of_ok rfl ((remaskCmd_eq s).trans ((bind_of_ok hcheck).trans (by rw [remaskGrid_of_some d h]))), rfl,
      fun x y hx hy => unmaskGrid_flips _ hw hx hy, fun n hn => bit_putMatrix_beyond s 0x8000 _ _ hn,
      putMatrix_sameBytesOutside s 0x8000 _ _⟩

/-! ### `BUILD_FNPAT` (R286, R294) -/

/-- `FNDIM` is no memory. -/
theorem byte_putFnpat (s : State) (v d a : Nat) :
    (s.putFnpat v d).byte a = (s.putMatrix Window.fnpat.base d d (functionPattern v)).byte a := byte_congr rfl rfl a

theorem bit_putFnpat (s : State) (v d n : Nat) :
    (s.putFnpat v d).bit 0x9000 n = (s.putMatrix Window.fnpat.base d d (functionPattern v)).bit 0x9000 n :=
  bit_congr rfl rfl _ n

theorem functionPattern_inside {v x y : Nat} (hx : x < 17 + 4 * v) (hy : y < 17 + 4 * v) :
    functionPattern v x y = inFunctionPattern v x y := if_pos ⟨hx, hy⟩

/-- Settles O54: the range check, then the bits of the matrix `FNPAT` is written as. -/
theorem functionPatternBuilt : Obligations.FunctionPatternBuilt := by
  refine fun s v hv => ⟨fun h => ?range, fun h1 h40 => ?ok⟩
  all_goals subst hv
  case range => exact exec_of_error (.argRange .arg) rfl (if_pos h)
  case ok =>
    refine ⟨s.putFnpat (s.argNat 0) (17 + 4 * s.argNat 0), exec_of_ok rfl (if_neg (by omega)), rfl, ?_,
      fun x y hx hy => ?_, fun n hn => ?_, fun a ha => ?_⟩
    · rw [putFnpat_fndim, Word.ofNat, BitVec.toNat_ofNat]
      omega
    · rw [bit_putFnpat]
      exact (bit_putMatrix s _ _ _ _ x y hx hy).trans (functionPattern_inside hx hy)
    · rw [bit_putFnpat]
      exact bit_putMatrix_beyond s 0x9000 _ _ hn
    · rw [byte_putFnpat]
      exact putMatrix_sameBytesOutside s 0x9000 _ _ a ha

/-! ### `READ_CODEWORDS` (R287, R295) -/

/-- The order of R287 stays inside the grid. -/
theorem mem_sweep {d j : Nat} {up : Bool} (hj : j < d) {c : Nat × Nat} (h : c ∈ sweep d j up) : c.1 < d ∧ c.2 < d := by
  simp only [sweep, List.mem_flatMap, List.mem_range, List.mem_cons, List.not_mem_nil, or_false] at h
  obtain ⟨k, hk, rfl | rfl⟩ := h
  · refine ⟨hj, ?_⟩
    dsimp only
    split <;> omega
  · refine ⟨by dsimp only; omega, ?_⟩
    dsimp only
    split <;> omega

theorem mem_zigzagFrom {d n j : Nat} {up : Bool} (hj : j < d) {c : Nat × Nat} (h : c ∈ zigzagFrom d n j up) :
    c.1 < d ∧ c.2 < d := by
  induction n generalizing j up with
  | zero => cases h
  | succ n ih =>
    rw [zigzagFrom] at h
    split at h
    · cases h
    · have hj' : (if j = 6 then j - 1 else j) < d := by split <;> omega
      rcases List.mem_append.mp h with h | h
      · exact mem_sweep hj' h
      · exact ih (by omega) h

theorem mem_zigzag {d : Nat} (hd : 0 < d) {c : Nat × Nat} (h : c ∈ zigzag d) : c.1 < d ∧ c.2 < d :=
  mem_zigzagFrom (by omega) h

/-- The codewords are read from the modules of the grid, and from nothing else. -/
theorem codewords_congr {p q : Parser} (hdim : q.dim = p.dim) (hpos : 0 < p.dim)
    (hmod : ∀ x y, x < p.dim → y < p.dim → q.mod x y = p.mod x y) (v : Nat) : q.codewords v = p.codewords v := by
  have hraw : q.rawCodewords v = p.rawCodewords v := by
    rw [Parser.rawCodewords, Parser.rawCodewords, hdim]
    congr 1
    refine List.map_congr_left fun c hc => ?_
    obtain ⟨hx, hy⟩ := mem_zigzag hpos (List.mem_filter.mp hc).1
    exact hmod c.1 c.2 hx hy
  simp only [Parser.codewords, hraw]

/-- `READ_CODEWORDS` with a format and a version read, up to the codewords. -/
def State.unmaskedFor (s : State) (d : Nat) (info : BitVec 5) (v : BitVec 6) : State :=
  (({ s with fmt := some info, version := some v } : State).unmaskGrid d (infoMask info)).putFnpat v.toNat d

/-- The bytes of `GRID` there are those of the unmasked grid. -/
theorem byte_unmaskedFor (s : State) {d a : Nat} (info : BitVec 5) (v : BitVec 6) (hd : d ≤ 177) (h1 : 0x8000 ≤ a)
    (h2 : a < 0x9000) : (s.unmaskedFor d info v).byte a = (s.unmaskGrid d (infoMask info)).byte a := by
  refine ((putFnpat_writes _ v.toNat hd).byte_eq rfl fun w hw => ?_).trans (byte_congr rfl rfl a)
  cases List.mem_singleton.mp hw
  simp only [Window.base, Window.size]
  omega

theorem grid_bit_unmaskedFor {s : State} {d x y : Nat} (info : BitVec 5) (v : BitVec 6) (hw : s.gridW.toNat = d)
    (hd : d ≤ 177) (hx : x < d) (hy : y < d) :
    (s.unmaskedFor d info v).grid.bit x y = unmaskedBit (infoMask info) s.grid.bit x y := by
  have hlt := module_lt hx hy
  have hle : d * d ≤ 177 * 177 := Nat.mul_le_mul hd hd
  have hbyte := byte_unmaskedFor s info v hd (a := 0x8000 + (y * d + x) / 8) (by omega) (by omega)
  refine .trans (grid_bit_congr (s := s.unmaskGrid d (infoMask info)) rfl ?_) (grid_bit_unmaskGrid _ hw hx hy)
  rw [unmaskGrid_gridW, hw]
  exact bit_congr_byte hbyte

/-- The codewords of the grid in memory are those of the unmasked grid. -/
theorem codewords_unmaskedFor {s : State} {d : Nat} (info : BitVec 5) (v : BitVec 6) (hw : s.gridW.toNat = d)
    (hpos : 0 < d) (hd : d ≤ 177) :
    ((s.unmaskedFor d info v).parser d).codewords v.toNat = ((s.parser d).unmask (infoMask info)).codewords v.toNat :=
  codewords_congr (p := (s.parser d).unmask (infoMask info)) (q := (s.unmaskedFor d info v).parser d) rfl hpos
    (fun _ _ hx hy => grid_bit_unmaskedFor info v hw hd hx hy) v.toNat

/-- `READ_CODEWORDS`, step by step: the version is read from the grid and the cache as they were. -/
theorem readCodewords_eq (s : State) :
    readCodewords s =
      computing s s.parserCheck fun d =>
      computing s (s.parser d).readFormat fun info =>
      computing { s with fmt := some info } (s.parser d).readVersion fun v =>
      computing (s.unmaskedFor d info v) (((s.unmaskedFor d info v).parser d).codewords v.toNat) fun out =>
        ((s.unmaskedFor d info v).putCw out, none) := rfl

/-- Settles O55: along the steps of `readCodewords_eq`, with `codewords_unmaskedFor` for the grid that is read. -/
theorem codewordsOfUnmaskedGrid : Obligations.CodewordsOfUnmaskedGrid := by
  refine fun s d hinit hw hh h21 h177 hmod => ?_
  have hcheck := parserCheck_of_side hinit hw hh h21 h177 hmod
  have hrule := readCodewords_eq s
  rw [hcheck, computing_ok] at hrule
  refine ⟨fun e he => ?format, fun info hinfo => ?_⟩
  case format =>
    rw [(Parser.readFormat_raises _).eq he, computing_error] at hrule
    exact exec_of_raised (.format .formatInfo) hrule
  rw [hinfo, computing_ok] at hrule
  refine ⟨fun e he => ?version, fun v out hv _ hout => ?codewords⟩
  case version =>
    rw [(Parser.readVersion_raises _).eq he, computing_error] at hrule
    exact exec_of_raised (.format .versionInfo) hrule
  case codewords =>
    rw [hv, computing_ok, codewords_unmaskedFor info v hw (by omega) h177, show infoMask info = info.toNat % 8 from rfl,
      hout, computing_ok] at hrule
    exact exec_of_ended hrule

/-! ### Commands that undo themselves (R285, R293, R297, R299) -/

/-- The checks of `UNMASK`, with the side they accept (R293). -/
def State.unmaskSide (s : State) (m : Nat) : Except Raise Nat :=
  if 7 < m then .error (.argRange .sel)
  else if !s.gridDimsOk then .error (.argRange .dims)
  else if s.gridW ≠ s.gridH then .error (.argRange .dims)
  else .ok s.gridW.toNat

theorem unmaskCmd_eq (m : Nat) (s : State) : unmaskCmd m s = s.unmaskSide m >>= fun d => .ok (s.unmaskGrid d m) := by
  unfold unmaskCmd State.unmaskSide
  split_ifs <;> rfl

theorem unmaskSide_ok {s : State} {m d : Nat} (h : s.unmaskSide m = .ok d) : s.gridW.toNat = d := by
  unfold State.unmaskSide at h
  split_ifs at h
  cases h
  rfl

theorem parserCheck_side {s : State} {d : Nat} (h : s.parserCheck = .ok d) : s.gridW.toNat = d := by
  obtain ⟨-, h⟩ := parserCheck_ok h
  unfold State.gridCheck at h
  split_ifs at h
  cases h
  rfl

section Congr

variable {ps : List Part} {gs : List (Nat × Nat)} {s t : State} (hf : Frame ps gs s t) (hdims : .gridDims ∉ ps)
include hf hdims

theorem Frame.unmaskSide_eq (m : Nat) : t.unmaskSide m = s.unmaskSide m := by
  obtain ⟨hw, hh⟩ := hf.parts .gridDims hdims
  unfold State.unmaskSide State.gridDimsOk
  rw [hw, hh]

theorem Frame.gridCheck_eq : t.gridCheck = s.gridCheck := by
  obtain ⟨hw, hh⟩ := hf.parts .gridDims hdims
  unfold State.gridCheck State.gridDimsOk
  rw [hw, hh]

theorem Frame.parserCheck_eq (hpstate : .pstate ∉ ps) : t.parserCheck = s.parserCheck := by
  have hp : t.pstate = s.pstate := hf.parts .pstate hpstate
  rw [State.parserCheck, State.parserCheck, hp, hf.gridCheck_eq hdims]

end Congr

/-- Where `t` holds the unmasked grid of `s`, unmasking again gives the bytes of `s` back. -/
theorem byte_unmaskGrid_twice {s t : State} {d m k : Nat} (hw : s.gridW.toNat = d) (hgrid : t.gridW = s.gridW)
    (h : t.byte (0x8000 + k) = (s.unmaskGrid d m).byte (0x8000 + k)) :
    (t.unmaskGrid d m).byte (0x8000 + k) = s.byte (0x8000 + k) := by
  refine byte_eq_of_bits s _ 0x8000 k fun n hn => ?_
  subst hn
  rw [bit_unmaskGrid m (hgrid ▸ hw), bit_congr_byte h, bit_unmaskGrid m hw, ← Bool.xor_assoc, Bool.xor_self,
    Bool.false_xor]

theorem sameBytes_unmaskGrid_twice {s t : State} {d m : Nat} (hw : s.gridW.toNat = d) (hgrid : t.gridW = s.gridW)
    (h : sameBytes (s.unmaskGrid d m) t) : sameBytes s (t.unmaskGrid d m) := fun a => by
  rcases lt_or_ge a 0x8000 with ha | ha
  · calc (t.unmaskGrid d m).byte a = t.byte a := byte_putMatrix_below t _ d _ ha
      _ = (s.unmaskGrid d m).byte a := h a
      _ = s.byte a := byte_putMatrix_below s _ d _ ha
  · obtain ⟨k, rfl⟩ := Nat.exists_eq_add_of_le ha
    exact byte_unmaskGrid_twice hw hgrid (h _)

theorem sameBytes_transposeGrid_twice {s t : State} {d : Nat} (hw : s.gridW.toNat = d) (hgrid : t.gridW = s.gridW)
    (h : sameBytes (s.transposeGrid d) t) : sameBytes s (t.transposeGrid d) := by
  refine sameBytes_of_bits 0x8000 (fun a ha => ?low) fun n => ?bits
  case low =>
    calc (t.transposeGrid d).byte a = t.byte a := byte_putMatrix_below t _ d _ ha
      _ = (s.transposeGrid d).byte a := h a
      _ = s.byte a := byte_putMatrix_below s _ d _ ha
  case bits =>
    have hbit (k : Nat) : t.bit 0x8000 k = (s.transposeGrid d).bit 0x8000 k := bit_congr_byte (h _)
    rw [bit_transposeGrid (hgrid ▸ hw), hbit, hbit, bit_transposeGrid hw, bit_transposeGrid hw]
    split
    · rename_i hn
      have hdiv : n / d < d := Nat.div_lt_of_lt_mul hn
      have hpos : 0 < d := (Nat.zero_le _).trans_lt hdiv
      have hmod : n % d < d := Nat.mod_lt n hpos
      rw [if_pos (module_lt hdiv hmod), Nat.mul_add_mod', Nat.mod_eq_of_lt hdiv, Nat.add_comm (n % d * d),
        Nat.add_mul_div_right _ _ hpos, Nat.div_eq_of_lt hdiv, Nat.zero_add, Nat.div_add_mod']
    · rfl

/-- A command's end writes no memory (R90). -/
theorem exec_byte {i : Instr} {s t : State} (h : exec i s = .next t) (a : Nat) : t.byte a = (ruleOf s i).1.byte a := by
  rw [exec_eq_endCommand] at h
  cases h
  rfl

/-- A command that checks and then rewrites memory restores it when run twice, where its write undoes itself and its
check answers the same again. -/
theorem exec_twice_sameBytes {i : Instr} {check : State → Except Raise Nat} {write : State → Nat → State}
    (hrule : ∀ s, ruleOf s i = single s (check s >>= fun d => .ok (write s d)))
    (hcheck : ∀ {s t : State}, Frame (partsWritten i) (floatsWritten i) s t → t.gridW = s.gridW ∧ check t = check s)
    (hundo : ∀ {s t : State} {d : Nat}, check s = .ok d → t.gridW = s.gridW → sameBytes (write s d) t →
      sameBytes s (write t d))
    {s t u : State} (ht : exec i s = .next t) (hu : exec i t = .next u) : sameBytes s u := by
  obtain ⟨hgrid, hagain⟩ := hcheck (exec_frame ht)
  have hfirst := exec_byte ht
  have hsecond := exec_byte hu
  rw [hrule] at hfirst hsecond
  rw [hagain] at hsecond
  cases hside : check s with
  | error e =>
    rw [hside] at hfirst hsecond
    exact fun a => (hsecond a).trans (hfirst a)
  | ok d =>
    rw [hside] at hfirst hsecond
    exact fun a => (hsecond a).trans (hundo hside hgrid hfirst a)

theorem endCommand_of_errcode_zero {r : Ended} {t : State} (h : endCommand r = .next t) (h0 : t.errcode = 0) :
    ∃ u, r = (u, none) ∧ t = u.finished := by
  obtain ⟨u, e⟩ := r
  cases e with
  | none =>
    cases h
    exact ⟨u, rfl, rfl⟩
  | some e =>
    cases h
    exact absurd h0 e.code_ne_zero

theorem computing_none {α : Type} {s t : State} {v : Except Raise α} {k : α → Ended} (h : computing s v k = (t, none)) :
    ∃ a, v = .ok a ∧ k a = (t, none) := by
  cases v with
  | ok a => exact ⟨a, rfl, h⟩
  | error e => cases h

/-- What a `READ_CODEWORDS` without error leaves. -/
theorem readCodewords_none {s t : State} (h : readCodewords s = (t, none)) :
    ∃ d info v out, s.parserCheck = .ok d ∧ out.length ≤ 3706 ∧ t = (s.unmaskedFor d info v).putCw out := by
  rw [readCodewords_eq] at h
  obtain ⟨d, hd, h⟩ := computing_none h
  obtain ⟨info, -, h⟩ := computing_none h
  obtain ⟨v, -, h⟩ := computing_none h
  obtain ⟨out, hout, h⟩ := computing_none h
  cases h
  exact ⟨d, info, v, out, hd, (codewords_ok _ _ out hout).2 ▸ totalCodewords_le _, rfl⟩

/-- The codewords are written outside `GRID`. -/
theorem byte_putCw_grid (s : State) {out : List Byte} {a : Nat} (hout : out.length ≤ 3706) (h1 : 0x8000 ≤ a) :
    (s.putCw out).byte a = s.byte a := by
  refine (putCw_writes s hout).byte_eq rfl fun w hw => ?_
  cases List.mem_singleton.mp hw
  simp only [Window.base, Window.size]
  omega

/-- `REMASK` gives back the grid that `READ_CODEWORDS` unmasked. -/
theorem byte_remask_readCodewords {s t u : State} {a : Nat} (ht : exec .readCodewords s = .next t) (h0 : t.errcode = 0)
    (hu : exec .remask t = .next u) (h1 : 0x8000 ≤ a) (h2 : a < 0x9000) : u.byte a = s.byte a := by
  have hf := exec_frame ht
  obtain ⟨hgrid, -⟩ := hf.parts .gridDims (by simp [partsWritten])
  rw [exec_eq_endCommand] at ht
  obtain ⟨r, hr, rfl⟩ := endCommand_of_errcode_zero ht h0
  obtain ⟨d, info, v, out, hd, hout, rfl⟩ := readCodewords_none hr
  have hagain := (hf.parserCheck_eq (by simp [partsWritten]) (by simp [partsWritten])).trans hd
  generalize hdone : ((s.unmaskedFor d info v).putCw out).finished = t at *
  have hfmt : t.fmt = some info := hdone ▸ rfl
  have hunmasked : t.byte a = (s.unmaskGrid d (infoMask info)).byte a := by
    calc t.byte a = ((s.unmaskedFor d info v).putCw out).byte a := hdone ▸ rfl
      _ = (s.unmaskedFor d info v).byte a := byte_putCw_grid _ hout h1
      _ = (s.unmaskGrid d (infoMask info)).byte a := byte_unmaskedFor s info v (parserCheck_le hd) h1 h2
  have hremask : u = (t.unmaskGrid d (infoMask info)).finished := by
    have := exec_of_ok (i := .remask) rfl ((remaskCmd_eq t).trans (bind_of_ok hagain))
    rw [remaskGrid_of_some d hfmt, hu] at this
    exact Host.Outcome.next.inj this
  obtain ⟨k, rfl⟩ := Nat.exists_eq_add_of_le h1
  rw [hremask]
  exact byte_unmaskGrid_twice (parserCheck_side hd) hgrid hunmasked

/-- Settles O56: `UNMASK` and `MIRROR` by `exec_twice_sameBytes`, `REMASK` by `byte_remask_readCodewords`. -/
theorem gridCommandsUndoThemselves : Obligations.GridCommandsUndoThemselves := by
  refine ⟨fun s t u m => ?unmask, fun s t u => ?mirror, fun s t u ht h0 hu a h1 h2 => ?remask⟩
  case unmask =>
    exact exec_twice_sameBytes (i := .unmask m) (check := fun s => s.unmaskSide m)
      (write := fun s d => s.unmaskGrid d m)
      (fun s => congrArg (single s) (unmaskCmd_eq m s))
      (fun hf => ⟨(hf.parts .gridDims (by simp [partsWritten])).1, hf.unmaskSide_eq (by simp [partsWritten]) m⟩)
      fun hside hgrid h => sameBytes_unmaskGrid_twice (unmaskSide_ok hside) hgrid h
  case mirror =>
    exact exec_twice_sameBytes (i := .mirror) (check := State.parserCheck) (write := State.transposeGrid)
      (fun s => congrArg (single s) (mirrorCmd_eq s))
      (fun hf => ⟨(hf.parts .gridDims (by simp [partsWritten])).1,
        hf.parserCheck_eq (by simp [partsWritten]) (by simp [partsWritten])⟩)
      fun hside hgrid h => sameBytes_transposeGrid_twice (parserCheck_side hside) hgrid h
  case remask => exact byte_remask_readCodewords ht h0 hu h1 h2

end Sys2Proof.Machine
end

section
/-! PROOFS, family 45_parser, the decoder's commands (O57 to O60). Every error of the decoder is `FORMAT` or `CHECKSUM`
(`decodeGrid_retried`), and `DECODE` writes outside `GRID`, so a second run reads the same grid and writes the same data
over themselves. -/

namespace Sys2Proof.Machine

/-! ### `BLOCK_DECODE` (R288, R296, R335) -/

theorem dataBlocks_of_badCount {raw : List Byte} {v : Nat} (level : EcLevel) (h : raw.length ≠ totalCodewords v) :
    dataBlocks raw v level = .error (.format .cwCount) := if_pos h

/-- The only errors of the blocks are checksums (R335). -/
theorem decodeBlocks_error {blocks : List (Nat × List Byte)} {e : Raise} (h : decodeBlocks blocks = .error e) :
    ∃ d, e = .checksum d := by
  rcases decodeBlocks_cases blocks with ⟨data, n, hok, -⟩ | ⟨d, herr⟩
  · cases hok.symm.trans h
  · cases herr.symm.trans h
    exact ⟨d, rfl⟩

/-- `BLOCK_DECODE` with legal operands. -/
theorem blockDecode_of_args {s : State} (h1 : 1 ≤ s.argNat 0) (h40 : s.argNat 0 ≤ 40) (hlevel : s.argNat 1 ≤ 3)
    (hcount : s.argNat 2 ≤ 4096) :
    blockDecode s = (do
      let blocks ← dataBlocks (s.bytes Window.cw.base (s.argNat 2)) (s.argNat 0) (levelOf (s.argNat 1))
      let r ← decodeBlocks blocks
      .ok (s.putData r.1 r.2)) := if_neg (by omega)

/-- Settles O57: the checks, the count, and then what the blocks decode to. -/
theorem blockDecodeConcatenates : Obligations.BlockDecodeConcatenates := by
  refine fun s => ⟨fun h => ?range, fun h1 h40 hlevel hcount => ?_⟩
  case range => exact exec_of_error (.argRange .arg) rfl (if_pos h)
  have hrule := blockDecode_of_args h1 h40 hlevel hcount
  refine ⟨fun h => ?count, fun blocks hblocks => ⟨fun e he => ?error, fun data n hdata => ?ok⟩⟩
  case count =>
    exact exec_of_error (.format .cwCount) rfl
      (hrule.trans (bind_of_error (dataBlocks_of_badCount _ (by rwa [length_bytes]))))
  all_goals replace hrule := hrule.trans (bind_of_ok hblocks)
  case error =>
    obtain ⟨d, rfl⟩ := decodeBlocks_error he
    exact exec_of_error (.checksum d) rfl (hrule.trans (bind_of_error he))
  case ok => exact exec_of_ok rfl (hrule.trans (bind_of_ok hdata))

/-! ### The errors of the decoder (R300, R335) -/

/-- Every error of `x` is of a kind that starts the retry of R300. -/
def RaisesRetried {α : Type} (x : Except Raise α) : Prop := ∀ e, x = .error e → e.retried = true

namespace RaisesRetried

variable {α β : Type}

theorem ok {a : α} : RaisesRetried (.ok a : Except Raise α) := fun _ h => nomatch h

theorem error {e : Raise} (h : e.retried = true) : RaisesRetried (.error e : Except Raise α) := fun _ he => by
  cases he
  exact h

theorem bind {x : Except Raise α} {f : α → Except Raise β} (hx : RaisesRetried x) (hf : ∀ a, RaisesRetried (f a)) :
    RaisesRetried (x >>= f) := by
  cases x with
  | ok a => exact hf a
  | error d => exact .error (hx d rfl)

theorem of_raisesOnly {x : Except Raise α} {e : Raise} (hx : RaisesOnly e x) (he : e.retried = true) :
    RaisesRetried x := fun e' h => hx e' h ▸ he

end RaisesRetried

theorem retried_code {e : Raise} (h : e.retried = true) : e.code = 2 ∨ e.code = 3 := by
  cases e with
  | format d => exact .inl rfl
  | checksum d => exact .inr rfl
  | _ => cases h

theorem codewords_retried (p : Parser) (v : Nat) : RaisesRetried (p.codewords v) := by
  unfold Parser.codewords
  dsimp only
  split
  · exact .error rfl
  · exact .ok

theorem dataBlocks_retried (raw : List Byte) (v : Nat) (level : EcLevel) : RaisesRetried (dataBlocks raw v level) := by
  rcases dataBlocks_cases raw v level with ⟨blocks, h⟩ | h <;> rw [h]
  · exact .ok
  · exact .error rfl

theorem decodeBlocks_retried (blocks : List (Nat × List Byte)) : RaisesRetried (decodeBlocks blocks) := fun e h => by
  obtain ⟨d, rfl⟩ := decodeBlocks_error h
  rfl

theorem Parser.readFormat_retried (p : Parser) : RaisesRetried p.readFormat := .of_raisesOnly p.readFormat_raises rfl

theorem Parser.readVersion_retried (p : Parser) : RaisesRetried p.readVersion := .of_raisesOnly p.readVersion_raises rfl

theorem decodeParsed_retried (p : Parser) : RaisesRetried p.decodeParsed.2 := by
  unfold Parser.decodeParsed
  split
  · rename_i e he
    exact .error (p.readVersion_retried e he)
  · dsimp only
    split
    · rename_i e he
      exact .error (Parser.readFormat_retried _ e he)
    · exact .bind (codewords_retried _ _) fun _ => .bind (dataBlocks_retried _ _ _) fun _ =>
        .bind (decodeBlocks_retried _) fun _ => .ok

/-- The whole decoder raises the error of its first attempt (R300). -/
theorem decodeGrid_retried (d : Nat) (g : Nat → Nat → Bool) : RaisesRetried (decodeGrid d g) := by
  have hretry (p : Parser) : RaisesRetried p.retry :=
    .bind (Parser.readVersion_retried _) fun _ => .bind (Parser.readFormat_retried _) fun _ => decodeParsed_retried _
  unfold decodeGrid
  split
  · exact .ok
  · rename_i p e1 hfirst
    have he1 : e1.retried = true := decodeParsed_retried _ e1 (congrArg Prod.snd hfirst)
    split
    · exact .error he1
    · split
      · exact .ok
      · rename_i e2 h2
        rw [if_pos (hretry p e2 h2)]
        exact .error he1

/-! ### `DECODE` (R301) -/

/-- What `DECODE` comes to: the grid check, then the decoder on a copy of `GRID` (R300, R301). -/
def State.decoded (s : State) : Except Raise (Decoded × Bool) := s.gridCheck >>= fun d => decodeGrid d s.grid.bit

/-- What `DECODE` writes (R301). -/
def State.putDecoded (s : State) (r : Decoded) (mirrored : Bool) : State :=
  { s.putData r.data r.corrected with
    res0 := r.version.setWidth 32
    res1 := r.info.setWidth 32
    pstate := { s.pstate with mirrored := mirrored } }

/-- How `DECODE` ends in `s` with what it came to. -/
def State.decodeEnd (s : State) : Except Raise (Decoded × Bool) → State
  | .ok (r, mirrored) => (s.putDecoded r mirrored).finished
  | .error e => s.failed e.code.toNat e.detail.toNat

theorem decodeCmd_eq (s : State) : decodeCmd s = s.decoded >>= fun q => .ok (s.putDecoded q.1 q.2) := by
  rw [State.decoded, bind_assoc]
  rfl

theorem exec_decode (s : State) : exec .decode s = .next (s.decodeEnd s.decoded) := by
  cases h : s.decoded with
  | error e => exact exec_of_error e rfl ((decodeCmd_eq s).trans (bind_of_error h))
  | ok q => exact exec_of_ok rfl ((decodeCmd_eq s).trans (bind_of_ok h))

theorem exec_decode_of_eq {s : State} {v : Except Raise (Decoded × Bool)} (h : s.decoded = v) :
    exec .decode s = .next (s.decodeEnd v) := h ▸ exec_decode s

/-- Settles O58: the grid check, then what the decoder answers, whose errors are `decodeGrid_retried`. -/
theorem decodeWritesResult : Obligations.DecodeWritesResult := by
  refine fun s => ⟨fun h => ?dims, fun hw1 hw177 hh1 hh177 h => ?side, fun heq h21 h177 hmod =>
    ⟨fun e he => ?error, fun r mirrored hr => ?ok⟩⟩
  case dims => exact exec_decode_of_eq (v := .error (.argRange .dims)) (bind_of_error (gridCheck_of_badDims h))
  case side =>
    exact exec_decode_of_eq (v := .error (.format .dimInvalid))
      (bind_of_error (gridCheck_of_badSide hw1 hw177 hh1 hh177 h))
  all_goals have hcheck := gridCheck_of_good heq h21 h177 hmod
  case error => exact ⟨retried_code (decodeGrid_retried _ _ e he), exec_decode_of_eq ((bind_of_ok hcheck).trans he)⟩
  case ok => exact exec_decode_of_eq ((bind_of_ok hcheck).trans hr)

/-! ### `DECODE` run again -/

theorem filter_cellsFrom_eq_nil {p : Host.Cell → Bool} {base : Nat} {bs : List Byte}
    (h : ∀ c : Host.Cell, base ≤ c.1 → c.1 < base + bs.length → p c = false) : (cellsFrom base bs).filter p = [] :=
  List.filter_eq_nil_iff.mpr fun c hc => by
    obtain ⟨hlo, hhi⟩ := cellsFrom_bounds bs base c hc
    simp [h c hlo hhi]

/-- Cells below a stretch and cells above it are different cells. -/
theorem filter_below_above (m : List Host.Cell) (base n : Nat) :
    (m.filter fun c => decide (base + n ≤ c.1)).filter (fun c => decide (c.1 < base)) = [] ∧
      (m.filter fun c => decide (c.1 < base)).filter (fun c => decide (base + n ≤ c.1)) = [] := by
  simp only [List.filter_eq_nil_iff, List.mem_filter, decide_eq_true_eq]
  exact ⟨fun c hc => by omega, fun c hc => by omega⟩

/-- Bytes written over themselves. -/
theorem memPut_memPut (m : List Host.Cell) (base : Nat) (bs : List Byte) :
    memPut (memPut m base bs) base bs = memPut m base bs := by
  obtain ⟨hbelow, habove⟩ := filter_below_above m base bs.length
  have hcellsBelow : (cellsFrom base bs).filter (fun c => decide (c.1 < base)) = [] :=
    filter_cellsFrom_eq_nil fun c hlo _ => decide_eq_false hlo.not_gt
  have hcellsAbove : (cellsFrom base bs).filter (fun c => decide (base + bs.length ≤ c.1)) = [] :=
    filter_cellsFrom_eq_nil fun c _ hhi => decide_eq_false hhi.not_ge
  simp only [memPut, List.filter_append, hbelow, habove, hcellsBelow, hcellsAbove, List.filter_filter, Bool.and_self,
    List.append_nil, List.nil_append]

theorem exec_decode_writes {s t : State} (h : exec .decode s = .next t) : WritesIn [.data] s t := by
  rw [exec_eq_endCommand] at h
  exact (WritesIn.single (decodeCmd_writes s)).congr (endCommand_mem h)

/-- `DECODE` writes to `DATA` only, so `GRID` reads as before. -/
theorem exec_decode_grid {s t : State} (h : exec .decode s = .next t) : t.grid.bit = s.grid.bit := by
  obtain ⟨hw, -⟩ := (exec_frame h).parts .gridDims (by simp [partsWritten])
  funext x y
  refine grid_bit_congr hw (bit_congr_byte ((exec_decode_writes h).byte_eq (exec_epoch h) fun w hw => ?_))
  cases List.mem_singleton.mp hw
  simp only [Window.base, Window.size]
  omega

/-- `DECODE` leaves what it read. -/
theorem exec_decode_decoded {s t : State} (h : exec .decode s = .next t) : t.decoded = s.decoded := by
  rw [State.decoded, State.decoded, (exec_frame h).gridCheck_eq (by simp [partsWritten]), exec_decode_grid h]

/-- The same end twice is the same end. -/
theorem decodeEnd_decodeEnd (s : State) (v : Except Raise (Decoded × Bool)) :
    (s.decodeEnd v).decodeEnd v = s.decodeEnd v := by
  cases v with
  | error e => rfl
  | ok q =>
    simp only [State.decodeEnd, State.putDecoded, State.putData, State.putBytes, State.finished, memPut_memPut]

/-- Settles O59: the second run reads what the first read (`exec_decode_decoded`), and ends the same way. -/
theorem decodeIsIdempotent : Obligations.DecodeIsIdempotent := by
  intro s t h
  have hend : s.decodeEnd s.decoded = t := Host.Outcome.next.inj ((exec_decode s).symm.trans h)
  rw [exec_decode, exec_decode_decoded h, ← hend, decodeEnd_decodeEnd]

/-! ### `SCAN` (R302) -/

/-- `DECODE` reads nothing that a command's end writes. -/
theorem exec_decode_finished (s : State) : exec .decode s.finished = exec .decode s := by
  rw [exec_decode, exec_decode, show s.finished.decoded = s.decoded from rfl]
  cases s.decoded <;> rfl

theorem scan_eq (s : State) : scan s = (detect s).andThen fun t => single t (decodeCmd t) := rfl

theorem exec_scan_of_detected {s t : State} (h : detect s = (t, none)) : exec .scan s = exec .decode t := by
  have hrule : ruleOf s .scan = ruleOf t .decode := (scan_eq s).trans (by rw [h, andThen_none]; rfl)
  rw [exec_eq_endCommand, exec_eq_endCommand, hrule]

theorem exec_scan_of_raised {s t : State} {e : Raise} (h : detect s = (t, some e)) : exec .scan s = exec .detect s := by
  have hrule : ruleOf s .scan = ruleOf s .detect := (scan_eq s).trans (by rw [h, andThen_some, ← h]; rfl)
  rw [exec_eq_endCommand, exec_eq_endCommand, hrule]

/-- Settles O60: a case split on how `detect` ended; what `DECODE` then writes is `exec_decode`. -/
theorem scanIsDetectThenDecode : Obligations.ScanIsDetectThenDecode := by
  refine ⟨fun s t ht => ⟨fun h0 => ?decodes, fun hne => ?fails⟩, fun s t d r mirrored hdetect hcheck hr => ?result⟩
  case decodes =>
    rw [exec_eq_endCommand] at ht
    obtain ⟨u, hu, rfl⟩ := endCommand_of_errcode_zero ht h0
    rw [exec_scan_of_detected hu, exec_decode_finished]
  case fails =>
    cases hu : detect s with
    | mk u e =>
      cases e with
      | some e => rw [exec_scan_of_raised hu, ht]
      | none =>
        cases (exec_of_ended (i := .detect) hu).symm.trans ht
        exact absurd rfl hne
  case result =>
    rw [exec_scan_of_detected hdetect]
    exact exec_decode_of_eq ((bind_of_ok hcheck).trans hr)

end Sys2Proof.Machine
end

section
/-! PROOFS, family 70_reset_and_hazards, accesses of a running core (O7, O8). A write goes by one question: is the offset
that of `STATUS`? A read answers what an idle core answers where the offset stays readable (R372), else a free value. -/

namespace Sys2Proof.Machine

/-! ### Writes -/

/-- A write of a running core to an offset other than `STATUS` is lost, and says so in `OVR` (R23, R373). -/
theorem step_write_busy {s : State} {rest : List HostEvent} {off : Nat} {v : Word} (hbusy : s.status.busy = true)
    (hlt : off < 0x200000) (h4 : off % 4 = 0) (hother : off ≠ 0x008)
    (hhost : s.host = .write (s.base + off) 32 v :: rest) :
    step s = .next { s with host := rest, resp := .written, status := s.status.overrun } := by
  have htarget : targetAt off ≠ .reg .status := mt (targetAt_status off) hother
  rw [step_write s rest off v hlt h4 hhost]
  simp only [hostWrite, hbusy, if_true, if_neg htarget]

/-- Settles O7: `STATUS` is at its own offset only, and takes the write; every other offset loses it. -/
theorem writesWhileBusyAreIgnored : Obligations.WritesWhileBusyAreIgnored := by
  intro s rest off v hbusy hlt h4 hhost
  refine ⟨fun hother => step_write_busy hbusy hlt h4 hother hhost, fun hoff => ?_⟩
  subst hoff
  exact step_write_status hhost

/-! ### Reads -/

/-- Where an offset stays readable, a running core answers as an idle one (R65, R372). -/
theorem step_read_readable {s : State} {rest : List HostEvent} {off : Nat} (hread : readableBusy (targetAt off) = true)
    (hlt : off < 0x200000) (h4 : off % 4 = 0) (hhost : s.host = .read (s.base + off) 32 :: rest) :
    step s = .next { s with host := rest, resp := .data (s.readIdle off) } := by
  rw [step_read s rest off hlt h4 hhost]
  simp only [hostRead, hread, Bool.not_true, Bool.and_false, Bool.false_eq_true, if_false]
  rfl

/-- A read answers, and has no effect but on the count of free values drawn (R65, R372). -/
theorem step_read_answers {s : State} {rest : List HostEvent} {off : Nat} (hlt : off < 0x200000) (h4 : off % 4 = 0)
    (hhost : s.host = .read (s.base + off) 32 :: rest) :
    ∃ v n, step s = .next { s with host := rest, resp := .data v, draws := n } := by
  obtain ⟨v, n, hread⟩ := hostRead_cases { s with host := rest } off
  exact ⟨v, n, (step_read s rest off hlt h4 hhost).trans (congrArg _ hread)⟩

theorem targetAt_id : targetAt 0x000 = .reg .id := rfl

theorem mul_bitNat (k : Nat) (b : Bool) : k * bitNat b = if b then k else 0 := by
  cases b <;> simp [bitNat]

/-- `CTRL` with each flag as its bit's weight (R22). -/
theorem ctrl_word_weights (c : Ctrl) :
    c.word = BitVec.ofNat 32 ((if c.ie then 1 else 0) + (if c.tryHarder then 2 else 0)) := by
  rw [Ctrl.word, mul_bitNat, bitNat]

/-- `STATUS` of a running core, with each flag as its bit's weight (R23). -/
theorem status_word_busy {t : Status} (h : t.busy = true) :
    t.word = BitVec.ofNat 32 (1 + (if t.done then 2 else 0) + (if t.err then 4 else 0) + (if t.ovr then 8 else 0)) := by
  rw [Status.word, h, mul_bitNat, mul_bitNat, mul_bitNat, bitNat, if_pos rfl]

/-- Settles O8: the three named offsets stay readable (`step_read_readable`); the rest is `step_read_answers`. -/
theorem readsWhileBusy : Obligations.ReadsWhileBusy := by
  intro s rest off hbusy hlt h4 hhost
  have hread {r : Reg} {x : Word} (htarget : targetAt off = .reg r) (hr : readableBusy (.reg r) = true)
      (hx : s.readReg r = x) : step s = .next { s with host := rest, resp := .data x } := by
    rw [step_read_readable (htarget ▸ hr) hlt h4 hhost, readIdle_reg htarget, hx]
  refine ⟨fun hoff => ?id, fun hoff => ?ctrl, fun hoff => ?status, step_read_answers hlt h4 hhost⟩
  case id => exact hread (r := .id) (hoff ▸ targetAt_id) rfl rfl
  case ctrl => exact hread (r := .ctrl) (hoff ▸ targetAt_ctrl) rfl (ctrl_word_weights s.ctrl)
  case status => exact hread (r := .status) (hoff ▸ targetAt_status_offset) rfl (status_word_busy hbusy)

end Sys2Proof.Machine
end
